-- ==== Sys2Proof/Word.lean ====
section
/-! DEFINITION. The word types of the part (R2, R5): bytes, 16-, 32-, 64- and 128-bit words. -/

namespace Sys2Proof

/-- One byte of memory. -/
abbrev Byte := BitVec 8

/-- A 16-bit half: an F16 or B16 value. -/
abbrev W16 := BitVec 16

/-- A `w` register, or a 4-byte word of memory. -/
abbrev W32 := BitVec 32

/-- A 64-bit value: an even and odd pair, a `k` register, a dword of memory, an instruction word. -/
abbrev W64 := BitVec 64

/-- A 128-bit value: an aligned quad of registers. -/
abbrev W128 := BitVec 128

end Sys2Proof
end

