-- ==== Sys2Proof/Syntax.lean ====
section
/-! DEFINITION. The instructions: one constructor for each row of spec/opcode_table.json, first the
101 instruction words of R111 and then the 110 events of the part (spec/95_what_each_step_holds.md). -/

namespace Sys2Proof

/-! ## Operands and modifiers -/

/-- Guard and Y bit of a word (R98, R99): `gp[3]` negates, `gp[2:0]` names p0-p7. -/
structure GY where
  gp : BitVec 4
  y  : Bool
deriving DecidableEq, Repr

/-- Guard, Y and NW of a word that has a w destination (R98, R99). -/
structure Hdr where
  gp : BitVec 4
  y  : Bool
  nw : Bool
deriving DecidableEq, Repr

/-- A 9-bit source select (R101): a w register, a latch, a k register or an inline integer, the last
held in its 6-bit two's-complement form. -/
inductive Sel where
  | w (n : BitVec 8)
  | b (n : BitVec 2)
  | k (n : BitVec 6)
  | i (v : BitVec 6)
deriving DecidableEq, Repr

/-- A predicate operand (R140). -/
structure PSel where
  neg : Bool
  p   : BitVec 3
deriving DecidableEq, Repr

/-- The integer types of TYPE (R98). -/
inductive ITy where | s32 | n32 | s64 | n64
deriving DecidableEq, Repr

/-- The floating-point types of TYPE (R98). -/
inductive FTy where | f32 | f16 | b16
deriving DecidableEq, Repr

/-- Every type of TYPE but 7 (R98). -/
inductive ATy where
  | int (t : ITy)
  | flt (t : FTy)
deriving DecidableEq, Repr

/-- The types of REDUX and SCAN (R162). -/
inductive RTy where
  | int (t : ITy)
  | f32
deriving DecidableEq, Repr

/-- Rounding modes of RND (R178). -/
inductive Rnd where | rn | rz | ru | rd
deriving DecidableEq, Repr

/-- Access sizes of the FM layout (R103). -/
inductive Sz where | b8 | b16 | b32 | b64 | b128
deriving DecidableEq, Repr

/-- Request types (R103, R203). -/
inductive RT where | o | w | s | u
deriving DecidableEq, Repr

/-- Scopes that have a code (R331). -/
inductive Scope where | core | slice | stack | ring | sys
deriving DecidableEq, Repr

/-- Levels of a barrier (R339). -/
inductive Level where | core | slice | stack | ring
deriving DecidableEq, Repr

/-- Kinds of FENCE (R333). -/
inductive FenceKind where | acq | rel | ar | sc
deriving DecidableEq, Repr

inductive IUnaryOp where | abs | neg | not | popc | clz | brev
deriving DecidableEq, Repr

inductive LogicOp where | and | or | xor | andn | orn | xnor
deriving DecidableEq, Repr

inductive ShiftOp where | shl | shr | sar | rol | ror
deriving DecidableEq, Repr

inductive ICmpOp where | eq | ne | lt | le | gt | ge
deriving DecidableEq, Repr

inductive PLogicOp where | and | or | xor | not | mov
deriving DecidableEq, Repr

inductive BallotOp where | any | all | mask
deriving DecidableEq, Repr

inductive ShufOp where | idx | up | down | xor
deriving DecidableEq, Repr

inductive ReduxOp where | add | min | max | and | or | xor
deriving DecidableEq, Repr

inductive ScanOp where | inc | exc | max
deriving DecidableEq, Repr

inductive FMinMaxOp where | min | max
deriving DecidableEq, Repr

inductive FCmpOp where | eq | ne | lt | le | gt | ge | un
deriving DecidableEq, Repr

inductive FUnaryOp where | abs | neg | floor | ceil | trunc | rint
deriving DecidableEq, Repr

inductive FSpecOp where | rcp | rsq | sqrt | ex2 | lg2 | sin | cos | tanh
deriving DecidableEq, Repr

inductive AtomOp where | add | min | max | and | or | xor | exch | cas | fadd
deriving DecidableEq, Repr

inductive RedOp where | add | min | max | and | or | xor | fadd
deriving DecidableEq, Repr

/-- Special registers of SREG (R156). -/
inductive SReg where
  | tid | gang | lane | cgx | sgx | kgx | launch | seg | core | part | clock | pix | bargen | phasecur
deriving DecidableEq, Repr

/-- CSRs (R399). `win n d` is dword `d` of WINn (R78). -/
inductive Csr where
  | tvec | tcause | tpc | tval | trec | tstate | fpx
  | win (n : BitVec 4) (d : Bool)
  | ctxperm | ringshare
deriving DecidableEq, Repr

/-- Selectors of MSTAT (R305). -/
inductive MStatSel where | mpx | corr | gstall | cserr | nonfin | qstat | bpused | dpx
deriving DecidableEq, Repr

/-- The halves of a pair word (R109). -/
inductive Half where
  | nop
  | iadd (d : BitVec 8) (s : Sel)
  | isub (d : BitVec 8) (s : Sel)
  | and  (d : BitVec 8) (s : Sel)
  | or   (d : BitVec 8) (s : Sel)
  | xor  (d : BitVec 8) (s : Sel)
  | shli (d : BitVec 8) (s : Sel) (n : BitVec 5)
  | shri (d : BitVec 8) (s : Sel) (n : BitVec 5)
  | sari (d : BitVec 8) (s : Sel) (n : BitVec 5)
  | imin (d : BitVec 8) (s : Sel)
  | imax (d : BitVec 8) (s : Sel)
  | mov  (d : BitVec 8) (s : Sel)
  | movi8 (d : BitVec 8) (imm : BitVec 8)
  | iaddi8 (d : BitVec 8) (s : Sel) (imm : BitVec 8)
  | fadd (d : BitVec 8) (s : Sel)
  | fmul (d : BitVec 8) (s : Sel)
  | fmin (d : BitVec 8) (s : Sel)
  | fmax (d : BitVec 8) (s : Sel)
  | hadd2 (d : BitVec 8) (s : Sel)
  | hmul2 (d : BitVec 8) (s : Sel)
deriving DecidableEq, Repr

/-! ## Operand records shared by words of one shape -/

/-- IADD, ISUB, IMUL (R142): two sources, SAT allowed. -/
structure IBin where
  h : Hdr
  d : BitVec 8
  ty : ITy
  sat : Bool
  a : Sel
  b : Sel
deriving DecidableEq, Repr

/-- IMULHI, IMIN, IMAX (R142): two sources, SAT reserved. -/
structure IBin0 where
  h : Hdr
  d : BitVec 8
  ty : ITy
  a : Sel
  b : Sel
deriving DecidableEq, Repr

/-- IMAD (R142). -/
structure ITern where
  h : Hdr
  d : BitVec 8
  ty : ITy
  sat : Bool
  a : Sel
  b : Sel
  c : Sel
deriving DecidableEq, Repr

/-- FADD, FMUL and the packed HADD2, HMUL2 (R184, R192). -/
structure FBin where
  h : Hdr
  d : BitVec 8
  ty : FTy
  rnd : Rnd
  sat : Bool
  a : Sel
  b : Sel
deriving DecidableEq, Repr

/-- FFMA and HFMA2 (R184, R192). -/
structure FTern where
  h : Hdr
  d : BitVec 8
  ty : FTy
  rnd : Rnd
  sat : Bool
  a : Sel
  b : Sel
  c : Sel
deriving DecidableEq, Repr

/-- An FL word (R106). -/
structure FLOp where
  h : Hdr
  d : BitVec 8
  a : Sel
  imm : W32
deriving DecidableEq, Repr

/-- A memory operand `[A+OFF]` of the FM layout (R103): an even w register or a k register. -/
structure MemAddr where
  a   : Sel
  off : BitVec 16
deriving DecidableEq, Repr

/-- A memory operand of ATOM and RED (R104). -/
structure AtomAddr where
  a   : Sel
  off : BitVec 12
deriving DecidableEq, Repr

/-- A branch target (R105): signed word offset and block priority. -/
structure Target where
  off  : BitVec 24
  prio : BitVec 8
deriving DecidableEq, Repr

/-! ## Arguments of events -/

/-- A function of the package that reports ready on its own (R18). -/
inductive Func where
  | segment (n : Nat) | stack (n : Nat) | bridge (n : Nat) | host (n : Nat) | cxl (n : Nat) | fabric (n : Nat)
deriving DecidableEq, Repr

/-- An engine whose command completes (R258): a copy queue, the matrix engine, or the core's queue
on its segment's ring engine. -/
inductive Engine where
  | copy (q : Nat) | matrix | ring
deriving DecidableEq, Repr

/-- The four dwords of a bind record (R71). -/
structure BindRec where
  d0 : W64
  d1 : W64
  d2 : W64
  d3 : W64
deriving DecidableEq, Repr

/-- A tail record that the firmware writes (R308): the page's frame, whether it has 2 MiB, the address of its word
map within the segment, and for a page installed already sealed its final tail, BCAST and REPL. -/
structure TailInit where
  frame : Nat
  big : Bool
  wmap : Nat
  sealed : Option (Nat × Bool × Nat)
deriving DecidableEq, Repr

/-- The memory that the firmware prepares as it makes a page resident or moves one (R87, R94, R230): the
frames it gives the partition, the dwords it writes (home-map and page-table entries, contents), each
at a device physical address, the frames it copies, from and to, the tail records it writes, and the bases
of tail tables that it sets, by segment (R308). -/
structure FwWrites where
  frames : List Nat
  dwords : List (Nat × W64)
  copies : List (Nat × Nat)
  tails : List TailInit
  bases : List (Nat × Nat)
deriving DecidableEq, Repr

/-- One collective command: partition, GROUP and CSEQ (R372). -/
structure CollKey where
  part : Nat
  group : Nat
  cseq : W32
deriving DecidableEq, Repr

/-! ## The rows of the opcode table -/

/-- One constructor for each row of spec/opcode_table.json, in its order. -/
inductive Instr where
  -- integer, logic, select, compare, moves (R139-R157)
  | nop (h : GY)
  | iadd (o : IBin)
  | isub (o : IBin)
  | imul (o : IBin)
  | imulhi (o : IBin0)
  | imad (o : ITern)
  | imin (o : IBin0)
  | imax (o : IBin0)
  | iunary (h : Hdr) (op : IUnaryOp) (d : BitVec 8) (ty : ITy) (sat : Bool) (a : Sel)
  | logic (h : Hdr) (op : LogicOp) (d : BitVec 8) (ty : ITy) (a b : Sel)
  | shift (h : Hdr) (op : ShiftOp) (d : BitVec 8) (ty : ITy) (a b : Sel)
  | bfx (h : Hdr) (d : BitVec 8) (ty : ITy) (a b : Sel)
  | bfi (h : Hdr) (d : BitVec 8) (ty : ITy) (a b c : Sel)
  | perm (h : Hdr) (d : BitVec 8) (a b c : Sel)
  | sel (h : Hdr) (d : BitVec 8) (ty : ATy) (a b : Sel) (c : PSel)
  | icmp (h : GY) (op : ICmpOp) (d : BitVec 3) (ty : ITy) (a b : Sel)
  | plogic (h : GY) (op : PLogicOp) (d : BitVec 3) (a b : PSel)
  | lea (h : Hdr) (d : BitVec 8) (signed : Bool) (sh : BitVec 3) (a b : Sel)
  | mov (h : Hdr) (d : BitVec 8) (w64 : Bool) (a : Sel)
  | kset (h : GY) (d : BitVec 6) (a : Sel)
  | sreg (h : Hdr) (d : BitVec 8) (r : SReg)
  | fmtq (h : Hdr) (d : BitVec 8) (f : BitVec 3)
  -- lane operations (R159-R163)
  | ballot (h : Hdr) (op : BallotOp) (d : BitVec 8) (a : PSel)
  | shuf (h : Hdr) (op : ShufOp) (d : BitVec 8) (ty : ATy) (a b : Sel)
  | redux (h : Hdr) (op : ReduxOp) (d : BitVec 8) (ty : RTy) (rnd : Rnd) (a : Sel)
  | scan (h : Hdr) (op : ScanOp) (d : BitVec 8) (ty : RTy) (rnd : Rnd) (a : Sel)
  -- control (R164-R172)
  | bra (h : GY) (t : Target) (close : Bool)
  | brx (h : GY) (aux : BitVec 8)
  | call (h : GY) (t : Target)
  | callx (h : GY) (aux : BitVec 8)
  | ret (h : GY)
  | exit (h : GY)
  | yield (h : GY)
  | trap (h : GY) (aux : BitVec 8)
  | brk (h : GY) (aux : BitVec 8)
  /-- Its Y bit is 0 in the one legal encoding (R224). -/
  | region (y : Bool)
  | nopreOpen (h : GY) (aux : BitVec 8)
  | nopreShut (h : GY)
  -- system (R399-R402)
  | eret (h : GY)
  | csrr (h : Hdr) (d : BitVec 8) (c : Csr)
  | csrw (h : GY) (c : Csr) (a : Sel)
  -- floating point (R184-R197)
  | fadd (o : FBin)
  | fmul (o : FBin)
  | ffma (o : FTern)
  | fminmax (h : Hdr) (op : FMinMaxOp) (d : BitVec 8) (ty : FTy) (a b : Sel)
  | fcmp (h : GY) (op : FCmpOp) (d : BitVec 3) (ty : FTy) (a b : Sel)
  | funary (h : Hdr) (op : FUnaryOp) (d : BitVec 8) (ty : FTy) (rnd : Rnd) (a : Sel)
  | fspec (h : Hdr) (op : FSpecOp) (d : BitVec 8) (ty : FTy) (a : Sel)
  | twosum (h : Hdr) (d : BitVec 8) (a b : Sel)
  | hadd2 (o : FBin)
  | hmul2 (o : FBin)
  | hfma2 (o : FTern)
  | cvt (h : Hdr) (d : BitVec 8) (dst src : ATy) (rnd : Rnd) (sat : Bool) (a : Sel)
  | qpack (h : Hdr) (d : BitVec 8) (a : Sel) (f : BitVec 3)
  | qunpack (h : Hdr) (d : BitVec 8) (q4 zp0 : Bool) (a b c : Sel)
  | fclass (h : Hdr) (d : BitVec 8) (ty : FTy) (a : Sel)
  -- pair words and long immediates (R108, R153)
  | pairWord (y : Bool) (x z : Half)
  | movi (h : Hdr) (d : BitVec 8) (imm : W32)
  | iaddi (o : FLOp)
  | andi (o : FLOp)
  | ori (o : FLOp)
  | xori (o : FLOp)
  -- memory (R212-R220, R336)
  | ld (h : Hdr) (d : BitVec 8) (m : MemAddr) (sz : Sz) (sx : Bool) (rt : RT)
  | st (h : GY) (m : MemAddr) (b : Sel) (sz : Sz) (rt : RT)
  | atom (h : Hdr) (op : AtomOp) (d : BitVec 8) (m : AtomAddr) (b : Sel) (sz : Sz) (sc : Scope)
  | red (h : GY) (op : RedOp) (m : AtomAddr) (b : Sel) (sz : Sz) (sc : Scope)
  | gather (h : Hdr) (d : BitVec 8) (m : MemAddr) (b : BitVec 8) (sz : Sz) (sx : Bool) (rt : RT)
  | scatter (h : GY) (m : MemAddr) (b : BitVec 8) (sz : Sz) (rt : RT)
  | cst (h : GY) (m : MemAddr) (b : BitVec 8) (sz : Sz) (rt : RT)
  | pref (h : GY) (m : MemAddr) (sz : Sz) (rt : RT)
  | pginfo (h : Hdr) (d : BitVec 8) (m : MemAddr)
  | tagset (h : GY) (m : MemAddr) (b : Sel) (sz : Sz)
  -- append and seal (R313)
  | appendRes (h : Hdr) (d : BitVec 8) (a b : Sel)
  | appendQuery (h : Hdr) (d : BitVec 8) (a : Sel)
  | sealPlain (h : Hdr) (d : BitVec 8) (a : Sel)
  | sealBcast (h : Hdr) (d : BitVec 8) (a : Sel)
  | tailq (h : Hdr) (d : BitVec 8) (a : Sel)
  -- synchronisation (R333-R346)
  | fence (h : GY) (kind : FenceKind) (sc : Scope)
  | barSync (h : GY) (lv : Level) (n : BitVec 3)
  | barArrive (h : Hdr) (d : BitVec 8) (lv : Level) (n : BitVec 3)
  | barWait (h : GY) (lv : Level) (n : BitVec 3) (b : Sel)
  | phaseAdv (h : GY)
  | phaseWait (h : GY) (a b : Sel)
  | phaseRead (h : Hdr) (d : BitVec 8) (a : Sel)
  | waitge (h : GY) (err sys : Bool) (a b : Sel)
  | backoff (h : GY) (a : Sel)
  -- copy engine and stage rings (R260-R270)
  | copy (h : GY) (q : BitVec 2) (a : Sel)
  | chain (h : GY) (q : BitVec 2) (a : Sel)
  | qfence (h : GY) (mask : BitVec 6) (b : Sel)
  | stgClaim (h : Hdr) (d : BitVec 8) (ring : BitVec 3)
  | stgFill (h : GY) (ring : BitVec 3) (b : Sel)
  | stgTake (h : Hdr) (d : BitVec 8) (ring : BitVec 3)
  | stgFree (h : GY) (ring : BitVec 3) (b : Sel)
  | stgQuery (h : Hdr) (d : BitVec 8) (ring : BitVec 3)
  -- matrix engine (R297-R305)
  | mma (h : GY) (a : Sel)
  | mdrain (h : GY) (a : Sel)
  | mprec (h : GY) (wa wb : BitVec 5)
  | mstat (h : Hdr) (d : BitVec 8) (r : MStatSel)
  | mzero (h : GY) (bank : Bool)
  -- collectives (R375, R386)
  | coll (h : GY) (a : Sel)
  | cprog (h : Hdr) (d : BitVec 8) (group : BitVec 4) (b : Sel)
  -- issue, wait store and region buffer
  | pipeChoose (core pipe : Nat)
  | resultLanding (core id : Nat)
  | waitStoreRelease (core tid : Nat)
  | laneConvergence (core gang : Nat)
  | probeAnswer (core id : Nat)
  | regionComplete (core tid : Nat)
  | storeEntryRetry (core tid : Nat)
  | pageServed (part page : Nat) (fw : FwWrites)
  | faultDeclined (part page : Nat)
  -- homes and L1s
  | pageWalk (part ia : Nat)
  | homeLoad (core id : Nat)
  | homeWrite (core id : Nat)
  | homeAtomic (core id : Nat)
  | invalidation (core line : Nat)
  | fillArrival (core line : Nat)
  | recall (core line : Nat)
  | writeBack (core line : Nat)
  | hostSnoop (part line : Nat)
  | hostCxlMemAccess (addr len : Nat) (data : Option (List Byte))
  | atsInvalidation (part page : Nat)
  | priResponse (idx code : Nat)
  | accessTimeout (core id : Nat)
  | shootdown (part ia : Nat) (d0 d1 : W64)
  | migrateRegion (part ia seg stk : Nat) (fw : FwWrites)
  | heldRequestMoved (part ia : Nat)
  | hotnessHalving
  | sealAtHome (core id : Nat)
  | sealComplete (part page : Nat)
  | replicaPlaced (part page stack : Nat)
  | replicaDrop (part page stack : Nat)
  | replicaDrained (part page stack : Nat)
  -- copy engine
  | copyEntryStart (core q : Nat)
  | copyBlock (core q : Nat)
  | copyStageClaim (core q : Nat)
  | chainRecordRead (core q : Nat)
  | chainRereadTimer (core q : Nat)
  | commandCompletion (core : Nat) (e : Engine)
  | qfencePerformed (core : Nat)
  -- matrix engine
  | mmaStart (core : Nat)
  | mmaTileUpdate (core tile : Nat)
  | operandFetch (core tile : Nat)
  | pinWaitTimeout (core : Nat)
  | governorWindow (core : Nat)
  | mprecEffect (core : Nat)
  | mzeroEffect (core : Nat)
  | mdrainStart (core : Nat)
  | drainTileAck (core tile : Nat)
  -- ring engines
  | collStart (core : Nat)
  | collMatch (k : CollKey)
  | triggerSeen (core : Nat)
  | triggerPoll (core : Nat)
  | couch (k : CollKey) (rank piece : Nat) (ringB : Bool)
  | closingToken (k : CollKey) (rank : Nat)
  | collAbort (k : CollKey) (rank : Nat)
  | pvAgreement (k : CollKey)
  -- waits and timers
  | waitgeWake (core tid : Nat)
  | waitgePoll (core tid : Nat)
  | backoffExpiry (core tid : Nat)
  | nopreDeadline (core : Nat)
  -- queues of the functions
  | submissionDoorbell (fn : Nat) (v : W32)
  | sqerrClear (fn : Nat)
  | mqheadWrite (fn : Nat) (v : W32)
  | mqlostClear (fn : Nat)
  | commandDoorbell (fn : Nat) (v : W32)
  | cqerrClear (fn : Nat)
  | ctxcreate (fn lhbase : Nat)
  | ctxdestroy (fn : Nat)
  | winset (fn : Nat)
  | permset (fn : Nat)
  | lhset (fn : Nat)
  | pagefree (fn : Nat)
  | launchend (fn : Nat)
  | groupread (fn : Nat)
  -- launches
  | launchConsume (fn : Nat)
  | budgetCredit (part : Nat)
  | gangBind (part : Nat) (lrec : W64) (cores : List Nat)
  | nextWrite (core : Nat) (r : BindRec)
  | nextCancel (core : Nat)
  | gangReady (core : Nat)
  | promotion (part gang : Nat)
  | q0PreemptTimeout (part : Nat)
  | coreGroupRetire (core : Nat)
  | launchRetire (part lid : Nat)
  | partitionEnable (part : Nat)
  | partitionKill (part : Nat)
  -- the package
  | warm
  | cold
  | firmwareVerify (ed ml version : Bool)
  | functionReady (f : Func)
  | bridgeFailure (b : Nat)
  | segmentFailure (s : Nat)
  | foldComplete
  | coreGroupHalt (core : Nat) (storage : Option Nat)
  | preemptRequest (core : Nat)
  | preemptSave (core : Nat)
  | shadowPoolEvict (core : Nat)
  | restore (core : Nat) (fromArea : Option Nat)
  | infieldTestDue (core : Nat)
  | infieldTestEnd (core : Nat) (pass : Bool)
  | liveMigration (part : Nat)
  | ceThreshold (stack bank : Nat)
  | reencodeDone (stack bank : Nat) (freed : Bool)
  | clrcnt (stack : Nat)
  | agethrWrite (fn part : Nat) (v : W64)
  | mbudgetWrite (fn part : Nat) (v : W64)
  | tvecWrite (fn part : Nat) (v : W64)
  | resetWriteFromVf (vf : Nat) (v : W64)
  | registerWrite (fn off : Nat) (v : W64)
  | functionFailure (f : Func)
  | replicationByHotness (part page stack frame : Nat)
deriving DecidableEq, Repr

end Sys2Proof
end

