-- ==== Sys2Proof/Machine/Bits.lean ====
section
/-! DEFINITION. Bit fields, byte order, alignment and the small facts about operand fields that the
decoder, the well-formedness check and the machine share. -/

namespace Sys2Proof

/-- Bits `[lo+n-1:lo]` of a word (R6). -/
def bits {w : Nat} (x : BitVec w) (lo n : Nat) : BitVec n := x.extractLsb' lo n

/-- One bit of a word. -/
def bit {w : Nat} (x : BitVec w) (i : Nat) : Bool := x.getLsbD i

/-- Bits `[lo+n-1:lo]` of a natural number. -/
def nbits (x lo n : Nat) : Nat := (x >>> lo) % 2 ^ n

/-- A Boolean as one bit. -/
def b1 (b : Bool) : BitVec 1 := BitVec.ofBool b

/-- The little-endian bytes of a word (R2). -/
def bytesOf (n : Nat) (v : Nat) : List Byte :=
  (List.range n).map fun i => BitVec.ofNat 8 (v >>> (8 * i))

/-- The number whose little-endian bytes are given (R2). -/
def natOfBytes : List Byte → Nat
  | [] => 0
  | b :: bs => b.toNat + 256 * natOfBytes bs

/-- A register number that is even. -/
def even8 (n : BitVec 8) : Bool := n.toNat % 2 == 0

/-- A register number that is a multiple of 4. -/
def quad8 (n : BitVec 8) : Bool := n.toNat % 4 == 0

/-- A select that may stand for a 64-bit operand: a w select must be even (R101). -/
def Sel.ok64 : Sel → Bool
  | .w n => even8 n
  | _ => true

/-- A select that may stand for a 64-bit operand and is no latch (R260, R297, R375). -/
def Sel.ok64NoLatch : Sel → Bool
  | .w n => even8 n
  | .b _ => false
  | _ => true

/-- A base select: an even w register or a k register (R103, R313). -/
def Sel.okBase : Sel → Bool
  | .w n => even8 n
  | .k _ => true
  | _ => false

/-- A data select of a 128-bit operand: a w register that is a multiple of 4 (R214, R336). -/
def Sel.ok128 : Sel → Bool
  | .w n => quad8 n
  | _ => false

/-- The operation width is 64 (R139). -/
def ITy.is64 : ITy → Bool
  | .s64 | .n64 => true
  | _ => false

/-- The type is signed (R139). -/
def ITy.signed : ITy → Bool
  | .s32 | .s64 => true
  | _ => false

def ATy.is64 : ATy → Bool
  | .int t => t.is64
  | .flt _ => false

def RTy.is64 : RTy → Bool
  | .int t => t.is64
  | .f32 => false

/-- A value operand of a type of width w (R139). -/
def Sel.okW (is64 : Bool) (s : Sel) : Bool := !is64 || s.ok64

/-- A destination of a result of width w (R100). -/
def dOkW (is64 : Bool) (d : BitVec 8) : Bool := !is64 || even8 d

/-- Bytes of a size (R103). -/
def Sz.bytes : Sz → Nat
  | .b8 => 1 | .b16 => 2 | .b32 => 4 | .b64 => 8 | .b128 => 16

/-- w registers that a value of a size takes. -/
def Sz.regs : Sz → Nat
  | .b64 => 2 | .b128 => 4 | _ => 1

/-- A destination register that fits a size (R100). -/
def Sz.okD (sz : Sz) (d : BitVec 8) : Bool :=
  match sz with
  | .b64 => even8 d
  | .b128 => quad8 d
  | _ => true

/-- A data select that fits a size (R214). -/
def Sz.okB (sz : Sz) (s : Sel) : Bool :=
  match sz with
  | .b64 => s.ok64
  | .b128 => s.ok128
  | _ => true

/-- Sizes that GATHER, SCATTER and CST accept (R212). -/
def Sz.le64 : Sz → Bool
  | .b128 => false
  | _ => true

/-- Sizes that an ATOM operation accepts (R336). -/
def AtomOp.okSz (op : AtomOp) (sz : Sz) : Bool :=
  match op, sz with
  | .fadd, .b32 => true
  | .fadd, _ => false
  | .cas, .b128 => true
  | _, .b32 => true
  | _, .b64 => true
  | _, _ => false

/-- Sizes that a RED operation accepts (R336). -/
def RedOp.okSz (op : RedOp) (sz : Sz) : Bool :=
  match op, sz with
  | .fadd, .b32 => true
  | .fadd, _ => false
  | _, .b32 => true
  | _, .b64 => true
  | _, _ => false

/-- REDUX accepts F32 with ADD, MIN and MAX only (R162). -/
def ReduxOp.okTy (op : ReduxOp) (ty : RTy) : Bool :=
  match op, ty with
  | .and, .f32 | .or, .f32 | .xor, .f32 => false
  | _, _ => true

/-- RND of REDUX is used with F32 ADD only (R162). -/
def ReduxOp.usesRnd (op : ReduxOp) (ty : RTy) : Bool :=
  match op, ty with
  | .add, .f32 => true
  | _, _ => false

/-- RND of SCAN is used with the F32 sums only (R163). -/
def ScanOp.usesRnd (op : ScanOp) (ty : RTy) : Bool :=
  match op, ty with
  | .inc, .f32 | .exc, .f32 => true
  | _, _ => false

/-- ABS and NEG accept SAT (R143). -/
def IUnaryOp.okSat : IUnaryOp → Bool
  | .abs | .neg => true
  | _ => false

/-- POPC and CLZ write a 32-bit count whatever the type (R143). -/
def IUnaryOp.count : IUnaryOp → Bool
  | .popc | .clz => true
  | _ => false

/-- NOT and MOV of PLOGIC read A only (R150). -/
def PLogicOp.unary : PLogicOp → Bool
  | .not | .mov => true
  | _ => false

/-- CVT uses RND (R194) (DEDUCED, log 37). -/
def cvtUsesRnd (dst src : ATy) : Bool :=
  match src, dst with
  | .int _, .int _ => false
  | .int _, .flt _ => true
  | .flt _, .int _ => true
  | .flt a, .flt b => if a = b then false else if b = .f32 then false else true

/-- CVT accepts SAT (R194). -/
def cvtUsesSat (dst src : ATy) : Bool :=
  match src, dst with
  | .int a, .int b => if a = b then false else true
  | .int _, .flt _ => true
  | .flt _, .int _ => false
  | .flt a, .flt b => if a = b then true else if b = .f32 then false else true

/-- A CSR that CSRW may write (R399). -/
def Csr.writable : Csr → Bool
  | .tvec | .trec | .win _ _ | .ctxperm => false
  | _ => true

/-- The destination of a half; a NOP half has none (R110). -/
def Half.dest : Half → Option (BitVec 8)
  | .nop => none
  | .iadd d _ | .isub d _ | .and d _ | .or d _ | .xor d _ | .imin d _ | .imax d _ | .mov d _
  | .fadd d _ | .fmul d _ | .fmin d _ | .fmax d _ | .hadd2 d _ | .hmul2 d _ => some d
  | .shli d _ _ | .shri d _ _ | .sari d _ _ => some d
  | .movi8 d _ => some d
  | .iaddi8 d _ _ => some d

/-- The source select of a half, where R109 reads it. -/
def Half.src : Half → Option Sel
  | .nop => none
  | .iadd _ s | .isub _ s | .and _ s | .or _ s | .xor _ s | .imin _ s | .imax _ s | .mov _ s
  | .fadd _ s | .fmul _ s | .fmin _ s | .fmax _ s | .hadd2 _ s | .hmul2 _ s => some s
  | .shli _ s _ | .shri _ s _ | .sari _ s _ => some s
  | .movi8 _ _ => none
  | .iaddi8 _ s _ => some s

/-- The half reads d (R109). -/
def Half.readsD : Half → Bool
  | .iadd _ _ | .isub _ _ | .and _ _ | .or _ _ | .xor _ _ | .imin _ _ | .imax _ _
  | .fadd _ _ | .fmul _ _ | .fmin _ _ | .fmax _ _ | .hadd2 _ _ | .hmul2 _ _ => true
  | _ => false

/-- The w registers that a half reads, as d or s (R109, R110). -/
def Half.readsW (h : Half) : List (BitVec 8) :=
  (match h.dest, h.readsD with
   | some d, true => [d]
   | _, _ => []) ++
  (match h.src with
   | some (.w n) => [n]
   | _ => [])

/-- The bank of a register (R110). -/
def bankOf (n : BitVec 8) : Nat := n.toNat % 4

/-- No two distinct registers of a list lie in one bank (R110). -/
def banksDistinct : List (BitVec 8) → Bool
  | [] => true
  | r :: rs => rs.all (fun q => q == r || bankOf q != bankOf r) && banksDistinct rs

/-- The bank rule of a pair word (R110). -/
def pairOk (x z : Half) : Bool :=
  (match x.dest, z.dest with
   | some a, some b => bankOf a != bankOf b
   | _, _ => true) &&
  banksDistinct (x.readsW ++ z.readsW) &&
  (match z.dest with
   | some d => !x.readsW.contains d
   | none => true) &&
  (match x.dest with
   | some d => !z.readsW.contains d
   | none => true)

/-- The fields of a bind record (R71). -/
def BindRec.cgx (b : BindRec) : Nat := (bits b.d1 0 2).toNat
def BindRec.sgx (b : BindRec) : Nat := (bits b.d1 2 3).toNat
def BindRec.kgx (b : BindRec) : Nat := (bits b.d1 5 4).toNat
def BindRec.rgx (b : BindRec) : Nat := (bits b.d1 9 16).toNat
def BindRec.lid (b : BindRec) : Nat := (bits b.d1 25 16).toNat
def BindRec.part (b : BindRec) : Nat := (bits b.d1 41 6).toNat
def BindRec.qos (b : BindRec) : Nat := (bits b.d1 47 2).toNat
def BindRec.ctxid (b : BindRec) : Nat := (bits b.d2 0 32).toNat
def BindRec.gangn (b : BindRec) : Nat := (bits b.d2 32 10).toNat
def BindRec.gangid (b : BindRec) : Nat := (bits b.d2 48 16).toNat
def BindRec.valid (b : BindRec) : Bool := bit b.d3 0
def BindRec.displace (b : BindRec) : Bool := bit b.d3 1

end Sys2Proof
end

