-- ==== Sys2Proof/WellFormed.lean ====
section
/-! DEFINITION. Well-formed instructions: those whose fields pass the checks 1 and 3 of R113 that the
word alone decides. REGS (R41) is checked as a word issues. -/

namespace Sys2Proof

/-- IADD, ISUB, IMUL (R142). -/
def IBin.wf (o : IBin) : Bool := dOkW o.ty.is64 o.d && o.a.okW o.ty.is64 && o.b.okW o.ty.is64

/-- IMULHI, IMIN, IMAX (R142). -/
def IBin0.wf (o : IBin0) : Bool := dOkW o.ty.is64 o.d && o.a.okW o.ty.is64 && o.b.okW o.ty.is64

/-- IMAD (R142). -/
def ITern.wf (o : ITern) : Bool :=
  dOkW o.ty.is64 o.d && o.a.okW o.ty.is64 && o.b.okW o.ty.is64 && o.c.okW o.ty.is64

/-- HADD2 and HMUL2 accept F16 and B16 (R192). -/
def FBin.wf2 (o : FBin) : Bool := o.ty != .f32

/-- HFMA2 accepts F16 and B16 (R192). -/
def FTern.wf2 (o : FTern) : Bool := o.ty != .f32

/-- SX belongs to a B8 or B16 access (R103). -/
def sxOk (sz : Sz) (sx : Bool) : Bool := !sx || sz == .b8 || sz == .b16

/-- A reserved rounding field holds RN (R178). -/
def rndOk (used : Bool) (r : Rnd) : Bool := used || r == .rn

/-- A core and a pipe that exist (R1, R15). -/
def coreOk (c : Nat) : Bool := decide (c < 512)

/-- A function that exists: VF 0-1023 or the PF (R51). -/
def fnOk (fn : Nat) : Bool := decide (fn ≤ 1024)

/-- A partition that exists (R65). -/
def partOk (p : Nat) : Bool := decide (p < 64)

/-- The well-formedness of an instruction word's fields, and of an event's arguments (DEDUCED, log 29). -/
def wellFormed : Instr → Bool
  | .nop _ => true
  | .iadd o | .isub o | .imul o => o.wf
  | .imulhi o | .imin o | .imax o => o.wf
  | .imad o => o.wf
  | .iunary _ op d ty sat a =>
      (op.count || dOkW ty.is64 d) && a.okW ty.is64 && (op.okSat || !sat)
  | .logic _ _ d ty a b => dOkW ty.is64 d && a.okW ty.is64 && b.okW ty.is64
  | .shift _ _ d ty a _ => dOkW ty.is64 d && a.okW ty.is64
  | .bfx _ d ty a _ => dOkW ty.is64 d && a.okW ty.is64
  | .bfi _ d ty a b _ => dOkW ty.is64 d && a.okW ty.is64 && b.okW ty.is64
  | .perm _ _ _ _ _ => true
  | .sel _ d ty a b _ => dOkW ty.is64 d && a.okW ty.is64 && b.okW ty.is64
  | .icmp _ _ _ ty a b => a.okW ty.is64 && b.okW ty.is64
  | .plogic _ op _ _ b => !op.unary || b == ⟨false, 0⟩
  | .lea _ d _ _ a _ => even8 d && a.ok64
  | .mov _ d w64 a => dOkW w64 d && a.okW w64
  | .kset _ d a => decide (16 ≤ d.toNat) && a.ok64
  | .sreg _ d r => r != .clock || even8 d
  | .fmtq _ _ _ => true
  | .ballot _ _ _ _ => true
  | .shuf _ _ d ty a _ => dOkW ty.is64 d && a.okW ty.is64
  | .redux _ op d ty r a =>
      dOkW ty.is64 d && a.okW ty.is64 && op.okTy ty && rndOk (op.usesRnd ty) r
  | .scan _ op d ty r a => dOkW ty.is64 d && a.okW ty.is64 && rndOk (op.usesRnd ty) r
  | .bra _ _ _ | .call _ _ | .ret _ | .exit _ | .yield _ | .trap _ _ | .brk _ _
  | .nopreOpen _ _ | .nopreShut _ | .eret _ => true
  | .region y => !y
  | .brx _ aux | .callx _ aux => even8 aux
  | .csrr _ d _ => even8 d
  | .csrw _ _ a => a.ok64
  | .fadd _ | .fmul _ | .ffma _ | .fminmax .. | .fcmp .. | .fspec .. | .fclass .. => true
  | .funary _ op _ _ r _ => rndOk (op == .rint) r
  | .twosum _ d _ _ => even8 d
  | .hadd2 o | .hmul2 o => o.wf2
  | .hfma2 o => o.wf2
  | .cvt _ d dst src r sat a =>
      dOkW dst.is64 d && a.okW src.is64 && rndOk (cvtUsesRnd dst src) r && (cvtUsesSat dst src || !sat)
  | .qpack _ d a _ => even8 d && (match a with | .w _ => true | _ => false)
  | .qunpack .. => true
  | .pairWord _ x z => pairOk x z
  | .movi .. | .iaddi _ | .andi _ | .ori _ | .xori _ => true
  | .ld _ d m sz sx _ => m.a.okBase && sz.okD d && sxOk sz sx
  | .st _ m b sz _ => m.a.okBase && sz.okB b
  | .atom _ op d m b sz _ => m.a.okBase && op.okSz sz && sz.okD d && sz.okB b
  | .red _ op m b sz _ => m.a.okBase && op.okSz sz && sz.okB b
  | .gather _ d m b sz sx _ => m.a.okBase && sz.le64 && sz.okD d && quad8 b && sxOk sz sx
  | .scatter _ m b sz _ | .cst _ m b sz _ => m.a.okBase && sz.le64 && quad8 b
  | .pref _ m _ _ => m.a.okBase
  | .pginfo _ d m => m.a.okBase && even8 d
  | .tagset _ m _ _ => m.a.okBase
  | .appendRes _ _ a _ => a.okBase
  | .appendQuery _ d a | .sealPlain _ d a | .sealBcast _ d a => a.okBase && even8 d
  | .tailq _ _ a => a.okBase
  | .fence .. | .barSync .. | .barArrive .. | .barWait .. | .phaseAdv _ | .phaseWait .. | .phaseRead ..
  | .backoff .. => true
  | .waitge _ _ _ a b => a.ok64 && b.ok64
  | .copy _ _ a | .chain _ _ a => a.ok64NoLatch
  | .qfence _ m b => m != 0 && b.ok64
  | .stgClaim .. | .stgFill .. | .stgTake .. | .stgFree .. | .stgQuery .. => true
  | .mma _ a | .mdrain _ a | .coll _ a => a.ok64NoLatch
  | .mprec _ wa wb => decide (wa.toNat ≤ 16) && decide (wb.toNat ≤ 16)
  | .mstat _ d _ => even8 d
  | .mzero _ _ => true
  | .cprog _ d _ _ => even8 d
  -- events
  | .pipeChoose c p => coreOk c && decide (p < 2)
  | .resultLanding c _ | .probeAnswer c _ | .homeLoad c _ | .homeWrite c _ | .homeAtomic c _
  | .accessTimeout c _ | .sealAtHome c _ => coreOk c
  | .waitStoreRelease c t | .regionComplete c t | .storeEntryRetry c t | .waitgeWake c t
  | .waitgePoll c t | .backoffExpiry c t => coreOk c && decide (t < 2048)
  | .laneConvergence c g => coreOk c && decide (g < 64)
  | .pageServed p _ _ | .faultDeclined p _ | .pageWalk p _ | .hostSnoop p _ | .atsInvalidation p _
  | .shootdown p _ _ _ | .migrateRegion p _ _ _ _ | .heldRequestMoved p _ | .sealComplete p _
  | .replicaPlaced p _ _ | .replicaDrop p _ _ | .replicaDrained p _ _ | .replicationByHotness p _ _ _
  | .budgetCredit p | .gangBind p _ _ | .promotion p _ | .q0PreemptTimeout p | .launchRetire p _
  | .partitionEnable p | .partitionKill p | .liveMigration p => partOk p
  | .invalidation c _ | .fillArrival c _ | .recall c _ | .writeBack c _ => coreOk c
  | .hostCxlMemAccess _ len data =>
      match data with
      | none => true
      | some bs => bs.length == len
  | .priResponse _ code => decide (code < 16)
  | .hotnessHalving => true
  | .copyEntryStart c q | .copyBlock c q | .copyStageClaim c q | .chainRecordRead c q
  | .chainRereadTimer c q => coreOk c && decide (q < 4)
  | .commandCompletion c e => coreOk c && (match e with | .copy q => decide (q < 4) | _ => true)
  | .qfencePerformed c | .mmaStart c | .pinWaitTimeout c | .governorWindow c | .mprecEffect c
  | .mzeroEffect c | .mdrainStart c | .collStart c | .triggerSeen c | .triggerPoll c | .nopreDeadline c
  | .nextWrite c _ | .nextCancel c | .gangReady c | .coreGroupRetire c | .coreGroupHalt c _
  | .preemptRequest c | .preemptSave c | .shadowPoolEvict c | .restore c _ | .infieldTestDue c
  | .infieldTestEnd c _ => coreOk c
  | .mmaTileUpdate c u | .operandFetch c u | .drainTileAck c u => coreOk c && decide (u < 16)
  | .collMatch k | .couch k _ _ _ | .closingToken k _ | .collAbort k _ | .pvAgreement k =>
      partOk k.part && decide (k.group < 16)
  | .submissionDoorbell fn _ | .sqerrClear fn | .mqheadWrite fn _ | .mqlostClear fn
  | .commandDoorbell fn _ | .cqerrClear fn | .ctxcreate fn _ | .ctxdestroy fn | .winset fn
  | .permset fn | .lhset fn | .pagefree fn | .launchend fn | .groupread fn | .launchConsume fn
  | .registerWrite fn _ _ => fnOk fn
  | .warm | .cold | .firmwareVerify .. | .functionReady _ | .foldComplete | .functionFailure _ => true
  | .bridgeFailure b => decide (b < 8)
  | .segmentFailure s => decide (s < 8)
  | .ceThreshold s b | .reencodeDone s b _ => decide (s < 16) && decide (b < 32)
  | .clrcnt s => decide (s < 16)
  | .agethrWrite fn p _ | .mbudgetWrite fn p _ | .tvecWrite fn p _ => fnOk fn && partOk p
  | .resetWriteFromVf vf _ => decide (vf < 1024)

end Sys2Proof
end

