-- ==== Sys2Proof/Decode.lean ====
section
/-! DEFINITION. The decoder of instruction words (R98-R113), total on any 64 bits, and the encoder
written from the same tables. -/

namespace Sys2Proof

/-- Which words are privileged (R112): never, always, or where the context's TAGU is 0. -/
inductive PrivKind where | none | always | tagu
deriving DecidableEq, Repr

/-- Why the decoder rejects a word (R113): check 1 fails, or check 3 fails in a word whose privilege
(check 2, made between them) is as given. -/
inductive Rej where
  | opcode
  | operand (p : PrivKind)
deriving DecidableEq, Repr

/-- An instruction or the reason that the word is none. -/
inductive Decoded where
  | ok (i : Instr)
  | rej (r : Rej)
deriving DecidableEq, Repr

/-- Check 1, then the operands of check 3 (R113). -/
def chk (resOk : Bool) (o : Option Instr) (p : PrivKind := .none) : Decoded :=
  if resOk then
    match o with
    | some i => .ok i
    | none => .rej (.operand p)
  else .rej .opcode

/-! ## The fields of the layouts -/

/-- Bits [63:50], shared by all full words (R98). -/
structure Head where
  op : BitVec 7
  gp : BitVec 4
  y  : Bool
  nw : Bool
deriving DecidableEq, Repr

def Head.of (w : W64) : Head := ⟨bits w 56 7, bits w 52 4, bit w 51, bit w 50⟩

def Head.enc (h : Head) : BitVec 14 := 0#1 ++ h.op ++ h.gp ++ b1 h.y ++ b1 h.nw

def Head.hdr (h : Head) : Hdr := ⟨h.gp, h.y, h.nw⟩
def Head.gy (h : Head) : GY := ⟨h.gp, h.y⟩

/-- The F3 layout (R98). -/
structure F3 where
  h   : Head
  d   : BitVec 8
  a   : BitVec 9
  b   : BitVec 9
  c   : BitVec 9
  sub : BitVec 4
  ty  : BitVec 3
  rnd : BitVec 2
  sat : Bool
  mod : BitVec 5
deriving DecidableEq, Repr

def F3.of (w : W64) : F3 :=
  ⟨Head.of w, bits w 42 8, bits w 33 9, bits w 24 9, bits w 15 9, bits w 11 4, bits w 8 3,
   bits w 6 2, bit w 5, bits w 0 5⟩

def F3.enc (f : F3) : W64 :=
  f.h.enc ++ f.d ++ f.a ++ f.b ++ f.c ++ f.sub ++ f.ty ++ f.rnd ++ b1 f.sat ++ f.mod

/-- The FM layout (R103). -/
structure FM where
  h   : Head
  d   : BitVec 8
  a   : BitVec 9
  b   : BitVec 9
  off : BitVec 16
  sz  : BitVec 3
  rt  : BitVec 2
  sx  : Bool
  sub : BitVec 2
deriving DecidableEq, Repr

def FM.of (w : W64) : FM :=
  ⟨Head.of w, bits w 42 8, bits w 33 9, bits w 24 9, bits w 8 16, bits w 5 3, bits w 3 2, bit w 2,
   bits w 0 2⟩

def FM.enc (f : FM) : W64 :=
  f.h.enc ++ f.d ++ f.a ++ f.b ++ f.off ++ f.sz ++ f.rt ++ b1 f.sx ++ f.sub

/-- The layout of ATOM and RED (R104). -/
structure FA where
  h     : Head
  d     : BitVec 8
  a     : BitVec 9
  b     : BitVec 9
  off   : BitVec 12
  sub   : BitVec 4
  sz    : BitVec 3
  scope : BitVec 3
  res   : BitVec 2
deriving DecidableEq, Repr

def FA.of (w : W64) : FA :=
  ⟨Head.of w, bits w 42 8, bits w 33 9, bits w 24 9, bits w 12 12, bits w 8 4, bits w 5 3,
   bits w 2 3, bits w 0 2⟩

def FA.enc (f : FA) : W64 :=
  f.h.enc ++ f.d ++ f.a ++ f.b ++ f.off ++ f.sub ++ f.sz ++ f.scope ++ f.res

/-- The FC layout (R105). -/
structure FC where
  h     : Head
  aux   : BitVec 8
  off   : BitVec 24
  prio  : BitVec 8
  flags : BitVec 6
  sub   : BitVec 4
deriving DecidableEq, Repr

def FC.of (w : W64) : FC :=
  ⟨Head.of w, bits w 42 8, bits w 18 24, bits w 10 8, bits w 4 6, bits w 0 4⟩

def FC.enc (f : FC) : W64 := f.h.enc ++ f.aux ++ f.off ++ f.prio ++ f.flags ++ f.sub

/-- The FL layout (R106). -/
structure FL where
  h   : Head
  d   : BitVec 8
  a   : BitVec 9
  imm : W32
  res : Bool
deriving DecidableEq, Repr

def FL.of (w : W64) : FL := ⟨Head.of w, bits w 42 8, bits w 33 9, bits w 1 32, bit w 0⟩

def FL.enc (f : FL) : W64 := f.h.enc ++ f.d ++ f.a ++ f.imm ++ b1 f.res

/-- A half of a pair word (R108). -/
structure HalfF where
  op  : BitVec 6
  d   : BitVec 8
  s   : BitVec 9
  imm : BitVec 8
deriving DecidableEq, Repr

def HalfF.of (x : BitVec 31) : HalfF := ⟨bits x 25 6, bits x 17 8, bits x 8 9, bits x 0 8⟩

def HalfF.enc (f : HalfF) : BitVec 31 := f.op ++ f.d ++ f.s ++ f.imm

/-! ## Reading fields -/

/-- A source select (R101). -/
def sel? (v : BitVec 9) : Option Sel :=
  let n := v.toNat
  if n < 0x100 then some (.w (v.setWidth 8))
  else if n < 0x104 then some (.b (v.setWidth 2))
  else if n < 0x140 then none
  else if n < 0x180 then some (.k (v.setWidth 6))
  else if n < 0x1C0 then some (.i (BitVec.ofNat 6 (n + 0x20)))
  else none

/-- A select that also passes a check of its entry. -/
def selOk? (ok : Sel → Bool) (v : BitVec 9) : Option Sel := (sel? v).filter ok

/-- A value operand of the word's width (R139). -/
def selW? (is64 : Bool) (v : BitVec 9) : Option Sel := selOk? (Sel.okW is64) v

/-- A predicate operand (R140). -/
def psel? (v : BitVec 9) : Option PSel :=
  if bits v 4 5 = 0 then some ⟨bit v 3, bits v 0 3⟩ else none

def ity? (v : BitVec 3) : Option ITy :=
  match v.toNat with
  | 0 => some .s32 | 1 => some .n32 | 2 => some .s64 | 3 => some .n64 | _ => none

def fty? (v : BitVec 3) : Option FTy :=
  match v.toNat with
  | 4 => some .f32 | 5 => some .f16 | 6 => some .b16 | _ => none

def aty? (v : BitVec 3) : Option ATy :=
  match ity? v, fty? v with
  | some t, _ => some (.int t)
  | none, some t => some (.flt t)
  | none, none => none

def rty? (v : BitVec 3) : Option RTy :=
  match ity? v with
  | some t => some (.int t)
  | none => if v = 4#3 then some .f32 else none

def rnd! (v : BitVec 2) : Rnd :=
  match v.toNat with
  | 0 => .rn | 1 => .rz | 2 => .ru | _ => .rd

def sz? (v : BitVec 3) : Option Sz :=
  match v.toNat with
  | 0 => some .b8 | 1 => some .b16 | 2 => some .b32 | 3 => some .b64 | 4 => some .b128 | _ => none

def rt! (v : BitVec 2) : RT :=
  match v.toNat with
  | 0 => .o | 1 => .w | 2 => .s | _ => .u

def scope? (v : BitVec 3) : Option Scope :=
  match v.toNat with
  | 1 => some .core | 2 => some .slice | 3 => some .stack | 4 => some .ring | 5 => some .sys | _ => none

def level? (v : BitVec 3) : Option Level :=
  match v.toNat with
  | 1 => some .core | 2 => some .slice | 3 => some .stack | 4 => some .ring | _ => none

def kind! (v : BitVec 2) : FenceKind :=
  match v.toNat with
  | 0 => .acq | 1 => .rel | 2 => .ar | _ => .sc

/-- A literal in A or C that names 0-7 (R157, R195, R269, R339). -/
def lit3? (v : BitVec 9) : Option (BitVec 3) := if bits v 3 6 = 0 then some (bits v 0 3) else none

/-- Guards an operand by a condition of check 3. -/
def need (b : Bool) : Option Unit := if b then some () else none

/-- A destination that fits the operation width (R100). -/
def dW? (is64 : Bool) (d : BitVec 8) : Option (BitVec 8) := if dOkW is64 d then some d else none

/-! ## Sub-ops in SUB order (R111) -/

def iunaryOp? (v : BitVec 4) : Option IUnaryOp :=
  match v.toNat with
  | 0 => some .abs | 1 => some .neg | 2 => some .not | 3 => some .popc | 4 => some .clz | 5 => some .brev
  | _ => none

def logicOp? (v : BitVec 4) : Option LogicOp :=
  match v.toNat with
  | 0 => some .and | 1 => some .or | 2 => some .xor | 3 => some .andn | 4 => some .orn | 5 => some .xnor
  | _ => none

def shiftOp? (v : BitVec 4) : Option ShiftOp :=
  match v.toNat with
  | 0 => some .shl | 1 => some .shr | 2 => some .sar | 3 => some .rol | 4 => some .ror | _ => none

def icmpOp? (v : BitVec 4) : Option ICmpOp :=
  match v.toNat with
  | 0 => some .eq | 1 => some .ne | 2 => some .lt | 3 => some .le | 4 => some .gt | 5 => some .ge
  | _ => none

def plogicOp? (v : BitVec 4) : Option PLogicOp :=
  match v.toNat with
  | 0 => some .and | 1 => some .or | 2 => some .xor | 3 => some .not | 4 => some .mov | _ => none

def ballotOp? (v : BitVec 4) : Option BallotOp :=
  match v.toNat with
  | 0 => some .any | 1 => some .all | 2 => some .mask | _ => none

def shufOp? (v : BitVec 4) : Option ShufOp :=
  match v.toNat with
  | 0 => some .idx | 1 => some .up | 2 => some .down | 3 => some .xor | _ => none

def reduxOp? (v : BitVec 4) : Option ReduxOp :=
  match v.toNat with
  | 0 => some .add | 1 => some .min | 2 => some .max | 3 => some .and | 4 => some .or | 5 => some .xor
  | _ => none

def scanOp? (v : BitVec 4) : Option ScanOp :=
  match v.toNat with
  | 0 => some .inc | 1 => some .exc | 2 => some .max | _ => none

def fmmOp? (v : BitVec 4) : Option FMinMaxOp :=
  match v.toNat with
  | 0 => some .min | 1 => some .max | _ => none

def fcmpOp? (v : BitVec 4) : Option FCmpOp :=
  match v.toNat with
  | 0 => some .eq | 1 => some .ne | 2 => some .lt | 3 => some .le | 4 => some .gt | 5 => some .ge
  | 6 => some .un | _ => none

def funaryOp? (v : BitVec 4) : Option FUnaryOp :=
  match v.toNat with
  | 0 => some .abs | 1 => some .neg | 2 => some .floor | 3 => some .ceil | 4 => some .trunc
  | 5 => some .rint | _ => none

def fspecOp? (v : BitVec 4) : Option FSpecOp :=
  match v.toNat with
  | 0 => some .rcp | 1 => some .rsq | 2 => some .sqrt | 3 => some .ex2 | 4 => some .lg2
  | 5 => some .sin | 6 => some .cos | 7 => some .tanh | _ => none

def atomOp? (v : BitVec 4) : Option AtomOp :=
  match v.toNat with
  | 0 => some .add | 1 => some .min | 2 => some .max | 3 => some .and | 4 => some .or | 5 => some .xor
  | 6 => some .exch | 7 => some .cas | 8 => some .fadd | _ => none

def redOp? (v : BitVec 4) : Option RedOp :=
  match v.toNat with
  | 0 => some .add | 1 => some .min | 2 => some .max | 3 => some .and | 4 => some .or | 5 => some .xor
  | 6 => some .fadd | _ => none

def sreg? (v : BitVec 9) : Option SReg :=
  match v.toNat with
  | 0 => some .tid | 1 => some .gang | 2 => some .lane | 3 => some .cgx | 4 => some .sgx | 5 => some .kgx
  | 6 => some .launch | 7 => some .seg | 8 => some .core | 9 => some .part | 10 => some .clock
  | 11 => some .pix | 12 => some .bargen | 13 => some .phasecur | _ => none

def csr? (v : BitVec 9) : Option Csr :=
  let n := v.toNat
  if 0x080 ≤ n ∧ n < 0x0A0 then some (.win (bits v 1 4) (bit v 0))
  else
    match n with
    | 0x000 => some .tvec | 0x001 => some .tcause | 0x002 => some .tpc | 0x003 => some .tval
    | 0x004 => some .trec | 0x005 => some .tstate | 0x010 => some .fpx | 0x0A0 => some .ctxperm
    | 0x0A8 => some .ringshare | _ => none

def mstatSel? (v : BitVec 9) : Option MStatSel :=
  match v.toNat with
  | 0 => some .mpx | 1 => some .corr | 2 => some .gstall | 3 => some .cserr | 4 => some .nonfin
  | 5 => some .qstat | 6 => some .bpused | 7 => some .dpx | _ => none

/-! ## The decoder by layout -/

/-- Reserved parts of an F3 word that several entries share. -/
def F3.z (f : F3) (d a b c sub ty rnd sat mod nw : Bool) : Bool :=
  (!d || f.d == 0) && (!a || f.a == 0) && (!b || f.b == 0) && (!c || f.c == 0) && (!sub || f.sub == 0) &&
  (!ty || f.ty == 0) && (!rnd || f.rnd == 0) && (!sat || !f.sat) && (!mod || f.mod == 0) && (!nw || !f.h.nw)

def F3.ibin (f : F3) : Option IBin := do
  let ty ← ity? f.ty
  let d ← dW? ty.is64 f.d
  let a ← selW? ty.is64 f.a
  let b ← selW? ty.is64 f.b
  some ⟨f.h.hdr, d, ty, f.sat, a, b⟩

def F3.ibin0 (f : F3) : Option IBin0 := do
  let ty ← ity? f.ty
  let d ← dW? ty.is64 f.d
  let a ← selW? ty.is64 f.a
  let b ← selW? ty.is64 f.b
  some ⟨f.h.hdr, d, ty, a, b⟩

def F3.itern (f : F3) : Option ITern := do
  let ty ← ity? f.ty
  let d ← dW? ty.is64 f.d
  let a ← selW? ty.is64 f.a
  let b ← selW? ty.is64 f.b
  let c ← selW? ty.is64 f.c
  some ⟨f.h.hdr, d, ty, f.sat, a, b, c⟩

def F3.fbin (f : F3) : Option FBin := do
  let ty ← fty? f.ty
  let a ← sel? f.a
  let b ← sel? f.b
  some ⟨f.h.hdr, f.d, ty, rnd! f.rnd, f.sat, a, b⟩

def F3.ftern (f : F3) : Option FTern := do
  let ty ← fty? f.ty
  let a ← sel? f.a
  let b ← sel? f.b
  let c ← sel? f.c
  some ⟨f.h.hdr, f.d, ty, rnd! f.rnd, f.sat, a, b, c⟩

/-- The integer, logic, select, compare, move and lane words (0x00-0x1B, R139-R163). -/
def F3.decInt (f : F3) : Decoded :=
  let h := f.h.hdr
  let g := f.h.gy
  match f.h.op.toNat with
  | 0x00 => chk (f.z true true true true true true true true true true) (some (.nop g))
  | 0x01 => chk (f.z false false false true true false true false true false) (f.ibin.map .iadd)
  | 0x02 => chk (f.z false false false true true false true false true false) (f.ibin.map .isub)
  | 0x03 => chk (f.z false false false true true false true false true false) (f.ibin.map .imul)
  | 0x04 => chk (f.z false false false true true false true true true false) (f.ibin0.map .imulhi)
  | 0x05 => chk (f.z false false false false true false true false true false) (f.itern.map .imad)
  | 0x06 => chk (f.z false false false true true false true true true false) (f.ibin0.map .imin)
  | 0x07 => chk (f.z false false false true true false true true true false) (f.ibin0.map .imax)
  | 0x08 =>
    match iunaryOp? f.sub with
    | none => .rej .opcode
    | some op =>
      chk (f.z false false true true false false true (!op.okSat) true false) do
        let ty ← ity? f.ty
        let d ← dW? (!op.count && ty.is64) f.d
        let a ← selW? ty.is64 f.a
        some (.iunary h op d ty f.sat a)
  | 0x09 =>
    match logicOp? f.sub with
    | none => .rej .opcode
    | some op =>
      chk (f.z false false false true false false true true true false) do
        let ty ← ity? f.ty
        let d ← dW? ty.is64 f.d
        let a ← selW? ty.is64 f.a
        let b ← selW? ty.is64 f.b
        some (.logic h op d ty a b)
  | 0x0A =>
    match shiftOp? f.sub with
    | none => .rej .opcode
    | some op =>
      chk (f.z false false false true false false true true true false) do
        let ty ← ity? f.ty
        let d ← dW? ty.is64 f.d
        let a ← selW? ty.is64 f.a
        let b ← sel? f.b
        some (.shift h op d ty a b)
  | 0x0B =>
    chk (f.z false false false true true false true true true false) do
      let ty ← ity? f.ty
      let d ← dW? ty.is64 f.d
      let a ← selW? ty.is64 f.a
      let b ← sel? f.b
      some (.bfx h d ty a b)
  | 0x0C =>
    chk (f.z false false false false true false true true true false) do
      let ty ← ity? f.ty
      let d ← dW? ty.is64 f.d
      let a ← selW? ty.is64 f.a
      let b ← selW? ty.is64 f.b
      let c ← sel? f.c
      some (.bfi h d ty a b c)
  | 0x0D =>
    chk (f.z false false false false true true true true true false) do
      let a ← sel? f.a
      let b ← sel? f.b
      let c ← sel? f.c
      some (.perm h f.d a b c)
  | 0x0E =>
    chk (f.z false false false false true false true true true false) do
      let ty ← aty? f.ty
      let d ← dW? ty.is64 f.d
      let a ← selW? ty.is64 f.a
      let b ← selW? ty.is64 f.b
      let c ← psel? f.c
      some (.sel h d ty a b c)
  | 0x0F =>
    match icmpOp? f.sub with
    | none => .rej .opcode
    | some op =>
      chk (f.z false false false true false false true true true true && bits f.d 3 5 == 0) do
        let ty ← ity? f.ty
        let a ← selW? ty.is64 f.a
        let b ← selW? ty.is64 f.b
        some (.icmp g op (bits f.d 0 3) ty a b)
  | 0x10 =>
    match plogicOp? f.sub with
    | none => .rej .opcode
    | some op =>
      chk (f.z false false op.unary true false true true true true true && bits f.d 3 5 == 0) do
        let a ← psel? f.a
        let b ← psel? f.b
        some (.plogic g op (bits f.d 0 3) a b)
  | 0x11 =>
    chk (f.z false false false true true false true true false false && bits f.mod 3 2 == 0) do
      let ty ← ity? f.ty
      need ty.is64
      let d ← dW? true f.d
      let a ← selW? true f.a
      let b ← sel? f.b
      some (.lea h d ty.signed (bits f.mod 0 3) a b)
  | 0x12 =>
    chk (f.z false false true true true true true true false false && bits f.mod 1 4 == 0) do
      let d ← dW? (bit f.mod 0) f.d
      let a ← selW? (bit f.mod 0) f.a
      some (.mov h d (bit f.mod 0) a)
  | 0x13 =>
    chk (f.z false false true true true true true true true true && bits f.d 6 2 == 0) do
      need (decide (16 ≤ (bits f.d 0 6).toNat))
      let a ← selW? true f.a
      some (.kset g (bits f.d 0 6) a)
  | 0x14 =>
    chk (f.z false false true true true true true true true false) do
      let r ← sreg? f.a
      let d ← dW? (r == .clock) f.d
      some (.sreg h d r)
  | 0x15 =>
    chk (f.z false false true true true true true true true false) do
      let n ← lit3? f.a
      some (.fmtq h f.d n)
  | 0x18 =>
    match ballotOp? f.sub with
    | none => .rej .opcode
    | some op =>
      chk (f.z false false true true false true true true true false) do
        let a ← psel? f.a
        some (.ballot h op f.d a)
  | 0x19 =>
    match shufOp? f.sub with
    | none => .rej .opcode
    | some op =>
      chk (f.z false false false true false false true true true false) do
        let ty ← aty? f.ty
        let d ← dW? ty.is64 f.d
        let a ← selW? ty.is64 f.a
        let b ← sel? f.b
        some (.shuf h op d ty a b)
  | 0x1A =>
    match reduxOp? f.sub with
    | none => .rej .opcode
    | some op =>
      chk (f.z false false true true false false (f.ty != 4#3 || op != .add) true true false) do
        let ty ← rty? f.ty
        need (op.okTy ty)
        let d ← dW? ty.is64 f.d
        let a ← selW? ty.is64 f.a
        some (.redux h op d ty (rnd! f.rnd) a)
  | 0x1B =>
    match scanOp? f.sub with
    | none => .rej .opcode
    | some op =>
      chk (f.z false false true true false false (f.ty != 4#3 || op == .max) true true false) do
        let ty ← rty? f.ty
        let d ← dW? ty.is64 f.d
        let a ← selW? ty.is64 f.a
        some (.scan h op d ty (rnd! f.rnd) a)
  | _ => .rej .opcode

/-- The control words (0x20-0x2B, R164-R171, R402). -/
def FC.dec (f : FC) : Decoded :=
  let g := f.h.gy
  let noT := f.off == 0 && f.prio == 0
  let base := !f.h.nw && (f.sub == 0)
  let t : Target := ⟨f.off, f.prio⟩
  match f.h.op.toNat with
  | 0x20 => chk (base && f.aux == 0 && bits f.flags 1 5 == 0) (some (.bra g t (bit f.flags 0)))
  | 0x21 => chk (base && noT && f.flags == 0) (if even8 f.aux then some (.brx g f.aux) else none)
  | 0x22 => chk (base && f.aux == 0 && f.flags == 0) (some (.call g t))
  | 0x23 => chk (base && noT && f.flags == 0) (if even8 f.aux then some (.callx g f.aux) else none)
  | 0x24 => chk (base && noT && f.flags == 0 && f.aux == 0) (some (.ret g))
  | 0x25 => chk (base && noT && f.flags == 0 && f.aux == 0) (some (.exit g))
  | 0x26 => chk (base && noT && f.flags == 0 && f.aux == 0) (some (.yield g))
  | 0x27 => chk (base && noT && f.flags == 0) (some (.trap g f.aux))
  | 0x28 => chk (base && noT && f.flags == 0) (some (.brk g f.aux))
  | 0x29 => chk (base && noT && f.flags == 0 && f.aux == 0 && f.h.gp == 7 && !f.h.y) (some (.region f.h.y))
  | 0x2A =>
    match f.sub.toNat with
    | 0 => chk (!f.h.nw && noT && f.flags == 0) (some (.nopreOpen g f.aux))
    | 1 => chk (!f.h.nw && noT && f.flags == 0 && f.aux == 0) (some (.nopreShut g))
    | _ => .rej .opcode
  | 0x2B => chk (base && noT && f.flags == 0 && f.aux == 0) (some (.eret g)) .always
  | _ => .rej .opcode

/-- CSRR and CSRW (0x2C, 0x2D, R401). -/
def F3.decCsr (f : F3) : Decoded :=
  match f.h.op.toNat with
  | 0x2C =>
    chk (f.z false true false true true true true true true false) (do
      let c ← csr? f.b
      let d ← dW? true f.d
      some (.csrr f.h.hdr d c)) .always
  | 0x2D =>
    chk (f.z true false false true true true true true true true) (do
      let c ← csr? f.b
      let a ← selW? true f.a
      some (.csrw f.h.gy c a)) .always
  | _ => .rej .opcode

/-- The floating-point words (0x30-0x3E, R184-R197). -/
def F3.decFloat (f : F3) : Decoded :=
  let h := f.h.hdr
  let g := f.h.gy
  match f.h.op.toNat with
  | 0x30 => chk (f.z false false false true true false false false true false) (f.fbin.map .fadd)
  | 0x31 => chk (f.z false false false true true false false false true false) (f.fbin.map .fmul)
  | 0x32 => chk (f.z false false false false true false false false true false) (f.ftern.map .ffma)
  | 0x33 =>
    match fmmOp? f.sub with
    | none => .rej .opcode
    | some op =>
      chk (f.z false false false true false false true true true false) do
        let ty ← fty? f.ty
        let a ← sel? f.a
        let b ← sel? f.b
        some (.fminmax h op f.d ty a b)
  | 0x34 =>
    match fcmpOp? f.sub with
    | none => .rej .opcode
    | some op =>
      chk (f.z false false false true false false true true true true && bits f.d 3 5 == 0) do
        let ty ← fty? f.ty
        let a ← sel? f.a
        let b ← sel? f.b
        some (.fcmp g op (bits f.d 0 3) ty a b)
  | 0x35 =>
    match funaryOp? f.sub with
    | none => .rej .opcode
    | some op =>
      chk (f.z false false true true false false (op != .rint) true true false) do
        let ty ← fty? f.ty
        let a ← sel? f.a
        some (.funary h op f.d ty (rnd! f.rnd) a)
  | 0x36 =>
    match fspecOp? f.sub with
    | none => .rej .opcode
    | some op =>
      chk (f.z false false true true false false true true true false) do
        let ty ← fty? f.ty
        let a ← sel? f.a
        some (.fspec h op f.d ty a)
  | 0x37 =>
    chk (f.z false false false true true false true true true false) do
      need (f.ty == 4)
      let d ← dW? true f.d
      let a ← sel? f.a
      let b ← sel? f.b
      some (.twosum h d a b)
  | 0x38 =>
    chk (f.z false false false true true false false false true false) do
      need (f.ty != 4)
      let o ← f.fbin
      some (.hadd2 o)
  | 0x39 =>
    chk (f.z false false false true true false false false true false) do
      need (f.ty != 4)
      let o ← f.fbin
      some (.hmul2 o)
  | 0x3A =>
    chk (f.z false false false false true false false false true false) do
      need (f.ty != 4)
      let o ← f.ftern
      some (.hfma2 o)
  | 0x3B =>
    let rs : Bool × Bool :=
      match aty? f.ty, aty? (bits f.mod 0 3) with
      | some dst, some src => (!cvtUsesRnd dst src, !cvtUsesSat dst src)
      | _, _ => (false, false)
    chk (f.z false false true true true false rs.1 rs.2 false false && bits f.mod 3 2 == 0) do
      let dst ← aty? f.ty
      let src ← aty? (bits f.mod 0 3)
      let d ← dW? dst.is64 f.d
      let a ← selW? src.is64 f.a
      some (.cvt h d dst src (rnd! f.rnd) f.sat a)
  | 0x3C =>
    chk (f.z false false true false true false true true true false) do
      need (f.ty == 4)
      let d ← dW? true f.d
      let a ← selOk? (fun s => match s with | .w _ => true | _ => false) f.a
      let n ← lit3? f.c
      some (.qpack h d a n)
  | 0x3D =>
    chk (f.z false false false false true false true true false false && bits f.mod 2 3 == 0) do
      need (f.ty == 4)
      let a ← sel? f.a
      let b ← sel? f.b
      let c ← sel? f.c
      some (.qunpack h f.d (bit f.mod 0) (bit f.mod 1) a b c)
  | 0x3E =>
    chk (f.z false false true true true false true true true false) do
      let ty ← fty? f.ty
      let a ← sel? f.a
      some (.fclass h f.d ty a)
  | _ => .rej .opcode

/-- The base and offset of an FM word (R103). -/
def FM.addr (f : FM) : Option MemAddr := do
  let a ← selOk? Sel.okBase f.a
  some ⟨a, f.off⟩

/-- SX is reserved for any size but B8 and B16 (R103). -/
def FM.sxRes (f : FM) : Bool := !f.sx || f.sz == 0 || f.sz == 1

/-- The memory words of the FM layout (0x40, 0x41, 0x44-0x49, R212-R220). -/
def FM.dec (f : FM) : Decoded :=
  let h := f.h.hdr
  let g := f.h.gy
  let base := f.sub == 0
  let noD := f.d == 0 && !f.h.nw
  match f.h.op.toNat with
  | 0x40 =>
    chk (base && f.b == 0 && f.sxRes) do
      let m ← f.addr
      let sz ← sz? f.sz
      need (sz.okD f.d)
      some (.ld h f.d m sz f.sx (rt! f.rt))
  | 0x41 =>
    chk (base && noD && !f.sx) do
      let m ← f.addr
      let sz ← sz? f.sz
      let b ← selOk? sz.okB f.b
      some (.st g m b sz (rt! f.rt))
  | 0x44 =>
    chk (base && f.sxRes) do
      let m ← f.addr
      let sz ← sz? f.sz
      need (sz.le64 && sz.okD f.d)
      let b ← selOk? Sel.ok128 f.b
      match b with
      | .w n => some (.gather h f.d m n sz f.sx (rt! f.rt))
      | _ => none
  | 0x45 =>
    chk (base && noD && !f.sx) do
      let m ← f.addr
      let sz ← sz? f.sz
      need sz.le64
      let b ← selOk? Sel.ok128 f.b
      match b with
      | .w n => some (.scatter g m n sz (rt! f.rt))
      | _ => none
  | 0x46 =>
    chk (base && noD && !f.sx) do
      let m ← f.addr
      let sz ← sz? f.sz
      need sz.le64
      let b ← selOk? Sel.ok128 f.b
      match b with
      | .w n => some (.cst g m n sz (rt! f.rt))
      | _ => none
  | 0x47 =>
    chk (base && noD && !f.sx && f.b == 0) do
      let m ← f.addr
      let sz ← sz? f.sz
      some (.pref g m sz (rt! f.rt))
  | 0x48 =>
    chk (base && !f.sx && f.b == 0) do
      let m ← f.addr
      need (f.sz == 3 && f.rt == 3 && even8 f.d)
      some (.pginfo h f.d m)
  | 0x49 =>
    chk (base && noD && !f.sx) (do
      let m ← f.addr
      let sz ← sz? f.sz
      need (f.rt == 3)
      let b ← sel? f.b
      some (.tagset g m b sz)) .tagu
  | _ => .rej .opcode

/-- ATOM and RED (0x42, 0x43, R104, R336). -/
def FA.dec (f : FA) : Decoded :=
  match f.h.op.toNat with
  | 0x42 =>
    match atomOp? f.sub with
    | none => .rej .opcode
    | some op =>
      chk (f.res == 0) do
        let a ← selOk? Sel.okBase f.a
        let sz ← sz? f.sz
        let sc ← scope? f.scope
        need (op.okSz sz && sz.okD f.d)
        let b ← selOk? sz.okB f.b
        some (.atom f.h.hdr op f.d ⟨a, f.off⟩ b sz sc)
  | 0x43 =>
    match redOp? f.sub with
    | none => .rej .opcode
    | some op =>
      chk (f.res == 0 && f.d == 0 && !f.h.nw) do
        let a ← selOk? Sel.okBase f.a
        let sz ← sz? f.sz
        let sc ← scope? f.scope
        need (op.okSz sz)
        let b ← selOk? sz.okB f.b
        some (.red f.h.gy op ⟨a, f.off⟩ b sz sc)
  | _ => .rej .opcode

/-- Append, seal, synchronisation, engine and collective words (0x4C-0x69). -/
def F3.decSys (f : F3) : Decoded :=
  let h := f.h.hdr
  let g := f.h.gy
  match f.h.op.toNat with
  | 0x4C =>
    match f.sub.toNat with
    | 0 =>
      chk (f.z false false false true false true true true true false) do
        let a ← selOk? Sel.okBase f.a
        let b ← sel? f.b
        some (.appendRes h f.d a b)
    | 1 =>
      chk (f.z false false true true false true true true true false) do
        let a ← selOk? Sel.okBase f.a
        let d ← dW? true f.d
        some (.appendQuery h d a)
    | _ => .rej .opcode
  | 0x4D =>
    match f.sub.toNat with
    | 0 =>
      chk (f.z false false true true false true true true true false) do
        let a ← selOk? Sel.okBase f.a
        let d ← dW? true f.d
        some (.sealPlain h d a)
    | 1 =>
      chk (f.z false false true true false true true true true false) do
        let a ← selOk? Sel.okBase f.a
        let d ← dW? true f.d
        some (.sealBcast h d a)
    | _ => .rej .opcode
  | 0x4E =>
    chk (f.z false false true true true true true true true false) do
      let a ← selOk? Sel.okBase f.a
      some (.tailq h f.d a)
  | 0x50 =>
    chk (f.z true true true true true true true true false true) do
      let sc ← scope? (bits f.mod 2 3)
      some (.fence g (kind! (bits f.mod 0 2)) sc)
  | 0x51 =>
    match f.sub.toNat with
    | 0 =>
      chk (f.z true false true true false true true true false true && bits f.mod 3 2 == 0) do
        let lv ← level? (bits f.mod 0 3)
        let n ← lit3? f.a
        some (.barSync g lv n)
    | 1 =>
      chk (f.z false false true true false true true true false false && bits f.mod 3 2 == 0) do
        let lv ← level? (bits f.mod 0 3)
        let n ← lit3? f.a
        some (.barArrive h f.d lv n)
    | 2 =>
      chk (f.z true false false true false true true true false true && bits f.mod 3 2 == 0) do
        let lv ← level? (bits f.mod 0 3)
        let n ← lit3? f.a
        let b ← sel? f.b
        some (.barWait g lv n b)
    | _ => .rej .opcode
  | 0x52 =>
    match f.sub.toNat with
    | 0 => chk (f.z true true true true false true true true true true) (some (.phaseAdv g))
    | 1 =>
      chk (f.z true false false true false true true true true true) do
        let a ← sel? f.a
        let b ← sel? f.b
        some (.phaseWait g a b)
    | 2 =>
      chk (f.z false false true true false true true true true false) do
        let a ← sel? f.a
        some (.phaseRead h f.d a)
    | _ => .rej .opcode
  | 0x53 =>
    chk (f.z true false false true true true true true false true && bits f.mod 2 3 == 0) do
      let a ← selW? true f.a
      let b ← selW? true f.b
      some (.waitge g (bit f.mod 0) (bit f.mod 1) a b)
  | 0x54 =>
    chk (f.z true false true true true true true true true true) do
      let a ← sel? f.a
      some (.backoff g a)
  | 0x58 =>
    chk (f.z true false true true true true true true false true && bits f.mod 2 3 == 0) do
      let a ← selOk? Sel.ok64NoLatch f.a
      some (.copy g (bits f.mod 0 2) a)
  | 0x59 =>
    chk (f.z true false true true true true true true false true && bits f.mod 2 3 == 0) do
      let a ← selOk? Sel.ok64NoLatch f.a
      some (.chain g (bits f.mod 0 2) a)
  | 0x5A =>
    chk (f.z true false false true true true true true true true) do
      need (bits f.a 6 3 == 0 && bits f.a 0 6 != 0)
      let b ← selW? true f.b
      some (.qfence g (bits f.a 0 6) b)
  | 0x5B =>
    match f.sub.toNat with
    | 0 =>
      chk (f.z false false true true false true true true true false) do
        let n ← lit3? f.a
        some (.stgClaim h f.d n)
    | 1 =>
      chk (f.z true false false true false true true true true true) do
        let n ← lit3? f.a
        let b ← sel? f.b
        some (.stgFill g n b)
    | 2 =>
      chk (f.z false false true true false true true true true false) do
        let n ← lit3? f.a
        some (.stgTake h f.d n)
    | 3 =>
      chk (f.z true false false true false true true true true true) do
        let n ← lit3? f.a
        let b ← sel? f.b
        some (.stgFree g n b)
    | 4 =>
      chk (f.z false false true true false true true true true false) do
        let n ← lit3? f.a
        some (.stgQuery h f.d n)
    | _ => .rej .opcode
  | 0x60 =>
    chk (f.z true false true true true true true true true true) do
      let a ← selOk? Sel.ok64NoLatch f.a
      some (.mma g a)
  | 0x61 =>
    chk (f.z true false true true true true true true true true) do
      let a ← selOk? Sel.ok64NoLatch f.a
      some (.mdrain g a)
  | 0x62 =>
    chk (f.z true false false true true true true true true true) do
      need (decide (f.a.toNat ≤ 16) && decide (f.b.toNat ≤ 16))
      some (.mprec g (f.a.setWidth 5) (f.b.setWidth 5))
  | 0x63 =>
    chk (f.z false false true true true true true true true false) do
      let r ← mstatSel? f.a
      let d ← dW? true f.d
      some (.mstat h d r)
  | 0x64 =>
    chk (f.z true true true true true true true true false true && bits f.mod 1 4 == 0)
      (some (.mzero g (bit f.mod 0)))
  | 0x68 =>
    chk (f.z true false true true true true true true true true) do
      let a ← selOk? Sel.ok64NoLatch f.a
      some (.coll g a)
  | 0x69 =>
    chk (f.z false false false true true true true true true false) do
      need (bits f.a 4 5 == 0)
      let d ← dW? true f.d
      let b ← sel? f.b
      some (.cprog h d (bits f.a 0 4) b)
  | _ => .rej .opcode

/-- The FL words (0x70-0x74, R153). -/
def FL.dec (f : FL) : Decoded :=
  let op : Option FLOp := (sel? f.a).map fun a => ⟨f.h.hdr, f.d, a, f.imm⟩
  match f.h.op.toNat with
  | 0x70 => chk (!f.res && f.a == 0) (some (.movi f.h.hdr f.d f.imm))
  | 0x71 => chk (!f.res) (op.map .iaddi)
  | 0x72 => chk (!f.res) (op.map .andi)
  | 0x73 => chk (!f.res) (op.map .ori)
  | 0x74 => chk (!f.res) (op.map .xori)
  | _ => .rej .opcode

/-- What a half's fields say: its reserved fields hold, and its operation once its select is read
(R109). -/
def HalfF.dec (f : HalfF) : Option (Bool × Option Half) :=
  let s := sel? f.s
  let z := f.imm == 0
  let z5 := bits f.imm 5 3 == 0
  let n := bits f.imm 0 5
  match f.op.toNat with
  | 0x00 => some (z && f.d == 0 && f.s == 0, some .nop)
  | 0x01 => some (z, s.map (.iadd f.d))
  | 0x02 => some (z, s.map (.isub f.d))
  | 0x03 => some (z, s.map (.and f.d))
  | 0x04 => some (z, s.map (.or f.d))
  | 0x05 => some (z, s.map (.xor f.d))
  | 0x06 => some (z5, s.map (.shli f.d · n))
  | 0x07 => some (z5, s.map (.shri f.d · n))
  | 0x08 => some (z5, s.map (.sari f.d · n))
  | 0x09 => some (z, s.map (.imin f.d))
  | 0x0A => some (z, s.map (.imax f.d))
  | 0x0B => some (z, s.map (.mov f.d))
  | 0x0C => some (f.s == 0, some (.movi8 f.d f.imm))
  | 0x0D => some (true, s.map (.iaddi8 f.d · f.imm))
  | 0x0E => some (z, s.map (.fadd f.d))
  | 0x0F => some (z, s.map (.fmul f.d))
  | 0x10 => some (z, s.map (.fmin f.d))
  | 0x11 => some (z, s.map (.fmax f.d))
  | 0x12 => some (z, s.map (.hadd2 f.d))
  | 0x13 => some (z, s.map (.hmul2 f.d))
  | _ => none

/-- A pair word (R108-R110). -/
def decPair (w : W64) : Decoded :=
  match (HalfF.of (bits w 32 31)).dec, (HalfF.of (bits w 1 31)).dec with
  | some (rx, ox), some (rz, oz) =>
    chk (rx && rz) do
      let x ← ox
      let z ← oz
      need (pairOk x z)
      some (.pairWord (bit w 0) x z)
  | _, _ => .rej .opcode

/-- Decodes one instruction word: total, and rejecting by the check of R113 that fails (DEDUCED, log 28). -/
def decode (w : W64) : Decoded :=
  if bit w 63 then decPair w
  else
    let op := (Head.of w).op.toNat
    if op < 0x20 then (F3.of w).decInt
    else if op < 0x2C then (FC.of w).dec
    else if op < 0x30 then (F3.of w).decCsr
    else if op < 0x40 then (F3.of w).decFloat
    else if op = 0x42 ∨ op = 0x43 then (FA.of w).dec
    else if op < 0x4C then (FM.of w).dec
    else if op < 0x70 then (F3.of w).decSys
    else (FL.of w).dec

/-! ## The encoder -/

def Sel.enc : Sel → BitVec 9
  | .w n => n.setWidth 9
  | .b n => 0x100#9 + n.setWidth 9
  | .k n => 0x140#9 + n.setWidth 9
  | .i v => 0x1A0#9 + v.signExtend 9

def PSel.enc (p : PSel) : BitVec 9 := 0#5 ++ b1 p.neg ++ p.p

def ITy.enc : ITy → BitVec 3 | .s32 => 0 | .n32 => 1 | .s64 => 2 | .n64 => 3
def FTy.enc : FTy → BitVec 3 | .f32 => 4 | .f16 => 5 | .b16 => 6
def ATy.enc : ATy → BitVec 3 | .int t => t.enc | .flt t => t.enc
def RTy.enc : RTy → BitVec 3 | .int t => t.enc | .f32 => 4
def Rnd.enc : Rnd → BitVec 2 | .rn => 0 | .rz => 1 | .ru => 2 | .rd => 3
def Sz.enc : Sz → BitVec 3 | .b8 => 0 | .b16 => 1 | .b32 => 2 | .b64 => 3 | .b128 => 4
def RT.enc : RT → BitVec 2 | .o => 0 | .w => 1 | .s => 2 | .u => 3
def Scope.enc : Scope → BitVec 3 | .core => 1 | .slice => 2 | .stack => 3 | .ring => 4 | .sys => 5
def Level.enc : Level → BitVec 3 | .core => 1 | .slice => 2 | .stack => 3 | .ring => 4
def FenceKind.enc : FenceKind → BitVec 2 | .acq => 0 | .rel => 1 | .ar => 2 | .sc => 3
def IUnaryOp.enc : IUnaryOp → BitVec 4 | .abs => 0 | .neg => 1 | .not => 2 | .popc => 3 | .clz => 4 | .brev => 5
def LogicOp.enc : LogicOp → BitVec 4 | .and => 0 | .or => 1 | .xor => 2 | .andn => 3 | .orn => 4 | .xnor => 5
def ShiftOp.enc : ShiftOp → BitVec 4 | .shl => 0 | .shr => 1 | .sar => 2 | .rol => 3 | .ror => 4
def ICmpOp.enc : ICmpOp → BitVec 4 | .eq => 0 | .ne => 1 | .lt => 2 | .le => 3 | .gt => 4 | .ge => 5
def PLogicOp.enc : PLogicOp → BitVec 4 | .and => 0 | .or => 1 | .xor => 2 | .not => 3 | .mov => 4
def BallotOp.enc : BallotOp → BitVec 4 | .any => 0 | .all => 1 | .mask => 2
def ShufOp.enc : ShufOp → BitVec 4 | .idx => 0 | .up => 1 | .down => 2 | .xor => 3
def ReduxOp.enc : ReduxOp → BitVec 4 | .add => 0 | .min => 1 | .max => 2 | .and => 3 | .or => 4 | .xor => 5
def ScanOp.enc : ScanOp → BitVec 4 | .inc => 0 | .exc => 1 | .max => 2
def FMinMaxOp.enc : FMinMaxOp → BitVec 4 | .min => 0 | .max => 1
def FCmpOp.enc : FCmpOp → BitVec 4 | .eq => 0 | .ne => 1 | .lt => 2 | .le => 3 | .gt => 4 | .ge => 5 | .un => 6
def FUnaryOp.enc : FUnaryOp → BitVec 4
  | .abs => 0 | .neg => 1 | .floor => 2 | .ceil => 3 | .trunc => 4 | .rint => 5
def FSpecOp.enc : FSpecOp → BitVec 4
  | .rcp => 0 | .rsq => 1 | .sqrt => 2 | .ex2 => 3 | .lg2 => 4 | .sin => 5 | .cos => 6 | .tanh => 7
def AtomOp.enc : AtomOp → BitVec 4
  | .add => 0 | .min => 1 | .max => 2 | .and => 3 | .or => 4 | .xor => 5 | .exch => 6 | .cas => 7 | .fadd => 8
def RedOp.enc : RedOp → BitVec 4
  | .add => 0 | .min => 1 | .max => 2 | .and => 3 | .or => 4 | .xor => 5 | .fadd => 6
def SReg.enc : SReg → BitVec 9
  | .tid => 0 | .gang => 1 | .lane => 2 | .cgx => 3 | .sgx => 4 | .kgx => 5 | .launch => 6 | .seg => 7
  | .core => 8 | .part => 9 | .clock => 10 | .pix => 11 | .bargen => 12 | .phasecur => 13
def MStatSel.enc : MStatSel → BitVec 9
  | .mpx => 0 | .corr => 1 | .gstall => 2 | .cserr => 3 | .nonfin => 4 | .qstat => 5 | .bpused => 6 | .dpx => 7
def Csr.enc : Csr → BitVec 9
  | .tvec => 0x000 | .tcause => 0x001 | .tpc => 0x002 | .tval => 0x003 | .trec => 0x004 | .tstate => 0x005
  | .fpx => 0x010 | .win n d => 0b0100#4 ++ n ++ b1 d | .ctxperm => 0x0A0 | .ringshare => 0x0A8

def Hdr.head (h : Hdr) (op : BitVec 7) : Head := ⟨op, h.gp, h.y, h.nw⟩
def GY.head (h : GY) (op : BitVec 7) : Head := ⟨op, h.gp, h.y, false⟩

/-- An F3 word with the fields given and the rest zero. -/
def encF3 (h : Head) (d : BitVec 8 := 0) (a b c : BitVec 9 := 0) (sub : BitVec 4 := 0) (ty : BitVec 3 := 0)
    (rnd : BitVec 2 := 0) (sat : Bool := false) (mod : BitVec 5 := 0) : W64 :=
  F3.enc ⟨h, d, a, b, c, sub, ty, rnd, sat, mod⟩

def encFM (h : Head) (d : BitVec 8) (m : MemAddr) (b : BitVec 9) (sz : Sz) (rt : RT) (sx : Bool := false) : W64 :=
  FM.enc ⟨h, d, m.a.enc, b, m.off, sz.enc, rt.enc, sx, 0⟩

def encFA (h : Head) (d : BitVec 8) (m : AtomAddr) (b : Sel) (sub : BitVec 4) (sz : Sz) (sc : Scope) : W64 :=
  FA.enc ⟨h, d, m.a.enc, b.enc, m.off, sub, sz.enc, sc.enc, 0⟩

def encFC (h : Head) (aux : BitVec 8 := 0) (t : Target := ⟨0, 0⟩) (flags : BitVec 6 := 0) (sub : BitVec 4 := 0) :
    W64 :=
  FC.enc ⟨h, aux, t.off, t.prio, flags, sub⟩

def IBin.enc (o : IBin) (op : BitVec 7) : W64 :=
  encF3 (o.h.head op) o.d o.a.enc o.b.enc (ty := o.ty.enc) (sat := o.sat)

def IBin0.enc (o : IBin0) (op : BitVec 7) : W64 :=
  encF3 (o.h.head op) o.d o.a.enc o.b.enc (ty := o.ty.enc)

def FBin.enc (o : FBin) (op : BitVec 7) : W64 :=
  encF3 (o.h.head op) o.d o.a.enc o.b.enc (ty := o.ty.enc) (rnd := o.rnd.enc) (sat := o.sat)

def FTern.enc (o : FTern) (op : BitVec 7) : W64 :=
  encF3 (o.h.head op) o.d o.a.enc o.b.enc o.c.enc (ty := o.ty.enc) (rnd := o.rnd.enc) (sat := o.sat)

def FLOp.enc (o : FLOp) (op : BitVec 7) : W64 := FL.enc ⟨o.h.head op, o.d, o.a.enc, o.imm, false⟩

def Half.enc (h : Half) : BitVec 31 :=
  HalfF.enc <|
    match h with
    | .nop => ⟨0x00, 0, 0, 0⟩
    | .iadd d s => ⟨0x01, d, s.enc, 0⟩
    | .isub d s => ⟨0x02, d, s.enc, 0⟩
    | .and d s => ⟨0x03, d, s.enc, 0⟩
    | .or d s => ⟨0x04, d, s.enc, 0⟩
    | .xor d s => ⟨0x05, d, s.enc, 0⟩
    | .shli d s n => ⟨0x06, d, s.enc, n.setWidth 8⟩
    | .shri d s n => ⟨0x07, d, s.enc, n.setWidth 8⟩
    | .sari d s n => ⟨0x08, d, s.enc, n.setWidth 8⟩
    | .imin d s => ⟨0x09, d, s.enc, 0⟩
    | .imax d s => ⟨0x0A, d, s.enc, 0⟩
    | .mov d s => ⟨0x0B, d, s.enc, 0⟩
    | .movi8 d imm => ⟨0x0C, d, 0, imm⟩
    | .iaddi8 d s imm => ⟨0x0D, d, s.enc, imm⟩
    | .fadd d s => ⟨0x0E, d, s.enc, 0⟩
    | .fmul d s => ⟨0x0F, d, s.enc, 0⟩
    | .fmin d s => ⟨0x10, d, s.enc, 0⟩
    | .fmax d s => ⟨0x11, d, s.enc, 0⟩
    | .hadd2 d s => ⟨0x12, d, s.enc, 0⟩
    | .hmul2 d s => ⟨0x13, d, s.enc, 0⟩

/-- The word of an instruction, from the encoding tables; the events of the table have none. -/
def encode : Instr → Option W64
  | .nop g => some (encF3 (g.head 0x00))
  | .iadd o => some (o.enc 0x01)
  | .isub o => some (o.enc 0x02)
  | .imul o => some (o.enc 0x03)
  | .imulhi o => some (o.enc 0x04)
  | .imad o => some (encF3 (o.h.head 0x05) o.d o.a.enc o.b.enc o.c.enc (ty := o.ty.enc) (sat := o.sat))
  | .imin o => some (o.enc 0x06)
  | .imax o => some (o.enc 0x07)
  | .iunary h op d ty sat a => some (encF3 (h.head 0x08) d a.enc (sub := op.enc) (ty := ty.enc) (sat := sat))
  | .logic h op d ty a b => some (encF3 (h.head 0x09) d a.enc b.enc (sub := op.enc) (ty := ty.enc))
  | .shift h op d ty a b => some (encF3 (h.head 0x0A) d a.enc b.enc (sub := op.enc) (ty := ty.enc))
  | .bfx h d ty a b => some (encF3 (h.head 0x0B) d a.enc b.enc (ty := ty.enc))
  | .bfi h d ty a b c => some (encF3 (h.head 0x0C) d a.enc b.enc c.enc (ty := ty.enc))
  | .perm h d a b c => some (encF3 (h.head 0x0D) d a.enc b.enc c.enc)
  | .sel h d ty a b c => some (encF3 (h.head 0x0E) d a.enc b.enc c.enc (ty := ty.enc))
  | .icmp g op d ty a b =>
      some (encF3 (g.head 0x0F) (d.setWidth 8) a.enc b.enc (sub := op.enc) (ty := ty.enc))
  | .plogic g op d a b => some (encF3 (g.head 0x10) (d.setWidth 8) a.enc b.enc (sub := op.enc))
  | .lea h d sg sh a b =>
      some (encF3 (h.head 0x11) d a.enc b.enc (ty := if sg then 2 else 3) (mod := sh.setWidth 5))
  | .mov h d w64 a => some (encF3 (h.head 0x12) d a.enc (mod := if w64 then 1 else 0))
  | .kset g d a => some (encF3 (g.head 0x13) (d.setWidth 8) a.enc)
  | .sreg h d r => some (encF3 (h.head 0x14) d r.enc)
  | .fmtq h d f => some (encF3 (h.head 0x15) d (f.setWidth 9))
  | .ballot h op d a => some (encF3 (h.head 0x18) d a.enc (sub := op.enc))
  | .shuf h op d ty a b => some (encF3 (h.head 0x19) d a.enc b.enc (sub := op.enc) (ty := ty.enc))
  | .redux h op d ty r a => some (encF3 (h.head 0x1A) d a.enc (sub := op.enc) (ty := ty.enc) (rnd := r.enc))
  | .scan h op d ty r a => some (encF3 (h.head 0x1B) d a.enc (sub := op.enc) (ty := ty.enc) (rnd := r.enc))
  | .bra g t close => some (encFC (g.head 0x20) (t := t) (flags := if close then 1 else 0))
  | .brx g aux => some (encFC (g.head 0x21) aux)
  | .call g t => some (encFC (g.head 0x22) (t := t))
  | .callx g aux => some (encFC (g.head 0x23) aux)
  | .ret g => some (encFC (g.head 0x24))
  | .exit g => some (encFC (g.head 0x25))
  | .yield g => some (encFC (g.head 0x26))
  | .trap g aux => some (encFC (g.head 0x27) aux)
  | .brk g aux => some (encFC (g.head 0x28) aux)
  | .region y => some (encFC ⟨0x29, 7, y, false⟩)
  | .nopreOpen g aux => some (encFC (g.head 0x2A) aux)
  | .nopreShut g => some (encFC (g.head 0x2A) (sub := 1))
  | .eret g => some (encFC (g.head 0x2B))
  | .csrr h d c => some (encF3 (h.head 0x2C) d (b := c.enc))
  | .csrw g c a => some (encF3 (g.head 0x2D) (a := a.enc) (b := c.enc))
  | .fadd o => some (o.enc 0x30)
  | .fmul o => some (o.enc 0x31)
  | .ffma o => some (o.enc 0x32)
  | .fminmax h op d ty a b => some (encF3 (h.head 0x33) d a.enc b.enc (sub := op.enc) (ty := ty.enc))
  | .fcmp g op d ty a b =>
      some (encF3 (g.head 0x34) (d.setWidth 8) a.enc b.enc (sub := op.enc) (ty := ty.enc))
  | .funary h op d ty r a => some (encF3 (h.head 0x35) d a.enc (sub := op.enc) (ty := ty.enc) (rnd := r.enc))
  | .fspec h op d ty a => some (encF3 (h.head 0x36) d a.enc (sub := op.enc) (ty := ty.enc))
  | .twosum h d a b => some (encF3 (h.head 0x37) d a.enc b.enc (ty := 4))
  | .hadd2 o => some (o.enc 0x38)
  | .hmul2 o => some (o.enc 0x39)
  | .hfma2 o => some (o.enc 0x3A)
  | .cvt h d dst src r sat a =>
      some (encF3 (h.head 0x3B) d a.enc (ty := dst.enc) (rnd := r.enc) (sat := sat) (mod := src.enc.setWidth 5))
  | .qpack h d a f => some (encF3 (h.head 0x3C) d a.enc (c := f.setWidth 9) (ty := 4))
  | .qunpack h d q4 zp0 a b c =>
      some (encF3 (h.head 0x3D) d a.enc b.enc c.enc (ty := 4) (mod := 0#3 ++ b1 zp0 ++ b1 q4))
  | .fclass h d ty a => some (encF3 (h.head 0x3E) d a.enc (ty := ty.enc))
  | .pairWord y x z => some (1#1 ++ x.enc ++ z.enc ++ b1 y)
  | .movi h d imm => some (FL.enc ⟨h.head 0x70, d, 0, imm, false⟩)
  | .iaddi o => some (o.enc 0x71)
  | .andi o => some (o.enc 0x72)
  | .ori o => some (o.enc 0x73)
  | .xori o => some (o.enc 0x74)
  | .ld h d m sz sx rt => some (encFM (h.head 0x40) d m 0 sz rt sx)
  | .st g m b sz rt => some (encFM (g.head 0x41) 0 m b.enc sz rt)
  | .atom h op d m b sz sc => some (encFA (h.head 0x42) d m b op.enc sz sc)
  | .red g op m b sz sc => some (encFA (g.head 0x43) 0 m b op.enc sz sc)
  | .gather h d m b sz sx rt => some (encFM (h.head 0x44) d m (b.setWidth 9) sz rt sx)
  | .scatter g m b sz rt => some (encFM (g.head 0x45) 0 m (b.setWidth 9) sz rt)
  | .cst g m b sz rt => some (encFM (g.head 0x46) 0 m (b.setWidth 9) sz rt)
  | .pref g m sz rt => some (encFM (g.head 0x47) 0 m 0 sz rt)
  | .pginfo h d m => some (encFM (h.head 0x48) d m 0 .b64 .u)
  | .tagset g m b sz => some (encFM (g.head 0x49) 0 m b.enc sz .u)
  | .appendRes h d a b => some (encF3 (h.head 0x4C) d a.enc b.enc)
  | .appendQuery h d a => some (encF3 (h.head 0x4C) d a.enc (sub := 1))
  | .sealPlain h d a => some (encF3 (h.head 0x4D) d a.enc)
  | .sealBcast h d a => some (encF3 (h.head 0x4D) d a.enc (sub := 1))
  | .tailq h d a => some (encF3 (h.head 0x4E) d a.enc)
  | .fence g k sc => some (encF3 (g.head 0x50) (mod := sc.enc ++ k.enc))
  | .barSync g lv n => some (encF3 (g.head 0x51) (a := n.setWidth 9) (mod := lv.enc.setWidth 5))
  | .barArrive h d lv n =>
      some (encF3 (h.head 0x51) d (n.setWidth 9) (sub := 1) (mod := lv.enc.setWidth 5))
  | .barWait g lv n b =>
      some (encF3 (g.head 0x51) (a := n.setWidth 9) (b := b.enc) (sub := 2) (mod := lv.enc.setWidth 5))
  | .phaseAdv g => some (encF3 (g.head 0x52))
  | .phaseWait g a b => some (encF3 (g.head 0x52) (a := a.enc) (b := b.enc) (sub := 1))
  | .phaseRead h d a => some (encF3 (h.head 0x52) d a.enc (sub := 2))
  | .waitge g err sys a b =>
      some (encF3 (g.head 0x53) (a := a.enc) (b := b.enc) (mod := 0#3 ++ b1 sys ++ b1 err))
  | .backoff g a => some (encF3 (g.head 0x54) (a := a.enc))
  | .copy g q a => some (encF3 (g.head 0x58) (a := a.enc) (mod := q.setWidth 5))
  | .chain g q a => some (encF3 (g.head 0x59) (a := a.enc) (mod := q.setWidth 5))
  | .qfence g m b => some (encF3 (g.head 0x5A) (a := m.setWidth 9) (b := b.enc))
  | .stgClaim h d n => some (encF3 (h.head 0x5B) d (n.setWidth 9))
  | .stgFill g n b => some (encF3 (g.head 0x5B) (a := n.setWidth 9) (b := b.enc) (sub := 1))
  | .stgTake h d n => some (encF3 (h.head 0x5B) d (n.setWidth 9) (sub := 2))
  | .stgFree g n b => some (encF3 (g.head 0x5B) (a := n.setWidth 9) (b := b.enc) (sub := 3))
  | .stgQuery h d n => some (encF3 (h.head 0x5B) d (n.setWidth 9) (sub := 4))
  | .mma g a => some (encF3 (g.head 0x60) (a := a.enc))
  | .mdrain g a => some (encF3 (g.head 0x61) (a := a.enc))
  | .mprec g wa wb => some (encF3 (g.head 0x62) (a := wa.setWidth 9) (b := wb.setWidth 9))
  | .mstat h d r => some (encF3 (h.head 0x63) d r.enc)
  | .mzero g bank => some (encF3 (g.head 0x64) (mod := if bank then 1 else 0))
  | .coll g a => some (encF3 (g.head 0x68) (a := a.enc))
  | .cprog h d group b => some (encF3 (h.head 0x69) d (group.setWidth 9) b.enc)
  | _ => none

/-- The instruction of a 64-bit word given by its bits; the table gives its rows no bits, and a word
of this machine is 64 bits long (R98). -/
def decodeTableWord (_nbits w : Nat) : Option Instr :=
  match decode (BitVec.ofNat 64 w) with
  | .ok i => some i
  | .rej _ => none

end Sys2Proof
end

