-- ==== Sys2Proof/Config.lean ====
section
/-! DEFINITION. What the spec leaves open: free values, opaque to every proof (DESIGN CHOICE, log 1). -/

namespace Sys2Proof.Config

/-- A fresh free value for each count (DESIGN CHOICE, log 1): used where the spec allows either of two outcomes. -/
opaque freeWord : Nat → W64

/-- The F32 result bits of RSQ, EX2, LG2, SIN, COS and TANH, open within R189's bounds (DESIGN CHOICE, log 6). -/
opaque fspec : FSpecOp → W32 → W32

/-- By how much the CLOCK of a segment is ahead of the package's count, taken mod 65 (R156, DESIGN CHOICE, log 5). -/
opaque clockSkew : Nat → Nat

/-- The host page to which the host translates an IA page of a partition under a PASID, after so many changes of the
translation (R51, R235, DESIGN CHOICE, log 9). -/
opaque atsPage : Nat → Nat → Nat → Nat → Nat

/-- The rights that the host's translation grants, after so many changes: read, write, execute in bits 0-2 (R207, DESIGN
CHOICE, log 9). -/
opaque atsRights : Nat → Nat → Nat → Nat → BitVec 3

/-- The host's translation returns access, after so many changes, without a page request (R235, DESIGN CHOICE, log 9). -/
opaque atsPresent : Nat → Nat → Nat → Nat → Bool

/-- The page requests that a function may have outstanding, as system software sets them (R235, DESIGN CHOICE, log 32);
taken as 1 at least. -/
opaque priAllocation : Nat → Nat

/-- How a host port's AtomicOp completes, by port, address and a count: 0 done, 1 unsupported or aborted, 2 poisoned
(R338, DESIGN CHOICE, log 9). -/
opaque hostAtomic : Nat → Nat → Nat → Nat

/-- The fabric peer's answer to a request: 0 performed, 1 denied, 2 poison (R207, DESIGN CHOICE, log 9). -/
opaque peerAnswer : Nat → Nat

/-- The memory controller grants a key to a partition (R87, R409, DESIGN CHOICE, log 11). -/
opaque keyGranted : Nat → Nat → Bool

/-- A partition's access table grants a port: 0 and 1 the host ports, 2 + n fabric port n (R409) (DESIGN CHOICE, log
11). -/
opaque portGranted : Nat → Nat → Bool

/-- The set of a hotness table in which the count of a partition's page and source lies (R93, DESIGN CHOICE, log 30). -/
opaque hotSet : Nat → Nat → Nat → Nat

/-- The bank of its stack in which a granule lies (R413 gives each stack 32). -/
opaque bankOf : Nat → Nat

end Sys2Proof.Config
end

