-- ==== Sys2Proof/Machine/Float.lean ====
section
/-! DEFINITION. Exact floating-point arithmetic: formats, rounding and flags (R7, R173-R180), the
operations of R184-R191, and the special functions with their bounds (R189, R190). -/

namespace Sys2Proof.Machine

/-- The five flags of R180, as FPX holds them (R181): NX, UF, OF, DZ, NV from bit 0. -/
abbrev Flags := BitVec 5

def fNX : Flags := 1
def fUF : Flags := 2
def fOF : Flags := 4
def fDZ : Flags := 8
def fNV : Flags := 16

def flagIf (b : Bool) (f : Flags) : Flags := if b then f else 0

/-- Precision, lowest normal exponent, highest exponent, width (R173). -/
structure Fmt where
  p : Nat
  emin : Int
  emax : Int
  w : Nat
deriving DecidableEq, Repr

def fmtOf : FTy → Fmt
  | .f32 => ⟨24, -126, 127, 32⟩
  | .f16 => ⟨11, -14, 15, 16⟩
  | .b16 => ⟨8, -126, 127, 16⟩

/-- A floating-point datum. `fin neg m e` is the non-zero value (-1)^neg * m * 2^e. -/
inductive FV where
  | nan (signalling : Bool)
  | inf (neg : Bool)
  | zero (neg : Bool)
  | fin (neg : Bool) (m : Nat) (e : Int)
deriving DecidableEq, Repr

/-- Reads the bits of a format (R173). -/
def unpack (t : FTy) (x : Nat) : FV :=
  let f := fmtOf t
  let frac := x % 2 ^ (f.p - 1)
  let ex := (x >>> (f.p - 1)) % 2 ^ (f.w - f.p)
  let neg := (x >>> (f.w - 1)) % 2 == 1
  if ex = 2 ^ (f.w - f.p) - 1 then
    if frac = 0 then .inf neg else .nan (frac < 2 ^ (f.p - 2))
  else if ex = 0 then
    if frac = 0 then .zero neg else .fin neg frac (f.emin - (f.p - 1 : Nat))
  else .fin neg (2 ^ (f.p - 1) + frac) (f.emin - (f.p - 1 : Nat) + (ex - 1 : Nat))

/-- The sign bit in place. -/
def signBit (t : FTy) (neg : Bool) : Nat := if neg then 2 ^ ((fmtOf t).w - 1) else 0

/-- The infinity of a sign. -/
def infBits (t : FTy) (neg : Bool) : Nat :=
  let f := fmtOf t
  signBit t neg + (2 ^ (f.w - f.p) - 1) * 2 ^ (f.p - 1)

/-- The largest finite value of a sign. -/
def maxBits (t : FTy) (neg : Bool) : Nat := infBits t neg - 1

/-- The canonical NaN (R173, R174). -/
def nanBits (t : FTy) : Nat := infBits t false + 2 ^ ((fmtOf t).p - 2)

/-- The magnitude is rounded up: `rem` of `2^s` lies below the kept part (R178). -/
def roundUp (r : Rnd) (neg : Bool) (n rem s : Nat) (sticky : Bool) : Bool :=
  let inexact := rem != 0 || sticky
  match r with
  | .rn =>
    let half := if s = 0 then 0 else 2 ^ (s - 1)
    if s = 0 then false
    else rem > half || (rem == half && (sticky || n % 2 == 1))
  | .rz => false
  | .ru => inexact && !neg
  | .rd => inexact && neg

/-- `m * 2^e` cut to multiples of `2^q` and rounded; also whether that was exact. -/
def cutRound (r : Rnd) (neg : Bool) (m : Nat) (e q : Int) (sticky : Bool) : Nat × Bool :=
  if q ≤ e then (m <<< (e - q).toNat, !sticky)
  else
    let s := (q - e).toNat
    let n := m >>> s
    let rem := m % 2 ^ s
    (if roundUp r neg n rem s sticky then n + 1 else n, rem == 0 && !sticky)

/-- Rounds (-1)^neg * (m + sticky) * 2^e, which is not zero, to a format, with flags (R178, R180). A
sticky value has at least two bits more than the precision. -/
def roundMag (t : FTy) (r : Rnd) (neg : Bool) (m : Nat) (e : Int) (sticky : Bool := false) : Nat × Flags :=
  let f := fmtOf t
  let pm : Int := (f.p - 1 : Nat)
  let ex : Int := (Nat.log2 m : Nat) + e
  let qn := ex - pm
  let qs := f.emin - pm
  let q := if qn < qs then qs else qn
  let (n, exact) := cutRound r neg m e q sticky
  let (nu, _) := cutRound r neg m e qn sticky
  let tiny := ex < f.emin && !(ex + 1 == f.emin && nu == 2 ^ f.p)
  let (n, q) := if n == 2 ^ f.p then (2 ^ (f.p - 1), q + 1) else (n, q)
  if q + pm > f.emax then
    let toInf :=
      match r with
      | .rn => true
      | .rz => false
      | .ru => !neg
      | .rd => neg
    (if toInf then infBits t neg else maxBits t neg, fOF ||| fNX)
  else
    let bits := if n < 2 ^ (f.p - 1) then n else (q - qs).toNat * 2 ^ (f.p - 1) + n
    (signBit t neg + bits, flagIf (!exact) fNX ||| flagIf (tiny && !exact) fUF)

/-- An exact integer times a power of two, rounded; an exact zero takes the sign given. -/
def roundInt (t : FTy) (r : Rnd) (m e : Int) (zneg : Bool) : Nat × Flags :=
  if m = 0 then (signBit t zneg, 0) else roundMag t r (m < 0) m.natAbs e

/-- The sign of an exact zero sum of operands of opposite sign (R178). -/
def zeroSumNeg (r : Rnd) : Bool := r == .rd

def FV.isNan : FV → Bool
  | .nan _ => true
  | _ => false

def FV.isSnan : FV → Bool
  | .nan s => s
  | _ => false

def FV.isInf : FV → Bool
  | .inf _ => true
  | _ => false

def FV.neg : FV → Bool
  | .nan _ => false
  | .inf n => n
  | .zero n => n
  | .fin n _ _ => n

/-- The integer of a finite value at exponent `e`, which is at most its own. -/
def FV.intAt (x : FV) (e : Int) : Int :=
  match x with
  | .fin n m e' => (if n then -1 else 1) * ((m <<< (e' - e).toNat : Nat) : Int)
  | _ => 0

def FV.exp : FV → Int
  | .fin _ _ e => e
  | _ => 0

/-- Adds two data exactly and rounds (R184). -/
def fvAdd (t : FTy) (r : Rnd) (x y : FV) : Nat × Flags :=
  if x.isNan || y.isNan then (nanBits t, flagIf (x.isSnan || y.isSnan) fNV)
  else
    match x, y with
    | .inf a, .inf b => if a = b then (infBits t a, 0) else (nanBits t, fNV)
    | .inf a, _ => (infBits t a, 0)
    | _, .inf b => (infBits t b, 0)
    | .zero a, .zero b => (signBit t (if a = b then a else zeroSumNeg r), 0)
    | .zero _, .fin n m e => roundMag t r n m e
    | .fin n m e, .zero _ => roundMag t r n m e
    | x, y =>
      let e := min x.exp y.exp
      roundInt t r (x.intAt e + y.intAt e) e (zeroSumNeg r)

/-- The exact product of two data that are no NaN and no 0 times infinity. -/
def fvMulExact (x y : FV) : FV :=
  let n := x.neg != y.neg
  match x, y with
  | .fin _ a e, .fin _ b e' => .fin n (a * b) (e + e')
  | .inf _, _ => .inf n
  | _, .inf _ => .inf n
  | _, _ => .zero n

/-- 0 times infinity (R184). -/
def badMul : FV → FV → Bool
  | .zero _, .inf _ => true
  | .inf _, .zero _ => true
  | _, _ => false

def fvMul (t : FTy) (r : Rnd) (x y : FV) : Nat × Flags :=
  if x.isNan || y.isNan then (nanBits t, flagIf (x.isSnan || y.isSnan) fNV)
  else if badMul x y then (nanBits t, fNV)
  else
    match fvMulExact x y with
    | .fin n m e => roundMag t r n m e
    | .inf n => (infBits t n, 0)
    | .zero n => (signBit t n, 0)
    | .nan _ => (nanBits t, 0)

def fvFma (t : FTy) (r : Rnd) (x y z : FV) : Nat × Flags :=
  if badMul x y then (nanBits t, fNV)
  else if x.isNan || y.isNan || z.isNan then
    (nanBits t, flagIf (x.isSnan || y.isSnan || z.isSnan) fNV)
  else fvAdd t r (fvMulExact x y) z

/-- Saturation of a result (R179). -/
def satBits (t : FTy) (sat : Bool) (x : Nat) : Nat :=
  if sat then
    match unpack t x with
    | .inf n => maxBits t n
    | .nan _ => 0
    | _ => x
  else x

def fAdd (t : FTy) (r : Rnd) (a b : Nat) : Nat × Flags := fvAdd t r (unpack t a) (unpack t b)
def fMul (t : FTy) (r : Rnd) (a b : Nat) : Nat × Flags := fvMul t r (unpack t a) (unpack t b)
def fFma (t : FTy) (r : Rnd) (a b c : Nat) : Nat × Flags := fvFma t r (unpack t a) (unpack t b) (unpack t c)

/-- The bits with the sign inverted. -/
def fNeg (t : FTy) (a : Nat) : Nat := a ^^^ 2 ^ ((fmtOf t).w - 1)

/-- `x < y` as data: -0 equals +0 here; NaNs compare false. -/
def fvLt (x y : FV) : Bool :=
  match x, y with
  | .nan _, _ => false
  | _, .nan _ => false
  | .inf a, .inf b => a && !b
  | .inf a, _ => a
  | _, .inf b => !b
  | x, y =>
    let e := min x.exp y.exp
    x.intAt e < y.intAt e

/-- `x = y` as data: -0 equals +0; NaNs compare false. -/
def fvEq (x y : FV) : Bool :=
  match x, y with
  | .nan _, _ => false
  | _, .nan _ => false
  | .inf a, .inf b => a == b
  | .inf _, _ => false
  | _, .inf _ => false
  | x, y =>
    let e := min x.exp y.exp
    x.intAt e == y.intAt e

/-- FMINMAX (R185). -/
def fMinMax (t : FTy) (op : FMinMaxOp) (a b : Nat) : Nat × Flags :=
  let x := unpack t a
  let y := unpack t b
  let fl := flagIf (x.isSnan || y.isSnan) fNV
  if x.isNan && y.isNan then (nanBits t, fl)
  else if x.isNan then (b, fl)
  else if y.isNan then (a, fl)
  else
    let aLess := fvLt x y || (fvEq x y && x.neg && !y.neg)
    match op with
    | .min => (if aLess then a else b, fl)
    | .max => (if aLess then b else a, fl)

/-- FCMP (R186). -/
def fCmp (t : FTy) (op : FCmpOp) (a b : Nat) : Bool × Flags :=
  let x := unpack t a
  let y := unpack t b
  let un := x.isNan || y.isNan
  let s := flagIf (x.isSnan || y.isSnan) fNV
  let q := flagIf un fNV
  match op with
  | .eq => (fvEq x y, s)
  | .ne => (un || !fvEq x y, s)
  | .un => (un, s)
  | .lt => (fvLt x y, q)
  | .le => (fvLt x y || fvEq x y, q)
  | .gt => (fvLt y x, q)
  | .ge => (fvLt y x || fvEq x y, q)

/-- The magnitude `m * 2^e` as an integer in a rounding mode, and whether that was exact. -/
def intMag (r : Rnd) (neg : Bool) (m : Nat) (e : Int) : Nat × Bool := cutRound r neg m e 0 false

/-- The integral value of a datum in a mode (R187): bits and whether the value changed. -/
def fIntegral (t : FTy) (r : Rnd) (a : Nat) : Nat × Bool :=
  match unpack t a with
  | .fin n m e =>
    let (k, exact) := intMag r n m e
    (if k = 0 then signBit t n else (roundMag t .rn n k 0).1, !exact)
  | _ => (a, false)

/-- FUNARY (R187). -/
def fUnary (t : FTy) (op : FUnaryOp) (r : Rnd) (a : Nat) : Nat × Flags :=
  let half := 2 ^ ((fmtOf t).w - 1)
  match op with
  | .abs => (a % half, 0)
  | .neg => (a ^^^ half, 0)
  | _ =>
    match unpack t a with
    | .nan s => (nanBits t, flagIf s fNV)
    | _ =>
      let mode := match op with
        | .floor => Rnd.rd
        | .ceil => Rnd.ru
        | .trunc => Rnd.rz
        | _ => r
      let (x, ch) := fIntegral t mode a
      (x, flagIf (op == .rint && ch) fNX)

/-- FCLASS (R188). -/
def fClass (t : FTy) (a : Nat) : Nat :=
  match unpack t a with
  | .inf n => if n then 1 else 2 ^ 7
  | .zero n => if n then 2 ^ 3 else 2 ^ 4
  | .nan s => if s then 2 ^ 8 else 2 ^ 9
  | .fin n m _ =>
    let sub := m < 2 ^ ((fmtOf t).p - 1)
    if n then (if sub then 2 ^ 2 else 2 ^ 1) else (if sub then 2 ^ 5 else 2 ^ 6)

/-- An F32 value is infinite or NaN. -/
def notFinite (x : Nat) : Bool := match unpack .f32 x with | .inf _ | .nan _ => true | _ => false

/-- The steps of TwoSum after its first addition (R7). -/
def sumError (s a b : Nat) : Nat :=
  let add (x y : Nat) := (fAdd .f32 .rn x y).1
  let sub (x y : Nat) := add x (fNeg .f32 y)
  let t := sub s a
  add (sub a (sub s t)) (sub b t)

/-- TwoSum of R7 with the flags of its first addition (R191). Where a step overflows though s is finite, the steps with a
and b exchanged do not, and give the exact error that R7 states (DEDUCED, log 116). -/
def twoSum (a b : Nat) : (Nat × Nat) × Flags :=
  let (s, fl) := fAdd .f32 .rn a b
  if notFinite s then ((s, 0), fl)
  else
    let e := sumError s a b
    ((s, if notFinite e then sumError s b a else e), fl)

/-! ## Conversion (R194) -/

/-- The range of an integer type. -/
def iLo : ITy → Int
  | .s32 => -2 ^ 31 | .s64 => -2 ^ 63 | _ => 0
def iHi : ITy → Int
  | .s32 => 2 ^ 31 - 1 | .n32 => 2 ^ 32 - 1 | .s64 => 2 ^ 63 - 1 | .n64 => 2 ^ 64 - 1

/-- An integer within bounds. -/
def clampInt (x lo hi : Int) : Int := if x < lo then lo else if hi < x then hi else x

/-- A float rounded to an integer type (R194). -/
def cvtToInt (src : FTy) (dst : ITy) (r : Rnd) (a : Nat) : Int × Flags :=
  match unpack src a with
  | .nan _ => (0, fNV)
  | .inf n => (if n then iLo dst else iHi dst, fNV)
  | .zero _ => (0, 0)
  | .fin n m e =>
    let (k, exact) := intMag r n m e
    let x : Int := if n then -(k : Int) else k
    if iLo dst ≤ x ∧ x ≤ iHi dst then (x, flagIf (!exact) fNX)
    else (clampInt x (iLo dst) (iHi dst), fNV)

/-- A float in another format, or its own (R194). -/
def cvtFloat (src dst : FTy) (r : Rnd) (a : Nat) : Nat × Flags :=
  match unpack src a with
  | .nan s => (nanBits dst, flagIf s fNV)
  | .inf n => (infBits dst n, 0)
  | .zero n => (signBit dst n, 0)
  | .fin n m e => if src = dst then (a, 0) else roundMag dst r n m e

/-! ## Quotients and roots -/

/-- The integer square root, bit by bit. -/
def isqrtGo : Nat → Nat → Nat → Nat
  | 0, _, r => r
  | k + 1, x, r =>
    let c := r + 2 ^ k
    isqrtGo k x (if c * c ≤ x then c else r)

def isqrt (x : Nat) : Nat := isqrtGo (Nat.log2 x / 2 + 1) x 0

/-- num / den * 2^e rounded to a format; num and den are positive. -/
def roundRat (t : FTy) (r : Rnd) (neg : Bool) (num den : Nat) (e : Int) : Nat × Flags :=
  let k := 64 + Nat.log2 den
  let n := num <<< k
  roundMag t r neg (n / den) (e - k) (n % den != 0)

/-- The nearest integer to a quotient, ties to even (RNE of R7); `d` is positive. -/
def rneDiv (n : Int) (d : Nat) : Int :=
  let q := n.fdiv d
  let rem := (n - q * d).toNat
  if 2 * rem > d ∨ (2 * rem = d ∧ q % 2 = 1) then q + 1 else q

/-- 1/a in F32 (R189). -/
def rcpMag (neg : Bool) (m : Nat) (e : Int) : Nat × Flags := roundRat .f32 .rn neg 1 m (-e)

/-- The square root of m * 2^e in F32 (R189). -/
def sqrtMag (m : Nat) (e : Int) : Nat × Flags :=
  let odd := e % 2 = 1
  let m' := if odd then 2 * m else m
  let e' := if odd then e - 1 else e
  let x := m' <<< 128
  let s := isqrt x
  roundMag .f32 .rn false s (e' / 2 - 64) (s * s != x)

/-! ## Special functions, held to R189's bounds (DESIGN CHOICE, log 6) -/

/-- A real as m * 2^e, accurate far beyond F32. -/
structure Real' where
  m : Int
  e : Int
deriving DecidableEq, Repr

/-- Fraction bits of the working precision. -/
def wp : Nat := 128

def ln2W : Nat := 235865763225513294137944142764154484399
def pi400 : Nat := 8112377246730971238862271351300894519161151600179265203591191037615230905373990498745523360926816815427566779727327576236

/-- exp(x) for x = X / 2^wp in [0, 1), by its series. -/
def expGo : Nat → Nat → Nat → Nat → Nat → Nat
  | 0, _, _, _, acc => acc
  | f + 1, k, x, term, acc =>
    let t := (term * x) / 2 ^ wp / k
    expGo f (k + 1) x t (acc + t)

def expW (x : Nat) : Nat := expGo 40 1 x (2 ^ wp) (2 ^ wp)

/-- sin or cos of X / 2^wp in [0, 2), by its series; `k` is 1 for sin and 0 for cos. -/
def trigGo : Nat → Nat → Nat → Int → Int → Int
  | 0, _, _, _, acc => acc
  | f + 1, k, x2, term, acc =>
    let t := -((term * x2) / 2 ^ wp / ((k + 1) * (k + 2) : Nat))
    trigGo f (k + 2) x2 t (acc + t)

def sinW (x : Nat) : Int := trigGo 24 1 (x * x / 2 ^ wp) x x
def cosW (x : Nat) : Int := trigGo 24 0 (x * x / 2 ^ wp) (2 ^ wp) (2 ^ wp)

/-- 2^a for a finite value. -/
def ex2R (neg : Bool) (m : Nat) (e : Int) : Real' :=
  let fx : Nat := if e + wp ≥ 0 then m <<< (min (e + wp).toNat 400) else m >>> (-(e + wp)).toNat
  let x : Int := if neg then -(fx : Int) else fx
  let n := x.fdiv (2 ^ wp)
  let fr := (x - n * 2 ^ wp).toNat
  let n := clampInt n (-1000) 1000
  ⟨expW (fr * ln2W / 2 ^ wp), n - wp⟩

/-- log2 of a value in [1, 2), bit by bit: fraction bits of the result. -/
def lg2Go : Nat → Nat → Nat → Nat
  | 0, _, acc => acc
  | f + 1, x, acc =>
    let y := x * x / 2 ^ wp
    if y ≥ 2 ^ (wp + 1) then lg2Go f (y / 2) (2 * acc + 1) else lg2Go f y (2 * acc)

/-- log2 of m * 2^e. -/
def lg2R (m : Nat) (e : Int) : Real' :=
  let l := Nat.log2 m
  let x := (m <<< wp) >>> l
  ⟨((l : Int) + e) * 2 ^ 100 + lg2Go 100 x 0, -100⟩

/-- sin or cos: exact argument reduction by quarter turns (R189). -/
def trigR (cosine neg : Bool) (m : Nat) (e : Int) : Real' :=
  let a : Nat := if e + 400 ≥ 0 then m <<< (e + 400).toNat else m >>> (-(e + 400)).toNat
  let half := pi400 / 2
  let n := a / half
  let r := (a - n * half) >>> (400 - wp)
  let q := (n + if cosine then 1 else 0) % 4
  let v : Int := match q with
    | 0 => sinW r
    | 1 => cosW r
    | 2 => -sinW r
    | _ => -cosW r
  ⟨if neg && !cosine then -v else v, -wp⟩

/-- tanh. -/
def tanhR (neg : Bool) (m : Nat) (e : Int) : Real' :=
  -- exp(-2x) = 2^(-2x / ln 2)
  let fx : Nat := if e + wp ≥ 0 then m <<< (min (e + wp).toNat 400) else m >>> (-(e + wp)).toNat
  let y := min (2 * fx * 2 ^ wp / ln2W) (200 * 2 ^ wp)
  let n := y / 2 ^ wp
  let fr := y % 2 ^ wp
  let ex := if fr = 0 then (2 ^ wp) >>> n else (expW ((2 ^ wp - fr) * ln2W / 2 ^ wp)) >>> (n + 1)
  let v : Int := ((2 ^ wp - (ex : Int)) * 2 ^ wp) / (2 ^ wp + (ex : Int))
  ⟨if neg then -v else v, -wp⟩

/-- 1 / sqrt of m * 2^e. -/
def rsqR (m : Nat) (e : Int) : Real' :=
  let odd := e % 2 = 1
  let m' := if odd then 2 * m else m
  let e' := if odd then e - 1 else e
  ⟨isqrt (2 ^ 260 / m'), -130 - e' / 2⟩

/-- The nearest F32 to a real. -/
def rnReal (x : Real') : Nat :=
  if x.m = 0 then 0 else (roundMag .f32 .rn (x.m < 0) x.m.natAbs x.e true).1

/-- |c - x| is at most `k` units of 2^q, with c the value of F32 bits (an infinity counts as 2^128). -/
def within (c : Nat) (x : Real') (k : Nat) (q : Int) : Bool :=
  let cv : Option Real' := match unpack .f32 c with
    | .nan _ => none
    | .inf n => some ⟨if n then -1 else 1, 128⟩
    | .zero _ => some ⟨0, 0⟩
    | .fin n m e => some ⟨if n then -(m : Int) else m, e⟩
  match cv with
  | none => false
  | some y =>
    let b := min (min y.e x.e) q
    let d := (y.m * 2 ^ (y.e - b).toNat - x.m * 2 ^ (x.e - b).toNat).natAbs
    d ≤ k * 2 ^ (q - b).toNat

/-- The exponent of the unit in the last place of a real in F32. -/
def ulpExp (x : Real') : Int :=
  if x.m = 0 then -149 else max ((Nat.log2 x.m.natAbs : Nat) + x.e - 23) (-149)

/-- The candidate lies in [-1, 1]. -/
def unitBits (c : Nat) : Bool := c % 2 ^ 31 ≤ 0x3F800000

/-- The bound of R189 on a candidate result. -/
def fspecBound (op : FSpecOp) (aSmall : Bool) (x : Real') (c : Nat) : Bool :=
  match op with
  | .rsq => within c x 1 (ulpExp x)
  | .ex2 => within c x 2 (ulpExp x)
  | .lg2 => if aSmall then within c x 1 (-22) else within c x 2 (ulpExp x)
  | .sin | .cos => within c x 1 (-22) && unitBits c
  | .tanh => (within c x 2 (ulpExp x) || within c x 1 (-23)) && unitBits c
  | _ => false

/-- The delivered F32 result of an open function (R189, DESIGN CHOICE, log 6): the free value where it meets the bound,
else the nearest F32. -/
def fspecOpen (op : FSpecOp) (a : Nat) (aSmall : Bool) (x : Real') : Nat :=
  let c := (Config.fspec op (BitVec.ofNat 32 a)).toNat
  if fspecBound op aSmall x c then c else rnReal x

/-- OF, UF and NX of a delivered result (R190). -/
def fspecFlags (c : Nat) (exact : Bool) : Flags :=
  let v := unpack .f32 c
  let sub := c % 2 ^ 31 < 2 ^ 23
  flagIf v.isInf fOF ||| flagIf sub fUF ||| flagIf (!exact) fNX

/-- FSPEC on a finite non-zero F32 operand outside R190's table. -/
def fspecFin (op : FSpecOp) (a : Nat) (neg : Bool) (m : Nat) (e : Int) : Nat × Flags :=
  let l := Nat.log2 m
  let pow2 := m == 2 ^ l
  match op with
  | .rcp =>
    let (c, f) := rcpMag neg m e
    (c, fspecFlags c (f &&& fNX == 0))
  | .sqrt =>
    let (c, f) := sqrtMag m e
    (c, fspecFlags c (f &&& fNX == 0))
  | .rsq =>
    let c := fspecOpen .rsq a false (rsqR m e)
    (c, fspecFlags c false)
  | .ex2 =>
    let isInt := e ≥ 0 || m % 2 ^ (-e).toNat == 0
    let k : Int := if e ≥ 0 then (m <<< (min e.toNat 16) : Nat) else (m >>> (-e).toNat : Nat)
    let k := if neg then -k else k
    if isInt && -149 ≤ k && k ≤ 127 then
      let c := (roundMag .f32 .rn false 1 k).1
      (c, fspecFlags c true)
    else
      let c := fspecOpen .ex2 a false (ex2R neg m e)
      (c, fspecFlags c false)
  | .lg2 =>
    if pow2 then
      let c := (roundInt .f32 .rn ((l : Int) + e) 0 false).1
      (c, 0)
    else
      let small := decide ((l : Int) + e = -1 ∨ (l : Int) + e = 0)
      let c := fspecOpen .lg2 a small (lg2R m e)
      (c, fspecFlags c false)
  | .sin =>
    let c := fspecOpen .sin a false (trigR false neg m e)
    (c, fspecFlags c false)
  | .cos =>
    let c := fspecOpen .cos a false (trigR true neg m e)
    (c, fspecFlags c false)
  | .tanh =>
    let c := fspecOpen .tanh a false (tanhR neg m e)
    (c, fspecFlags c false)

/-- FSPEC on F32 (R189, R190). -/
def fspec32 (op : FSpecOp) (a : Nat) : Nat × Flags :=
  let one := 0x3F800000
  match unpack .f32 a with
  | .nan s => (nanBits .f32, flagIf s fNV)
  | .zero n =>
    match op with
    | .rcp => (infBits .f32 n, fDZ)
    | .rsq => (infBits .f32 n, fDZ)
    | .sqrt | .sin | .tanh => (a, 0)
    | .ex2 | .cos => (one, 0)
    | .lg2 => (infBits .f32 true, fDZ)
  | .inf n =>
    match op with
    | .rcp => (signBit .f32 n, 0)
    | .rsq => if n then (nanBits .f32, fNV) else (0, 0)
    | .sqrt => if n then (nanBits .f32, fNV) else (a, 0)
    | .ex2 => if n then (0, 0) else (a, 0)
    | .lg2 => if n then (nanBits .f32, fNV) else (a, 0)
    | .sin | .cos => (nanBits .f32, fNV)
    | .tanh => (signBit .f32 n + one, 0)
  | .fin n m e =>
    match op with
    | .rsq | .sqrt | .lg2 => if n then (nanBits .f32, fNV) else fspecFin op a n m e
    | _ => fspecFin op a n m e

/-- FSPEC in a format: widened, computed in F32, rounded once more (R189). -/
def fSpec (t : FTy) (op : FSpecOp) (a : Nat) : Nat × Flags :=
  match t with
  | .f32 => fspec32 op a
  | _ =>
    let x := unpack t a
    let wide := (cvtFloat t .f32 .rn a).1
    let (c, fl) := fspec32 op (if x.isSnan then 0x7FA00000 else wide)
    let (d, f2) := cvtFloat .f32 t .rn c
    let special := fl &&& (fNV ||| fDZ) != 0 || x.isNan || x.isInf
    if special then (d, fl)
    else
      match x with
      | .zero _ => (d, fl)
      | _ =>
        let sub := d % 2 ^ ((fmtOf t).w - 1) < 2 ^ ((fmtOf t).p - 1) && !(fl == 0 && c % 2 ^ 31 == 0)
        (d, flagIf (unpack t d).isInf fOF ||| flagIf sub fUF ||| ((fl ||| f2) &&& fNX))

end Sys2Proof.Machine
end

