-- ==== Sys2Proof/Machine/State.lean ====
section
/-! DEFINITION. The state of the package: plain data, holding everything the spec gives the machine,
and the state after reset. Sparse parts are lists of pairs; an absent pair reads as its default. -/

namespace Sys2Proof.Machine

/-- A VA of 57 bits (R77, R118). -/
abbrev Va := BitVec 57

/-- Why a step stops the model. -/
inductive Fault where
  /-- Raised by HOST_CXL_MEM_ACCESS at a physical address that R86 gives to no stack and no CXL port.
  Safe: the host's request reaches nothing, and no claim about memory can be proved from it. -/
  | noSuchAddress
deriving DecidableEq, Repr

/-- Why a step has no meaning in the model. -/
inductive Refusal where
  /-- Raised by an arm of exec that has no meaning yet. Safe: nothing can be proved of its effect. -/
  | notModelled (mnemonic : String)
deriving DecidableEq, Repr

/-! ## Memory-side data -/

/-- Where a translated access goes (R79, R90): an intermediate address, or a place of a core. -/
inductive Loc where
  | ia (a : Nat)
  | spad (core off : Nat)
  | ring (core off : Nat)
  | eng (core off : Nat)
deriving DecidableEq, Repr

/-- One translated access: pointer, target, bytes, request type, and the window's TAGCHK (R78, R198). -/
structure Acc where
  va : W64
  loc : Loc
  n : Nat
  rt : RT
  tagchk : Bool
  /-- The PASID that its host requests carry (R51, R82). -/
  pasid : Nat
deriving DecidableEq, Repr

/-- A fault found at a home (R230): cause, TVAL, whether it is servable, the IA page that waits. -/
structure MFault where
  cause : Nat
  tval : W64
  servable : Bool
  page : Nat
  prifail : Bool
  /-- It was found after the thread's region had closed (R232). -/
  late : Bool
deriving DecidableEq, Repr

/-- A leaf entry (R86), with the address of its 16 bytes and its level. -/
structure Leaf where
  rd : Bool
  wr : Bool
  ex : Bool
  cls : Nat
  cache : Bool
  key : Nat
  frame : Nat
  gen : W32
  big : Bool
  at_ : Nat
deriving DecidableEq, Repr

/-- What a request reaches: the kind of memory, its address there, the home segment and leaf of device
memory. -/
structure Tgt where
  kind : Nat
  addr : Nat
  hseg : Nat
  leaf : Option Leaf
  rd : Bool
  wr : Bool
  ex : Bool
deriving DecidableEq, Repr

/-- State of a region-buffer entry (R225-R227): its probe is on its way; acknowledged under a page
generation; refused; its region is complete and the store is draining; the store is applied at its home, and
invalidations that it caused have not all been acknowledged; or it has left for memory of KIND 1 to 3 under a number and
is not yet performed there (R332). -/
inductive RbSt where
  | probing
  | acked (gen : W32)
  | fault (f : MFault)
  | draining (gen : W32)
  | applied
  | posted (id : Nat)
deriving DecidableEq, Repr

/-- What an access of a thread is for: a word of its own, an element of a long instruction (R216), or the spill or
refill of a call (R136, R137). -/
inductive Purpose where | word | elem | spill
deriving DecidableEq, Repr

/-- A region-buffer entry (R226). `tag` is that of a TAGSET, which has no data; `tgt` is what its home has
acknowledged it for (R238). -/
structure RbEntry where
  id : Nat
  tid : Nat
  pc : Va
  acc : Acc
  data : List Byte
  tag : Option (BitVec 4)
  slots : Nat
  st : RbSt
  tgt : Option Tgt
  use : Purpose
  /-- The store has updated its word's copy in the core's L1, where the other threads of the core group read it (R349). -/
  early : Bool
deriving DecidableEq, Repr

/-- What an outstanding variable-latency word asks for. -/
inductive PKind where
  /-- A value already read, on its way to the registers; `own`: its word is a region of its own (R225). -/
  | value (own : Bool)
  /-- A load; `own` holds the bytes that the thread's own region-buffer entries give (R228). -/
  | load (a : Acc) (sx : Bool) (own : List (Option Byte)) (atHome : Bool)
  /-- `sc` and `raw`: the scope, and the word, for a check made again at the home (R338). -/
  | atom (op : AtomOp) (a : Acc) (b d : Nat) (sc : Scope) (raw : W64)
  | red (op : RedOp) (a : Acc) (b : Nat) (sc : Scope) (raw : W64)
  /-- `sheet` is the number of the first result of its sheet (R313, R315). -/
  | appendRes (a : Acc) (n : W32) (sheet : Nat)
  | appendQuery (a : Acc) (sheet : Nat)
  | seal (a : Acc) (bcast : Bool) (held : Bool)
  | tailq (a : Acc) (sheet : Nat)
  | pginfo (a : Acc)
  | fence (k : FenceKind) (sc : Scope)
deriving DecidableEq, Repr

/-- State of an outstanding result: asked for, arrived, or refused. -/
inductive PSt where
  | sent
  | ready (v : List W32)
  | fault (f : MFault)
deriving DecidableEq, Repr

/-- An outstanding result of variable latency (R133): the registers still to be written, low word first;
`none` stands for a register that a later word has written. -/
structure Pend where
  id : Nat
  tid : Nat
  pc : Va
  dsts : List (Option Nat)
  kind : PKind
  st : PSt
  use : Purpose
deriving DecidableEq, Repr

/-- A line of an L1 (R202). -/
structure L1Line where
  line : Nat
  v : BitVec 32
  dty : BitVec 32
  own : BitVec 32
  data : List W32
  tags : List (BitVec 4)
  si : Bool
  sealed : Bool
  stamp : W32
deriving DecidableEq, Repr

/-- A pending miss of an L1 (R206): its line, request type, stamp floor, when it was asked for. -/
structure Miss where
  id : Nat
  line : Nat
  rt : RT
  floor : Option W32
  asked : Nat
deriving DecidableEq, Repr

/-- A fill on its way to an L1 (R205, R206). -/
structure Fill where
  id : Nat
  line : Nat
  v : BitVec 32
  data : List W32
  tags : List (BitVec 4)
  si : Bool
  sealed : Bool
  tracked : Bool
  stamp : W32
deriving DecidableEq, Repr

/-- What the home keeps for a line (R205): LSEQ, the owner core of each owned word, the sharers, of
which `all` stands for every core of the partition. -/
structure HomeLine where
  lseq : W32
  owners : List (Nat × Nat)
  sharers : List Nat
  all : Bool
deriving DecidableEq, Repr

/-- An invalidation in flight (R205). `src` is the core whose write caused it. -/
structure Inv where
  core : Nat
  part : Nat
  line : Nat
  stamp : W32
  src : Nat
deriving DecidableEq, Repr

/-- A tail record with its word map (R308): STATE is 0 open, 1 closing, 2 sealed, 3 freeing. Words of the
page that are neither intended nor written are free. Its bytes in the segment's memory follow it (DESIGN CHOICE,
log 39). -/
structure TailRec where
  rt : Nat
  ct : Nat
  state : BitVec 2
  bcast : Bool
  repl : Nat
  /-- Byte address of the word map within its segment; 0 where the record names none. -/
  wmap : Nat
  granules : Nat
  intended : List Nat
  written : List Nat
deriving DecidableEq, Repr

/-- A replica of a sealed page (R321): placing, live or draining. -/
inductive RepSt where | placing | live | draining
deriving DecidableEq, Repr

structure Replica where
  part : Nat
  page : Nat
  stack : Nat
  frame : Nat
  st : RepSt
deriving DecidableEq, Repr

/-- A slice's knowledge of a sealed page's live members (R323): the stacks of its replicas, under the page's GEN. -/
structure RepSet where
  slice : Nat
  part : Nat
  page : Nat
  gen : W32
  stks : List Nat
deriving DecidableEq, Repr

/-- A line of a sealed page in an L2 slice, with SEAL = 1 (R320). -/
structure L2Line where
  slice : Nat
  part : Nat
  line : Nat
  /-- The words that the slice has. -/
  v : BitVec 32
  data : List W32
  tags : List (BitVec 4)
deriving DecidableEq, Repr

/-! ## Threads and issue -/

/-- A trap that is precise at a word and waits until the region before the word is complete (R233): cause, TVAL,
TREC, and the pair that TPC names. -/
structure PTrap where
  cause : Nat
  val : W64
  trec : W64
  pc : Va
  prio : BitVec 8
deriving DecidableEq, Repr

/-- A long instruction (R215): GATHER with its first destination, SX and NW; SCATTER; CST. -/
inductive LongOp where
  | gather (d : Nat) (sx nw : Bool)
  | scatter
  | cst
deriving DecidableEq, Repr

/-- A long instruction in progress (R215, R216): the word, its PC, EA, bytes of an element, request type, first register
of its block, N, and the windows in force when the word issued (R81). -/
structure LongRun where
  op : LongOp
  pc : Va
  ea : W64
  e : Nat
  rt : RT
  b : Nat
  n : Nat
  wins : List W64
deriving DecidableEq, Repr

/-- A thread: its registers, issue state (R118), region state (R223), trap registers (R400), phase
(R343), BACKOFF end (R346) and the cycles in which fixed-latency results land (R133). -/
structure Thread where
  w : List W32
  p : BitVec 8
  pc : Va
  prio : BitVec 8
  bargen : W32
  ret : List W64
  spilln : Nat
  pix : W32
  tm : Bool
  done : Bool
  rsPc : Va
  rsPrio : BitVec 8
  /-- The region is closed: the next word that issues opens a new one (R222, R223). -/
  rclosed : Bool
  /-- The cycle in which the region's first word issued (R229). -/
  rage : Nat
  /-- The number of the region's first result or entry: those below it are of earlier regions (R230). -/
  rsId : Nat
  /-- A FENCE.AR has let the thread go on to later loads; its later stores wait for the release, of SYS scope where the
  value says so (R334, R353). -/
  arHold : Option Bool
  /-- The windows in force when the WAITGE issued in which the thread waits (R81). -/
  waitWins : List W64
  tcause : W64
  tpc : W64
  tval : W64
  trec : W64
  tstate : W64
  phase : W32
  /-- The cycle at which BACKOFF ends; 0 when none runs. -/
  backoff : Nat
  /-- Region-buffer entries that a store waits for (R229); 0 when none waits. -/
  rbwait : Nat
  /-- What the word that waits for room in an engine queue has read (R261, R297, R375); empty where it reads
  nothing. -/
  qblk : Option (List W64)
  /-- The long instruction that the thread performs (R216). -/
  long : Option LongRun
  /-- The return stack before a call or return whose spill or refill may still fault (R136, R137). -/
  undo : Option (List W64 × Nat)
  /-- The trap that waits for the thread's region (R233). -/
  ptrap : Option PTrap
  /-- Register number (w 0-255, p 256-263) and the cycle in which its last fixed-latency result lands. -/
  lands : List (Nat × Nat)
deriving DecidableEq, Repr

/-- What asks for a page: the engine id, the address and the command's CSEQ or SEQ (DEDUCED, log 24). -/
structure Asker where
  engine : Nat
  va : W64
  seq : W32
deriving DecidableEq, Repr

/-- An asker that waits for a page, and whether the firmware has declined it (R230). -/
structure Ask where
  part : Nat
  page : Nat
  who : Asker
  denied : Bool
deriving DecidableEq, Repr

/-- A frontier entry (R121, R130). -/
structure Entry where
  idx : Nat
  pc : Va
  prio : BitVec 8
  tids : List Nat
  age : Nat
  /-- The cycle after that in which a pipe chose it last (R130). -/
  chose : Nat
deriving DecidableEq, Repr

/-- A parked group (R123). -/
structure Parked where
  pc : Va
  prio : BitVec 8
  tids : List Nat
deriving DecidableEq, Repr

/-- What a thread in the wait store waits for (R124). -/
inductive Why where
  | bar (lv : Level) (n : Nat) (g : W32)
  | phase (seg : Nat) (n : W32) (since : Nat)
  | phaseAdv
  | waitge (a : Acc) (target : W64) (err sys : Bool) (polled : Nat)
  /-- STG (R270): `since` is the cycle in which the wait began. -/
  | stg (ring : Nat) (take : Bool) (dst : Option Nat) (since : Nat)
  /-- Fault-wait (R230): the IA page, the faulting word and address, and AKIND, LATE as TREC would have them. -/
  | fault (page : Nat) (pc : Va) (va : W64) (akind : Nat) (late : Bool)
  | lane
deriving DecidableEq, Repr

structure Wait where
  tid : Nat
  why : Why
deriving DecidableEq, Repr

/-- The running sheet of a pipe (R126-R128): its threads in order, and what the last words entered in
the latches, newest first, one value for each thread; `none` is an empty latch (R134). -/
structure Run where
  tids : List Nat
  hist : List (Option (List W32))
deriving DecidableEq, Repr

/-! ## Engines -/

/-- An entry of a copy queue: a transfer record, a chain, or a fence of QFENCE (R250). -/
inductive CqEntry where
  | xfer (r : List W64)
  | chain (p : W64)
  | fence (id : Nat)
deriving DecidableEq, Repr

/-- A transfer in progress (R254): the record, the windows it started with, the handle's fields, the
stage claim, bytes moved, and how it ends. -/
structure CopyRun where
  desc : List W64
  wins : List W64
  rows : Nat
  planes : Nat
  srow : Int
  drow : Int
  splane : Int
  dplane : Int
  claim : Option Nat
  pos : Nat
  code : Option Nat
  faultWait : Option Nat
  /-- The cycle in which it started, and its wait for a stage slot began (R267, R270). -/
  since : Nat
deriving DecidableEq, Repr

/-- The walk of a chain (R262): the record's VA, a stop asked for, the wait for OWN and when the record
was last read, and whether the record in `run` is a chained one. -/
structure ChainWalk where
  p : W64
  stop : Bool
  ownWait : Bool
  readAt : Nat
deriving DecidableEq, Repr

structure CopyQ where
  q : List CqEntry
  run : Option CopyRun
  walk : Option ChainWalk
deriving DecidableEq, Repr

/-- A QFENCE placed in its queues (R264). -/
structure QFence where
  id : Nat
  mask : BitVec 6
  comp : W64
deriving DecidableEq, Repr

/-- A stage ring (R265). PH and RL hold one bit for each slot. -/
structure Ring where
  decl : W64
  base : Nat
  slotsz : Nat
  slots : Nat
  claimc : Nat
  fillc : Nat
  takec : Nat
  freec : Nat
  ph : BitVec 256
  rl : BitVec 256
deriving DecidableEq, Repr

/-- An entry of the matrix queue (R294). -/
inductive MqCmd where
  | mma (b : List W64)
  | mdrain (b : List W64)
  | mprec (wa wb : BitVec 5)
  | mzero (bank : Bool)
  | fence (id : Nat)
deriving DecidableEq, Repr

/-- How far an entry of the matrix queue has come; `ended c` waits for its completion, `c = 0` being
success. -/
inductive MqSt where
  | waiting
  | running
  | ended (code : Nat)
deriving DecidableEq, Repr

structure MqItem where
  cmd : MqCmd
  st : MqSt
  wins : List W64
deriving DecidableEq, Repr

/-- Bytes fetched for one micro-tile: its rows of A and columns of B, of the group in progress (R288). -/
structure TileData where
  tile : Nat
  a : List (List Byte)
  b : List (List Byte)
deriving DecidableEq, Repr

/-- The MMA in progress (R299): its widths; what it has fetched for the group in progress; the lines pinned
for it, and the micro-tile whose fetch waits for pins with the cycle since when (R289); the take numbers
of its stage slots (R290); the groups of each operand kept for the collector, where it is kept (R291). -/
structure MmaRun where
  wa : Nat
  wb : Nat
  fetched : List TileData
  /-- The governor has let the step of the group in progress start, or holds it (R293). -/
  admitted : Bool
  held : Bool
  slotA : Option Nat
  slotB : Option Nat
  faultWait : Option Nat
  pins : List (Nat × Nat)
  pinWait : Option (Nat × Nat)
  keepA : Option (List (List Byte))
  keepB : Option (List (List Byte))
  /-- The cycle in which the engine began to want the slots of the group in progress (R270, R290). -/
  since : Nat
deriving DecidableEq, Repr

/-- The MDRAIN in progress (R302): micro-tiles issued and not yet marked, and the cells of them, by 128i + j, that have
been written. -/
structure DrainRun where
  issued : List Nat
  cells : List Nat
  faultWait : Option Nat
deriving DecidableEq, Repr

/-- An error of the array in the next step of a micro-tile (R285): of one partial, or of a row or column
checksum, by an amount (DESIGN CHOICE, log 64). -/
inductive MxFault where
  | cell (i j : Nat) (d : Int)
  | row (tile i : Nat) (d : Int)
  | col (tile j : Nat) (d : Int)
deriving DecidableEq, Repr

/-- One operand held in the collector (R291). -/
structure Coll where
  fmt : Nat
  width : Nat
  k : Nat
  m : Nat
  rows : List (List Byte)
deriving DecidableEq, Repr

/-- The matrix engine (R274-R307). Banks list the cells that are not (+0, +0), by 128i + j. -/
structure Matrix where
  q : List MqItem
  wa : BitVec 5
  wb : BitVec 5
  bank0 : List (Nat × (W32 × W32))
  bank1 : List (Nat × (W32 × W32))
  kgroup : Nat
  done : BitVec 16
  mrun : Bool
  drained : BitVec 16
  drun : Bool
  mma : Option MmaRun
  drain : Option DrainRun
  collA : Option Coll
  collB : Option Coll
  corr : W64
  gstall : W64
  cserr : W64
  nonfin : W64
  bpused : W64
  winNo : Nat
  winCharge : Nat
  winAny : Bool
  frozen : Bool
  faults : List MxFault
deriving DecidableEq, Repr

/-- An entry of a core's queue on its segment's ring engine (R369). -/
inductive RqEntry where
  | coll (b : List W64)
  | fence (id : Nat)
deriving DecidableEq, Repr

/-- A command that a ring-engine queue has completed, of a partition (R372, R387). -/
structure RDone where
  part : Nat
  group : Nat
  cseq : W32
  prog : W64
deriving DecidableEq, Repr

/-- A rank of a collective that a ring engine runs (R376-R384), for the core group (LAUNCHID, linear index)
whose queue holds the entry. PV and HW have one entry for each piece; `pvB` is that of the ring-B half under
BIDIR. `inflight` lists the pieces whose writes are made and not yet committed, with their half; `remote`
stands for a member on another package. -/
structure CollRank where
  key : CollKey
  core : Nat
  remote : Bool
  lid : Nat
  linear : Nat
  ctx : Nat
  seq : W32
  lseg : Nat
  rank : Nat
  blk : List W64
  wins : List W64
  trig : Bool
  copied : Bool
  trigPoll : Nat
  matched : Bool
  pvA : List Nat
  pvB : List Nat
  hw : List Nat
  inflight : List (Nat × Bool)
  /-- Pieces of the next step, with their half, that stand in the landing area and are not yet combined (R380, R383). -/
  landed : List (Nat × Bool)
  folds : Nat
  agreeing : Bool
  closed : Bool
  token : Bool
  /-- The abort of a failed member is on its way (R382). -/
  abort : Bool
  faultWait : Option Nat
  failed : Option Nat
deriving DecidableEq, Repr

/-! ## Core groups, cores -/

/-- What a core group is doing (R403, R404, R410). `halting` has raised an error that halts it: the code
and DETAIL of its KIND 5 entry. -/
inductive GSt where
  | running
  | halting (code : Nat) (detail : W64)
  | halted
  | frozen
  | retired
deriving DecidableEq, Repr

/-- A core group: its launch, registers, frontier, region buffer, results, scratchpad and engines. -/
structure Group where
  part : Nat
  lid : Nat
  ctxid : Nat
  /-- The logical segment on which the group runs, or last ran (R343). -/
  lseg : Nat
  bind : BindRec
  lrec : List W64
  blocks : List (Nat × BitVec 8)
  k : List W64
  kset : List (Nat × Nat × W64)
  frontier : List Entry
  parking : List Parked
  waits : List Wait
  threads : List Thread
  rb : List RbEntry
  pend : List Pend
  nextId : Nat
  fpx : BitVec 5
  fpxLand : List (Nat × BitVec 5)
  phasecur : W32
  nopre : Option Nat
  spad : List Host.Cell
  rings : List Ring
  cqs : List CopyQ
  cfrozen : Bool
  mx : Matrix
  rq : List RqEntry
  /-- The core's queue on the ring engine still runs a command of a core group that has left the core (R369, R370). -/
  rqBusy : Bool
  fences : List QFence
  st : GSt
  clockOff : Nat
  /-- The number of the binding that put the group on a core, in the order of bindings of its partition (R70). -/
  bindNo : Nat
deriving DecidableEq, Repr

/-- A core: its slot table (R72), caches, pipes, copies of the context's windows, and what waits. -/
structure Core where
  cur : BindRec
  nxt : BindRec
  busy : Bool
  curempty : Bool
  gangwait : Bool
  stopped : Bool
  grp : Option Group
  shadow : Option Group
  icache : List (Nat × W64)
  /-- The last 16 commands that the core's ring-engine queue has completed (R387). -/
  rdone : List RDone
  l1 : List L1Line
  misses : List Miss
  fills : List Fill
  run0 : Option Run
  run1 : Option Run
  free0 : Nat
  free1 : Nat
  wins : List W64
  ctxperm : W64
  preq : Bool
  testDue : Bool
  testing : Bool
  outOfUse : Bool
  /-- The cycle after the last write of RINGSHARE by pipe 1 (R401). -/
  rsAt : Nat
  /-- The cycle after the last promotion (R72). -/
  promAt : Nat
  /-- The number of the binding in NEXT, in the order of bindings of its partition (R70). -/
  nxtNo : Nat
  /-- The cycle after that in which threads left the wait store last, and one more than the highest of their TIDs
  (R122). -/
  woke : Nat × Nat
deriving DecidableEq, Repr

/-! ## Functions, partitions, the package -/

/-- The queue registers of a function (R52), the management entries it holds (R55) and the commands
copied from its command queue (R56). -/
structure Fn where
  sqbase : W64
  sqlog : BitVec 4
  sqen : Bool
  sqtail : W32
  sqhead : W32
  mqbase : W64
  mqlog : BitVec 4
  mqen : Bool
  mqhead : W32
  mqtail : W32
  sqerr : Bool
  mqlost : Bool
  cqerr : Bool
  lostcnt : BitVec 8
  cqbase : W64
  cqlog : BitVec 4
  cqen : Bool
  cqtail : W32
  cqhead : W32
  held : List (List W64)
  cmds : List (List W64)
deriving DecidableEq, Repr

/-- A launch between consumption and retirement (R62): the function whose queue held it, the record, what
admission read of its descriptor and image (ENTPRIO, the block-start list, the stage declarations), its cost,
whether it has been charged (R67), its number in the order of consumption, gangs bound, core groups
retired, the cycle since which its next gang waits (R70), and the code of the first halt or freeze (R414)
(DEDUCED, log 38). -/
structure Launch where
  lid : Nat
  fn : Nat
  lrec : List W64
  entprio : BitVec 8
  blocks : List (Nat × BitVec 8)
  stages : List W64
  cost : Nat
  charged : Bool
  order : Nat
  gangs : Nat
  retired : Nat
  waitSince : Nat
  /-- Code and cycle of the first halt or freeze (R414). -/
  firstStop : Option (Nat × Nat)
  /-- Where its core groups have been placed last, by linear index (R68). -/
  places : List (Nat × Nat)
  /-- Its first wave of gangs is bound (R69). -/
  waved : Bool
deriving DecidableEq, Repr

/-- A partition's account (R67), launches, saved contexts in memory (R406) and RINGSHARE (R385). -/
structure Part where
  account : Int
  launches : List Launch
  consumed : Nat
  csa : List Group
  ringshare : W64
  /-- RINGSHARE's first value has been installed with the partition's contexts (R385). -/
  ringIn : Bool
  gangSeq : Nat
  enabled : Bool
  /-- Bindings of gangs, restorations among them (R70). -/
  bindSeq : Nat
  /-- The cycle from which the account's next millisecond runs (R67). -/
  creditAt : Nat
  /-- By how much the CLOCK of the partition's core groups is ahead since it migrated (R408). -/
  clockOff : Nat
  /-- A live migration is copying the partition while it runs (R408). -/
  copying : Bool
deriving DecidableEq, Repr

/-- Readiness, boot and fold state (R11-R24). -/
structure Pkg where
  segrdy : BitVec 8
  stkrdy : BitVec 16
  brgrdy : BitVec 8
  hostrdy : BitVec 2
  cxlrdy : BitVec 8
  folded : Bool
  split : Bool
  fabrdy : BitVec 36
  rdyseq : W32
  /-- The cycle after that of the last update of the map; 0 before any (R20). -/
  rdyAt : Nat
  bootState : BitVec 4
  bootReason : BitVec 4
  deadBr : BitVec 8
  deadSeg : BitVec 8
  /-- A fold is in progress (R11). -/
  folding : Bool
  /-- A warm reset waits for the fold (R23). -/
  warmWaits : Bool
  /-- Stacks and ports that failed (R18). -/
  failed : List Func
  /-- Functions that are ready in a piece of the line that the package controller does not reach: their bits read
  zero, and the piece goes on with them (R14). -/
  cut : List Func
deriving DecidableEq, Repr

/-- A barrier of a level (R340): generation and the participants that have arrived, as (L, TID). -/
structure Bar where
  part : Nat
  lid : Nat
  lv : Level
  grp : Nat
  n : Nat
  gen : W32
  arrived : List (Nat × Nat)
deriving DecidableEq, Repr

/-- A translation that a host port caches (R235): the rights it grants. -/
structure Ats where
  part : Nat
  pasid : Nat
  page : Nat
  /-- How often the host had changed the page's translation. -/
  epoch : Nat
deriving DecidableEq, Repr

/-- An outstanding page request (R236). -/
structure Pri where
  idx : Nat
  part : Nat
  pasid : Nat
  page : Nat
  ctx : Nat
  gen : W32
deriving DecidableEq, Repr

/-- A shootdown or an ATS invalidation that waits for the stores acknowledged under the old translation (R89, R237,
R238): its first IA page and how many of 64 KiB, and each such store by LAUNCHID, linear index and number of its entry. -/
structure Shoot where
  part : Nat
  page : Nat
  pages : Nat
  stores : List (Nat × Nat × Nat)
  /-- Stores posted to the host under the old translation, by number (R237). -/
  posted : List Nat
deriving DecidableEq, Repr

/-- A store to memory of KIND 1 to 3 that has left the device and is not yet performed there (R332, R348, R362): who wrote
it, the kind of memory, the host port, its address. -/
structure Posted where
  id : Nat
  writer : Nat
  part : Nat
  kind : Nat
  hport : Nat
  addr : Nat
  data : List Byte
deriving DecidableEq, Repr

/-- A poisoned granule met by a write-back, still to be reported (R227, R335): the core, and the IA. -/
structure PoisonRep where
  core : Nat
  part : Nat
  ia : Nat
deriving DecidableEq, Repr

/-- A PAGEFREE in progress (R324): the page, the functions whose commands wait for it, and whether its last
step is done. -/
structure Freeing where
  part : Nat
  page : Nat
  fns : List Nat
  done : Bool
deriving DecidableEq, Repr

/-- A hotness or fallback counter (R93): page, requesting segment, count. -/
structure Hot where
  part : Nat
  page : Nat
  src : Nat
  /-- The bridge port that keeps the count: 2b on segment b and 2b + 1 on the next; 16 in the table of a home. -/
  port : Nat
  fallback : Bool
  count : Nat
deriving DecidableEq, Repr

/-- A proposal or notification posted to the firmware (R93). -/
structure Proposal where
  part : Nat
  page : Nat
  src : Nat
  fallback : Bool
deriving DecidableEq, Repr

/-- A step of the schedule: a pipe's turn, an event, a store of the host to its own memory, an upset of a
granule (R209), an error of a core's matrix array (R285), or system software that enables a function's page requests
again (R235). -/
inductive Act where
  | turn (core pipe : Nat)
  | ev (i : Instr)
  | hostStore (addr : Nat) (bytes : List Byte)
  | upset (addr : Nat) (uncorrectable : Bool)
  | arrayError (core : Nat) (f : MxFault)
  | priEnable (fn : Nat)
deriving DecidableEq, Repr

/-- The state of the package. -/
structure State where
  /-- Cycles since cold reset; a segment's CLOCK is ahead of it by a fixed amount (R156). -/
  now : Nat
  /-- The schedule of the next steps, each with its cycle. -/
  agenda : List (Nat × Act)
  /-- Counter of the free values drawn. -/
  fresh : Nat
  /-- The core and pipe whose turn it is. -/
  sel : Nat × Nat
  pkg : Pkg
  /-- Registers of the management block by dword offset, where they differ from their reset value. -/
  pmb : List (Nat × W64)
  fns : List (Nat × Fn)
  parts : List (Nat × Part)
  /-- Device memory by DPA, then host memory, then the memory of fabric peers. -/
  mem : List Host.Cell
  tags : List (Nat × BitVec 4)
  poison : List Nat
  /-- Frames granted to each partition, as (frame address, partition) (R409). -/
  frames : List (Nat × Nat)
  homes : List (Nat × HomeLine)
  tails : List (Nat × TailRec)
  /-- The base of each segment's table of tail records, once the firmware has set it (R308). -/
  tailBase : List (Nat × Nat)
  replicas : List Replica
  /-- Replica sets that slices have learnt (R323). -/
  repSets : List RepSet
  /-- Lines of sealed pages that L2 slices hold (R320). -/
  l2 : List L2Line
  /-- Home-map entries cached at the slices, by partition and region (R83). -/
  hmc : List (Nat × W32)
  /-- Leaf entries cached at the homes, by partition and 64 KiB page (R88). -/
  xlat : List (Nat × (Nat × W128))
  /-- Entries of levels 1 to 3 in the walk caches of the segments, by the entry's DPA (R88). -/
  wcache : List (Nat × W128)
  invs : List Inv
  /-- Stores to memory of KIND 1 to 3 that are not yet performed there (R332, R348, R362). -/
  posted : List Posted
  /-- Stores posted so far. -/
  postNo : Nat
  /-- Poisoned granules to be reported (R227, R335). -/
  reports : List PoisonRep
  ats : List Ats
  /-- How often the host has changed a page's translation (R235, R237), by partition and page. -/
  atsEpoch : List (Nat × Nat)
  pris : List Pri
  /-- Page requests beyond a function's allocation, oldest first (R235). -/
  priWait : List Pri
  priStopped : List Nat
  serving : List (Nat × Nat)
  /-- Completions and reads of the firmware that wait for a page being served (R230, R258). -/
  asks : List Ask
  freeing : List Freeing
  /-- Shootdowns in progress (R89, R238). -/
  shoots : List Shoot
  hot : List Hot
  /-- How often the counts have been halved (R93). -/
  hotEpoch : Nat
  proposals : List Proposal
  bars : List Bar
  /-- Published phase counters, by partition, launch and segment (R343). -/
  phases : List (Nat × W32)
  ranks : List CollRank
  /-- Accesses to memory of KIND 1 to 3 that have timed out: the core, and 0 for one of its engines, 1 for a fetch (R405). -/
  expired : List (Nat × Nat)
  /-- Ring engines frozen for a launch: segment, partition, LAUNCHID (R410). -/
  rfrozen : List (Nat × Nat × Nat)
  cores : List (Nat × Core)
  /-- Corrected errors of the banks, as (32 × stack + bank, cycle); 512 more marks a bank whose re-encoding has
  begun (R413). -/
  banks : List (Nat × Nat)
deriving DecidableEq, Repr

/-! ## Reset values -/

/-- An empty bind record (R71). -/
def BindRec.empty : BindRec := ⟨0, 0, 0, 0⟩

/-- A core as both resets leave it (R23, R72). -/
def Core.reset : Core where
  cur := BindRec.empty
  nxt := BindRec.empty
  busy := false
  curempty := true
  gangwait := false
  stopped := false
  grp := none
  shadow := none
  icache := []
  rdone := []
  l1 := []
  misses := []
  fills := []
  run0 := none
  run1 := none
  free0 := 0
  free1 := 0
  wins := List.replicate 32 0
  ctxperm := 0
  preq := false
  testDue := false
  testing := false
  outOfUse := false
  rsAt := 0
  promAt := 0
  nxtNo := 0
  woke := (0, 0)

/-- The queue registers of a function at reset (R52). -/
def Fn.reset : Fn where
  sqbase := 0
  sqlog := 0
  sqen := false
  sqtail := 0
  sqhead := 0
  mqbase := 0
  mqlog := 0
  mqen := false
  mqhead := 0
  mqtail := 0
  sqerr := false
  mqlost := false
  cqerr := false
  lostcnt := 0
  cqbase := 0
  cqlog := 0
  cqen := false
  cqtail := 0
  cqhead := 0
  held := []
  cmds := []

/-- A partition that has never been enabled (R66, R385). -/
def Part.reset : Part where
  account := 0
  launches := []
  consumed := 0
  csa := []
  ringshare := 0x80808080
  ringIn := false
  gangSeq := 0
  enabled := false
  bindSeq := 0
  creditAt := 0
  clockOff := 0
  copying := false

/-- Readiness, boot and fold state at cold reset (R19, R24). -/
def Pkg.reset : Pkg where
  segrdy := 0
  stkrdy := 0
  brgrdy := 0
  hostrdy := 0
  cxlrdy := 0
  folded := false
  split := false
  fabrdy := 0
  rdyseq := 0
  rdyAt := 0
  bootState := 0
  bootReason := 0
  deadBr := 0
  deadSeg := 0
  folding := false
  warmWaits := false
  failed := []
  cut := []

/-- The matrix engine at promotion (R274, R276, R305). -/
def Matrix.reset : Matrix where
  q := []
  wa := 0
  wb := 0
  bank0 := []
  bank1 := []
  kgroup := 0
  done := 0
  mrun := false
  drained := 0
  drun := false
  mma := none
  drain := none
  collA := none
  collB := none
  corr := 0
  gstall := 0
  cserr := 0
  nonfin := 0
  bpused := 0
  winNo := 0
  winCharge := 0
  winAny := false
  frozen := false
  faults := []

/-- The package right after a cold reset (R23) (DESIGN CHOICE, log 19). -/
def State.reset : State where
  now := 0
  agenda := []
  fresh := 0
  sel := (0, 0)
  pkg := Pkg.reset
  pmb := []
  fns := []
  parts := []
  mem := []
  tags := []
  poison := []
  frames := []
  homes := []
  tails := []
  tailBase := []
  replicas := []
  repSets := []
  l2 := []
  hmc := []
  xlat := []
  wcache := []
  invs := []
  posted := []
  postNo := 0
  reports := []
  ats := []
  atsEpoch := []
  pris := []
  priWait := []
  priStopped := []
  serving := []
  asks := []
  freeing := []
  shoots := []
  hot := []
  hotEpoch := 0
  proposals := []
  bars := []
  phases := []
  ranks := []
  expired := []
  rfrozen := []
  cores := []
  banks := []

end Sys2Proof.Machine
end

