-- ==== Sys2Proof/Machine/Ops.lean ====
section
/-! DEFINITION. The named operations on the state: sparse lists, memory, cores, threads and their
registers, management registers, arrival at the frontier (R121-R124), taking a trap (R397, R403) and
returning from one (R402). -/

namespace Sys2Proof.Machine

/-! ## Sparse lists -/

/-- The value at a key, or the default. -/
def alGet {α : Type} (d : α) : List (Nat × α) → Nat → α
  | [], _ => d
  | (k, v) :: r, n => if k = n then v else alGet d r n

/-- Sets the value at a key, in ascending order of keys. -/
def alSet {α : Type} (n : Nat) (x : α) : List (Nat × α) → List (Nat × α)
  | [] => [(n, x)]
  | (k, v) :: r => if n < k then (n, x) :: (k, v) :: r else if n = k then (n, x) :: r else (k, v) :: alSet n x r

/-- Removes a key. -/
def alDel {α : Type} (n : Nat) : List (Nat × α) → List (Nat × α)
  | [] => []
  | (k, v) :: r => if k = n then r else (k, v) :: alDel n r

def alFind {α : Type} : List (Nat × α) → Nat → Option α
  | [], _ => none
  | (k, v) :: r, n => if k = n then some v else alFind r n

/-- Replaces element `n` of a list by its image. -/
def modNth {α : Type} (f : α → α) : Nat → List α → List α
  | _, [] => []
  | 0, x :: r => f x :: r
  | n + 1, x :: r => x :: modNth f n r

def setNth {α : Type} (n : Nat) (x : α) (l : List α) : List α := modNth (fun _ => x) n l

/-- The element of a list that scores highest, the first of equals. -/
def bestBy {α : Type} (score : α → List Nat) : List α → Option α
  | [] => none
  | x :: r =>
    match bestBy score r with
    | none => some x
    | some y => if decide (score x < score y) then some y else some x

/-- Insertion in ascending order of a measure; equal ones keep their order. -/
def insertBy {α : Type} (f : α → Nat) (x : α) : List α → List α
  | [] => [x]
  | y :: r => if f x ≤ f y then x :: y :: r else y :: insertBy f x r

def sortBy {α : Type} (f : α → Nat) : List α → List α
  | [] => []
  | x :: r => insertBy f x (sortBy f r)

/-- Removes repeats, keeping the first of each. -/
def dedup : List Nat → List Nat
  | [] => []
  | x :: r => x :: (dedup r).filter (· != x)

def minNat (d : Nat) : List Nat → Nat
  | [] => d
  | [x] => x
  | x :: r => min x (minNat d r)

/-! ## Memory: bytes in one canonical form -/

/-- What an unlisted address reads as (DESIGN CHOICE, log 3). -/
def memDefault : Byte := 0

/-- One byte. -/
def memRead : List Host.Cell → Nat → Byte
  | [], _ => memDefault
  | (k, v) :: r, a => if k = a then v else if a < k then memDefault else memRead r a

/-- Writes one byte; writing the default removes the entry. -/
def memWrite (a : Nat) (b : Byte) : List Host.Cell → List Host.Cell
  | [] => if b = memDefault then [] else [(a, b)]
  | (k, v) :: r =>
    if a < k then (if b = memDefault then (k, v) :: r else (a, b) :: (k, v) :: r)
    else if a = k then (if b = memDefault then r else (a, b) :: r)
    else (k, v) :: memWrite a b r

/-- The bytes from an address on. -/
def memReadN (m : List Host.Cell) (a n : Nat) : List Byte := (List.range n).map fun i => memRead m (a + i)

/-- Writes bytes from an address on. -/
def memWriteN (a : Nat) : List Byte → List Host.Cell → List Host.Cell
  | [], m => m
  | b :: bs, m => memWriteN (a + 1) bs (memWrite a b m)

/-- Every address is above `lo` and rising, and no entry equals the default. -/
def memWfFrom : Nat → List Host.Cell → Bool
  | _, [] => true
  | lo, (k, v) :: r => decide (lo ≤ k) && v != memDefault && memWfFrom (k + 1) r

/-- The canonical form of a memory. -/
def Memory.wf (m : List Host.Cell) : Bool := memWfFrom 0 m

/-- A 64-bit dword, little-endian (R2). -/
def memRead64 (m : List Host.Cell) (a : Nat) : W64 := BitVec.ofNat 64 (natOfBytes (memReadN m a 8))

def memWrite64 (a : Nat) (v : W64) (m : List Host.Cell) : List Host.Cell := memWriteN a (bytesOf 8 v.toNat) m

/-! ## Cores, groups, threads -/

def State.core (s : State) (c : Nat) : Core := alGet Core.reset s.cores c

def State.setCore (s : State) (c : Nat) (x : Core) : State := { s with cores := alSet c x s.cores }

def State.modCore (s : State) (c : Nat) (f : Core → Core) : State := s.setCore c (f (s.core c))

def State.grp? (s : State) (c : Nat) : Option Group := (s.core c).grp

def State.setGrp (s : State) (c : Nat) (g : Group) : State := s.modCore c fun x => { x with grp := some g }

/-- Applies a change to the core group of a core, if it has one. -/
def State.modGrp (s : State) (c : Nat) (f : Group → Group) : State :=
  match s.grp? c with
  | none => s
  | some g => s.setGrp c (f g)

def State.part (s : State) (p : Nat) : Part := alGet Part.reset s.parts p
def State.setPart (s : State) (p : Nat) (x : Part) : State := { s with parts := alSet p x s.parts }
def State.modPart (s : State) (p : Nat) (f : Part → Part) : State := s.setPart p (f (s.part p))

def State.fn (s : State) (f : Nat) : Fn := alGet Fn.reset s.fns f
def State.setFn (s : State) (f : Nat) (x : Fn) : State := { s with fns := alSet f x s.fns }
def State.modFn (s : State) (f : Nat) (g : Fn → Fn) : State := s.setFn f (g (s.fn f))

/-- A thread with nothing in it, read for a TID that the group lacks (DESIGN CHOICE, log 4). -/
def Thread.blank : Thread where
  w := []
  p := 0
  pc := 0
  prio := 0
  bargen := 0
  ret := []
  spilln := 0
  pix := 0
  tm := false
  done := true
  rsPc := 0
  rsPrio := 0
  rclosed := false
  rage := 0
  rsId := 0
  arHold := none
  waitWins := []
  tcause := 0
  tpc := 0
  tval := 0
  trec := 0
  tstate := 0
  phase := 0
  backoff := 0
  rbwait := 0
  qblk := none
  long := none
  undo := none
  ptrap := none
  lands := []

def Group.thread (g : Group) (t : Nat) : Thread := g.threads.getD t Thread.blank

def Group.modThread (g : Group) (t : Nat) (f : Thread → Thread) : Group :=
  { g with threads := modNth f t g.threads }

/-- Each thread of a list is changed by its own function. -/
def Group.modThreads (g : Group) (ts : List Nat) (f : Nat → Thread → Thread) : Group :=
  ts.foldl (fun g t => g.modThread t (f t)) g

/-- The fields of a launch record (R59). -/
def recDw (r : List W64) (i : Nat) : W64 := r.getD i 0
def recThreads (r : List W64) : Nat := (bits (recDw r 2) 0 12).toNat
def recCgPerSg (r : List W64) : Nat := (bits (recDw r 2) 16 3).toNat
def recSgPerKg (r : List W64) : Nat := (bits (recDw r 2) 20 4).toNat
def recKgPerRg (r : List W64) : Nat := (bits (recDw r 2) 24 5).toNat
def recResid (r : List W64) : Nat := (bits (recDw r 2) 32 4).toNat
def recRgCount (r : List W64) : Nat := (bits (recDw r 2) 40 16).toNat
def recRegs (r : List W64) : Nat := (bits (recDw r 4) 0 9).toNat
def recRegG (r : List W64) : Nat := (bits (recDw r 4) 16 8).toNat
def recCallG (r : List W64) : Nat := (bits (recDw r 4) 24 8).toNat
def recSpadG (r : List W64) : Nat := (bits (recDw r 4) 32 8).toNat
def recL1G (r : List W64) : Nat := (bits (recDw r 4) 40 8).toNat
def recSpillStride (r : List W64) : Nat := (bits (recDw r 9) 0 16).toNat
def recQos (r : List W64) : Nat := (bits (recDw r 9) 16 2).toNat
def recCtxid (r : List W64) : Nat := (bits (recDw r 15) 0 32).toNat
def recSeq (r : List W64) : W32 := bits (recDw r 14) 0 32

/-- Registers of each thread (R41). -/
def Group.regs (g : Group) : Nat := recRegs g.lrec
def Group.nThreads (g : Group) : Nat := recThreads g.lrec

/-- The linear index of a core group (R61). -/
def Group.linear (g : Group) : Nat :=
  ((g.bind.rgx * recKgPerRg g.lrec + g.bind.kgx) * recSgPerKg g.lrec + g.bind.sgx) * recCgPerSg g.lrec + g.bind.cgx

/-- The physical segment of a core (R15). -/
def segOf (core : Nat) : Nat := core / 64

/-! ## Management registers -/

/-- The reset value of a dword of the management block (R21, R66, R130, R292, R413) (DEDUCED, log 92). -/
def pmbReset (off : Nat) : W64 :=
  if 0x1000 ≤ off ∧ off < 0x2000 ∧ off % 64 = 0x18 then 0x30000
  else if 0xD000 ≤ off ∧ off < 0xD400 ∧ off % 64 = 0 then 0x100
  else if 0xE400 ≤ off ∧ off < 0xE800 ∧ off % 16 = 0 then 0x1000
  else if 0xE800 ≤ off ∧ off < 0xEC00 ∧ off % 16 = 0 then 0x8000000
  else 0

/-- A dword of the management block as it stands. -/
def State.reg (s : State) (off : Nat) : W64 := (alFind s.pmb off).getD (pmbReset off)

def State.setReg (s : State) (off : Nat) (v : W64) : State := { s with pmb := alSet off v s.pmb }

def State.partRec (s : State) (p off : Nat) : W64 := s.reg (0x1000 + 64 * p + off)
def State.trans (s : State) (p off : Nat) : W64 := s.reg (0x3000 + 128 * p + off)
def State.tvec (s : State) (p : Nat) : W64 := s.reg (0xE000 + 16 * p)

/-- AGETHR; values below 16 act as 16 (R130). -/
def State.agethr (s : State) (p : Nat) : Nat := max 16 (bits (s.reg (0xE400 + 16 * p)) 0 16).toNat

/-- MBUDGET, held to its limits (R292). -/
def State.mbudget (s : State) (p : Nat) : Nat :=
  min 0x8000000 (max 0x8000 (bits (s.reg (0xE800 + 16 * p)) 0 32).toNat)

/-- ENABLE of a partition (R66). -/
def State.enabled (s : State) (p : Nat) : Bool := bit (s.partRec p 0x30) 32

/-- A slice group is owned by a partition (R66). -/
def State.owns (s : State) (p slice : Nat) : Bool :=
  if slice < 64 then bit (s.partRec p 0) slice else bit (s.partRec p 8) (slice - 64)

/-- The place-map byte of a logical core (R92). -/
def State.placeByte (s : State) (p l c : Nat) : Byte :=
  let off := 0x5000 + 512 * p + 64 * l + c
  bits (s.reg (off / 8 * 8)) (8 * (off % 8)) 8

/-- The SEGMAP nibble of a logical segment (R92): its physical segment, where valid. -/
def State.segmap (s : State) (p l : Nat) : Option Nat :=
  let n := bits (s.trans p 0x50) (4 * l) 4
  if l < 8 ∧ bit n 3 then some (bits n 0 3).toNat else none

/-- The physical core of a logical core (R92). -/
def State.physCore (s : State) (p l c : Nat) : Option Nat :=
  match s.segmap p l with
  | none => none
  | some seg =>
    let b := s.placeByte p l c
    if bit b 7 then some (64 * seg + (bits b 0 6).toNat) else none

/-- The logical segment of a physical one (R92). -/
def State.logSeg (s : State) (p seg : Nat) : Option Nat :=
  (List.range 8).find? fun l => s.segmap p l == some seg

/-- The logical core of a physical core within its logical segment (R92). -/
def State.logCore (s : State) (p core : Nat) : Option (Nat × Nat) :=
  match s.logSeg p (segOf core) with
  | none => none
  | some l => ((List.range 64).find? fun c => s.physCore p l c == some core).map fun c => (l, c)

/-- CLOCK as a core group reads it (R156, DESIGN CHOICE, log 5): the segment's count, with the group's offset. -/
def State.clock (s : State) (core : Nat) (off : Nat) : Nat :=
  s.now + Config.clockSkew (segOf core) % 65 + off

/-- Draws a free value (DESIGN CHOICE, log 1). -/
def State.draw (s : State) : W64 × State := (Config.freeWord s.fresh, { s with fresh := s.fresh + 1 })

/-! ## Registers of a thread -/

/-- A w register; none at or above REGS is ever named by a word that issues (R41). -/
def Thread.r (t : Thread) (n : Nat) : W32 := t.w.getD n 0

def Thread.setR (t : Thread) (n : Nat) (v : W32) : Thread := { t with w := setNth n v t.w }

/-- An even and odd pair (R101). -/
def Thread.r64 (t : Thread) (n : Nat) : W64 := t.r (n + 1) ++ t.r n

/-- Writes consecutive registers, low word first. -/
def Thread.setRs (t : Thread) (n : Nat) : List W32 → Thread
  | [] => t
  | v :: vs => (t.setR n v).setRs (n + 1) vs

/-- A predicate; p7 reads true (R98, R140). -/
def Thread.pred (t : Thread) (n : BitVec 3) : Bool := n == 7 || bit t.p n.toNat

/-- Writing p7 has no effect (R100). -/
def Thread.setPred (t : Thread) (n : BitVec 3) (v : Bool) : Thread :=
  if n = 7 then t
  else
    let m : BitVec 8 := (1 : BitVec 8) <<< n.toNat
    { t with p := if v then t.p ||| m else t.p &&& ~~~m }

/-- The guard of a word for a thread (R99). -/
def Thread.guard (t : Thread) (gp : BitVec 4) : Bool := (t.pred (bits gp 0 3)) != bit gp 3

/-- Two 32-bit words of a 64-bit value, low first. -/
def words64 (v : W64) : List W32 := [bits v 0 32, bits v 32 32]

/-- The register words of a little-endian byte string. -/
def wordsOfBytes (bs : List Byte) : List W32 :=
  (List.range ((bs.length + 3) / 4)).map fun i => BitVec.ofNat 32 (natOfBytes ((bs.drop (4 * i)).take 4))

/-! ## The frontier: arrival, departure, parking (R121-R123) -/

def pairEq (pc : Va) (prio : BitVec 8) (pc' : Va) (prio' : BitVec 8) : Bool := pc == pc' && prio == prio'

/-- The lowest index with no entry, below 256. -/
def freeIdx (es : List Entry) : Option Nat :=
  (List.range 256).find? fun i => es.all fun e => e.idx != i

def insertEntry (e : Entry) (es : List Entry) : List Entry := insertBy Entry.idx e es

/-- A freed entry takes the parked group at the head of the queue (R123). -/
def unparkOne (g : Group) : Group :=
  match g.parking, freeIdx g.frontier with
  | p :: ps, some i => { g with parking := ps, frontier := insertEntry ⟨i, p.pc, p.prio, p.tids, 0, 0⟩ g.frontier }
  | _, _ => g

/-- Parked groups take free entries, as many as there are (R123). -/
def unpark : Nat → Group → Group
  | 0, g => g
  | n + 1, g => if g.parking.isEmpty then g else unpark n (unparkOne g)

/-- Threads leave wherever they stand: their entries, the parking queue and the wait store. An emptied
entry is freed (R121, R123). -/
def Group.depart (g : Group) (tids : List Nat) : Group :=
  let keep (l : List Nat) := l.filter fun t => !tids.contains t
  let es := (g.frontier.map fun e => { e with tids := keep e.tids }).filter fun e => !e.tids.isEmpty
  let ps := (g.parking.map fun p => { p with tids := keep p.tids }).filter fun p => !p.tids.isEmpty
  unpark 256 { g with frontier := es, parking := ps, waits := g.waits.filter fun x => !tids.contains x.tid }

/-- Threads arrive at one pair (R122). -/
def Group.arriveAt (g : Group) (pc : Va) (prio : BitVec 8) (tids : List Nat) : Group :=
  if tids.isEmpty then g
  else if g.frontier.any fun e => pairEq pc prio e.pc e.prio then
    { g with frontier := g.frontier.map fun e =>
        if pairEq pc prio e.pc e.prio then { e with tids := sortBy id (e.tids ++ tids) } else e }
  else if g.parking.any fun p => pairEq pc prio p.pc p.prio then
    { g with parking := g.parking.map fun p =>
        if pairEq pc prio p.pc p.prio then { p with tids := sortBy id (p.tids ++ tids) } else p }
  else
    match g.parking.isEmpty, freeIdx g.frontier with
    | true, some i => { g with frontier := insertEntry ⟨i, pc, prio, sortBy id tids, 0, 0⟩ g.frontier }
    | _, _ => { g with parking := g.parking ++ [⟨pc, prio, sortBy id tids⟩] }

/-- The threads of a list that stand at the pair of its first, and the rest. -/
def Group.samePair (g : Group) (t : Nat) (tids : List Nat) : List Nat :=
  tids.filter fun u => pairEq (g.thread t).pc (g.thread t).prio (g.thread u).pc (g.thread u).prio

/-- The pairs that threads reach, each once, by its first thread. -/
def Group.pairsOf (g : Group) : List Nat → List Nat
  | [] => []
  | t :: r => t :: (g.pairsOf r).filter fun u =>
      !pairEq (g.thread t).pc (g.thread t).prio (g.thread u).pc (g.thread u).prio

/-- Threads arrive at the pairs they hold (R122): those of a sheet first at the fall-through pair, then in descending
PRIO, equal priorities by their lowest TID; those that leave the wait store, which have no such pair, by lowest TID. -/
def Group.arrive (g : Group) (fall : Option (Va × BitVec 8)) (tids : List Nat) : Group :=
  let ts := sortBy id tids
  let key (t : Nat) : Nat :=
    match fall with
    | none => 0
    | some (p, q) => if pairEq p q (g.thread t).pc (g.thread t).prio then 0 else 256 - (g.thread t).prio.toNat
  (sortBy key (g.pairsOf ts)).foldl
    (fun h t => h.arriveAt (g.thread t).pc (g.thread t).prio (g.samePair t ts)) g

/-- Threads move from wherever they stand to the pairs they now hold. -/
def Group.move (g : Group) (fall : Option (Va × BitVec 8)) (tids : List Nat) : Group := (g.depart tids).arrive fall tids

/-- A thread enters the wait store (R124). -/
def Group.park (g : Group) (t : Nat) (why : Why) : Group :=
  let g := g.depart [t]
  { g with waits := g.waits ++ [⟨t, why⟩] }

def Group.waiting (g : Group) (t : Nat) : Option Wait := g.waits.find? fun x => x.tid == t

/-- Live threads: those that have not executed EXIT (R118). -/
def Group.live (g : Group) : List Nat := (List.range g.threads.length).filter fun t => !(g.thread t).done

/-! ## Priorities (R125) -/

/-- The priority at a PC reached by fall-through: the block's, where the PC starts one. -/
def fallPrio (blocks : List (Nat × BitVec 8)) (pc : Va) (prio : BitVec 8) : BitVec 8 :=
  (alFind blocks pc.toNat).getD prio

/-- The PC of the next word. -/
def nextPc (pc : Va) : Va := ((pc + 8).setWidth 56).setWidth 57

/-- A PC from 64 bits: bits [2:0] and [63:56] are discarded (R96, R166). -/
def pcOf (v : W64) : Va := (bits v 3 53 ++ (0 : BitVec 3)).setWidth 57

/-! ## Traps (R396, R397, R400, R402) -/

def cIllegalOpcode : Nat := 0x01
def cIllegalOperand : Nat := 0x02
def cLatchStale : Nat := 0x03
def cRole : Nat := 0x04
def cPriv : Nat := 0x05
def cAlign : Nat := 0x06
def cWindow : Nat := 0x07
def cPageAbsent : Nat := 0x08
def cPageDenied : Nat := 0x09
def cTagMismatch : Nat := 0x0A
def cPoison : Nat := 0x0B
def cAppendOrder : Nat := 0x0C
def cAppendRead : Nat := 0x0D
def cSealedWrite : Nat := 0x0E
def cCallSpill : Nat := 0x0F
def cSoftware : Nat := 0x10
def cBreak : Nat := 0x11
def cIsolation : Nat := 0x12
def cDouble : Nat := 0x13

/-- TPC for a pair (R397). -/
def tpcOf (pc : Va) (prio : BitVec 8) : W64 := prio ++ pc.setWidth 56

/-- A thread enters trap mode (R397). `pc`, `prio` are those that TPC names. -/
def Thread.trap (t : Thread) (tvec : W64) (cause : Nat) (val : W64) (pc : Va) (prio : BitVec 8) (trec : W64) :
    Thread :=
  { t with
    tcause := BitVec.ofNat 64 cause, tval := val, tpc := tpcOf pc prio, trec := trec,
    tstate := (0 : BitVec 31) ++ b1 (bit t.pix 31) ++ t.pix,
    pix := 0, tm := true, pc := pcOf tvec, prio := bits tvec 56 8 }

/-- An error halts the group: the first one counts, and a group that has stopped is not halted again (R403, R410). -/
def Group.halting (g : Group) (code : Nat) (detail : W64) : Group :=
  if g.st == .running then { g with st := .halting code detail } else g

/-- A thread traps: it enters its handler, or raises a second error that halts the group (R397, R403).
The thread keeps its place in the frontier: the caller moves it. -/
def Group.trapThread (g : Group) (tvec : W64) (t : Nat) (cause : Nat) (val : W64) (pc : Va) (prio : BitVec 8)
    (trec : W64) : Group :=
  let th := g.thread t
  if th.tm then g.halting cDouble th.tpc
  else if !bit tvec 0 then g.halting cDouble (tpcOf pc prio)
  else g.modThread t fun x => x.trap tvec cause val pc prio trec

/-- Return from a trap (R402). -/
def Thread.eret (t : Thread) : Thread :=
  { t with
    pc := pcOf t.tpc, prio := bits t.tpc 56 8,
    pix := if bit t.tstate 32 then bits t.tstate 0 32 else 0,
    tstate := t.tstate &&& 0xFFFFFFFF, tm := false }

end Sys2Proof.Machine
end

