-- ==== Sys2Proof/Machine/Translate.lean ====
section
/-! DEFINITION. Translation: windows (R79, R80), places (R90, R91), the home map (R83, R84), page tables
(R85-R87), readiness and routes (R10-R14, R18). -/

namespace Sys2Proof.Machine

/-- The right that an access needs of its window (R78, R79). -/
inductive Right where | rd | wr | rdwr | ex | none
deriving DecidableEq, Repr

/-- A check that fails: cause and TVAL. -/
abbrev Bad := Nat × W64

/-! ## Windows -/

def winV (d0 : W64) : Bool := bit d0 0
def winBase (d0 : W64) : Nat := (bits d0 16 41).toNat * 65536
def winSize (d1 : W64) : Nat := ((bits d1 32 28).toNat + 1) * 65536
def winIa (d1 : W64) : Nat := (bits d1 0 32).toNat * 65536
def winTag (d0 : W64) : Bool := bit d0 6

def rtOf (v : BitVec 2) : RT :=
  match v.toNat with
  | 0 => .o | 1 => .w | 2 => .s | _ => .u

/-- The PASID of the context whose windows these are: it stands after the sixteen (R51, R82). -/
def winPasid (wins : List W64) : Nat := (wins.getD 32 0).toNat

/-- DEFRT of a window; engines take O and S as W (R252). -/
def winEngRt (d0 : W64) : RT := if bits d0 4 2 = 3 then .u else .w

/-- The lowest window over an address (R79). -/
def winFind (wins : List W64) (va : Nat) : Option (W64 × W64) :=
  ((List.range 16).map fun n => (wins.getD (2 * n) 0, wins.getD (2 * n + 1) 0)).find? fun (d0, d1) =>
    winV d0 && decide (winBase d0 ≤ va) && decide (va < winBase d0 + winSize d1)

/-- The window grants the right (R79). -/
def Right.ok (r : Right) (d0 : W64) : Bool :=
  match r with
  | .rd => bit d0 1
  | .wr => bit d0 2
  | .rdwr => bit d0 1 && bit d0 2
  | .ex => bit d0 3
  | .none => true

/-- The VA lies in the place window (R90). -/
def isPlace (va : W64) : Bool := bits va 52 5 == 31

/-- Pointer bits [59:57] must be zero (R77). -/
def ptrOk (va : W64) : Bool := bits va 57 3 == 0

def vaOf (va : W64) : Nat := (bits va 0 57).toNat

/-- A VA through the windows (R79): the IA and the window's dword 0. -/
def winTranslate (wins : List W64) (r : Right) (va : W64) : Except Bad (Nat × W64) :=
  match winFind wins (vaOf va) with
  | none => .error (cWindow, va)
  | some (d0, d1) =>
    if r.ok d0 then .ok (winIa d1 + (vaOf va - winBase d0), d0) else .error (cPageDenied, va)

/-! ## Places -/

/-- The core that a place names (R90). -/
def placeCore (s : State) (core p : Nat) (va : W64) : Except Bad Nat :=
  let l := (bits va 44 4).toNat
  let c := (bits va 38 6).toNat
  if l = 15 ∧ c = 63 then .ok core
  else
    let seg := if l = 15 then s.logSeg p (segOf core) else some l
    match seg.bind fun l => s.physCore p l c with
    | none => .error (cPageDenied, va)
    | some t => .ok t

/-- The target may be reached: the own core, or a core of the own slice group bound to the same launch;
a target in another partition is an isolation violation (R91), and so is one on a slice group that no partition owns
(DESIGN CHOICE, log 98). -/
def placeReach (s : State) (core p lid t : Nat) (va : W64) : Except Bad Unit :=
  if t = core then .ok ()
  else
    match s.grp? t with
    | none => .error (if s.owns p (t / 4) then cPageDenied else cIsolation, va)
    | some g =>
      if g.part ≠ p then .error (cIsolation, va)
      else if t / 4 = core / 4 ∧ g.lid = lid then .ok ()
      else .error (cPageDenied, va)

/-- The fields of a place address name no place: the window traps (R90). -/
def placeBad (va : W64) : Bool :=
  decide (3 ≤ (bits va 48 4).toNat) || (decide (8 ≤ (bits va 44 4).toNat) && decide ((bits va 44 4).toNat ≤ 14)) ||
    bits va 24 14 != 0

/-- The location of a place access (R90, R91). -/
def placeLoc (s : State) (core : Nat) (g : Group) (write : Bool) (va : W64) : Except Bad Loc :=
  let k := (bits va 48 4).toNat
  let off := (bits va 0 24).toNat
  if placeBad va then .error (cWindow, va)
  else
    match placeCore s core g.part va with
    | .error e => .error e
    | .ok t =>
      if k ≠ 0 ∧ write then .error (cPageDenied, va)
      else
        match placeReach s core g.part g.lid t va with
        | .error e => .error e
        | .ok () =>
          if k = 0 then
            let lim := match s.grp? t with
              | none => 0
              | some h => recSpadG h.lrec * 16384
            if lim ≤ off then .error (cWindow, va) else .ok (.spad t off)
          else if k = 1 then .ok (.ring t off)
          else .ok (.eng t off)

/-! ## Checks 1 to 3 of R198 -/

/-- The window or place of an access, checks 1 to 3 of R198, made in their order, through windows. -/
def locateIn (wins : List W64) (s : State) (core : Nat) (g : Group) (r : Right) (va : W64) (n align : Nat) (rt : RT) :
    Except Bad Acc :=
  if !ptrOk va then .error (cWindow, va)
  else if vaOf va % align ≠ 0 then .error (cAlign, va)
  else if isPlace va then
    match placeLoc s core g (r == .wr || r == .rdwr) va with
    | .error e => .error e
    | .ok l => .ok ⟨va, l, n, .u, false, 0⟩
  else
    match winTranslate wins r va with
    | .error e => .error e
    | .ok (ia, d0) => .ok ⟨va, .ia ia, n, rt, winTag d0, winPasid wins⟩

/-- The same through the windows that the core has now (R81). -/
def locate (s : State) (core : Nat) (g : Group) (r : Right) (va : W64) (n align : Nat) (rt : RT) : Except Bad Acc :=
  locateIn (s.core core).wins s core g r va n align rt

/-! ## Segments, routes, readiness -/

/-- The live segments in line order from the first dead bridge or segment (R12). -/
def lineOf (pk : Pkg) : List Nat :=
  let start := match (List.range 8).find? fun b => bit pk.deadBr b with
    | some b => (b + 1) % 8
    | none =>
      match (List.range 8).find? fun y => bit pk.deadSeg y with
      | some y => (y + 1) % 8
      | none => 0
  ((List.range 8).map fun i => (start + i) % 8).filter fun x => !bit pk.deadSeg x

/-- The bridge between a segment and the next one carries traffic (R9, R11). -/
def bridgeUp (pk : Pkg) (b : Nat) : Bool :=
  !bit pk.deadBr b && !bit pk.deadSeg b && !bit pk.deadSeg ((b + 1) % 8)

/-- Segments reached from one, going up and going down over bridges that carry traffic. -/
def reachGo (pk : Pkg) : Nat → Nat → Nat → Bool → Bool
  | 0, _, _, _ => false
  | f + 1, a, b, up =>
    a == b || (if up then bridgeUp pk a && reachGo pk f ((a + 1) % 8) b up
               else bridgeUp pk ((a + 7) % 8) && reachGo pk f ((a + 7) % 8) b up)

/-- Two live segments can reach each other (R14). -/
def reachable (pk : Pkg) (a b : Nat) : Bool :=
  !bit pk.deadSeg a && !bit pk.deadSeg b && (reachGo pk 9 a b true || reachGo pk 9 a b false)

/-- The segment of the package controller (R16): 0, or 7 once it is dead; the lowest live segment once both are
(DESIGN CHOICE, log 96). -/
def controlSeg (pk : Pkg) : Nat :=
  if !bit pk.deadSeg 0 then 0
  else if !bit pk.deadSeg 7 then 7
  else ((List.range 8).find? fun x => !bit pk.deadSeg x).getD 7

/-- Slice groups that a partition owns. -/
def ownedSlices (s : State) (p : Nat) : List Nat := (List.range 128).filter (s.owns p)

/-- The segments on which a partition has cores and homes (R13). -/
def partSegs (s : State) (p : Nat) : List Nat := dedup ((ownedSlices s p).map (· / 16))

/-- The segment whose controller reads and writes memory for a partition: the package controller's, where it reaches
the partition's first live segment, else that one (R13-R16) (DESIGN CHOICE, log 96). -/
def fwSeg (s : State) (p : Nat) : Nat :=
  let c := controlSeg s.pkg
  match (partSegs s p).find? fun a => !bit s.pkg.deadSeg a with
  | none => c
  | some a => if reachable s.pkg c a then c else a

/-- Hops between two segments: R10 on the intact strip, R12 once folded. -/
def hops (pk : Pkg) (a b : Nat) : Nat :=
  if pk.folded then
    let l := lineOf pk
    let i := l.findIdx (· == a)
    let j := l.findIdx (· == b)
    max i j - min i j
  else
    let d := (b + 8 - a) % 8
    min d (8 - d)

/-- Ring A is taken on the intact strip (R10). -/
def ringAOf (a b : Nat) : Bool :=
  let d := (b + 8 - a) % 8
  decide (d < 4) || (d == 4 && a % 2 == 0)

/-- The bridges on the way from one segment to another (R10, R12). -/
def route (pk : Pkg) (a b : Nat) : List Nat :=
  if pk.folded then
    let l := lineOf pk
    let i := l.findIdx (· == a)
    let j := l.findIdx (· == b)
    (l.drop (min i j)).take (max i j - min i j)
  else
    let d := (b + 8 - a) % 8
    if ringAOf a b then (List.range d).map fun k => (a + k) % 8
    else (List.range (8 - d)).map fun k => (a + 7 - k) % 8

/-! ## The home map (R83, R84) -/

/-- A DPA from a segment and a byte address within it (R83). -/
def dpa (seg addr : Nat) : Nat := seg * 2 ^ 53 + addr

/-- Host memory and the memory of peers, above every DPA (DESIGN CHOICE, log 3). -/
def hostAddr (h : Nat) : Nat := 2 ^ 56 + h
def peerAddr (p a : Nat) : Nat := 2 ^ 65 + p * 2 ^ 48 + a

/-- A home-map entry (R83). -/
structure Hme where
  kind : Nat
  seg : Nat
  stk : Nat
  hport : Nat
  peer : Nat
  fport : Nat
  hold : Bool
deriving DecidableEq, Repr

def hmeOf (e : W32) : Hme :=
  ⟨(bits e 1 2).toNat, (bits e 3 3).toNat, (bits e 6 1).toNat, (bits e 7 1).toNat, (bits e 8 6).toNat,
   (bits e 14 6).toNat, bit e 20⟩

/-- The address of the entry's 4 bytes, where the root entry is valid and well formed (R83). -/
def hmeAddr (s : State) (p ia : Nat) : Option Nat :=
  let root := (bits (s.trans p 0) 0 56).toNat
  let r := memRead64 s.mem (root + 8 * nbits ia 33 15)
  if bit r 0 ∧ r &&& 0xFF00000000003FFE = 0 then some ((bits r 14 42).toNat * 16384 + 4 * nbits ia 21 12) else none

/-- The raw entry of a region: cached at the slices, or read from the table (R83). -/
def hmeRaw (s : State) (p ia : Nat) : Option W32 :=
  match alFind s.hmc (p * 2 ^ 27 + ia / 2 ^ 21) with
  | some e => some e
  | none => (hmeAddr s p ia).map fun a => BitVec.ofNat 32 (natOfBytes (memReadN s.mem a 4))

/-- The partition's slices on a stack (R84). -/
def slicesOn (s : State) (p seg stk : Nat) : List Nat :=
  ((List.range 8).map fun j => 16 * seg + 8 * stk + j).filter fun x => s.owns p x

/-- The valid entry of a region (R83, R84): none where it is invalid or malformed, or where the partition
owns no slice on its stack. -/
def hme (s : State) (p ia : Nat) : Option Hme :=
  match hmeRaw s p ia with
  | none => none
  | some e =>
    if !bit e 0 || bits e 21 11 != 0 then none
    else
      let h := hmeOf e
      if h.kind = 0 ∧ slicesOn s p h.seg h.stk = [] then none else some h

/-- The home slice (R84). -/
def homeSlice (s : State) (p : Nat) (h : Hme) (ia : Nat) : Nat :=
  let o := slicesOn s p h.seg h.stk
  let x := Nat.xor (Nat.xor (nbits ia 7 3) (nbits ia 10 3)) (nbits ia 13 3)
  o.getD (x % o.length) 0

/-! ## Page tables (R85-R87) -/

inductive WalkRes where
  | absent
  | denied
  | leaf (l : Leaf)
deriving DecidableEq, Repr

/-- CXL ports sit on segments 0, 3, 4 and 7 (R17). -/
def cxlOf (seg i : Nat) : Option Nat :=
  match seg with
  | 0 => some i | 3 => some (2 + i) | 4 => some (4 + i) | 7 => some (6 + i) | _ => none

/-- What a byte address within a segment names: a stack or a CXL port (R86). -/
def unitAt (seg a : Nat) : Option (Nat ⊕ Nat) :=
  if a < 0x1000000000 then some (.inl (2 * seg))
  else if a < 0x2000000000 then some (.inl (2 * seg + 1))
  else if 0x10000000000 ≤ a ∧ a < 0x10000000000 + 2 * 0x4000000000 then
    (cxlOf seg ((a - 0x10000000000) / 0x4000000000)).map .inr
  else none

/-- A frame lies where a leaf may name it (R86). -/
def frameOk (seg stk frame size : Nat) : Bool :=
  frame % size == 0 &&
  (match unitAt seg frame with
   | some (.inl n) => n == 2 * seg + stk
   | some (.inr _) => true
   | none => false)

/-- The index of an IA in a table of a level (R85). -/
def tableIdx (ia lv : Nat) : Nat :=
  match lv with
  | 1 => nbits ia 39 9
  | 2 => nbits ia 30 9
  | 3 => nbits ia 21 9
  | _ => nbits ia 16 5

/-- An entry of a page table as a walker reads it: of levels 1 to 3 from the walk cache where it is there (R88). -/
def tableEntry (m : List Host.Cell) (wc : List (Nat × W128)) (lv a : Nat) : W64 × W64 :=
  match (if lv < 4 then alFind wc a else none) with
  | some v => (bits v 0 64, bits v 64 64)
  | none => (memRead64 m a, memRead64 m (a + 8))

/-- Walks the levels from `lv` on, the table at a byte address of the segment (R85-R88). -/
def walkGo (m : List Host.Cell) (wc : List (Nat × W128)) (seg stk ia : Nat) : Nat → Nat → Nat → WalkRes
  | 0, _, _ => .denied
  | f + 1, lv, tbl =>
    let tsize := if lv = 4 then 512 else 8192
    if tbl % tsize ≠ 0 ∨ unitAt seg tbl = none then .denied
    else
      let a := dpa seg (tbl + 16 * tableIdx ia lv)
      let d0 := (tableEntry m wc lv a).1
      let d1 := (tableEntry m wc lv a).2
      if !bit d0 0 then .absent
      else if bit d0 1 then
        let big := lv == 3
        let cls := (bits d0 5 2).toNat
        let fr := (bits d0 16 37).toNat * 65536
        if bits d0 53 11 ≠ 0 ∨ bits d1 34 30 ≠ 0 ∨ cls = 3 ∨ lv < 3 ∨
            !frameOk seg stk fr (if big then 2 ^ 21 else 65536) then .denied
        else .leaf ⟨bit d0 2, bit d0 3, bit d0 4, cls, bit d0 7, (bits d0 8 8).toNat, dpa seg fr, bits d1 0 32, big, a⟩
      else if bits d0 2 7 ≠ 0 ∨ bits d0 53 11 ≠ 0 ∨ d1 ≠ 0 ∨ lv = 4 then .denied
      else walkGo m wc seg stk ia f (lv + 1) ((bits d0 9 44).toNat * 512)

/-- The valid entries of levels 1 to 3 that a walk reads, by their DPA (R88). -/
def walkEntries (m : List Host.Cell) (wc : List (Nat × W128)) (seg ia : Nat) : Nat → Nat → Nat → List (Nat × W128)
  | 0, _, _ => []
  | f + 1, lv, tbl =>
    let a := dpa seg (tbl + 16 * tableIdx ia lv)
    let (d0, d1) := tableEntry m wc lv a
    if lv = 4 ∨ !bit d0 0 then []
    else (a, d1 ++ d0) :: (if bit d0 1 then [] else walkEntries m wc seg ia f (lv + 1) ((bits d0 9 44).toNat * 512))

/-- The walk of the home segment's table of a partition. -/
def walk (s : State) (p : Nat) (h : Hme) (ia : Nat) : WalkRes :=
  walkGo s.mem s.wcache h.seg h.stk ia 4 1 (bits (s.trans p (0x10 + 8 * h.seg)) 0 53).toNat

/-- Key of a partition's 64 KiB IA page. -/
def pageKey (p ia : Nat) : Nat := p * 2 ^ 32 + ia / 65536

/-- A leaf packed with its address, as the homes cache it (R88). -/
def leafOfRaw (a : Nat) (v : W128) : Leaf :=
  let d0 : W64 := bits v 0 64
  let d1 : W64 := bits v 64 64
  ⟨bit d0 2, bit d0 3, bit d0 4, (bits d0 5 2).toNat, bit d0 7, (bits d0 8 8).toNat,
   dpa (a / 2 ^ 53) ((bits d0 16 37).toNat * 65536), bits d1 0 32, bit d1 63, a⟩

/-- The raw form: both dwords, with the page size in bit 63 of dword 1, which a leaf leaves zero. -/
def leafRaw (l : Leaf) (m : List Host.Cell) : W128 :=
  let d1 := memRead64 m (l.at_ + 8)
  (if l.big then d1 ||| 0x8000000000000000 else d1) ++ memRead64 m l.at_

/-- The leaf of an IA page at its home: as cached, or by a walk (R87, R88). -/
def leafAt (s : State) (p : Nat) (h : Hme) (ia : Nat) : WalkRes :=
  match alFind s.xlat (pageKey p ia) with
  | some (a, v) => .leaf (leafOfRaw a v)
  | none => walk s p h ia

/-- The frame byte of an IA. -/
def Leaf.addr (l : Leaf) (ia : Nat) : Nat := l.frame + (if l.big then ia % 2 ^ 21 else ia % 65536)

/-- Size of the page. -/
def Leaf.size (l : Leaf) : Nat := if l.big then 2 ^ 21 else 65536

/-- The IA of the page's first byte. -/
def Leaf.pageIa (l : Leaf) (ia : Nat) : Nat := ia / l.size * l.size

/-- A walk cache of a segment takes an entry; where its 4096 are taken, it loses one that is not fixed (R88)
(DESIGN CHOICE, log 97). -/
def cacheEntry (s : State) (e : Nat × W128) : State :=
  let mine := s.wcache.filter fun x => x.1 / 2 ^ 53 == e.1 / 2 ^ 53
  if (alFind s.wcache e.1).isSome then s
  else if mine.length < 4096 then { s with wcache := alSet e.1 e.2 s.wcache }
  else
    let lost := (mine.getD ((Config.freeWord s.fresh).toNat % mine.length) e).1
    { s with fresh := s.fresh + 1, wcache := alSet e.1 e.2 (alDel lost s.wcache) }

/-- A walk's entries of levels 1 to 3 stay in the walk cache of the home segment (R88). -/
def cacheWalk (s : State) (p : Nat) (h : Hme) (ia : Nat) : State :=
  (walkEntries s.mem s.wcache h.seg ia 4 1 (bits (s.trans p (0x10 + 8 * h.seg)) 0 53).toNat).foldl cacheEntry s

/-- How often the host has changed a page's translation. -/
def State.atsNow (s : State) (p page : Nat) : Nat := alGet 0 s.atsEpoch (p * 2 ^ 32 + page)

/-- The host port's translation of an IA page under a PASID, where it has access (R51, R235): the one in its cache, else
what the host answers now. It is named by the count of changes under which it was made. -/
def atsAccess (s : State) (p pasid page : Nat) : Option Nat :=
  match s.ats.find? fun x => x.part == p && x.pasid == pasid && x.page == page with
  | some x => some x.epoch
  | none => if Config.atsPresent p pasid page (s.atsNow p page) then some (s.atsNow p page) else none

/-- A host port keeps a translation that grants access (R235). -/
def noteAts (s : State) (p pasid page : Nat) : State :=
  match atsAccess s p pasid page with
  | some e => if s.ats.contains ⟨p, pasid, page, e⟩ then s else { s with ats := s.ats ++ [⟨p, pasid, page, e⟩] }
  | none => s

/-- The home-map caches of the 128 slices take a well-formed valid entry; where their 1024 entries each are taken, they
lose one that holds no region (R83, R94) (DESIGN CHOICE, log 115). -/
def keepHme (s : State) (p ia : Nat) : State :=
  let k := p * 2 ^ 27 + ia / 2 ^ 21
  match hme s p ia, hmeRaw s p ia with
  | some _, some e =>
    let loose := s.hmc.filter fun x => !bit x.2 20
    if (alFind s.hmc k).isSome then s
    else if s.hmc.length < 128 * 1024 ∨ loose = [] then { s with hmc := alSet k e s.hmc }
    else
      let lost := (loose.getD ((Config.freeWord s.fresh).toNat % loose.length) (k, e)).1
      { s with fresh := s.fresh + 1, hmc := alSet k e (alDel lost s.hmc) }
  | _, _ => s

/-- Records a home-map entry, a translation and what a walk read in the caches, and sets ACC (R83, R86, R88, R235). -/
def noteWalk (s : State) (p pasid ia : Nat) : State :=
  let s := keepHme s p ia
  match hme s p ia with
  | some h =>
    if h.kind = 1 ∨ h.kind = 2 then noteAts s p pasid (ia / 65536)
    else if h.kind ≠ 0 ∨ (alFind s.xlat (pageKey p ia)).isSome then s
    else
      match walk s p h ia with
      | .leaf l =>
        let d1 := memRead64 s.mem (l.at_ + 8)
        let s := cacheWalk s p h ia
        let s := if bit d1 32 then s else { s with mem := memWrite64 (l.at_ + 8) (d1 ||| 0x100000000) s.mem }
        { s with xlat := alSet (pageKey p ia) (l.at_, leafRaw l s.mem) s.xlat }
      | _ => s
  | none => s

/-- DIRTY is set at the home on the first write (R86). -/
def noteDirty (s : State) (l : Leaf) : State :=
  let d1 := memRead64 s.mem (l.at_ + 8)
  if bit d1 33 then s else { s with mem := memWrite64 (l.at_ + 8) (d1 ||| 0x200000000) s.mem }

/-! ## What a home answers -/

/-- How a request at the home of an IA fares before its data is touched. -/
inductive HomeRes where
  /-- Held: the region migrates, the page is being freed, or its stack is not yet ready (R18, R94, R324). -/
  | held
  | fault (cause : Nat) (servable : Bool) (prifail : Bool)
  /-- The target's access table refuses it (R409). -/
  | isolation
  | dev (h : Hme) (l : Leaf) (addr : Nat)
  /-- Host memory or a fabric peer: its kind, address and rights. -/
  | other (kind addr : Nat) (rd wr ex : Bool)
deriving DecidableEq, Repr

/-- A function is ready, has failed, or is not ready yet; `rdy` is its bit of the map (R14, R18). -/
def Pkg.unitUp (pk : Pkg) (f : Func) (rdy : Bool) : Option Bool :=
  if pk.failed.contains f then some false else if rdy || pk.cut.contains f then some true else none

/-- The unit behind a frame is ready, has failed, or is not ready yet (R13, R18). -/
def unitReady (pk : Pkg) (seg addr : Nat) : Option Bool :=
  if bit pk.deadSeg seg then some false
  else
    match unitAt seg addr with
    | some (.inl n) => pk.unitUp (.stack n) (bit pk.stkrdy n)
    | some (.inr n) => pk.unitUp (.cxl n) (bit pk.cxlrdy n)
    | none => some false

/-- A segment is ready (R18). -/
def segReady (pk : Pkg) (seg : Nat) : Bool := pk.unitUp (.segment seg) (bit pk.segrdy seg) == some true

/-- The home stack of an entry is ready, has failed, or is not ready yet (R18). -/
def stackUp (pk : Pkg) (h : Hme) : Option Bool :=
  pk.unitUp (.stack (2 * h.seg + h.stk)) (bit pk.stkrdy (2 * h.seg + h.stk))

/-- The frame of a byte belongs to the partition (R409). -/
def ownsFrame (s : State) (p addr : Nat) : Bool := s.frames.contains (addr / 65536, p)

/-- The tail record's checks of a walk (R308, R324): the page may be used; it is being freed; or not. -/
def tailCheck (s : State) (l : Leaf) : Option Bool :=
  match alFind s.tails l.frame with
  | none => if l.cls = 0 then some true else some false
  | some t =>
    if t.state = 3 then none
    else if l.cls = 0 then some (t.state != 2)
    else some (t.wmap != 0 && (t.state == 2) == (l.cls == 2))

/-- The segment of a host port and of a fabric port (R17). -/
def hostSeg (n : Nat) : Nat := if n = 0 then 0 else 7

def fabricSeg (n : Nat) : Nat :=
  match n with
  | 32 => 0 | 33 => 3 | 34 => 4 | 35 => 7 | _ => n / 4

/-- A port has failed, or a segment cannot reach it (R13, R14, R18) (DEDUCED, log 89). A port that is not ready yet
holds nothing back (DESIGN CHOICE, log 89). -/
def portLost (pk : Pkg) (seg pseg : Nat) (f : Func) : Bool := pk.failed.contains f || !reachable pk seg pseg

/-- A request for device memory at its home: it is held until the unit behind its frame is ready, before any check
of its page (R18, R85-R87, R308, R409) (DEDUCED, log 99). -/
def resolveDev (s : State) (p : Nat) (h : Hme) (ia : Nat) : HomeRes :=
  match leafAt s p h ia with
  | .absent => .fault cPageAbsent true false
  | .denied => .fault cPageDenied false false
  | .leaf l =>
    let a := l.addr ia
    match unitReady s.pkg h.seg (a % 2 ^ 53) with
    | none => .held
    | some ready =>
      match tailCheck s l with
      | none => .held
      | some false => .fault cPageDenied false false
      | some true =>
        if !ownsFrame s p a then .isolation
        else if l.key ≠ 0 ∧ !Config.keyGranted p l.key then .isolation
        else if ready then .dev h l a
        else .fault cPoison false false

/-- A request of a segment for an IA of a partition, checked at the home (R83-R87, R207, R235, R409) (DESIGN
CHOICE, log 9) (DESIGN CHOICE, log 11). -/
def resolve (s : State) (p seg pasid ia : Nat) : HomeRes :=
  match hme s p ia with
  | none => .fault cPageAbsent true false
  | some h =>
    if h.hold then .held
    else if h.kind = 0 then
      if bit s.pkg.deadSeg h.seg || !reachable s.pkg seg h.seg then .fault cPoison false false
      else
        match stackUp s.pkg h with
        | none => .held
        | some false => .fault cPoison false false
        | some true => resolveDev s p h ia
    else if h.kind = 3 then
      if portLost s.pkg seg (fabricSeg h.fport) (.fabric h.fport) then .fault cPoison false false
      else if !Config.portGranted p (2 + h.fport) then .isolation
      else match Config.peerAnswer (h.peer * 2 ^ 32 + ia / 65536) % 3 with
      | 0 => .other 3 (peerAddr h.peer ia) true true true
      | 1 => .fault cPageDenied false false
      | _ => .fault cPoison false false
    else if portLost s.pkg seg (hostSeg h.hport) (.host h.hport) then .fault cPoison false false
    else if !Config.portGranted p h.hport then .isolation
    else
      let page := ia / 65536
      match atsAccess s p pasid page with
      | some e =>
        let r := Config.atsRights p pasid page e
        .other h.kind (hostAddr (Config.atsPage p pasid page e * 65536 + ia % 65536)) (bit r 0) (bit r 1) (bit r 2)
      | none => .fault cPageAbsent true false

end Sys2Proof.Machine
end

