-- ==== Sys2Proof/Machine/Home.lean ====
section
/-! DEFINITION. The homes: checks of a request (R86, R87, R198, R208, R209), recalls, writes with sequence
stamps and invalidations (R203, R205), tail records and word maps (R308-R312), replicas (R320-R323),
hotness counters (R93), and atomic operations (R336-R338). -/

namespace Sys2Proof.Machine

/-- The answer of a home to a request. -/
inductive HAns (α : Type) where
  | ok (a : α)
  | held
  | fault (cause : Nat) (servable : Bool) (prifail : Bool)
  | iso
deriving DecidableEq, Repr

def lineKey (p ia : Nat) : Nat := p * 2 ^ 41 + ia / 128

def HomeLine.empty : HomeLine := ⟨0, [], [], false⟩

def State.homeLine (s : State) (p ia : Nat) : HomeLine := alGet HomeLine.empty s.homes (lineKey p ia)

def State.setHomeLine (s : State) (p ia : Nat) (h : HomeLine) : State :=
  { s with homes := alSet (lineKey p ia) h s.homes }

/-- Resolves an IA into what it reaches (R83-R87). -/
def target (s : State) (p seg pasid ia : Nat) : HAns Tgt :=
  match resolve s p seg pasid ia with
  | .held => .held
  | .fault c v f => .fault c v f
  | .isolation => .iso
  | .dev h l a => .ok ⟨0, a, h.seg, some l, l.rd, l.wr, l.ex⟩
  | .other k a rd wr ex => .ok ⟨k, a, 8, none, rd, wr, ex⟩

/-! ## Tags, poison, word maps -/

def granules (addr n : Nat) : List Nat := (List.range ((addr + n - 1) / 32 + 1 - addr / 32)).map (addr / 32 + ·)

def State.tag (s : State) (gr : Nat) : BitVec 4 := alGet 0 s.tags gr

def tagsOk (s : State) (addr n : Nat) (tag : BitVec 4) : Bool := (granules addr n).all fun gr => s.tag gr == tag

def poisoned (s : State) (addr n : Nat) : Bool := (granules addr n).any fun gr => s.poison.contains gr

/-- The tail record of a leaf's page. -/
def State.tail? (s : State) (l : Leaf) : Option TailRec := if l.cls = 0 then none else alFind s.tails l.frame

def State.setTail (s : State) (l : Leaf) (t : TailRec) : State := { s with tails := alSet l.frame t s.tails }

/-- The words of a page that an access covers, by number. -/
def pageWords (l : Leaf) (addr n : Nat) : List Nat :=
  let o := addr - l.frame
  (List.range ((o + n - 1) / 4 + 1 - o / 4)).map (o / 4 + ·)

/-- A granule's written bit (R308). -/
def TailRec.granuleWritten (t : TailRec) (g : Nat) : Bool :=
  (List.range 4).all fun i => t.written.contains (4 * g + i)

/-- CT advances over fully written granules (R309). -/
def ctGo : Nat → TailRec → TailRec
  | 0, t => t
  | f + 1, t => if t.ct < t.rt ∧ t.granuleWritten t.ct then ctGo f { t with ct := t.ct + 1 } else t

def TailRec.advance (t : TailRec) : TailRec := ctGo (t.rt - t.ct) t

/-- Words become written (R310). -/
def TailRec.write (t : TailRec) (ws : List Nat) : TailRec :=
  ({ t with intended := t.intended.filter (fun w => !ws.contains w), written := dedup (t.written ++ ws) }).advance

/-! ## Checks of a request -/

/-- What a request does, for the rules of class (R310-R312, R320). -/
inductive Use where | load | store | tag | atomic | engineWrite | fetch
deriving DecidableEq, Repr

/-- The class of the page against the use (R310-R312, R320): a cause, or none. The fetch of a word at or above CT of an append
page is refused as a load is (DEDUCED, log 118). -/
def classCheck (s : State) (t : Tgt) (u : Use) (n : Nat) : Option Nat :=
  match t.leaf with
  | none => none
  | some l =>
    match s.tail? l with
    | none => none
    | some r =>
      match u with
      | .load | .fetch => if 16 * r.ct < t.addr - l.frame + n then some cAppendRead else none
      | .atomic | .tag => some (if r.state = 2 then cSealedWrite else cAppendOrder)
      | .store | .engineWrite =>
        if r.state = 2 then some cSealedWrite
        else if n < 4 ∨ t.addr % 4 ≠ 0 ∨ n % 4 ≠ 0 then some cAppendOrder
        else if (pageWords l t.addr n).any fun w => 4 * r.rt ≤ w || r.intended.contains w || r.written.contains w
        then some cAppendOrder
        else none

/-- Check 5 of R198 at the home, as far as it depends on the use: rights, class. -/
def checkUse (s : State) (t : Tgt) (a : Acc) (u : Use) : Option Nat :=
  let needR := match u with | .load | .atomic => true | _ => false
  let needW := match u with | .store | .tag | .engineWrite | .atomic => true | _ => false
  if (needR && !t.rd) || (needW && !t.wr) || (u == .fetch && !t.ex) then some cPageDenied
  else classCheck s t u a.n

/-- Check 4 of R198 at the home: the granule behind a frame of the partition, on a unit that is ready, has another tag
than the pointer. It comes before every check of the page but that there is one (DEDUCED, log 104). -/
def tagFails (s : State) (p seg : Nat) (a : Acc) (ia : Nat) : Bool :=
  a.tagchk &&
  match hme s p ia with
  | none => false
  | some h =>
    h.kind == 0 && reachable s.pkg seg h.seg && stackUp s.pkg h == some true &&
    match leafAt s p h ia with
    | .leaf l =>
      unitReady s.pkg h.seg (l.addr ia % 2 ^ 53) == some true && ownsFrame s p (l.addr ia) &&
        !tagsOk s (l.addr ia) a.n (bits a.va 60 4)
    | _ => false

/-- The IA of an access, and its checks at the home (R198). -/
def askHome (s : State) (p seg : Nat) (a : Acc) (ia : Nat) (u : Use) : HAns Tgt :=
  match target s p seg a.pasid ia with
  | .held => .held
  | .ok t =>
    if tagFails s p seg a ia then .fault cTagMismatch false false
    else
      match checkUse s t a u with
      | none => .ok t
      | some c => .fault c false false
  | r => if tagFails s p seg a ia then .fault cTagMismatch false false else r

/-! ## Hotness (R93) -/

/-- The halvings of all counts that are due, one every 2^20 cycles (R93). -/
def halveDue (s : State) : State :=
  let k := s.now / 2 ^ 20 - s.hotEpoch
  if k = 0 then s
  else
    { s with
      hotEpoch := s.now / 2 ^ 20,
      hot := (s.hot.map fun h => { h with count := h.count / 2 ^ k }).filter fun h => h.count != 0 }

/-- The set of a port's table, of 512 with 8 ways each, in which a count lies (R93) (DESIGN CHOICE, log 30). -/
def Hot.set (h : Hot) : Nat := Config.hotSet h.part h.page h.src % 512

/-- A table takes a count; where its set is full, it loses one that is not fixed (R93) (DESIGN CHOICE, log 30). -/
def putHot (s : State) (h : Hot) : State :=
  let mine := s.hot.filter fun x => x.port == h.port && !x.fallback && x.set == h.set
  if h.fallback || decide (mine.length < 8) then { s with hot := s.hot ++ [h] }
  else
    let lost := mine.getD ((Config.freeWord s.fresh).toNat % mine.length) h
    { s with fresh := s.fresh + 1, hot := s.hot.filter (· != lost) ++ [h] }

/-- One more access: a count that reaches its threshold posts a proposal or a notification, and starts again at zero
(R93); that a count of the fallback table starts again too is a DESIGN CHOICE (log 30). -/
def bumpHot (s : State) (p ia src port : Nat) (fb : Bool) (thr : Nat) : State :=
  let page := ia / 65536
  let same (h : Hot) : Bool := h.part == p && h.page == page && h.src == src && h.port == port && h.fallback == fb
  let c := (match s.hot.find? same with | some h => h.count | none => 0) + 1
  let rest := { s with hot := s.hot.filter fun h => !same h }
  if thr ≠ 0 ∧ thr ≤ c then
    { rest with proposals := s.proposals ++ [⟨p, page, src, fb⟩] }
  else putHot rest ⟨p, page, src, port, fb, c⟩

/-- The ports that a request passes: of each bridge on its way, that of the segment it leaves and that of the one it
enters (R9, R15). -/
def portsOf (pk : Pkg) (a b : Nat) : List Nat := (route pk a b).flatMap fun br => [2 * br, 2 * br + 1]

/-- Counts a remote access at every bridge port on its way and at the home (R10, R93) (DESIGN CHOICE, log 30). -/
def noteHot (s : State) (p seg hseg ia : Nat) : State :=
  if seg = hseg ∨ 8 ≤ hseg then s
  else
    let r := s.trans p 8
    let s := (portsOf s.pkg seg hseg).foldl (fun s b => bumpHot s p ia seg b false (bits r 0 16).toNat) (halveDue s)
    bumpHot s p ia seg 16 true (bits r 16 16).toNat

/-! ## L1 lines -/

def Core.line? (c : Core) (line : Nat) : Option L1Line := c.l1.find? fun l => l.line == line

def Core.setLine (c : Core) (l : L1Line) : Core :=
  if c.l1.any fun x => x.line == l.line then { c with l1 := c.l1.map fun x => if x.line == l.line then l else x }
  else { c with l1 := l :: c.l1 }

/-- A line becomes the most recently used (R202). -/
def Core.useLine (c : Core) (l : L1Line) : Core := { c with l1 := l :: c.l1.filter fun x => x.line != l.line }

def Core.dropLine (c : Core) (line : Nat) : Core := { c with l1 := c.l1.filter fun x => x.line != line }

/-- Bit `i` of a word mask. -/
def wbit (i : Nat) : BitVec 32 := (1 : BitVec 32) <<< i

/-- Words 0-31 of a line in a mask. -/
def maskWords (m : BitVec 32) : List Nat := (List.range 32).filter fun i => bit m i

/-- The words of a line that an access of `n` bytes at an IA touches. -/
def accMask (ia n : Nat) : BitVec 32 :=
  (List.range ((ia % 128 + n - 1) / 4 + 1 - ia % 128 / 4)).foldl (fun m i => m ||| wbit (ia % 128 / 4 + i)) 0

/-! ## Writes, invalidations, recalls -/

/-- Who writes: an L1 (its core's number), the host or a peer, or an engine of a core, which holds no L1. -/
def byHost : Nat := 512
def byEngine (core : Nat) : Nat := 1024 + core

/-- The cores to which an invalidation of a line is on its way: each stands in the set until it has received it (R205). -/
def flying (s : State) (p ia : Nat) : List Nat := (s.invs.filter fun i => i.part == p && i.line == ia / 128).map (·.core)

/-- An invalidation of a line has not been acknowledged: the write that caused it is not yet performed, and the home
lets no load see it (R332, R355) (DEDUCED, log 10). -/
def lineBusy (s : State) (p ia : Nat) : Bool := s.invs.any fun i => i.part == p && i.line == ia / 128

/-- The holders of a line that a write must invalidate (R205). -/
def holders (s : State) (p ia : Nat) (h : HomeLine) (writer : Nat) : List Nat :=
  let all := if h.all then (s.cores.filter fun (_, c) => match c.grp with | some g => g.part == p | none => false).map (·.1)
    else h.sharers
  dedup ((all ++ flying s p ia).filter fun c => c != writer)

/-- `x` is older than `y` (R206). -/
def older (x y : W32) : Bool := decide (1 ≤ (y - x).toNat) && decide ((y - x).toNat < 2 ^ 31)

/-- A pending miss of a line takes a stamp floor, if that is newer (R206). -/
def raiseFloor (c : Core) (line : Nat) (stamp : W32) : Core :=
  { c with misses := c.misses.map fun m =>
      if m.line = line then
        match m.floor with
        | some f => if older f stamp then { m with floor := some stamp } else m
        | none => { m with floor := some stamp }
      else m }

/-- A core's L1 holds valid words of a line that invalidations reach. -/
def holdsCopy (c : Core) (line : Nat) : Bool :=
  match c.line? line with
  | some l => l.v != 0 && !l.sealed
  | none => false

/-- A write performed at the home of a line: LSEQ rises, every holder but the writer is sent a stamped
invalidation; from then on it is a holder by the invalidation on its way (R205, DEDUCED, log 10). A writer that keeps a
copy is a holder, also where an invalidation that a pending word outlived had taken it from the set (R205, R349)
(DEDUCED, log 10). A miss of the writer's own L1 takes the new stamp as its
floor, so that no load after the write returns what stood before it (R201, R350) (DEDUCED, log 42). -/
def bumpLine (s : State) (p ia : Nat) (writer : Nat) : State :=
  let h := s.homeLine p ia
  let seq := h.lseq + 1
  let out := (holders s p ia h writer).map fun c => (⟨c, p, ia / 128, seq, writer⟩ : Inv)
  let keep := if writer < 512 && (h.all || h.sharers.contains writer || holdsCopy (s.core writer) (ia / 128)) then [writer]
    else []
  let s := s.setHomeLine p ia { h with lseq := seq, sharers := keep, all := false }
  let s := { s with invs := s.invs ++ out }
  if writer < 512 then s.modCore writer fun c => raiseFloor c (ia / 128) seq else s

/-- A core joins the sharer set; the ninth holder makes it all cores of the partition (R205). -/
def joinSharers (s : State) (p ia core : Nat) : State :=
  let h := s.homeLine p ia
  if h.all || h.sharers.contains core then s
  else if 8 ≤ h.sharers.length then s.setHomeLine p ia { h with sharers := [], all := true }
  else s.setHomeLine p ia { h with sharers := h.sharers ++ [core] }

/-- The dirty owned words of a mask in a core's L1 line. -/
def dirtyOwned (c : Core) (line : Nat) (m : BitVec 32) : List Nat :=
  match c.line? line with
  | none => []
  | some l => maskWords (m &&& l.own &&& l.dty)

/-- Words written to a line in memory: a poisoned granule all of whose words are written is clean again; another stays
poisoned, and is to be reported (R209, R227, R335). -/
def wroteWords (s : State) (p core line addr : Nat) (ws : List Nat) : State :=
  let whole (gr : Nat) : Bool := (List.range 8).all fun i => ws.contains (8 * gr + i)
  let hit := (List.range 4).filter fun gr => s.poison.contains (addr / 32 + gr) && ws.any fun w => w / 8 == gr
  { s with
    poison := s.poison.filter fun x => !(hit.any fun gr => whole gr && x == addr / 32 + gr),
    reports := s.reports ++ (hit.filter fun gr => !whole gr).map fun gr => ⟨core, p, line * 128 + 32 * gr⟩ }

/-- The owned words of a mask in a core's L1 line go to memory; they stay valid and clean, tracked and no longer owned
(R203). The write is not counted here. -/
def takeOwned (s : State) (p core line : Nat) (addr : Nat) (m : BitVec 32) : State :=
  match (s.core core).line? line with
  | none => s
  | some l =>
    if m &&& l.own = 0 then s
    else
      let ws := dirtyOwned (s.core core) line m
      let mem := ws.foldl (fun mm i => memWriteN (addr + 4 * i) (bytesOf 4 (l.data.getD i 0).toNat) mm) s.mem
      let s := wroteWords { s with mem := mem } p core line addr ws
      let s := s.modCore core fun c => c.setLine { l with own := l.own &&& ~~~m, dty := l.dty &&& ~~~m }
      let h := s.homeLine p (line * 128)
      let s := s.setHomeLine p (line * 128) { h with owners := h.owners.filter fun (w, c) => !(c == core && bit m w) }
      joinSharers s p (line * 128) core

/-- Writes words of one core's L1 line to memory as one write (R203). The words stay valid and clean. -/
def writeBackWords (s : State) (p core line : Nat) (addr : Nat) (m : BitVec 32) : State :=
  if (dirtyOwned (s.core core) line m).isEmpty then takeOwned s p core line addr m
  else bumpLine (takeOwned s p core line addr m) p (line * 128) core

/-- The base address of a line's bytes in memory, where its page is mapped at its home. -/
def lineAddr (s : State) (p line : Nat) : Option Nat :=
  match hme s p (line * 128) with
  | none => none
  | some h =>
    if h.kind ≠ 0 then none
    else
      match leafAt s p h (line * 128) with
      | .leaf l => some (l.addr (line * 128))
      | _ => none

/-- Recalls the owned words of a mask from whatever L1 owns them (R203). -/
def recallMask (s : State) (p ia : Nat) (m : BitVec 32) : State :=
  match lineAddr s p (ia / 128) with
  | none => s
  | some base =>
    let cores := dedup (((s.homeLine p ia).owners.filter fun (w, _) => bit m w).map (·.2))
    cores.foldl (fun s c => writeBackWords s p c (ia / 128) base m) s

/-- A poisoned granule is rewritten by a store of all of its bytes (R209). -/
def clearPoison (s : State) (addr n : Nat) : State :=
  { s with poison := s.poison.filter fun gr => !(decide (addr ≤ 32 * gr) && decide (32 * gr + 32 ≤ addr + n)) }

/-! ## Stores to memory of KIND 1 to 3 on their way (R332, R348, R362) -/

/-- The host port of an IA. -/
def hportOf (s : State) (p ia : Nat) : Nat := match hme s p ia with | some h => h.hport | none => 0

/-- The IA of an address in the memory of a peer. -/
def peerIa (a : Nat) : Nat := a % 2 ^ 48

/-- A posted store is performed at the host, or at the peer's home, which sends its invalidations; its entry of the region
buffer is freed (R205, R207, R226, R332). A poisoned granule that it covers is clean again (R209). -/
def performPosted (s : State) (x : Posted) : State :=
  let s := clearPoison { s with mem := memWriteN x.addr x.data s.mem, posted := s.posted.filter fun y => y.id != x.id }
    x.addr x.data.length
  let s := if x.kind = 3 then bumpLine s x.part (peerIa x.addr) x.writer else s
  if x.writer < 512 then s.modGrp x.writer fun g => { g with rb := g.rb.filter fun e => e.st != .posted x.id } else s

/-- Posted stores that pass a test are performed, in the order in which they left. -/
def flushPosted (s : State) (f : Posted → Bool) : State := (s.posted.filter f).foldl performPosted s

/-- An access to memory of KIND 1 to 3 goes behind the stores posted before it: a read completion of KIND 2 flushes its
port; of KIND 1 and 3, the line's own stores come first (R201, R332). -/
def flushBefore (s : State) (p : Nat) (t : Tgt) (ia : Nat) : State :=
  if t.kind = 2 then flushPosted s fun x => x.kind == 2 && x.hport == hportOf s p ia
  else if t.kind = 1 ∨ t.kind = 3 then flushPosted s fun x => x.kind == t.kind && x.addr / 128 == t.addr / 128
  else s

/-- A store to memory of KIND 1 to 3 leaves for its port (R332, R348, R362) (DEDUCED, log 105). A fill of the line on its way to the
writer's own L1, read before it, is sent again (R201). -/
def postStore (s : State) (p writer : Nat) (t : Tgt) (ia : Nat) (bs : List Byte) : State :=
  let x : Posted := ⟨2 ^ 40 + s.postNo, writer, p, t.kind, hportOf s p ia, t.addr, bs⟩
  let s := { s with posted := s.posted ++ [x], postNo := s.postNo + 1 }
  if writer < 512 then s.modCore writer fun c => { c with fills := c.fills.filter fun f => f.line != ia / 128 } else s

/-- Plain bytes written at a target of device memory or of a peer, with LSEQ, invalidations, DIRTY, the word map and CT
(R205, R309); bytes of host memory are written as they stand. A poisoned granule that they cover is clean again (R209). -/
def writeAt (s : State) (p writer : Nat) (t : Tgt) (ia : Nat) (bs : List Byte) : State :=
  let s := clearPoison { s with mem := memWriteN t.addr bs s.mem } t.addr bs.length
  if t.kind = 1 ∨ t.kind = 2 then s
  else
    let s := bumpLine s p ia writer
    match t.leaf with
    | none => s
    | some l =>
      let s := noteDirty s l
      match s.tail? l with
      | none => s
      | some r => s.setTail l (r.write (pageWords l t.addr bs.length))

/-- A store at a target: applied at a home of device memory, or posted to the host or a peer (R205, R332, R348). -/
def storeAt (s : State) (p writer : Nat) (t : Tgt) (ia : Nat) (bs : List Byte) : State :=
  if t.kind = 0 then writeAt s p writer t ia bs else postStore s p writer t ia bs

/-! ## Reading at a home -/

/-- The live replicas of a page, by stack and frame (R321). -/
def liveReps (s : State) (p page : Nat) : List (Nat × Nat) :=
  (s.replicas.filter fun r => r.part == p && r.page == page && r.st == .live).map fun r => (r.stack, r.frame)

/-- The replicas that a requesting core's slice knows: those that it has learnt for the page's GEN, else the home's
(R323). -/
def knownReps (s : State) (p : Nat) (l : Leaf) (ia : Nat) (who : Option Nat) : List (Nat × Nat) :=
  let page := l.pageIa ia / 65536
  let live := liveReps s p page
  match who.bind fun c => s.repSets.find? fun r => r.slice == c / 4 && r.part == p && r.page == page && r.gen == l.gen with
  | some r => live.filter fun x => r.stks.contains x.1
  | none => live

/-- The frames that hold a sealed page, nearest first; of equally near ones that on the requesting core's own stack
group first, then the lower stack (R323). -/
def members (s : State) (p seg : Nat) (l : Leaf) (ia : Nat) (who : Option Nat) : List (Nat × Nat) :=
  let home := (l.frame / 2 ^ 53 * 2 + (if l.frame % 2 ^ 53 < 0x1000000000 then 0 else 1), l.frame)
  let own := who.map (· / 32)
  sortBy (fun (k, _) => hops s.pkg seg (k / 2) * 64 + (if own == some k then 0 else k + 1)) (home :: knownReps s p l ia who)

/-- A slice learns the replica set of a sealed page at its first miss on it (R323). -/
def learnReps (s : State) (p : Nat) (l : Leaf) (ia core : Nat) : State :=
  let page := l.pageIa ia / 65536
  let mine (r : RepSet) : Bool := r.slice == core / 4 && r.part == p && r.page == page
  if l.cls ≠ 2 ∨ s.repSets.any (fun r => mine r && r.gen == l.gen) then s
  else
    { s with repSets := (s.repSets.filter fun r => !mine r) ++
        [⟨core / 4, p, page, l.gen, (liveReps s p page).map (·.1)⟩] }

/-- The address at which a sealed page is read: the nearest member that is not poisoned there (R323, R412). -/
def readAddr (s : State) (p seg : Nat) (t : Tgt) (ia n : Nat) (who : Option Nat) : Nat :=
  match t.leaf with
  | none => t.addr
  | some l =>
    if l.cls ≠ 2 then t.addr
    else
      let o := t.addr - l.frame
      match (members s p seg l ia who).find? fun (_, f) => !poisoned s (f + o) n with
      | some (_, f) => f + o
      | none => t.addr

/-- Leaves a tail record one replica fewer for each of a list (R321). -/
def lowerRepl (s : State) (l : Leaf) (n : Nat) : State :=
  match s.tail? l with
  | some r => s.setTail l { r with repl := r.repl - n }
  | none => s

/-- A stack's replica of a page leaves every replica cache (R321). -/
def unlearn (s : State) (p page stack : Nat) : State :=
  { s with repSets := s.repSets.map fun r =>
      if r.part == p && r.page == page then { r with stks := r.stks.filter (· != stack) } else r }

/-- Replicas of a page start to drain: they leave the home's replica set and every replica cache, and REPL no longer
counts the live ones (R321). -/
def startDraining (s : State) (p page : Nat) (l : Leaf) (out : Replica → Bool) : State :=
  let mine (r : Replica) : Bool := r.part == p && r.page == page && r.st != .draining && out r
  let live := (s.replicas.filter fun r => mine r && r.st == .live).length
  let s' := (s.replicas.filter mine).foldl (fun s r => unlearn s p page r.stack) s
  lowerRepl { s' with replicas := s.replicas.map fun r => if mine r then { r with st := .draining } else r } l live

/-! ## Lines as a home fills them (R202, R203, R312, R320) -/

/-- The words of a line that a fill makes valid: none poisoned, and none at or above the tail of its page (R209,
R312, R320). -/
def fillMask (s : State) (t : Tgt) (addr : Nat) : BitVec 32 :=
  let lim := match t.leaf with
    | some l => (match s.tail? l with | some r => some (l.frame + 16 * r.ct) | none => none)
    | none => none
  (List.range 32).foldl (fun m i =>
    let above := match lim with | some x => decide (x < t.addr + 4 * i + 4) | none => false
    if above || poisoned s (addr + 4 * i) 4 then m else m ||| wbit i) 0

/-- The class of a target's page. -/
def Tgt.cls (t : Tgt) : Nat := match t.leaf with | some l => l.cls | none => 0

/-- An L1 may hold lines of the target (R87, R207). -/
def Tgt.cacheable (t : Tgt) : Bool := t.kind != 2 && (match t.leaf with | some l => l.cache | none => true)

/-- A line of a sealed page as an L2 slice has it. -/
def State.l2At (s : State) (slice p line : Nat) : Option L2Line :=
  s.l2.find? fun l => l.slice == slice && l.part == p && l.line == line

/-- The words that a mask selects from a second line of data. -/
def pickWords (m : BitVec 32) (a b : List W32) : List W32 :=
  (List.range 32).map fun i => if bit m i then b.getD i 0 else a.getD i 0

/-- A slice keeps a line of a sealed page with the words that a fill brings (R320). -/
def keepL2 (s : State) (p : Nat) (f : Fill) (slice : Nat) : State :=
  let old := (s.l2At slice p f.line).getD ⟨slice, p, f.line, 0, [], []⟩
  let new : L2Line := { old with v := old.v ||| f.v, data := pickWords f.v old.data f.data, tags := f.tags }
  { s with l2 := (s.l2.filter fun l => !(l.slice == slice && l.part == p && l.line == f.line)) ++ [new] }

/-- The slices that keep a line of a sealed page: the requester's own, and the home's (R320). -/
def sealSlices (s : State) (p core ia : Nat) : List Nat :=
  dedup (core / 4 :: (match hme s p ia with | some h => [homeSlice s p h ia] | none => []))

/-- The fill that answers a miss: the line as its home reads it, with stamp and tags; of a sealed page the words that the
requester's own slice has come from there (R205, R312, R320). -/
def fillOf (s : State) (core p : Nat) (m : Miss) (t : Tgt) : Fill :=
  let seg := segOf core
  let ia := m.line * 128
  let a := readAddr s p seg t ia 128 (some core)
  let sealed := t.cls == 2
  let near := if sealed then s.l2At (core / 4) p m.line else none
  let data := wordsOfBytes (memReadN s.mem a 128)
  { id := m.id, line := m.line,
    v := fillMask s t a ||| (match near with | some l => l.v | none => 0),
    data := match near with | some l => pickWords l.v data l.data | none => data,
    tags := if t.kind = 0 then (List.range 4).map fun i => s.tag (t.addr / 32 + i) else [],
    si := !sealed && (m.rt == .s || t.hseg != seg), sealed := sealed,
    tracked := decide (t.kind ≠ 1 ∧ t.cls = 0 ∧ m.rt ≠ .s), stamp := (s.homeLine p ia).lseq }

/-- The home-map entry and leaf of a sealed page that is being freed (R324). -/
def freeingLeaf (s : State) (p ia : Nat) : Option (Hme × Leaf) :=
  match hme s p ia with
  | none => none
  | some h =>
    match (if h.kind = 0 ∧ !h.hold then leafAt s p h ia else .absent) with
    | .leaf l =>
      if l.cls = 2 ∧ l.rd ∧ ownsFrame s p (l.addr ia) ∧ (s.tail? l).any (fun r => r.state == 3) then some (h, l) else none
    | _ => none

/-- Where a requester's own slice finds a line of a page that is being freed: the words that it holds itself, or a live
replica that it knows (R320, R323, R325). The mask, the line's words, and its tags. -/
def freeingLine (s : State) (core p ia : Nat) (h : Hme) (l : Leaf) : Option (BitVec 32 × List W32 × List (BitVec 4)) :=
  let base := ia / 128 * 128
  let t : Tgt := ⟨0, l.addr base, h.seg, some l, l.rd, l.wr, l.ex⟩
  let tags := (List.range 4).map fun i => s.tag (t.addr / 32 + i)
  match s.l2At (core / 4) p (ia / 128) with
  | some x => some (x.v, x.data, tags)
  | none =>
    if s.repSets.any fun r => r.slice == core / 4 && r.part == p && r.page == l.pageIa ia / 65536 && r.gen == l.gen then
      ((knownReps s p l ia (some core)).find? fun x => !poisoned s (x.2 + (t.addr - l.frame)) 128).map fun x =>
        let a := x.2 + (t.addr - l.frame)
        (fillMask s t a, wordsOfBytes (memReadN s.mem a 128), tags)
    else none

/-- A line of a page that is being freed, for a miss (R325). -/
def freeingFill (s : State) (core p : Nat) (m : Miss) : Option Fill :=
  match freeingLeaf s p (m.line * 128) with
  | some (h, l) =>
    if l.cache then
      (freeingLine s core p (m.line * 128) h l).map fun (v, d, tags) => ⟨m.id, m.line, v, d, tags, false, true, false, 0⟩
    else none
  | none => none

/-- The bytes of a read of a page that is being freed, performed at a member or in the requester's own slice before the
sweep has reached it (R323, R325). -/
def freeingRead (s : State) (p : Nat) (a : Acc) (ia : Nat) (who : Option Nat) : Option (List Byte) :=
  match who, freeingLeaf s p ia with
  | some core, some (h, l) =>
    match freeingLine s core p ia h l with
    | some (v, d, tags) =>
      if (accMask ia a.n &&& ~~~v) == 0 && (!a.tagchk || tags[ia % 128 / 32]? == some (bits a.va 60 4)) then
        some (((d.flatMap fun w => bytesOf 4 w.toNat).drop (ia % 128)).take a.n)
      else none
    | none => none
  | _, _ => none

/-! ## Reads -/

/-- The replicas that a read finds poisoned on its way to the member that serves it are dropped (R412). -/
def dropPoisoned (s : State) (p seg : Nat) (t : Tgt) (ia n : Nat) (who : Option Nat) : State :=
  match t.leaf with
  | none => s
  | some l =>
    if l.cls ≠ 2 then s
    else
      let met := (members s p seg l ia who).takeWhile fun (_, f) => poisoned s (f + (t.addr - l.frame)) n
      startDraining s p (l.pageIa ia / 65536) l fun r => r.st == .live && met.contains (r.stack, r.frame)

/-- Reads bytes at a home after recalling the owned words touched, and checks their integrity (R203,
R209, R412). -/
def readHome (s : State) (p seg : Nat) (t : Tgt) (ia n : Nat) (who : Option Nat) : State × HAns (List Byte) :=
  let s := if t.kind = 0 then recallMask s p ia (accMask ia n) else flushBefore s p t ia
  if lineBusy s p ia then (s, .held)
  else
    let a := readAddr s p seg t ia n who
    let s := dropPoisoned s p seg t ia n who
    if poisoned s a n then (s, .fault cPoison false false) else (s, .ok (memReadN s.mem a n))

/-- A whole request to read, by a core or by the firmware: checks, then bytes; of a page that is being freed, what the
requester's slice still reaches (R325). It is held while a write of the line, a
recalled one among them, is not yet performed (R332). -/
def loadHome (s : State) (p seg : Nat) (a : Acc) (ia : Nat) (who : Option Nat) : State × HAns (List Byte) :=
  match freeingRead s p a ia who with
  | some bs => (s, .ok bs)
  | none =>
  match askHome s p seg a ia .load with
  | .ok t =>
    let s := noteHot (noteWalk s p a.pasid ia) p seg t.hseg ia
    let s := match who, t.leaf with | some c, some l => learnReps s p l ia c | _, _ => s
    readHome s p seg t ia a.n who
  | .held => (s, .held)
  | .fault c v f => (s, .fault c v f)
  | .iso => (s, .iso)

/-- A whole request of an engine to write (R252): checks, recall of owned words touched, then the write. -/
def engineStore (s : State) (p seg core : Nat) (a : Acc) (ia : Nat) (bs : List Byte) : State × HAns Unit :=
  match askHome s p seg a ia .engineWrite with
  | .ok t =>
    let s := noteHot (noteWalk s p a.pasid ia) p seg t.hseg ia
    let s := if t.kind = 0 then recallMask s p ia (accMask ia bs.length) else s
    (storeAt s p (byEngine core) t ia bs, .ok ())
  | .held => (s, .held)
  | .fault c v f => (s, .fault c v f)
  | .iso => (s, .iso)

/-! ## Atomic operations (R336) -/

/-- Two's-complement comparison at a width. -/
def sltN (w a b : Nat) : Bool := (BitVec.ofNat w a).toInt < (BitVec.ofNat w b).toInt

/-- The new value of an ATOM at width `w` (R336). -/
def atomNew (op : AtomOp) (w old b d : Nat) : Nat :=
  match op with
  | .add => (old + b) % 2 ^ w
  | .min => if sltN w b old then b else old
  | .max => if sltN w old b then b else old
  | .and => Nat.land old b
  | .or => Nat.lor old b
  | .xor => Nat.xor old b
  | .exch => b
  | .cas => if old = d then b else old
  | .fadd => (fAdd .f32 .rn old b).1

def redToAtom : RedOp → AtomOp
  | .add => .add | .min => .min | .max => .max | .and => .and | .or => .or | .xor => .xor | .fadd => .fadd

/-- The PCIe AtomicOps of R338. -/
def pcieOk : AtomOp → Bool
  | .add | .exch | .cas => true
  | _ => false

/-- An AtomicOp completes at the root complex with an error: a cause, or none (R338). The answer is a free value of each
operation (DESIGN CHOICE, log 9). -/
def atomicOpFails (s : State) (p ia addr : Nat) : Option Nat :=
  match Config.hostAtomic (hportOf s p ia) addr s.fresh % 3 with
  | 1 => some cPageDenied
  | 2 => some cPoison
  | _ => none

/-- An atomic operation performed at a target (R337, R338): the old value. One that returns the old value is held while
a write of the line is not yet performed (R332). -/
def atomAt (s : State) (p writer : Nat) (t : Tgt) (ia n : Nat) (op : AtomOp) (b d : Nat) (returns : Bool) :
    State × HAns Nat :=
  let s := if t.kind = 0 then recallMask s p ia (accMask ia n) else flushBefore s p t ia
  if returns && lineBusy s p ia then (s, .held)
  else
    let bad := if poisoned s t.addr n then some cPoison else if t.kind = 2 then atomicOpFails s p ia t.addr else none
    let s := if t.kind = 2 then { s with fresh := s.fresh + 1 } else s
    match bad with
    | some c => (s, .fault c false false)
    | none =>
      let old := natOfBytes (memReadN s.mem t.addr n)
      (writeAt s p writer t ia (bytesOf n (atomNew op (8 * n) old b d)), .ok old)

/-- A 64-bit atomic of an engine at a home, as completions use (R258). -/
def engineAtom (s : State) (p seg core : Nat) (a : Acc) (ia : Nat) (op : AtomOp) (b d : Nat) : State × HAns Nat :=
  match askHome s p seg a ia .atomic with
  | .ok t => atomAt (noteHot (noteWalk s p a.pasid ia) p seg t.hseg ia) p (byEngine core) t ia a.n op b d false
  | .held => (s, .held)
  | .fault c v f => (s, .fault c v f)
  | .iso => (s, .iso)

/-! ## Places -/

def Group.ring? (g : Group) (n : Nat) : Option Ring := g.rings.find? fun r => (bits r.decl 24 3).toNat == n

/-- The bytes of a core's scratchpad. -/
def spadRead (s : State) (core off n : Nat) : List Byte :=
  match s.grp? core with
  | none => List.replicate n 0
  | some g => memReadN g.spad off n

def spadWrite (s : State) (core off : Nat) (bs : List Byte) : State :=
  s.modGrp core fun g => { g with spad := memWriteN off bs g.spad }

end Sys2Proof.Machine
end

