-- ==== Sys2Proof/Machine/Region.lean ====
section
/-! DEFINITION. Regions (R222-R240): when a region is complete, how its stores drain, aborts, memory-side
faults, traps at the region start, and the end of a run. -/

namespace Sys2Proof.Machine

def State.run (s : State) (core pipe : Nat) : Option Run :=
  if pipe = 0 then (s.core core).run0 else (s.core core).run1

def State.setRun (s : State) (core pipe : Nat) (r : Option Run) : State :=
  s.modCore core fun c => if pipe = 0 then { c with run0 := r } else { c with run1 := r }

/-- The threads that stand in running sheets of a core. -/
def Core.runningTids (c : Core) : List Nat :=
  (match c.run0 with | some r => r.tids | none => []) ++ (match c.run1 with | some r => r.tids | none => [])

/-- A run ends: its threads that are not parked or done leave their entry and arrive at the pairs they
hold (R122, R128). Every switch point empties the latches (R134). -/
def endRun (s : State) (core pipe : Nat) (fall : Option (Va × BitVec 8)) : State :=
  match s.run core pipe, s.grp? core with
  | some r, some g =>
    let stay := r.tids.filter fun t => (g.waiting t).isSome || (g.thread t).done
    let go := r.tids.filter fun t => !stay.contains t
    let g := (g.depart (r.tids.filter fun t => (g.waiting t).isNone)).arrive fall go
    (s.setGrp core g).setRun core pipe none
  | _, _ => s.setRun core pipe none

/-- Ends the run of a thread, if it stands in one (DEDUCED, log 12). -/
def quitRun (s : State) (core tid : Nat) : State :=
  let s := match s.run core 0 with
    | some r => if r.tids.contains tid then endRun s core 0 none else s
    | none => s
  match s.run core 1 with
  | some r => if r.tids.contains tid then endRun s core 1 none else s
  | none => s

/-! ## Completeness (R225) -/

/-- An outstanding result that a region waits for. -/
def Pend.counts (p : Pend) : Bool :=
  match p.kind with
  | .value own => own
  | _ => true

/-- An entry whose store has not begun to drain. -/
def RbEntry.held (e : RbEntry) : Bool :=
  match e.st with
  | .draining _ | .applied | .posted _ => false
  | _ => true

def RbEntry.drains (e : RbEntry) : Bool :=
  match e.st with
  | .draining _ => true
  | _ => false

/-- The store has left for memory of KIND 1 to 3 (R332). -/
def RbEntry.gone (e : RbEntry) : Bool :=
  match e.st with
  | .posted _ => true
  | _ => false

def RbEntry.acked (e : RbEntry) : Bool :=
  match e.st with
  | .acked _ => true
  | _ => false

/-- A probe or a load of the thread's region has not been answered, or a long instruction has elements left (R225). -/
def Group.unanswered (g : Group) (t : Nat) : Bool :=
  (g.rb.any fun e => e.tid == t && e.held && !e.acked) || (g.pend.any fun p => p.tid == t && p.counts) ||
    (g.thread t).long.isSome

/-- The thread's region is complete and its stores have begun to drain. -/
def Group.complete (g : Group) (t : Nat) : Bool :=
  !(g.rb.any fun e => e.tid == t && e.held) && !(g.pend.any fun p => p.tid == t && p.counts) &&
    (g.thread t).long.isNone

/-- The thread's region is closed and every access of it has been answered: it is complete, whether or not its stores have
begun to drain (R225). -/
def Group.answered (g : Group) (t : Nat) : Bool := (g.thread t).rclosed && !g.unanswered t

/-- Every store of the thread's earlier regions has been performed, one to memory of KIND 1 to 3 has left for it: only
words of SYS scope wait for those (R225, R331, R348, R362) (DEDUCED, log 105). -/
def Group.drained (g : Group) (t : Nat) : Bool := g.complete t && !(g.rb.any fun e => e.tid == t && !e.gone)

/-- Region-buffer entries in use (R226). -/
def Group.rbUsed (g : Group) : Nat := (g.rb.map (·.slots)).foldl (· + ·) 0

/-! ## Draining (R201, R203, R227) -/

/-- Two accesses share a byte. -/
def overlap (a b : Acc) : Bool :=
  match a.loc, b.loc with
  | .ia x, .ia y => decide (x < y + b.n) && decide (y < x + a.n)
  | .spad c x, .spad d y => c == d && decide (x < y + b.n) && decide (y < x + a.n)
  | _, _ => false

/-- No store of the core group to one of the entry's bytes that began to drain before it is still in the buffer: entries
stand in the order in which they begin to drain (R201, R350). -/
def Group.drainOk (g : Group) (e : RbEntry) : Bool :=
  !((g.rb.takeWhile fun x => x.id != e.id).any fun x => x.drains && overlap x.acc e.acc)

/-- Bytes put into the words of a line. -/
def patchData (data : List W32) (off : Nat) (bs : List Byte) : List W32 :=
  let old := data.flatMap fun w => bytesOf 4 w.toNat
  wordsOfBytes (old.take off ++ bs ++ old.drop (off + bs.length))

/-- The lines that an L1 holds at most (R75). -/
def l1Lines (g : Group) : Nat :=
  (96 - recRegG g.lrec - recCallG g.lrec - recSpadG g.lrec) * 128

/-- The W and S stores of a line that drain: their words are pending until the home has performed them (R349). -/
def Group.pendingEntries (g : Group) (line : Nat) : List RbEntry :=
  g.rb.filter fun e =>
    e.drains && e.tag.isNone && (e.acc.rt == .w || e.acc.rt == .s) &&
      match e.acc.loc with | .ia a => a / 128 == line | _ => false

/-- The words that a store of a line touches. -/
def RbEntry.mask (e : RbEntry) : BitVec 32 := match e.acc.loc with | .ia a => accMask a e.acc.n | _ => 0

/-- A word of a line is pending: a W or S store to it has not been performed (R349). -/
def Group.pendingMask (g : Group) (line : Nat) : BitVec 32 :=
  (g.pendingEntries line).foldl (fun m e => m ||| e.mask) 0

/-- Pending words all of whose bytes are those of a store that has updated the L1: an invalidation leaves them valid
(R349); of a word that a store covers in part the other bytes may be old (DEDUCED, log 106). -/
def Group.pendingWhole (g : Group) (line : Nat) : BitVec 32 :=
  (g.pendingEntries line).foldl (fun m e => if decide (4 ≤ e.acc.n) && g.drainOk e then m ||| e.mask else m) 0

/-- An earlier load of the thread, which touches a byte of an access, has not been answered (R201). -/
def Group.earlierLoad (g : Group) (t id : Nat) (a : Acc) : Bool :=
  g.pend.any fun p => p.tid == t && decide (p.id < id) && p.st == .sent &&
    match p.kind with
    | .load b _ _ _ => overlap b a
    | _ => false

/-- Makes room for a line: the least recently used line that holds no pending word is replaced, its dirty
words written back first (R202, R349). -/
def makeRoom (s : State) (core line : Nat) : State :=
  match s.grp? core with
  | none => s
  | some g =>
    let c := s.core core
    if c.l1.length < l1Lines g ∨ (c.line? line).isSome then s
    else
      match c.l1.reverse.find? fun l => g.pendingMask l.line == 0 with
      | none => s
      | some l =>
        let s := match lineAddr s g.part l.line with
          | some a => writeBackWords s g.part core l.line a l.own
          | none => s
        s.modCore core fun c => c.dropLine l.line

/-- The words of an O store are owned and dirty in the L1, as the home registers (R203). A line that was
self-invalidating keeps only its owned words besides (R202). -/
def ownStore (s : State) (p core : Nat) (t : Tgt) (ia : Nat) (bs : List Byte) : State :=
  let line := ia / 128
  let m := accMask ia bs.length
  let s := recallMask s p ia (m &&& (match (s.core core).line? line with | some l => ~~~l.own | none => ~~~0))
  let s := makeRoom s core line
  let gr := (t.addr - ia % 128) / 32
  let old : L1Line := ((s.core core).line? line).getD
    ⟨line, 0, 0, 0, List.replicate 32 0, (List.range 4).map fun i => s.tag (gr + i), false, false, 0⟩
  let v := if old.si then old.v &&& old.own else old.v
  let l := { old with v := v ||| m, own := old.own ||| m, dty := old.dty ||| m, si := false,
                      data := patchData old.data (ia % 128) bs }
  let h := s.homeLine p ia
  let own := (h.owners.filter fun (w, _) => !bit m w) ++ (maskWords m).map fun w => (w, core)
  let s := s.setHomeLine p ia { h with owners := own }
  let s := match t.leaf with | some l => noteDirty s l | none => s
  s.modCore core fun c => c.useLine l

/-- The request type that a store has at its home (R87, R203, R207, R310). -/
def effStore (seg : Nat) (t : Tgt) (rt : RT) (n : Nat) (owned : Bool) : RT :=
  if t.kind = 2 then .u
  else
    match t.leaf with
    | some l =>
      if !l.cache then .u
      else if rt = .o ∧ (t.hseg ≠ seg ∨ l.cls ≠ 0 ∨ (n < 4 ∧ !owned)) then .w
      else rt
    | none => if rt = .o then .w else rt

/-- A store's bytes in a line, in those words of a mask that it touches. -/
def L1Line.patch (l : L1Line) (m : BitVec 32) (ia : Nat) (bs : List Byte) : L1Line :=
  let d := patchData l.data (ia % 128) bs
  { l with data := (List.range 32).map fun i => if bit m i then d.getD i 0 else l.data.getD i 0 }

/-- The L1 copy of a store's words is updated where valid; words that the L1 owns are merged at their home write (R203,
R349). The line is the most recently used (R202). -/
def updateCopy (c : Core) (ia : Nat) (bs : List Byte) : Core :=
  match c.line? (ia / 128) with
  | none => c
  | some l => if accMask ia bs.length &&& l.v = 0 then c else c.useLine (l.patch (l.v &&& ~~~l.own) ia bs)

/-- The L1 copy of a store's words is dropped, but for words that another store of the core group has pending
(R203, R349). -/
def dropCopy (c : Core) (pending : BitVec 32) (ia n : Nat) : Core :=
  match c.line? (ia / 128) with
  | none => c
  | some l => c.setLine { l with v := l.v &&& ~~~(accMask ia n &&& ~~~pending) }

/-- A word that an access touches is pending in the core's own L1 (R349). -/
def pendingAt (s : State) (core ia n : Nat) : Bool :=
  match s.grp? core with
  | some g => (g.pendingMask (ia / 128) &&& accMask ia n) != 0
  | none => false

/-- The tags of an L1 line's granules that an extent covers take a new value; the writer's own copy is kept
(R205, R208). -/
def retagLine (ia n : Nat) (tag : BitVec 4) (l : L1Line) : L1Line :=
  { l with tags := (l.tags.zipIdx).map fun (x, i) =>
      let a := l.line * 128 + 32 * i
      if ia ≤ a ∧ a < ia + n then tag else x }

/-- The tags of an extent are rewritten after its owned words are recalled; poison is cleared, and the write
counted for each line (R203, R205, R220). Memory of KIND 1 to 3 has no tags: nothing is written (DEDUCED, log 46). -/
def setTags (s : State) (p core : Nat) (t : Tgt) (ia n : Nat) (tag : BitVec 4) : State :=
  if t.kind ≠ 0 then s
  else
    let lines := List.range ((n + 127) / 128)
    let s := lines.foldl (fun s i => recallMask s p (ia + 128 * i) (accMask (ia + 128 * i) (min n 128))) s
    let gs := granules t.addr n
    let tags := gs.foldl (fun m g => if tag = 0 then alDel g m else alSet g tag m) s.tags
    let s := { s with tags := tags, poison := s.poison.filter fun g => !gs.contains g }
    let s := match t.leaf with | some l => noteDirty s l | none => s
    let s := s.modCore core fun c => { c with l1 := c.l1.map (retagLine ia n tag) }
    lines.foldl (fun s i => bumpLine s p (ia + 128 * i) core) s

/-- What a store was acknowledged for (R238). -/
def entryTgt (s : State) (core : Nat) (g : Group) (e : RbEntry) (ia : Nat) : Option Tgt :=
  match e.tgt with
  | some t => some t
  | none => match target s g.part (segOf core) e.acc.pasid ia with | .ok t => some t | _ => none

/-- A store's page is still at the frame for which it was acknowledged, so that caches hold its words (R238). -/
def tgtFresh (s : State) (p core pasid ia : Nat) (t : Tgt) : Bool :=
  match target s p (segOf core) pasid ia with
  | .ok x => x.kind == t.kind && x.addr == t.addr
  | _ => false

/-- The translation under which a store was acknowledged is still in force as it was: frame, rights, class and generation
(R238, R335). -/
def tgtInForce (s : State) (p core pasid ia : Nat) (t : Tgt) : Bool :=
  match target s p (segOf core) pasid ia with
  | .ok x => x == t
  | _ => false

/-- The core's L1 owns every word that an access touches. -/
def ownsAll (s : State) (core ia n : Nat) : Bool :=
  match (s.core core).line? (ia / 128) with
  | some l => (accMask ia n &&& ~~~l.own) == 0
  | none => false

/-- The request type of an entry as it is performed (R203): ownership is granted only under the translation in force
(R238, R335). -/
def storeKind (s : State) (core : Nat) (g : Group) (e : RbEntry) (ia : Nat) (t : Tgt) : RT :=
  let k := effStore (segOf core) t e.acc.rt e.acc.n (ownsAll s core ia e.acc.n)
  if k = .o ∧ !tgtInForce s g.part core e.acc.pasid ia t then .w else k

/-- A W, S or U store at its home, as one write: words that the own L1 owns are merged and given up, others recalled,
and the L1's copy updated or dropped (R203, R205). -/
def homeStore (s : State) (core : Nat) (g : Group) (e : RbEntry) (ia : Nat) (t : Tgt) (u : Bool) : State :=
  let p := g.part
  let m := accMask ia e.acc.n
  let fresh := tgtFresh s p core e.acc.pasid ia t
  let s := if t.kind = 0 && fresh then
      recallMask (takeOwned s p core (ia / 128) (t.addr - ia % 128) m) p ia m
    else s
  let s := storeAt s p core t ia e.data
  if u then
    s.modCore core fun c => dropCopy c (g.pendingWhole (ia / 128)) ia e.acc.n
  else if fresh then s.modCore core fun c => updateCopy c ia e.data
  else s

/-- A store of the region buffer is performed (R203, R205, R211, R227). -/
def performStore (s : State) (core : Nat) (g : Group) (e : RbEntry) : State :=
  match e.acc.loc with
  | .spad c off => spadWrite s c off e.data
  | .ring _ _ | .eng _ _ => s
  | .ia ia =>
    match entryTgt s core g e ia with
    | none => s
    | some t =>
      let s := noteHot s g.part (segOf core) t.hseg ia
      match e.tag with
      | some tag => setTags s g.part core t ia e.acc.n tag
      | none =>
        match storeKind s core g e ia t with
        | .o => ownStore s g.part core t ia e.data
        | .u => homeStore s core g e ia t true
        | _ => homeStore s core g e ia t false

/-- Every invalidation that a core's writes of a line caused has been acknowledged (R332). -/
def lineAcked (s : State) (core : Nat) (e : RbEntry) : Bool :=
  match e.acc.loc with
  | .ia ia => !(s.invs.any fun i => i.src == core && i.line == ia / 128)
  | _ => true

/-- Entries whose stores have been performed are freed (R226, R332). -/
def freeApplied (s : State) (core : Nat) : State :=
  s.modGrp core fun g => { g with rb := g.rb.filter fun e => !(e.st == .applied && lineAcked s core e) }

/-- An entry's store is applied, or leaves for memory of KIND 1 to 3; the entry is freed once the store has been
performed, the slot of an element at its commit (R226, R332). -/
def storeEntry (s : State) (core : Nat) (g : Group) (e : RbEntry) : State :=
  let n := s.postNo
  let s := performStore s core g e
  let st : RbSt := if s.postNo = n then .applied else .posted (2 ^ 40 + n)
  freeApplied (s.modGrp core fun g => { g with rb := g.rb.map fun x =>
    if x.id = e.id then { x with st := st, slots := if e.use = .elem then 0 else x.slots } else x }) core

/-- A draining W or S store updates the L1's copy of its words, where no earlier store to its bytes drains: from then on
the other threads of the core group read it (R349, R350). -/
def showStore (s : State) (core : Nat) (e : RbEntry) : State :=
  match s.grp? core, e.acc.loc, e.tag, e.tgt with
  | some g, .ia ia, none, some t =>
    if e.drains && (e.acc.rt == .w || e.acc.rt == .s) && g.drainOk e && tgtFresh s g.part core e.acc.pasid ia t then
      let c := s.core core
      let seen := match c.line? (ia / 128) with
        | some l => (e.mask &&& l.v &&& ~~~l.own) != 0
        | none => false
      (s.setCore core (updateCopy c ia e.data)).modGrp core fun g =>
        { g with rb := g.rb.map fun x => if x.id = e.id then { x with early := x.early || seen } else x }
    else s
  | _, _, _, _ => s

/-- Once a store is performed, those that drain behind it to the same bytes update the L1's copy in their turn (R349). -/
def showBehind (s : State) (core : Nat) (e : RbEntry) : State :=
  match s.grp? core with
  | none => s
  | some g => (g.rb.filter fun x => overlap x.acc e.acc).foldl (fun s x => showStore s core x) s

/-- The entries as which a store drains: of 16 bytes of memory, two of 8 bytes, which are performed each on its own
(R200). -/
def RbEntry.halves (e : RbEntry) (id : Nat) : List RbEntry :=
  match e.acc.loc, e.tag with
  | .ia ia, none =>
    if e.acc.n = 16 then
      [{ e with slots := 1, acc := { e.acc with n := 8 }, data := e.data.take 8 },
       { e with id := id, slots := 1, acc := { e.acc with va := e.acc.va + 8, loc := .ia (ia + 8), n := 8 },
                data := e.data.drop 8, tgt := e.tgt.map fun t => { t with addr := t.addr + 8 } }]
    else [e]
  | _, _ => [e]

/-- One acknowledged entry of a complete region starts to drain, behind those that drain already (R227). -/
def startDrain (s : State) (core : Nat) (e : RbEntry) : State :=
  match s.grp? core with
  | none => s
  | some g =>
    let gen := match e.st with | .acked n => n | _ => 0
    let kind := match e.acc.loc with
      | .ia ia => (match entryTgt s core g e ia with | some t => storeKind s core g e ia t | none => .u)
      | _ => .u
    let es := ({ e with st := .draining gen, acc := { e.acc with rt := kind } } : RbEntry).halves g.nextId
    let g := { g with rb := (g.rb.filter fun x => x.id != e.id) ++ es, nextId := g.nextId + (es.length - 1) }
    es.foldl (fun s e => showStore s core e) (s.setGrp core g)

/-- The stores of a thread's complete region drain, in program order (R227). -/
def drainRegion (s : State) (core tid : Nat) : State :=
  match s.grp? core with
  | none => s
  | some g => (g.rb.filter fun e => e.tid == tid && e.acked).foldl (fun s e => startDrain s core e) s

/-! ## Aborts and faults (R229-R235) -/

/-- A withdrawn probe returns its intended words to free (R310). -/
def withdraw (s : State) (core : Nat) (g : Group) (e : RbEntry) : State :=
  match e.st, e.acc.loc with
  | .acked _, .ia ia =>
    match (entryTgt s core g e ia).bind (·.leaf), e.tag with
    | some l, none =>
      match s.tail? l with
      | some r =>
        let ws := pageWords l (l.addr ia) e.acc.n
        s.setTail l { r with intended := r.intended.filter fun w => !ws.contains w }
      | none => s
    | _, _ => s
  | _, _ => s

/-- The core's L1 drops its SI lines, but for pending and owned words, and SI fills on their way; of lines of KIND 1 and 3
only where `host` says so (R204, R348, R349, R362). -/
def dropSi (s : State) (core : Nat) (host : Bool) : State :=
  match s.grp? core with
  | none => s
  | some g =>
    let goes (line : Nat) : Bool := host || (match hme s g.part (line * 128) with | some h => h.kind == 0 | none => true)
    s.modCore core fun c =>
      { c with
        l1 := c.l1.filterMap fun l =>
          if !l.si || !goes l.line then some l
          else
            let v := l.v &&& (g.pendingWhole l.line ||| l.own)
            if v = 0 then none else some { l with v := v },
        fills := c.fills.filter fun f => !f.si || !goes f.line }

/-- The stores of the thread's incomplete region are discarded with their probes, and its results in
flight with them, not those of earlier regions (R229, R230). Its restart reads afresh: copies that no invalidation reaches are dropped (R361)
(DEDUCED, log 107). -/
def discardRegion (s : State) (core tid : Nat) : State :=
  match s.grp? core with
  | none => s
  | some g =>
    let mine := g.rb.filter fun e => e.tid == tid && e.held
    let s := mine.foldl (fun s e => withdraw s core g e) s
    (dropSi s core true).modGrp core fun g =>
      { g with rb := g.rb.filter (fun e => !(e.tid == tid && e.held)),
               pend := g.pend.filter fun p => p.tid != tid || decide (p.id < (g.thread tid).rsId) }

/-- A thread goes back to its region start (R229, R230), where the region is open again: a long instruction resumes at
NEXT (R216), a call or return that was not yet complete takes nothing (R136, R137). -/
def Thread.rollback (x : Thread) : Thread :=
  { x with
    pc := x.rsPc, prio := x.rsPrio, rclosed := true, rbwait := 0, qblk := none, ptrap := none,
    pix := if x.long.isSome then x.pix ||| 0x80000000 else x.pix, long := none,
    ret := match x.undo with | some u => u.1 | none => x.ret,
    spilln := match x.undo with | some u => u.2 | none => x.spilln, undo := none }

def Group.toStart (g : Group) (t : Nat) : Group := g.modThread t Thread.rollback

/-- The kind of home-map entry of an IA page of a partition (R83). -/
def kindOf (s : State) (p page : Nat) : Nat :=
  match hme s p (page * 65536) with
  | some h => h.kind
  | none => 0

/-- A core group that has read or changed bytes at their home keeps no older clean copy of them: the L1's words
are dropped, and so is a fill in flight that was read before the last write, which is sent again (R201, R206, R350,
DEDUCED, log 18). -/
def dropStale (s : State) (p core ia n : Nat) : State :=
  let pending := match s.grp? core with | some g => g.pendingWhole (ia / 128) | none => 0
  let seq := (s.homeLine p ia).lseq
  let uncounted := kindOf s p (ia / 65536) == 1
  s.modCore core fun c =>
    let keep := pending ||| (match c.line? (ia / 128) with | some l => l.own | none => 0)
    { dropCopy c keep ia n with
      fills := c.fills.filter fun f => f.line != ia / 128 || (!uncounted && !older f.stamp seq) }

/-- The context-table entry of a context, as a DPA (R82). -/
def ctxAddr (s : State) (p ctx : Nat) : Nat := (bits (s.trans p 0x58) 0 56).toNat + 512 * ctx

/-- A dword of a context-table entry (R82). -/
def ctxDw (s : State) (p ctx off : Nat) : W64 := memRead64 s.mem (ctxAddr s p ctx + off)

def ctxOwner (s : State) (p ctx : Nat) : Nat := (bits (ctxDw s p ctx 0) 2 11).toNat
def ctxPasid (s : State) (p ctx : Nat) : Nat := (bits (ctxDw s p ctx 8) 0 20).toNat
def ctxGen (s : State) (p ctx : Nat) : W32 := bits (ctxDw s p ctx 0) 32 32

/-- An access of a core's engines (0) or a fetch of it (1) to memory of KIND 1 to 3 has timed out: the state with that
noted, its answer is POISON (R405). -/
def expire (s : State) (core unit p ia : Nat) : Option State :=
  if s.expired.contains (core, unit) && kindOf s p (ia / 65536) != 0 then
    some { s with expired := s.expired.erase (core, unit) }
  else none

/-- A page request is of an earlier generation of its context: its response will be dropped (R236). -/
def Pri.stale (s : State) (x : Pri) : Bool := x.gen != ctxGen s x.part x.ctx

/-- The function whose context made a page request. -/
def Pri.fn (s : State) (x : Pri) : Nat := ctxOwner s x.part x.ctx

/-- The lowest group index with no page request outstanding (R236) (DESIGN CHOICE, log 32). -/
def freePri (s : State) : Nat := ((List.range (s.pris.length + 1)).find? fun i => s.pris.all fun x => x.idx != i).getD 0

/-- A function has room for one more outstanding page request (R235). -/
def priRoom (s : State) (fn : Nat) : Bool :=
  decide ((s.pris.filter fun x => x.fn s == fn).length < max 1 (Config.priAllocation fn))

/-- Requests that wait are sent, oldest first, as their function has room (R235). -/
def sendWaiting : Nat → State → State
  | 0, s => s
  | n + 1, s =>
    match s.priWait.find? fun x => priRoom s (x.fn s) with
    | none => s
    | some x =>
      sendWaiting n { s with
        priWait := s.priWait.filter (· != x), pris := s.pris ++ [{ x with idx := freePri s }] }

/-- A page request for a page, with the PASID of the context, unless one of the same PASID and generation is outstanding
or waits; beyond the function's allocation it waits (R235, R236). -/
def askPri (s : State) (p ctx page : Nat) : State :=
  if (s.pris ++ s.priWait).any fun x => x.part == p && x.pasid == ctxPasid s p ctx && x.page == page && !x.stale s then s
  else sendWaiting (s.priWait.length + 1) { s with priWait := s.priWait ++ [⟨0, p, ctxPasid s p ctx, page, ctx, ctxGen s p ctx⟩] }

/-- A page is being served; a host page not present sends a page request (R230, R235). -/
def startService (s : State) (p ctx page : Nat) : State :=
  let s := if s.serving.contains (p, page) then s else { s with serving := s.serving ++ [(p, page)] }
  if kindOf s p page = 1 ∨ kindOf s p page = 2 then askPri s p ctx page else s

/-- An asker waits for a page. -/
def State.noteAsk (s : State) (p page : Nat) (w : Asker) : State :=
  if s.asks.any fun a => a.part == p && a.page == page && a.who == w then s
  else { s with asks := s.asks ++ [⟨p, page, w, false⟩] }

/-- The page for which an asker waited has been declined (R230). -/
def State.deniedTo (s : State) (p page : Nat) (w : Asker) : Bool :=
  s.asks.any fun a => a.part == p && a.page == page && a.who == w && a.denied

/-- What an asker waited for is settled. -/
def State.settle (s : State) (p : Nat) (w : Asker) : State :=
  { s with asks := s.asks.filter fun a => !(a.part == p && a.who == w) }

/-- The fault as the host's state makes it: page requests stopped for the function fail at once (R235). -/
def priFilter (s : State) (p ctx : Nat) (f : MFault) : MFault :=
  if f.servable ∧ (kindOf s p f.page = 1 ∨ kindOf s p f.page = 2) ∧ s.priStopped.contains (ctxOwner s p ctx) then
    { f with servable := false, prifail := true }
  else f

/-- TREC of a memory-side fault (R232). -/
def trecOf (start pc : Va) (akind : Nat) (prifail late : Bool) : W64 :=
  (0 : BitVec 27) ++ b1 late ++ b1 prifail ++ BitVec.ofNat 3 akind ++
    BitVec.ofNat 32 ((2 ^ 57 + pc.toNat - start.toNat) % 2 ^ 57 / 8)

/-- A fault found at a home, as an entry or a result holds it. -/
structure Found where
  pc : Va
  va : W64
  akind : Nat
  own : Bool
  f : MFault
deriving DecidableEq, Repr

/-- The word is a region of its own, so that a fault of it is never late (R222, R232). -/
def Pend.ownWord (x : Pend) : Bool :=
  x.use != .word ||
  match x.kind with
  | .value o => o
  | .load .. | .pginfo _ => false
  | _ => true

/-- AKIND of an access by what it is for, where that is more than a word of its own (R232). -/
def Purpose.akind (u : Purpose) (k : Nat) : Nat :=
  match u with
  | .word => k
  | .elem => 2
  | .spill => 3

def PKind.akind : PKind → Nat
  | .atom .. | .red .. | .appendRes .. | .seal .. => 1
  | _ => 0

def PKind.isRed : PKind → Bool
  | .red .. => true
  | _ => false

def PKind.acc? : PKind → Option Acc
  | .load a .. | .atom _ a .. | .red _ a .. | .appendRes a .. | .appendQuery a _ | .seal a .. | .tailq a _
  | .pginfo a => some a
  | _ => none

/-- Accesses of a thread's region still unanswered, as word and address. -/
def Group.openAccs (g : Group) (t : Nat) : List (Nat × Nat) :=
  ((g.rb.filter fun e => e.tid == t && (match e.st with | .probing => true | _ => false)).map
      fun e => (e.pc.toNat, vaOf e.acc.va)) ++
  ((g.pend.filter fun p => p.tid == t && (match p.st with | .sent => true | _ => false)).filterMap
      fun p => p.kind.acc?.map fun a => (p.pc.toNat, vaOf a.va))

/-- Faults found for a thread's region. -/
def Group.found (g : Group) (t : Nat) : List Found :=
  (g.rb.filterMap fun e =>
    match e.st with
    | .fault f => if e.tid = t then some ⟨e.pc, e.acc.va, e.use.akind 1, e.use != .word, f⟩ else none
    | _ => none) ++
  (g.pend.filterMap fun p =>
    match p.st, p.kind.acc? with
    | .fault f, some a => if p.tid = t then some ⟨p.pc, a.va, p.use.akind p.kind.akind, p.ownWord, f⟩ else none
    | _, _ => none)

def lexLt (a b : Nat × Nat) : Bool := decide (a.1 < b.1) || (a.1 == b.1 && decide (a.2 < b.2))

/-- The fault that decides: lowest word, then lowest address (R232). -/
def firstFound : List Found → Option Found
  | [] => none
  | x :: r =>
    match firstFound r with
    | none => some x
    | some y => if lexLt (y.pc.toNat, vaOf y.va) (x.pc.toNat, vaOf x.va) then some y else some x

/-- A trap that waits for its thread's region is taken once the region is complete, which closes it (R233). -/
def Group.takeTrap (g : Group) (tvec : W64) (t : Nat) : Group :=
  match (g.thread t).ptrap with
  | none => g
  | some p =>
    if g.complete t then
      (g.modThread t fun x => { x with ptrap := none, rclosed := true }).trapThread tvec t p.cause p.val p.pc p.prio p.trec
    else g

/-- The fault of a home's answer, for an access (R230, R232). -/
def mfault (a : Acc) (cause : Nat) (servable prifail : Bool) : MFault :=
  let page := match a.loc with | .ia x => x / 65536 | _ => 0
  ⟨cause, a.va, servable, page, prifail, false⟩

end Sys2Proof.Machine
end

