-- ==== Sys2Proof/Machine/Operands.lean ====
section
/-! DEFINITION. Operand forms: selects, inline integers, latches, k registers, predicates and per-type
values (R101, R134, R139, R140, R155, R183). -/

namespace Sys2Proof.Machine

/-- The bits of an integer of -32 to 31 in a float format, which has it exactly (R101). -/
def intBits (t : FTy) (v : Int) : Nat := (roundInt t .rn v 0 false).1

/-- The value of a k register as a word issued now reads it: writes of KSET that have landed (R155). -/
def kRead (g : Group) (now n : Nat) : W64 :=
  g.kset.foldl (fun v (c, i, x) => if i = n ∧ c ≤ now then x else v) (g.k.getD n 0)

/-- What a latch holds for a thread, if anything (R134). -/
def latchRead (r : Run) (k t : Nat) : Option W32 :=
  match r.hist[k + 3]? with
  | some (some vs) => vs[r.tids.findIdx (· == t)]?
  | _ => none

/-- What a word reads its operands from: the group, the sheet, the cycle, the thread. -/
structure Rd where
  g : Group
  r : Run
  now : Nat
  t : Nat

def Rd.th (x : Rd) : Thread := x.g.thread x.t

/-- A 32-bit operand of an integer type (R101). -/
def Rd.s32 (x : Rd) : Sel → W32
  | .w n => x.th.r n.toNat
  | .b n => (latchRead x.r n.toNat x.t).getD 0
  | .k n => bits (kRead x.g x.now n.toNat) 0 32
  | .i v => v.signExtend 32

/-- A 64-bit operand (R101, R139); CVT reads a latch as its 64-bit source in the same way (R193) (DEDUCED, log 120). -/
def Rd.s64 (x : Rd) : Sel → W64
  | .w n => x.th.r64 n.toNat
  | .b n => ((latchRead x.r n.toNat x.t).getD 0).setWidth 64
  | .k n => kRead x.g x.now n.toNat
  | .i v => v.signExtend 64

/-- A value operand of width w, unsigned (R139). -/
def Rd.sW (x : Rd) (is64 : Bool) (s : Sel) : Nat := if is64 then (x.s64 s).toNat else (x.s32 s).toNat

/-- A value operand as the integer of its type (R139). -/
def Rd.sI (x : Rd) (ty : ITy) (s : Sel) : Int :=
  match ty.is64, ty.signed with
  | true, true => (x.s64 s).toInt
  | true, false => (x.s64 s).toNat
  | false, true => (x.s32 s).toInt
  | false, false => (x.s32 s).toNat

/-- A scalar float operand's bits (R183). -/
def Rd.sF (x : Rd) (ty : FTy) : Sel → Nat
  | .i v => intBits ty v.toInt
  | s => (x.s32 s).toNat % 2 ^ (fmtOf ty).w

/-- Half `h` of a packed operand (R183): an inline integer fills both. -/
def Rd.sH (x : Rd) (ty : FTy) (h : Nat) : Sel → Nat
  | .i v => intBits ty v.toInt
  | s => ((x.s32 s).toNat >>> (16 * h)) % 2 ^ 16

/-- A value operand of SEL and SHUF in the operation's width (R148, R161). -/
def Rd.sA (x : Rd) (ty : ATy) (s : Sel) : Nat :=
  match ty with
  | .int t => x.sW t.is64 s
  | .flt .f32 =>
    match s with
    | .i v => intBits .f32 v.toInt
    | _ => (x.s32 s).toNat
  | .flt t =>
    match s with
    | .i v => intBits t v.toInt
    | _ => (x.s32 s).toNat

/-- A predicate operand (R140). -/
def Rd.p (x : Rd) (s : PSel) : Bool := x.th.pred s.p != s.neg

/-! ## Which registers a word names -/

/-- Consecutive w registers from `d` on. -/
def regsFrom (d n : Nat) : List Nat := (List.range n).map (d + ·)

def widthRegs (is64 : Bool) : Nat := if is64 then 2 else 1

/-- The w registers of a source select (R101). -/
def selRegs (s : Sel) (n : Nat) : List Nat :=
  match s with
  | .w r => regsFrom r.toNat n
  | _ => []

/-- The latches of source selects (DEDUCED, log 45). -/
def latchesOf (ss : List Sel) : List Nat :=
  ss.filterMap fun s => match s with | .b n => some n.toNat | _ => none

/-- The scoreboard's number of a predicate; p7 has none. -/
def predReg (p : BitVec 3) : List Nat := if p = 7 then [] else [256 + p.toNat]

end Sys2Proof.Machine
end

