-- ==== Sys2Proof/Machine/Flags.lean ====
section
/-! DEFINITION. FPX: how the flags of words are gathered and land (R181, R182). -/

namespace Sys2Proof.Machine

/-- Flags of words whose results land by a cycle are set in FPX (R182). Those that land in the cycle
itself stay listed, so that a CSRW of the same cycle leaves them set. -/
def landFlags (g : Group) (now : Nat) : Group :=
  { g with
    fpx := g.fpxLand.foldl (fun f (c, x) => if c ≤ now then f ||| x else f) g.fpx,
    fpxLand := g.fpxLand.filter fun (c, _) => decide (now ≤ c) }

/-- A word's flags, ORed over its threads, land with its result (R182). -/
def addFlags (g : Group) (at_ : Nat) (f : Flags) : Group :=
  if f = 0 then g else { g with fpxLand := g.fpxLand ++ [(at_, f)] }

/-- Writes of KSET that have become visible enter the registers (R155). -/
def landKset (g : Group) (now : Nat) : Group :=
  { g with
    k := g.kset.foldl (fun k (c, i, x) => if c ≤ now then setNth i x k else k) g.k,
    kset := g.kset.filter fun (c, _, _) => decide (now < c) }

/-- CSRW to FPX clears the bits set in the operand; a landing in the same cycle stands (R181, R182). -/
def clearFpx (g : Group) (now : Nat) (a : W64) : Group :=
  let due := g.fpxLand.filter fun (c, _) => c == now
  let f := due.foldl (fun f (_, x) => f ||| x) 0
  let g := landFlags g now
  { g with fpx := (g.fpx &&& ~~~(bits a 0 5)) ||| f }

end Sys2Proof.Machine
end

