-- ==== Sys2Proof/Machine/Info.lean ====
section
/-! DEFINITION. What the issue logic knows of each instruction word before its effect: guard and Y,
registers named, latches read, privilege, region class (R222), latency (R132). -/

namespace Sys2Proof.Machine

/-- How a word stands to its thread's region (R222, R225): inside it; the marker REGION; a region of its
own; or a region of its own that is performed only after the closed region's stores have drained. -/
inductive RegionCls where | inside | marker | own | ownDrained
deriving DecidableEq, Repr

/-! ## Room in the engine queues -/

def Group.cq (g : Group) (q : Nat) : CopyQ := g.cqs.getD q ⟨[], none, none⟩

def cqFull (g : Group) (q : Nat) : Bool := decide (64 ≤ (g.cq q).q.length)
def mqFull (g : Group) : Bool := decide (16 ≤ g.mx.q.length)
/-- The ring engine's queue of the core, a command of a core group that has left it included, is full (R369). -/
def rqFull (g : Group) : Bool := decide (8 ≤ g.rq.length + if g.rqBusy then 1 else 0)

def CqEntry.isChain : CqEntry → Bool
  | .chain _ => true
  | _ => false

/-- The chain entry of a queue that has not ended. -/
def CopyQ.hasChain (c : CopyQ) : Bool := c.q.any CqEntry.isChain

/-- A queue that a mask names is full (R264). -/
def maskFull (mask : BitVec 6) (g : Group) : Bool :=
  ((List.range 4).any fun q => bit mask q && cqFull g q) || (bit mask 4 && mqFull g) || (bit mask 5 && rqFull g)

/-- What issue knows of a word. `dst` and `src` are w registers, `preds` the predicates read besides the
guard; `enters` is the destination whose value a thread with a false guard enters in a latch (R99). -/
structure Info where
  gp : BitVec 4
  y : Bool
  dst : List Nat := []
  src : List Nat := []
  preds : List (BitVec 3) := []
  latches : List Nat := []
  cls : RegionCls := .inside
  priv : PrivKind := .none
  lane : Bool := false
  lat : Nat := 4
  enters : Option Nat := none
  /-- The register block of a long instruction (R215): its first register, whether it holds indices, and
  registers of data for each element. -/
  block : Option (Nat × Bool × Nat) := none
  /-- The registers of a QPACK (R195): the first, and the format slot that gives their number. -/
  pack : Option (Nat × Nat) := none
  /-- The engine queues in which the word places an entry, as QFENCE names them (R264). -/
  queue : BitVec 6 := 0
  /-- The word needs no room where its queue has a chain (R262). -/
  chain : Bool := false
deriving DecidableEq, Repr

/-- Words from 32-bit or 64-bit value operands to a w destination. -/
def infoVal (h : Hdr) (d : BitVec 8) (dn : Nat) (ss : List (Sel × Nat)) (latch : Bool) (lat : Nat) : Info :=
  { gp := h.gp, y := h.y, dst := regsFrom d.toNat dn,
    src := ss.flatMap fun (s, n) => selRegs s n,
    latches := latchesOf (ss.map (·.1)), lat := lat,
    enters := if latch then some d.toNat else none }

/-- Words with sources but no w destination. -/
def infoSrc (h : GY) (ss : List (Sel × Nat)) : Info :=
  { gp := h.gp, y := h.y, src := ss.flatMap fun (s, n) => selRegs s n, latches := latchesOf (ss.map (·.1)) }

/-- A control word that may name a w register in AUX (R164). -/
def infoAux (h : GY) (src : List Nat) (cls : RegionCls) : Info :=
  { gp := h.gp, y := h.y, src := src, cls := cls }

def infoBin (o : IBin) (latch : Bool) (lat : Nat) : Info :=
  let n := widthRegs o.ty.is64
  infoVal o.h o.d n [(o.a, n), (o.b, n)] latch lat

def infoBin0 (o : IBin0) (latch : Bool) (lat : Nat) : Info :=
  let n := widthRegs o.ty.is64
  infoVal o.h o.d n [(o.a, n), (o.b, n)] latch lat

def infoFBin (o : FBin) : Info := infoVal o.h o.d 1 [(o.a, 1), (o.b, 1)] true 4

def infoFTern (o : FTern) : Info := infoVal o.h o.d 1 [(o.a, 1), (o.b, 1), (o.c, 1)] true 4

def infoFL (o : FLOp) : Info := infoVal o.h o.d 1 [(o.a, 1)] true 4

/-- Latches that the two halves of a pair word read. -/
def pairLatches (x z : Half) : List Nat := latchesOf ([x.src, z.src].filterMap id)

def halfDsts (h : Half) : List Nat := match h.dest with | some d => [d.toNat] | none => []

/-- The knowledge of each word; events have none. -/
def infoOf : Instr → Option Info
  | .nop h => some { gp := h.gp, y := h.y }
  | .iadd o | .isub o => some (infoBin o true 4)
  | .imul o => some (infoBin o false 6)
  | .imulhi o => some (infoBin0 o false 6)
  | .imad o =>
    let n := widthRegs o.ty.is64
    some (infoVal o.h o.d n [(o.a, n), (o.b, n), (o.c, n)] false 6)
  | .imin o | .imax o => some (infoBin0 o true 4)
  | .iunary h op d ty _ a =>
    some (infoVal h d (if op.count then 1 else widthRegs ty.is64) [(a, widthRegs ty.is64)] true 4)
  | .logic h _ d ty a b =>
    let n := widthRegs ty.is64
    some (infoVal h d n [(a, n), (b, n)] true 4)
  | .shift h _ d ty a b | .bfx h d ty a b =>
    let n := widthRegs ty.is64
    some (infoVal h d n [(a, n), (b, 1)] true 4)
  | .bfi h d ty a b c =>
    let n := widthRegs ty.is64
    some (infoVal h d n [(a, n), (b, n), (c, 1)] true 4)
  | .perm h d a b c => some (infoVal h d 1 [(a, 1), (b, 1), (c, 1)] true 4)
  | .sel h d ty a b c =>
    let n := widthRegs ty.is64
    some { infoVal h d n [(a, n), (b, n)] true 4 with preds := [c.p] }
  | .icmp h _ _ ty a b =>
    let n := widthRegs ty.is64
    some (infoSrc h [(a, n), (b, n)])
  | .plogic h op _ a b =>
    some { gp := h.gp, y := h.y, preds := if op.unary then [a.p] else [a.p, b.p] }
  | .lea h d _ _ a b => some (infoVal h d 2 [(a, 2), (b, 1)] true 4)
  | .mov h d w64 a => some (infoVal h d (widthRegs w64) [(a, widthRegs w64)] true 4)
  | .kset h _ a => some { infoSrc h [(a, 2)] with cls := .own }
  | .sreg h d r => some (infoVal h d (if r == .clock then 2 else 1) [] false 4)
  | .fmtq h d _ => some (infoVal h d 1 [] false 4)
  | .ballot h _ d a => some { infoVal h d 1 [] false 8 with preds := [a.p], cls := .own, lane := true }
  | .shuf h _ d ty a b =>
    let n := widthRegs ty.is64
    some { infoVal h d n [(a, n), (b, 1)] false 8 with cls := .own, lane := true }
  | .redux h _ d ty _ a | .scan h _ d ty _ a =>
    let n := widthRegs ty.is64
    some { infoVal h d n [(a, n)] false 8 with cls := .own, lane := true }
  | .bra h t close => some (infoAux h [] (if close || t.off.toInt ≤ 0 then .own else .inside))
  | .brx h aux | .callx h aux => some (infoAux h (regsFrom aux.toNat 2) .own)
  | .call h _ | .ret h | .exit h => some (infoAux h [] .own)
  | .yield h => some (infoAux h [] .inside)
  | .trap h aux | .brk h aux => some (infoAux h [aux.toNat] .inside)
  | .region y => some { gp := 7, y := y, cls := .marker }
  | .nopreOpen h aux => some { infoAux h [] .own with dst := [aux.toNat] }
  | .nopreShut h => some (infoAux h [] .own)
  | .eret h => some { infoAux h [] .own with priv := .always }
  | .csrr h d _ => some { infoVal h d 2 [] false 0 with priv := .always }
  | .csrw h _ a => some { infoSrc h [(a, 2)] with priv := .always, cls := .own }
  | .fadd o | .fmul o => some (infoFBin o)
  | .ffma o => some (infoFTern o)
  | .fminmax h _ d _ a b => some (infoVal h d 1 [(a, 1), (b, 1)] false 4)
  | .fcmp h _ _ _ a b => some (infoSrc h [(a, 1), (b, 1)])
  | .funary h _ d _ _ a => some (infoVal h d 1 [(a, 1)] false 4)
  | .fspec h _ d _ a => some (infoVal h d 1 [(a, 1)] false 16)
  | .twosum h d a b => some (infoVal h d 2 [(a, 1), (b, 1)] false 4)
  | .hadd2 o | .hmul2 o => some (infoFBin o)
  | .hfma2 o => some (infoFTern o)
  | .cvt h d dst src _ _ a => some (infoVal h d (widthRegs dst.is64) [(a, widthRegs src.is64)] true 4)
  | .qpack h d a f =>
    some { infoVal h d 2 [(a, 1)] false 8 with
      cls := .own, lane := true, pack := match a with | .w n => some (n.toNat, f.toNat) | _ => none }
  | .qunpack h d _ _ a b c => some (infoVal h d 1 [(a, 1), (b, 1), (c, 1)] false 4)
  | .fclass h d _ a => some (infoVal h d 1 [(a, 1)] false 4)
  | .pairWord y x z =>
    some { gp := 7, y := y, dst := halfDsts x ++ halfDsts z, src := (x.readsW ++ z.readsW).map (·.toNat),
           latches := pairLatches x z, enters := x.dest.map (·.toNat) }
  | .movi h d _ => some (infoVal h d 1 [] true 4)
  | .iaddi o | .andi o | .ori o | .xori o => some (infoFL o)
  | .ld h d m sz _ _ => some (infoVal h d sz.regs [(m.a, 2)] false 0)
  | .st h m b sz _ => some (infoSrc h [(m.a, 2), (b, sz.regs)])
  | .atom h op d m b sz _ =>
    let i := infoVal h d sz.regs [(m.a, 2), (b, sz.regs)] false 0
    some { i with cls := .ownDrained, src := if op == .cas then i.src ++ i.dst else i.src }
  | .red h _ m b sz _ => some { infoSrc h [(m.a, 2), (b, sz.regs)] with cls := .ownDrained }
  | .gather h d m b _ _ _ =>
    some { infoVal h d 1 [(m.a, 2), (.w b, 1)] false 0 with block := some (b.toNat, true, 0), cls := .ownDrained }
  | .scatter h m b sz _ =>
    some { infoSrc h [(m.a, 2), (.w b, 1)] with block := some (b.toNat, true, sz.regs), cls := .ownDrained }
  | .cst h m b sz _ =>
    some { infoSrc h [(m.a, 2), (.w b, 1)] with block := some (b.toNat, false, sz.regs), cls := .ownDrained }
  | .pref h m _ _ => some (infoSrc h [(m.a, 2)])
  | .pginfo h d m => some (infoVal h d 2 [(m.a, 2)] false 0)
  | .tagset h m b _ => some { infoSrc h [(m.a, 2), (b, 1)] with priv := .tagu }
  | .appendRes h d a b => some { infoVal h d 1 [(a, 2), (b, 1)] false 0 with cls := .ownDrained }
  | .appendQuery h d a | .sealPlain h d a | .sealBcast h d a =>
    some { infoVal h d 2 [(a, 2)] false 0 with cls := .ownDrained }
  | .tailq h d a => some { infoVal h d 1 [(a, 2)] false 0 with cls := .ownDrained }
  | .fence h k _ => some { infoSrc h [] with cls := if k == .ar then .own else .ownDrained }
  | .barSync h _ _ => some { infoSrc h [] with cls := .ownDrained }
  | .barArrive h d _ _ => some { infoVal h d 1 [] false 4 with cls := .ownDrained }
  | .barWait h _ _ b => some { infoSrc h [(b, 1)] with cls := .ownDrained }
  | .phaseAdv h => some { infoSrc h [] with cls := .ownDrained }
  | .phaseWait h a b => some { infoSrc h [(a, 1), (b, 1)] with cls := .ownDrained }
  | .phaseRead h d a => some { infoVal h d 1 [(a, 1)] false 0 with cls := .ownDrained }
  | .waitge h _ _ a b => some { infoSrc h [(a, 2), (b, 2)] with cls := .ownDrained }
  | .backoff h a => some (infoSrc h [(a, 1)])
  | .copy h q a => some { infoSrc h [(a, 2)] with cls := .ownDrained, queue := (1 : BitVec 6) <<< q.toNat }
  | .chain h q a => some { infoSrc h [(a, 2)] with cls := .ownDrained, queue := (1 : BitVec 6) <<< q.toNat, chain := true }
  | .qfence h mask b => some { infoSrc h [(b, 2)] with cls := .ownDrained, queue := mask }
  | .stgClaim h d _ | .stgTake h d _ | .stgQuery h d _ => some { infoVal h d 1 [] false 0 with cls := .ownDrained }
  | .stgFill h _ b | .stgFree h _ b => some { infoSrc h [(b, 1)] with cls := .ownDrained }
  | .mma h a | .mdrain h a => some { infoSrc h [(a, 2)] with cls := .ownDrained, queue := 16 }
  | .coll h a => some { infoSrc h [(a, 2)] with cls := .ownDrained, queue := 32 }
  | .mprec h _ _ | .mzero h _ => some { infoSrc h [] with cls := .ownDrained, queue := 16 }
  | .mstat h d _ => some (infoVal h d 2 [] false 0)
  | .cprog h d _ b => some { infoVal h d 2 [(b, 1)] false 0 with cls := .ownDrained }
  | _ => none

/-- One more than the highest w register that the word names (R41). -/
def Info.top (i : Info) : Nat := (i.dst ++ i.src).foldl (fun m r => max m (r + 1)) 0

/-- The registers of a block with `n` elements (R215). -/
def blockRegs (b : Nat) (idx : Bool) (data n : Nat) : List Nat :=
  let ix := if idx then (if data = 0 then n else (n + 3) / 4 * 4) else 0
  regsFrom b (4 + ix + data * n)

/-- A format slot: its two dwords (R59, R177). -/
def Group.fslot (g : Group) (f : Nat) : W64 := recDw g.lrec (16 + 2 * f)

/-- The registers that QPACK reads beside the first: its group has 2^n elements, of which a register holds 32 bits (R195);
four at most are read. -/
def packRegs (slot : W64) (a : Nat) : List Nat := regsFrom a (2 ^ min 7 (bits slot 8 8).toNat / 32)

/-- What the scoreboard watches for a thread of a core group: w registers read, and predicates from 256 on, the guard's
among them; where the guard is false, the destination that the thread's latch takes (R99, R133). -/
def Info.reads (i : Info) (g : Group) (t : Thread) : List Nat :=
  i.src ++ (bits i.gp 0 3 :: i.preds).flatMap predReg ++
  (match i.enters with
   | some d => if t.guard i.gp then [] else [d]
   | none => []) ++
  (match i.pack with
   | some (a, f) => packRegs (g.fslot f) a
   | none => []) ++
  (match i.block with
   | some (b, idx, data) => blockRegs b idx data (min 64 (t.r b).toNat)
   | none => [])

/-- The word is a region of its own, or waits besides for drains. -/
def RegionCls.closes : RegionCls → Bool
  | .inside => false
  | _ => true

def RegionCls.isOwn : RegionCls → Bool
  | .own | .ownDrained => true
  | _ => false

end Sys2Proof.Machine
end

