-- ==== Sys2Proof/Machine/Mgmt.lean ====
section
/-! DEFINITION. Functions and contexts (R52, R82), accesses of engines and firmware through windows (R79,
R252), management entries (R55), completion objects (R257, R258), freezes (R410). -/

namespace Sys2Proof.Machine

/-- The PF's number among the functions (R82). -/
def pfn : Nat := 1024

/-- The enabled partition of a VF (R66). -/
def partOfVf (s : State) (vf : Nat) : Option Nat :=
  (List.range 64).find? fun p =>
    let r := s.partRec p 0x30
    s.enabled p && decide ((bits r 0 10).toNat ≤ vf) && decide (vf < (bits r 0 10).toNat + (bits r 10 11).toNat)

def ctxCount (s : State) (p : Nat) : Nat := (bits (s.trans p 0x60) 0 16).toNat

def ctxValid (s : State) (p ctx : Nat) : Bool := decide (ctx < ctxCount s p) && bit (ctxDw s p ctx 0) 0

/-- The windows of a context, as its table entry holds them, with its PASID after them (R82). -/
def ctxWins (s : State) (p ctx : Nat) : List W64 :=
  ((List.range 32).map fun i => ctxDw s p ctx (0x80 + 8 * i)) ++ [BitVec.ofNat 64 (ctxPasid s p ctx)]

/-- A function's queue context, with its partition (R82). -/
def queueCtx (s : State) (fn : Nat) : Option (Nat × Nat) :=
  (List.range 64).findSome? fun p =>
    ((List.range (ctxCount s p)).find? fun c =>
      let d := ctxDw s p c 0
      bit d 0 && bit d 1 && (bits d 2 11).toNat == fn).map fun c => (p, c)

/-! ## Accesses through windows by engines and the firmware -/

/-- An engine's access: window, right, request type DEFRT (R79, R252). Places are not reached here. -/
def engAcc (wins : List W64) (r : Right) (va : W64) (n : Nat) : Except Bad Acc :=
  if !ptrOk va || isPlace va then .error (cWindow, va)
  else
    match winTranslate wins r va with
    | .error e => .error e
    | .ok (ia, d0) => .ok ⟨va, .ia ia, n, winEngRt d0, winTag d0, winPasid wins⟩

/-- The IA of an access. -/
def Acc.ia (a : Acc) : Nat := match a.loc with | .ia x => x | _ => 0

/-- An engine's access, unless it times out (R405) (DEDUCED, log 69). -/
def unlessLate {α : Type} (s : State) (core p ia : Nat) (f : Unit → State × HAns α) : State × HAns α :=
  match expire s core 0 p ia with
  | some s => (s, .fault cPoison false false)
  | none => f ()

/-- Reads bytes through windows at their homes. -/
def vaRead (s : State) (p seg core : Nat) (wins : List W64) (va : W64) (n : Nat) : State × HAns (List Byte) :=
  match engAcc wins .rd va n with
  | .error (c, _) => (s, .fault c false false)
  | .ok a => unlessLate s core p a.ia fun _ => loadHome s p seg a a.ia none

/-- Writes bytes through windows at their homes. -/
def vaWrite (s : State) (p seg core : Nat) (wins : List W64) (va : W64) (bs : List Byte) : State × HAns Unit :=
  match engAcc wins .wr va bs.length with
  | .error (c, _) => (s, .fault c false false)
  | .ok a => unlessLate s core p a.ia fun _ => engineStore s p seg core a a.ia bs

/-- A 64-bit atomic through windows at its home (R258). -/
def vaAtom (s : State) (p seg core : Nat) (wins : List W64) (va : W64) (op : AtomOp) (b d : Nat) :
    State × HAns Nat :=
  match engAcc wins .rdwr va 8 with
  | .error (c, _) => (s, .fault c false false)
  | .ok a => unlessLate s core p a.ia fun _ => engineAtom s p seg core a a.ia op b d

/-- Dwords of a byte string. -/
def dwordsOf (bs : List Byte) : List W64 :=
  (List.range (bs.length / 8)).map fun i => BitVec.ofNat 64 (natOfBytes ((bs.drop (8 * i)).take 8))

/-! ## Management entries (R55) -/

/-- The dwords of a management entry. -/
def mgmtEntry (kind code : Nat) (seq : W32) (detail : W64) (lid now : Nat) : List W64 :=
  [seq ++ BitVec.ofNat 16 code ++ BitVec.ofNat 16 kind, detail, BitVec.ofNat 64 lid, BitVec.ofNat 64 now]

/-- The management queue takes entries (R52, R55). -/
def Fn.mqOk (f : Fn) : Bool := f.mqen && decide (4 ≤ f.mqlog.toNat) && decide (f.mqlog.toNat ≤ 12)

def Fn.mqFull (f : Fn) : Bool := decide (2 ^ f.mqlog.toNat ≤ (f.mqtail - f.mqhead).toNat)

/-- An entry is lost (R55). -/
def Fn.lose (f : Fn) : Fn := { f with mqlost := true, lostcnt := if f.lostcnt = 255 then 255 else f.lostcnt + 1 }

/-- Writes an entry at MQTAIL (R52, R55); one that its context cannot place is lost (DESIGN CHOICE, log 13). `none`
where the entry's home holds the request (R18, R94). -/
def mqTry (s : State) (fn : Nat) (e : List W64) : Option State :=
  let f := s.fn fn
  match queueCtx s fn with
  | none => some (s.setFn fn f.lose)
  | some (p, c) =>
    let va := f.mqbase + BitVec.ofNat 64 (f.mqtail.toNat % 2 ^ f.mqlog.toNat * 32)
    match vaWrite s p (fwSeg s p) 512 (ctxWins s p c) va (e.flatMap fun d => bytesOf 8 d.toNat) with
    | (s', .ok ()) => some (s'.setFn fn { f with mqtail := f.mqtail + 1 })
    | (_, .held) => none
    | _ => some (s.setFn fn f.lose)

/-- Writes an entry, or keeps it first among the held ones while its home holds the request (DEDUCED, log 76). -/
def mqWrite (s : State) (fn : Nat) (e : List W64) : State :=
  (mqTry s fn e).getD (s.modFn fn fun f => { f with held := e :: f.held })

/-- Held entries go out as room appears (R55). -/
def flushHeld : Nat → State → Nat → State
  | 0, s, _ => s
  | n + 1, s, fn =>
    let f := s.fn fn
    match f.held with
    | [] => s
    | e :: r =>
      if !f.mqOk || f.mqFull then s
      else
        match mqTry (s.setFn fn { f with held := r }) fn e with
        | some s => flushHeld n s fn
        | none => s

/-- Posts an entry: written, held, or discarded and counted; STAMP is CLOCK of segment 0 (R55). -/
def post (s : State) (fn kind code : Nat) (seq : W32) (detail : W64) (lid : Nat) : State :=
  let e := mgmtEntry kind code seq detail lid (s.clock 0 0)
  let f := s.fn fn
  if !f.mqOk then s.setFn fn f.lose
  else if !f.mqFull && f.held.isEmpty then mqWrite s fn e
  else if f.held.length < 16 then flushHeld 17 (s.setFn fn { f with held := f.held ++ [e] }) fn
  else s.setFn fn f.lose

/-- Entries that homes held are tried again. -/
def retryHeld (s : State) : State := (s.fns.map (·.1)).foldl (flushHeld 17) s

/-- The VFs of a partition (R66). -/
def vfsOf (s : State) (p : Nat) : List Nat :=
  let r := s.partRec p 0x30
  (List.range (bits r 10 11).toNat).map ((bits r 0 10).toNat + ·)

/-- The function whose management queue serves a core group: its context's owner (DEDUCED, log 14). -/
def groupFn (s : State) (g : Group) : Nat := ctxOwner s g.part g.ctxid

/-! ## Completion objects (R257, R258) -/

/-- The error word of a failure (R257). -/
def errWord (code engine : Nat) (cseq : W32) : W64 := cseq ++ BitVec.ofNat 16 engine ++ BitVec.ofNat 16 code

/-- How the completion of a command fares: added, or still waiting for its page. -/
inductive Comp where
  | done (s : State)
  | held
  | wait (s : State) (page : Nat)
  /-- Refused as an isolation violation at an address (R410). -/
  | iso (s : State) (va : W64)

/-- The page of an address as a completion asks for it. -/
def compPage (wins : List W64) (va : W64) : Nat :=
  match engAcc wins .rdwr va 8 with
  | .ok a => a.ia / 65536
  | .error _ => 0

/-- A fault on a page can be served as far as page requests go: those of the function are not stopped, where the page is
the host's (R235). -/
def priOpen (s : State) (p fn page : Nat) : Bool :=
  !((kindOf s p page == 1 || kindOf s p page == 2) && s.priStopped.contains fn)

/-- A page for which an asker would wait can be served: it has not been declined to it, and its function's page requests
are not stopped (R230, R235). -/
def canServe (s : State) (p fn page : Nat) (w : Asker) : Bool :=
  !s.deniedTo p page w && priOpen s p fn page

/-- Adds a completion to the object at an address (R258). An unservable fault, and a
page that the firmware has declined, is reported as KIND 3 to `mq`, the function whose command it is, and so is a COMPVA, of
whichever engine, that is not a multiple of 8 (DEDUCED, log 57). -/
def completeAt (s : State) (p seg core : Nat) (wins : List W64) (compva : W64) (weight : W32) (code engine : Nat)
    (cseq : W32) (mq : Nat) : Comp :=
  let me : Asker := ⟨engine, compva, cseq⟩
  let bad := fun (s : State) => Comp.done (post (s.settle p me) mq 3 (if code = 0 then 0x0102 else code) cseq compva 0xFFFF)
  let miss := fun (s1 : State) (va : W64) (v : Bool) =>
    let pg := compPage wins va
    if v && canServe s p mq pg me then Comp.wait (s.noteAsk p pg me) pg else bad s1
  if compva.toNat % 8 ≠ 0 then bad s
  else
    let r1 := if code = 0 then (s, HAns.ok 0)
      else vaAtom s p seg core wins (compva + 8) .cas (errWord code engine cseq).toNat 0
    match r1 with
    | (_, .held) => .held
    | (s1, .fault _ v _) => miss s1 (compva + 8) v
    | (s1, .iso) => .iso (s1.settle p me) (compva + 8)
    | (s1, .ok _) =>
      match vaAtom s1 p seg core wins compva .add weight.toNat 0 with
      | (_, .held) => .held
      | (s2, .fault _ v _) => miss s2 compva v
      | (s2, .iso) => .iso (s2.settle p me) compva
      | (s2, .ok _) => .done (s2.settle p me)

/-- Adds the completion of a command, where it names one (R257, R258). -/
def complete (s : State) (p seg core : Nat) (wins : List W64) (compva : W64) (weight : W32) (code engine : Nat)
    (cseq : W32) (mq : Nat) : Comp :=
  if compva = 0 then .done s else completeAt s p seg core wins compva weight code engine cseq mq

/-! ## Isolation (R409, R410) -/

/-- Records the first halt or freeze of a launch, and its cycle; of a halt and a freeze in one cycle, the halt (R414). -/
def noteStop (s : State) (p lid code : Nat) : State :=
  s.modPart p fun x => { x with launches := x.launches.map fun l =>
    let later := match l.firstStop with
      | none => true
      | some (_, at_) => code == 0x0324 && at_ == s.now
    if l.lid == lid && later then { l with firstStop := some (code, s.now) } else l }

/-- A core group that asked for what another partition owns is frozen and reported (R410). -/
def freezeGroup (s : State) (core : Nat) (addr : W64) : State :=
  match s.grp? core with
  | none => s
  | some g =>
    let s := endRun (endRun s core 0 none) core 1 none
    let s := s.modGrp core fun g => { g with st := .frozen }
    let s := noteStop (s.modCore core fun c => { c with stopped := true }) g.part g.lid 0x0325
    let s := post s pfn 4 0x0012 (recSeq g.lrec) addr g.lid
    post s (groupFn s g) 4 0x0012 (recSeq g.lrec) addr g.lid

/-- A refused request of a function, as the firmware makes it, is reported (R410). -/
def reportFn (s : State) (fn : Nat) (addr : W64) : State :=
  let s := post s pfn 4 0x0012 0 addr 0xFFFF
  if fn = pfn then s else post s fn 4 0x0012 0 addr 0xFFFF

/-- An engine of a core is frozen and reported with its code (R256, R295, R410). -/
def reportFreeze (s : State) (g : Group) (code : Nat) (addr : W64) : State :=
  let s := noteStop s g.part g.lid 0x0325
  let s := post s pfn 4 code (recSeq g.lrec) addr g.lid
  post s (groupFn s g) 4 code (recSeq g.lrec) addr g.lid

end Sys2Proof.Machine
end

