-- ==== Sys2Proof/Machine/Issue.lean ====
section
/-! DEFINITION. Issuing: fetch (R96, R97), which threads may issue, forming a sheet and choosing an entry
(R126-R130), the fates of a word (R113, R128, R133), and how a word's effect is applied. -/

namespace Sys2Proof.Machine

/-! ## Fetch -/

/-- What a fetch gives (R96). -/
inductive Fetched where
  | word (v : W64)
  | held
  | absent (page : Nat)
  | bad (cause : Nat) (home : Bool) (prifail : Bool)
  | iso
deriving DecidableEq, Repr

/-- A PC as a VA. -/
def vaOfPc (pc : Va) : W64 := pc.setWidth 64

/-- The word at a PC: its window, then the instruction cache or its home (R96). A page that its home finds absent or
refuses has no words in the cache; of a sealed page, the word is read at the member that serves it (R323, R412). Where the cache and the home differ, or the word in memory is poisoned, either of the
two is returned, whole (R97, DESIGN CHOICE, log 7). -/
def fetchAt (s : State) (core : Nat) (g : Group) (pc : Va) : State × Fetched :=
  let va := vaOfPc pc
  if isPlace va then (s, .bad cWindow false false)
  else
    match winTranslate (s.core core).wins .ex va with
    | .error (c, _) => (s, .bad c false false)
    | .ok (ia, _) =>
      let old := alFind (s.core core).icache ia
      match expire s core 1 g.part ia with
      | some s => (s, .bad cPoison true false)
      | none =>
      match askHome s g.part (segOf core) ⟨va, .ia ia, 8, .w, false, winPasid (s.core core).wins⟩ ia .fetch with
      | .ok t =>
        let s := noteWalk s g.part (winPasid (s.core core).wins) ia
        let a := readAddr s g.part (segOf core) t ia 8 (some core)
        let s := dropPoisoned s g.part (segOf core) t ia 8 (some core)
        if poisoned s a 8 then
          match old with
          | some v =>
            let (f, s) := s.draw
            (s, if bit f 0 then .bad cPoison true false else .word v)
          | none => (s, .bad cPoison true false)
        else
          let m := memRead64 s.mem a
          match old with
          | none =>
            ((noteHot s g.part (segOf core) t.hseg ia).modCore core fun c => { c with icache := alSet ia m c.icache }, .word m)
          | some v =>
            if v = m then (s, .word m)
            else
              let (f, s) := s.draw
              (s, .word (if bit f 0 then m else v))
      | .held => match old with
        | some v => (s, .word v)
        | none => (s, .held)
      | .fault c serv pf => (s, if serv then .absent (ia / 65536) else .bad c true pf)
      | .iso => (s, .iso)

/-! ## Which threads may issue -/

/-- A register that a word reads awaits a result of variable latency (R133). -/
def Group.awaits (g : Group) (t : Nat) (regs : List Nat) : Bool :=
  g.pend.any fun p => p.tid == t && p.dsts.any fun d => match d with | some n => regs.contains n | none => false

/-- The regions let a thread issue a word (R225), and so does a FENCE.AR that holds what follows it (R334). -/
def Group.regionLets (g : Group) (t : Nat) (cls : RegionCls) : Bool :=
  if (g.thread t).rclosed || cls.closes then
    if cls == .ownDrained then g.drained t && (g.thread t).arHold.isNone else g.complete t
  else true

/-- A thread that waits for room in an engine queue has none yet (R261, R262, R264). -/
def Group.noRoom (g : Group) (i : Info) (t : Nat) : Bool :=
  (g.thread t).qblk.isSome && maskFull i.queue g &&
    !(i.chain && (List.range 4).any fun q => bit i.queue q && (g.cq q).hasChain)

/-- A thread may issue a word: no operand awaits a result, no region holds it, no BACKOFF runs, no
store of it waits for entries, no trap for its region, and it waits for no room (R126, R225, R229, R233,
R261, R346). -/
def Group.ready (g : Group) (i : Info) (t : Nat) : Bool :=
  !g.awaits t (i.reads g (g.thread t)) && g.regionLets t i.cls && (g.thread t).backoff == 0 && (g.thread t).rbwait == 0 &&
    (g.thread t).ptrap.isNone && !g.noRoom i t

/-- The word that a thread at a PC would fetch, as issue knows it; a word that has none issues alone. -/
def peekInfo (s : State) (core : Nat) (g : Group) (pc : Va) : Info :=
  match (fetchAt s core g pc).2 with
  | .word v =>
    match decode v with
    | .ok i => (infoOf i).getD { gp := 7, y := false }
    | .rej _ => { gp := 7, y := false }
  | _ => { gp := 7, y := false }

/-- A thread could enter a sheet (R126). -/
def canEnter (s : State) (core : Nat) (g : Group) (i : Info) (t : Nat) : Bool :=
  g.ready i t && !(s.core core).runningTids.contains t

/-- Threads of an entry that no running sheet has. -/
def standing (s : State) (core : Nat) (e : Entry) : List Nat :=
  e.tids.filter fun t => !(s.core core).runningTids.contains t

def gangOf (t : Nat) : Nat := t / 32

/-- The live threads of a gang. -/
def Group.gangLive (g : Group) (gang : Nat) : List Nat := g.live.filter fun t => gangOf t == gang

/-- A gang is whole in an entry (R127). -/
def Group.whole (g : Group) (tids : List Nat) (gang : Nat) : Bool := (g.gangLive gang).all fun t => tids.contains t

/-- The gangs with threads in a list, ascending. -/
def gangsOf (tids : List Nat) : List Nat := dedup ((sortBy id tids).map gangOf)

/-- The lowest whole gang all of whose threads can enter a sheet (R127). -/
def issuable (s : State) (core : Nat) (g : Group) (i : Info) (e : Entry) : Option Nat :=
  (gangsOf (standing s core e)).find? fun k => g.whole (standing s core e) k && (g.gangLive k).all (canEnter s core g i)

/-- Threads in order, the first of each lane, 32 at most (R126). -/
def pickLanes : List Nat → List Nat
  | [] => []
  | t :: r => t :: (pickLanes r).filter fun u => u % 32 != t % 32

/-- An entry is eligible (R126, R127). -/
def eligible (s : State) (core : Nat) (g : Group) (e : Entry) : Bool :=
  let i := peekInfo s core g e.pc
  if i.lane then
    (issuable s core g i e).isSome || (gangsOf (standing s core e)).any fun k => !g.whole (standing s core e) k
  else e.tids.any (canEnter s core g i)

/-- The sheet of an entry (R126, R127). -/
def sheetOf (s : State) (core : Nat) (g : Group) (e : Entry) : List Nat :=
  let i := peekInfo s core g e.pc
  if i.lane then
    match issuable s core g i e with
    | some k => sortBy id (g.gangLive k)
    | none => []
  else pickLanes ((sortBy id e.tids).filter (canEnter s core g i))

/-- The rules by which a pipe chooses (R129): an aged entry, priority, barrier generation, index. -/
def entryScore (g : Group) (agethr : Nat) (e : Entry) : List Nat :=
  if agethr ≤ e.age then [e.age, 0, 0, 256 - e.idx]
  else
    let gen := minNat 0 (e.tids.map fun t => (g.thread t).bargen.toNat)
    [0, e.prio.toNat, 2 ^ 32 - gen, 256 - e.idx]

/-- Threads that stand before a closing word close their region there (R222, R225) (DEDUCED, log 21). -/
def closeReached (s : State) (core : Nat) (g : Group) : Group :=
  g.frontier.foldl (fun h e =>
    if (peekInfo s core g e.pc).cls.closes then
      (standing s core e).foldl (fun h t => if g.complete t then h else h.modThread t fun x => { x with rclosed := true }) h
    else h) g

/-- Threads of gangs that are not whole in a lane operation's entry enter the wait store (R127). -/
def parkLanes (s : State) (core : Nat) (g : Group) (e : Entry) : Group :=
  if (peekInfo s core g e.pc).lane then
    ((standing s core e).filter fun t => !g.whole (standing s core e) (gangOf t)).foldl (fun h t => h.park t .lane) g
  else g

/-- The window is open at a reading of CLOCK. -/
def Group.nopreOpen (g : Group) (clock : Nat) : Bool :=
  match g.nopre with
  | some d => decide (clock < d)
  | none => false

/-- Two core groups belong to one gang (R68, R71). -/
def sameGang (g h : Group) : Bool := h.part == g.part && h.lid == g.lid && h.bind.gangid == g.bind.gangid

/-- A member of a gang above core residency stands saved, so that no other member runs (R406); a halted member stops no
other (R403). -/
def gangSaved (s : State) (g : Group) : Bool :=
  recResid g.lrec != 0 &&
    ((s.cores.any fun (_, c) => match c.shadow with | some h => sameGang g h && h.st == .running | none => false) ||
     (s.part g.part).csa.any fun h => sameGang g h && h.st == .running)

/-- A core group issues: it runs, and no pre-emption or test that may proceed stops it (R172, R404, R406). -/
def mayIssue (s : State) (core : Nat) (g : Group) : Bool :=
  let c := s.core core
  g.st == .running && (!(c.preq || c.testDue) || g.nopreOpen (s.clock core g.clockOff)) && !gangSaved s g

/-- Entries that are eligible age by a number of cycles, but for the cycle in which a pipe chose them (R130) (DEDUCED, log
26). -/
def ageEntries (s : State) (core n : Nat) (g : Group) : Group :=
  if mayIssue s core g then
    { g with
      frontier := g.frontier.map fun e =>
        if eligible s core g e then
          { e with age := min (2 ^ 17 - 1) (e.age + (if e.chose = s.now + 1 then n - 1 else n)) }
        else e }
  else g

/-- Time passes up to a cycle, and every eligible entry ages (R130). -/
def State.passTo (s : State) (c : Nat) : State :=
  if c ≤ s.now then s
  else
    { s with
      now := c,
      cores := s.cores.map fun (k, x) => (k, { x with grp := x.grp.map (ageEntries s k (c - s.now)) }) }

/-! ## Leaving the wait store (R122, R124) -/

/-- Threads leave the wait store, changed first, and arrive at the pairs they hold (R124): of one cycle in ascending order
of TIDs, so that one with a lower TID than another that has left already leaves in the next (R122). -/
def leaveWaits (s : State) (core : Nat) (tids : List Nat) (f : Group → Group) : State :=
  match tids with
  | [] => s
  | t :: _ =>
    let w := (s.core core).woke
    let low := minNat t tids
    let s := if w.1 = s.now + 1 ∧ low < w.2 then s.passTo (s.now + 1) else s
    let top := tids.foldl max (if w.1 = s.now + 1 then w.2 - 1 else 0)
    (s.modCore core fun c => { c with woke := (s.now + 1, top + 1) }).modGrp core fun g => (f g).move none tids

/-- A thread, changed first, arrives at the pair it holds, from the wait store or from where it stands (R122). -/
def moveOut (s : State) (core tid : Nat) (f : Group → Group) : State :=
  match (s.grp? core).bind (·.waiting tid) with
  | some _ => leaveWaits s core [tid] f
  | none => s.modGrp core fun g => (f g).move none [tid]

/-- An abort by pressure or pre-emption: no fault-wait (R229, R240). -/
def abortRegion (s : State) (core tid : Nat) : State :=
  let s := discardRegion (quitRun s core tid) core tid
  moveOut s core tid (·.toStart tid)

/-! ## Faults and traps of regions (R230-R233) -/

/-- The thread's trap is taken, and the thread moves to its handler. -/
def trapNow (s : State) (core tid : Nat) : State :=
  match s.grp? core with
  | none => s
  | some g =>
    if (g.thread tid).ptrap.isSome && g.complete tid then moveOut s core tid fun g => g.takeTrap (s.tvec g.part) tid else s

/-- A thread of an aborted region enters fault-wait at its region start (R230). -/
def faultWait (s : State) (core tid : Nat) (x : Found) : State :=
  match s.grp? core with
  | none => s
  | some g =>
    let late := x.f.late && !x.own
    let s := startService s g.part g.ctxid x.f.page
    s.modGrp core fun g => (g.toStart tid).park tid (.fault x.f.page x.pc x.va x.akind late)

/-- An unservable fault traps the thread at its region start (R232), or halts the group (R234, R403). An operand that the
home finds illegal is no memory-side fault (R315, R338). -/
def faultTrap (s : State) (core tid : Nat) (x : Found) : State :=
  match s.grp? core with
  | none => s
  | some g =>
    let th := g.thread tid
    let trec := if x.f.cause = cIllegalOperand then 0 else trecOf th.rsPc x.pc x.akind x.f.prifail (x.f.late && !x.own)
    moveOut s core tid fun g => (g.toStart tid).trapThread (s.tvec g.part) tid x.f.cause x.f.tval th.rsPc th.rsPrio trec

/-- A fault that has arrived is taken once no access before it is unanswered (R230, R232). -/
def settle (s : State) (core tid : Nat) : State :=
  match s.grp? core with
  | none => s
  | some g =>
    match firstFound (g.found tid) with
    | none => s
    | some x =>
      if (g.openAccs tid).any fun o => lexLt o (x.pc.toNat, vaOf x.va) then s
      else
        let f := priFilter s g.part g.ctxid x.f
        let s := discardRegion (quitRun s core tid) core tid
        if f.servable then faultWait s core tid { x with f := f } else faultTrap s core tid { x with f := f }

/-! ## The pipes -/

def setFree (s : State) (core pipe c : Nat) : State :=
  s.modCore core fun x => if pipe = 0 then { x with free0 := c } else { x with free1 := c }

/-- A pipe without a run chooses an entry and forms its sheet (R129); it issues nothing where none is
eligible. Where no whole gang of a lane operation's entry can issue, it chooses again in the next cycle (R127). -/
def chooseOne (s : State) (core pipe : Nat) : State :=
  match s.grp? core with
  | none => s
  | some g =>
    if (s.run core pipe).isSome || !mayIssue s core g then s
    else
      let g := closeReached s core (landKset (landFlags g s.now) s.now)
      let s := s.setGrp core g
      match bestBy (entryScore g (s.agethr g.part)) (g.frontier.filter (eligible s core g)) with
      | none => s
      | some e =>
        let sheet := sheetOf s core g e
        let g' := parkLanes s core g e
        let g' := { g' with frontier := g'.frontier.map fun x => if x.idx == e.idx then { x with age := 0, chose := s.now + 1 } else x }
        let s := s.setGrp core g'
        if sheet.isEmpty then setFree s core pipe (s.now + 1) else s.setRun core pipe (some ⟨sheet, []⟩)

/-- The first cycle in which a pipe may issue or choose: after its last word, after a cycle in which threads have left the
wait store, and for pipe 0 after the cycle of pipe 1's last word, since in one cycle pipe 0 comes first (R122, R129). -/
def Core.freeAt (c : Core) (pipe : Nat) : Nat :=
  max c.woke.1 (if pipe = 0 then max c.free0 c.free1 else c.free1)

/-- A pipe chooses; pipe 0, where it chooses in the same cycle, chooses first (R129). -/
def choose (s : State) (core pipe : Nat) : State :=
  match s.grp? core with
  | none => s
  | some g =>
    if (s.run core pipe).isSome || !mayIssue s core g then s
    else
      let s := s.passTo ((s.core core).freeAt pipe)
      let s := if pipe = 1 ∧ s.now < (s.core core).free0 then s else chooseOne s core 0
      if pipe = 1 then chooseOne s core 1 else s

/-! ## A word as it issues -/

/-- What becomes of a thread after a word (R113, R128, R397). -/
inductive Fate where
  | next
  | jump (pc : Va) (prio : BitVec 8)
  /-- Precise at the word. -/
  | trap (cause : Nat) (val : W64)
  /-- Precise at the word, with the trap record of a memory-side fault met at issue. -/
  | trapRec (cause : Nat) (val trec : W64)
  /-- The word has retired (R169). -/
  | trapAfter (cause : Nat) (val : W64)
  /-- The word has not been performed for the thread, which stays at it. -/
  | stay
  /-- Enters the wait store; `here` keeps the thread at the word. -/
  | park (why : Why) (here : Bool)
  /-- Fault-wait at the word (R96, R136, R216). -/
  | absent (page : Nat) (va : W64) (akind : Nat)
  | exit
  | eret
deriving DecidableEq, Repr

/-- A word as it issues: the state with the cycle reached, group and sheet, and the threads that execute it,
in ascending lane order. -/
structure Ctx where
  s : State
  core : Nat
  pipe : Nat
  g : Group
  r : Run
  info : Info
  raw : W64
  pc : Va
  on : List Nat

/-- The operands of a thread. -/
def Ctx.rd (x : Ctx) (t : Nat) : Rd := ⟨x.g, x.r, x.s.now, t⟩

/-- The effect of a word on the threads that execute it. -/
structure Eff where
  s : State
  fates : List (Nat × Fate) := []
  enter : Option (List W32) := none
  iso : Option W64 := none
  ends : Bool := false

/-- Registers, predicate, latch and flags that a word gives one thread. -/
structure Put where
  ws : List (Nat × W32) := []
  p : Option (BitVec 3 × Bool) := none
  latch : W32 := 0
  fl : Flags := 0

/-- Writes registers that land in a cycle, and not before an earlier write of the same register (R133). -/
def Thread.putW (land : Nat) : List (Nat × W32) → Thread → Thread
  | [], t => t
  | (n, v) :: r, t => Thread.putW land r { t.setR n v with lands := alSet n (max land (alGet 0 t.lands n)) t.lands }

/-- Writes a predicate that lands in a cycle. -/
def Thread.putP (land : Nat) (p : Option (BitVec 3 × Bool)) (t : Thread) : Thread :=
  match p with
  | none => t
  | some (n, v) =>
    if n = 7 then t
    else { t.setPred n v with lands := alSet (256 + n.toNat) (max land (alGet 0 t.lands (256 + n.toNat))) t.lands }

def Thread.put (land : Nat) (x : Put) (t : Thread) : Thread := Thread.putP land x.p (Thread.putW land x.ws t)

/-- A later write of a register stands over a result still awaited (R133). -/
def Pend.cancel (t : Nat) (regs : List Nat) (p : Pend) : Pend :=
  if p.tid = t then
    { p with dsts := p.dsts.map fun d => match d with | some n => if regs.contains n then none else some n | none => none }
  else p

def Group.cancel (g : Group) (t : Nat) (regs : List Nat) : Group :=
  if regs.isEmpty then g else { g with pend := g.pend.map (Pend.cancel t regs) }

def Group.put (g : Group) (t land : Nat) (x : Put) : Group :=
  (g.modThread t (Thread.put land x)).cancel t (x.ws.map (·.1))

def putOf (l : List (Nat × Put)) (t : Nat) : Option Put := alFind l t

/-- Words whose effect is on registers, predicates, latches and flags alone. -/
def regEff (x : Ctx) (puts : List (Nat × Put)) : Eff :=
  let land := x.s.now + x.info.lat
  let g := puts.foldl (fun g (t, p) => g.put t land p) x.g
  let g := addFlags g land (puts.foldl (fun f (_, p) => f ||| p.fl) 0)
  { s := x.s.setGrp x.core g,
    enter := x.info.enters.map fun d => x.r.tids.map fun t =>
      match putOf puts t with
      | some p => p.latch
      | none => (x.g.thread t).r d }

/-- Each thread acts on its own (R141). -/
def perThread (f : Rd → Put) (x : Ctx) : Eff := regEff x (x.on.map fun t => (t, f (x.rd t)))

/-! ## Checks 1 to 4 of R113 -/

/-- The fate of a thread at checks 1 to 4 of R113. -/
def precheck (s : State) (core : Nat) (g : Group) (r : Run) (i : Info) (raw : W64) (rej : Option Rej) (t : Nat) :
    Option Fate :=
  let priv := match rej with
    | some (.operand p) => p
    | _ => i.priv
  if rej = some .opcode then some (.trap cIllegalOpcode raw)
  else if !(g.thread t).tm ∧ (priv = .always ∨ priv = .tagu ∧ !bit (s.core core).ctxperm 0) then some (.trap cPriv raw)
  else if rej ≠ none ∨ g.regs < i.top then some (.trap cIllegalOperand raw)
  else
    match i.latches.find? fun k => (latchRead r k t).isNone with
    | some k => some (.trap cLatchStale (BitVec.ofNat 64 k))
    | none => none

/-! ## Fates applied -/

/-- The fate of one thread takes effect (R125, R233, R397). -/
def Group.fate (g : Group) (tvec : W64) (pc : Va) (t : Nat) (f : Fate) : Group :=
  let th := g.thread t
  let np := nextPc pc
  let nq := fallPrio g.blocks np th.prio
  let trap (c : Nat) (v rc : W64) (p : Va) (q : BitVec 8) : Group :=
    (g.modThread t fun x => { x with ptrap := some ⟨c, v, rc, p, q⟩ }).takeTrap tvec t
  match f with
  | .next => g.modThread t fun x => { x with pc := np, prio := nq }
  | .jump p q => g.modThread t fun x => { x with pc := p, prio := q, pix := 0 }
  | .trap c v => trap c v 0 pc th.prio
  | .trapRec c v rc => trap c v rc pc th.prio
  | .trapAfter c v =>
    (g.modThread t fun x => { x with rclosed := true, ptrap := some ⟨c, v, 0, np, nq⟩ }).takeTrap tvec t
  | .stay => g
  | .park w here =>
    if here then g.park t w else (g.modThread t fun x => { x with pc := np, prio := nq }).park t w
  | .eret => g.modThread t Thread.eret
  | .absent page va ak => g.park t (.fault page pc va ak false)
  | .exit =>
    let g := g.modThread t fun x => { x with done := true, tm := false, ret := [], spilln := 0 }
    { g with pend := g.pend.filter fun p => p.tid != t }

def fateOf (fs : List (Nat × Fate)) (t : Nat) : Fate := (alFind fs t).getD .next

/-- A result of variable latency whose value is known as the word issues (R132): it is on its way to the
registers; `own` where its region waits for it (R225). -/
def Group.send (g : Group) (t : Nat) (pc : Va) (dsts : List Nat) (vs : List W32) (own : Bool) : Group :=
  let g := g.cancel t dsts
  { g with pend := g.pend ++ [⟨g.nextId, t, pc, dsts.map some, .value own, .ready vs, .word⟩], nextId := g.nextId + 1 }

/-- A page that a thread waits for at its word is served (R96, R230). -/
def serveFates (s : State) (core : Nat) (fs : List (Nat × Fate)) : State :=
  fs.foldl (fun s (_, f) =>
    match f, s.grp? core with
    | .absent page _ _, some g => startService s g.part g.ctxid page
    | _, _ => s) s

/-- A thread's region as a word issues (R222, R223); `id` is the number of the next result or entry. -/
def Thread.openRegion (cls : RegionCls) (now id : Nat) (x : Thread) : Thread :=
  match cls with
  | .marker => { x with rclosed := true }
  | .inside =>
    if x.rclosed then { x with rsPc := x.pc, rsPrio := x.prio, rclosed := false, rage := now, rsId := id, undo := none } else x
  | _ => { x with rsPc := x.pc, rsPrio := x.prio, rclosed := false, rage := now, rsId := id, undo := none }

/-- The regions of the sheet's threads as a word issues. -/
def Group.openRegion (g : Group) (cls : RegionCls) (now : Nat) (tids : List Nat) : Group :=
  g.modThreads tids fun _ => Thread.openRegion cls now g.nextId

def Thread.closeRegion (x : Thread) : Thread := { x with rclosed := true }

/-- A word that is a region of its own closes it behind itself (R222). -/
def Group.closeOwn (g : Group) (cls : RegionCls) (tids : List Nat) : Group :=
  if cls.isOwn then g.modThreads tids fun _ => Thread.closeRegion else g

/-- The pair that a sheet at a PC reaches by fall-through (R122, R125). -/
def fallPair (g : Group) (r : Run) (pc : Va) : Va × BitVec 8 :=
  (nextPc pc, fallPrio g.blocks (nextPc pc) (g.thread (r.tids.headD 0)).prio)

/-- The effect of a word is applied, and the run goes on or ends (R128). -/
def finish (x : Ctx) (bad : List (Nat × Fate)) (e : Eff) : State :=
  let fs := bad ++ e.fates
  let s := serveFates e.s x.core fs
  match s.grp? x.core with
  | none => s
  | some g =>
    let tvec := s.tvec g.part
    let g := x.r.tids.foldl (fun g t => g.fate tvec x.pc t (fateOf fs t)) (g.closeOwn x.info.cls x.r.tids)
    let s := s.setGrp x.core g
    if x.info.y || e.ends || fs.any (fun f => f.2 != .next) || e.iso.isSome then
      let s := endRun s x.core x.pipe (some (fallPair x.g x.r x.pc))
      match e.iso with
      | some a => freezeGroup s x.core a
      | none => s
    else s.setRun x.core x.pipe (some { x.r with hist := e.enter :: x.r.hist })

/-! ## Ends of a run before a word (R128) -/

/-- A fall-through has crossed a block start, and another entry goes first. -/
def blockStops (s : State) (core : Nat) (g : Group) (r : Run) (pc : Va) (prio : BitVec 8) : Bool :=
  !r.hist.isEmpty && (alFind g.blocks pc.toNat).isSome &&
  g.frontier.any fun e => pairEq pc prio e.pc e.prio ||
    (decide (prio.toNat < e.prio.toNat) && eligible s core g e)

/-- The sheet is one whole gang of the threads that stand at its pair (R127). -/
def laneStops (g : Group) (r : Run) : Bool :=
  match gangsOf r.tids with
  | [k] => !g.whole r.tids k
  | _ => true

/-- The word is not issued in this run (R128, R225). -/
def stopsBefore (s : State) (core : Nat) (g : Group) (r : Run) (i : Info) : Bool :=
  let th := g.thread (r.tids.headD 0)
  r.tids.any (fun t => !g.ready i t) || blockStops s core g r th.pc th.prio || (i.lane && laneStops g r)

/-- A run ends before a word: a closing word closes the regions of its threads (R222); the threads of a
run that has issued nothing keep their entry. -/
def stopBefore (s : State) (core pipe : Nat) (g : Group) (r : Run) (i : Info) : State :=
  let g' := if i.cls.closes then
      r.tids.foldl (fun h t => if g.complete t then h else h.modThread t fun x => { x with rclosed := true }) g
    else g
  let s := s.setGrp core g'
  if r.hist.isEmpty then s.setRun core pipe none
  else endRun s core pipe (some ((g.thread (r.tids.headD 0)).pc, (g.thread (r.tids.headD 0)).prio))

/-! ## Issue -/

/-- The cycle in which a word issues: results of fixed latency that it reads have landed (R133) (DESIGN CHOICE,
log 94). -/
def issueCycle (s : State) (core pipe : Nat) (g : Group) (r : Run) (i : Info) : Nat :=
  r.tids.foldl (fun c t =>
    (i.reads g (g.thread t)).foldl (fun c n => max c (alGet 0 (g.thread t).lands n)) c)
    (max s.now ((s.core core).freeAt pipe))

/-- The cycle in which a pipe acts next: its word issues, or it chooses; none where it has nothing to do. -/
def dueCycle (s : State) (core : Nat) (g : Group) (pipe : Nat) : Option Nat :=
  if !mayIssue s core g then none
  else
    match s.run core pipe with
    | some r => some (issueCycle s core pipe g r (peekInfo s core g (g.thread (r.tids.headD 0)).pc))
    | none => if g.frontier.any (eligible s core g) then some (max s.now ((s.core core).freeAt pipe)) else none

/-- The pipe of a core that acts next: that which is due first, of both in one cycle pipe 0 (R122, R129, R266). Where none
is due, the one named. -/
def firstPipe (s : State) (core pipe : Nat) : Nat :=
  match s.grp? core with
  | none => pipe
  | some g =>
    match dueCycle s core g 0, dueCycle s core g 1 with
    | some a, some b => if a ≤ b then 0 else 1
    | some _, none => 0
    | none, some _ => 1
    | none, none => pipe

/-- A word as it issues for a sheet (R113, R133): time has passed to its cycle, what was due has landed, the regions
are open, checks 1 to 4 and the guard are done. Beside it, the threads that fail a check. -/
def issueCtx (i : Info) (raw : W64) (rej : Option Rej) (s : State) (g : Group) (r : Run) : Ctx × List (Nat × Fate) :=
  let core := s.sel.1
  let pipe := s.sel.2
  let now := issueCycle s core pipe g r i
  let s := setFree (s.passTo now) core pipe (now + 1)
  let g := landKset (landFlags ((s.grp? core).getD g) now) now
  let pc := (g.thread (r.tids.headD 0)).pc
  let bad := r.tids.filterMap fun t => (precheck s core g r i raw rej t).map fun f => (t, f)
  let g := g.openRegion i.cls now r.tids
  let on := sortBy (· % 32) (r.tids.filter fun t => !(bad.any fun b => b.1 == t) && (g.thread t).guard i.gp)
  (⟨s.setGrp core g, core, pipe, g, r, i, raw, pc, on⟩, bad)

/-- A word issues for the running sheet whose turn it is: checks 1 to 4, the guard, its effect. -/
def issueWith (i : Info) (raw : W64) (rej : Option Rej) (body : Ctx → Eff) (s : State) : State :=
  match s.grp? s.sel.1, s.run s.sel.1 s.sel.2 with
  | some g, some r =>
    if !mayIssue s s.sel.1 g || r.tids.isEmpty then s
    else if stopsBefore s s.sel.1 g r i then stopBefore s s.sel.1 s.sel.2 g r i
    else
      let x := issueCtx i raw rej s g r
      finish x.1 x.2 (body x.1)
  | _, _ => s

/-- The word of an instruction. -/
def rawOf (i : Instr) : W64 := (encode i).getD 0

/-- An instruction word issues (R113). -/
def issue (i : Instr) (body : Ctx → Eff) (s : State) : State :=
  match infoOf i with
  | some w => issueWith w (rawOf i) none body s
  | none => s

/-- A word that is no instruction traps every thread of its sheet (R113). -/
def issueBad (raw : W64) (rej : Rej) (s : State) : State :=
  issueWith { gp := 7, y := false } raw (some rej) (fun x => { s := x.s }) s

/-- A word that could not be fetched (R96) (DEDUCED, log 51). -/
def issueUnfetched (f : Fetched) (s : State) : State :=
  issueWith { gp := 7, y := false } 0 none (fun x =>
    let va := vaOfPc x.pc
    let all (f : Nat → Fate) : Eff := { s := x.s, fates := x.on.map fun t => (t, f t) }
    let start (t : Nat) : Va := (x.g.thread t).rsPc
    match f with
    | .word _ => { s := x.s }
    | .held => all fun _ => .stay
    | .absent page =>
      let m := priFilter x.s x.g.part x.g.ctxid ⟨cPageAbsent, va, true, page, false, false⟩
      if m.servable then all fun _ => .absent page va 4
      else all fun t => .trapRec cPageAbsent va (trecOf (start t) x.pc 4 true false)
    | .bad c home pf => all fun t => .trapRec c va (if home then trecOf (start t) x.pc 4 pf false else 0)
    | .iso => { s := x.s, iso := some va }) s

/-- A pipe's turn: it chooses at a switch point, or fetches and issues the next word of its run. -/
def nextWord (s : State) (core pipe : Nat) : Option (State × Fetched) :=
  match s.grp? core, s.run core pipe with
  | some g, some r =>
    match r.tids with
    | [] => none
    | t :: _ => some (fetchAt s core g (g.thread t).pc)
  | _, _ => none

end Sys2Proof.Machine
end

