-- ==== Sys2Proof/Machine/Int.lean ====
section
/-! DEFINITION. The integer, logic, shift, bit-field, select, compare, predicate and move words, KSET, SREG,
FMTQ and the long immediates (R139-R157). -/

namespace Sys2Proof.Machine

/-- The result of a step of the model. -/
abbrev Out := Host.Outcome State Fault Refusal

/-! ## Values -/

/-- A result in w destination `d` (R99, R100, R134): two registers where it is 64 bits wide, none under NW;
the latch takes the low word. -/
def putVal (h : Hdr) (d : BitVec 8) (is64 : Bool) (v : W64) : Put :=
  { ws := if h.nw then [] else if is64 then [(d.toNat, bits v 0 32), (d.toNat + 1, bits v 32 32)]
          else [(d.toNat, bits v 0 32)],
    latch := bits v 0 32 }

/-- An exact integer as the result of a type, saturated or wrapped (R142). -/
def narrow (ty : ITy) (sat : Bool) (x : Int) : W64 :=
  BitVec.ofInt 64 (if sat then clampInt x (iLo ty) (iHi ty) else x)

/-- The width of a type. -/
def wOf (is64 : Bool) : Nat := if is64 then 64 else 32

/-- IADD, ISUB, IMUL (R142). -/
def iBinPut (f : Int → Int → Int) (o : IBin) (x : Rd) : Put :=
  putVal o.h o.d o.ty.is64 (narrow o.ty o.sat (f (x.sI o.ty o.a) (x.sI o.ty o.b)))

/-- IMULHI, IMIN, IMAX (R142). -/
def iBin0Put (f : Int → Int → Int) (o : IBin0) (x : Rd) : Put :=
  putVal o.h o.d o.ty.is64 (narrow o.ty false (f (x.sI o.ty o.a) (x.sI o.ty o.b)))

/-- The high half of a product (R142). -/
def mulHi (w : Nat) (a b : Int) : Int := (a * b) / 2 ^ w

def intMin (a b : Int) : Int := if a < b then a else b
def intMax (a b : Int) : Int := if a < b then b else a

def popCount (w a : Nat) : Nat := ((List.range w).filter a.testBit).length

/-- Zero bits above the highest one bit (R143). -/
def leadZeros (w a : Nat) : Nat := if a = 0 then w else w - (Nat.log2 a + 1)

/-- Bit i moved to bit w - 1 - i (R143). -/
def bitReverse (w a : Nat) : Nat :=
  (List.range w).foldl (fun r i => if a.testBit i then r + 2 ^ (w - 1 - i) else r) 0

/-- IUNARY (R143). -/
def iUnaryVal (op : IUnaryOp) (ty : ITy) (sat : Bool) (x : Rd) (a : Sel) : W64 :=
  let w := wOf ty.is64
  let u := x.sW ty.is64 a
  match op with
  | .abs => narrow ty sat (let i := x.sI ty a; if i < 0 then -i else i)
  | .neg => narrow ty sat (-(x.sI ty a))
  | .not => BitVec.ofNat 64 (2 ^ w - 1 - u)
  | .popc => BitVec.ofNat 64 (popCount w u)
  | .clz => BitVec.ofNat 64 (leadZeros w u)
  | .brev => BitVec.ofNat 64 (bitReverse w u)

/-- LOGIC (R144). -/
def logicVal (op : LogicOp) (a b : W64) : W64 :=
  match op with
  | .and => a &&& b
  | .or => a ||| b
  | .xor => a ^^^ b
  | .andn => a &&& ~~~b
  | .orn => a ||| ~~~b
  | .xnor => ~~~(a ^^^ b)

/-- SHIFT of a `w`-bit value by `k` (R145). -/
def shiftVal (op : ShiftOp) (w a k : Nat) : Nat :=
  match op with
  | .shl => if k < w then a * 2 ^ k % 2 ^ w else 0
  | .shr => if k < w then a / 2 ^ k else 0
  | .sar =>
    if a.testBit (w - 1) then (if k < w then a / 2 ^ k + (2 ^ w - 2 ^ (w - k)) else 2 ^ w - 1)
    else if k < w then a / 2 ^ k else 0
  | .rol => (a * 2 ^ (k % w) + a / 2 ^ (w - k % w)) % 2 ^ w
  | .ror => (a / 2 ^ (k % w) + a * 2 ^ (w - k % w)) % 2 ^ w

/-- The field that a control operand names (R146): position and length, or nothing. -/
def fieldOf (w : Nat) (c : W32) : Option (Nat × Nat) :=
  let pos := (bits c 0 8).toNat
  let len := (bits c 8 8).toNat
  if len = 0 ∨ w ≤ pos then none else some (pos, min len (w - pos))

/-- BFX (R146). -/
def bfxVal (ty : ITy) (a : Nat) (c : W32) : Int :=
  match fieldOf (wOf ty.is64) c with
  | none => 0
  | some (pos, n) =>
    let f := a / 2 ^ pos % 2 ^ n
    if ty.signed && f.testBit (n - 1) then (f : Int) - 2 ^ n else f

/-- BFI (R146). -/
def bfiVal (w a b : Nat) (c : W32) : Nat :=
  match fieldOf w c with
  | none => a
  | some (pos, n) => a % 2 ^ pos + b % 2 ^ n * 2 ^ pos + a / 2 ^ (pos + n) * 2 ^ (pos + n)

/-- One byte of PERM by its selector nibble (R147). -/
def permByte (ab : W64) (c : W32) (i : Nat) : Byte :=
  let v : Byte := bits ab (8 * (bits c (4 * i) 3).toNat) 8
  if bit c (4 * i + 3) then (if bit v 7 then 0xFF else 0) else v

def permVal (a b c : W32) : W32 :=
  permByte (b ++ a) c 3 ++ permByte (b ++ a) c 2 ++ permByte (b ++ a) c 1 ++ permByte (b ++ a) c 0

/-- ICMP (R149). -/
def icmpVal (op : ICmpOp) (a b : Int) : Bool :=
  match op with
  | .eq => a == b
  | .ne => a != b
  | .lt => decide (a < b)
  | .le => decide (a ≤ b)
  | .gt => decide (b < a)
  | .ge => decide (b ≤ a)

/-- PLOGIC (R150). -/
def plogicVal (op : PLogicOp) (a b : Bool) : Bool :=
  match op with
  | .and => a && b
  | .or => a || b
  | .xor => a != b
  | .not => !a
  | .mov => a

/-- LEA (R152). -/
def leaVal (signed : Bool) (a : W64) (e : W32) (s : Nat) : W64 :=
  a + (if signed then e.signExtend 64 else e.setWidth 64) <<< s

/-- A special register (R156). -/
def sregVal (s : State) (core : Nat) (g : Group) (t : Nat) (r : SReg) : W64 :=
  let th := g.thread t
  let n (v : Nat) : W64 := BitVec.ofNat 64 v
  match r with
  | .tid => n t
  | .gang => n (t / 32)
  | .lane => n (t % 32)
  | .cgx => n g.bind.cgx
  | .sgx => n g.bind.sgx
  | .kgx => n g.bind.kgx
  | .launch => n g.lid
  | .seg => n ((s.logCore g.part core).map (·.1) |>.getD 0)
  | .core => n ((s.logCore g.part core).map (·.2) |>.getD 0)
  | .part => n g.part
  | .clock => n (s.clock core g.clockOff)
  | .pix => th.pix.setWidth 64
  | .bargen => th.bargen.setWidth 64
  | .phasecur => g.phasecur.setWidth 64

/-! ## Meanings -/

/-- NOP (R154). -/
def execNop (h : GY) (s : State) : Out := .next (issue (.nop h) (fun x => { s := x.s }) s)

/-- IADD (R142). -/
def execIadd (o : IBin) (s : State) : Out := .next (issue (.iadd o) (perThread (iBinPut (· + ·) o)) s)

/-- ISUB (R142). -/
def execIsub (o : IBin) (s : State) : Out := .next (issue (.isub o) (perThread (iBinPut (· - ·) o)) s)

/-- IMUL (R142). -/
def execImul (o : IBin) (s : State) : Out := .next (issue (.imul o) (perThread (iBinPut (· * ·) o)) s)

/-- IMULHI (R142). -/
def execImulhi (o : IBin0) (s : State) : Out :=
  .next (issue (.imulhi o) (perThread (iBin0Put (mulHi (wOf o.ty.is64)) o)) s)

/-- IMAD (R142). -/
def execImad (o : ITern) (s : State) : Out :=
  .next (issue (.imad o) (perThread fun x => putVal o.h o.d o.ty.is64
    (narrow o.ty o.sat (x.sI o.ty o.a * x.sI o.ty o.b + x.sI o.ty o.c))) s)

/-- IMIN (R142). -/
def execImin (o : IBin0) (s : State) : Out := .next (issue (.imin o) (perThread (iBin0Put intMin o)) s)

/-- IMAX (R142). -/
def execImax (o : IBin0) (s : State) : Out := .next (issue (.imax o) (perThread (iBin0Put intMax o)) s)

/-- IUNARY (R143). -/
def execIunary (h : Hdr) (op : IUnaryOp) (d : BitVec 8) (ty : ITy) (sat : Bool) (a : Sel) (s : State) : Out :=
  .next (issue (.iunary h op d ty sat a) (perThread fun x =>
    putVal h d (ty.is64 && !op.count) (iUnaryVal op ty sat x a)) s)

/-- LOGIC (R144). -/
def execLogic (h : Hdr) (op : LogicOp) (d : BitVec 8) (ty : ITy) (a b : Sel) (s : State) : Out :=
  .next (issue (.logic h op d ty a b) (perThread fun x =>
    putVal h d ty.is64 (logicVal op (BitVec.ofNat 64 (x.sW ty.is64 a)) (BitVec.ofNat 64 (x.sW ty.is64 b)))) s)

/-- SHIFT (R145). -/
def execShift (h : Hdr) (op : ShiftOp) (d : BitVec 8) (ty : ITy) (a b : Sel) (s : State) : Out :=
  .next (issue (.shift h op d ty a b) (perThread fun x =>
    putVal h d ty.is64 (BitVec.ofNat 64 (shiftVal op (wOf ty.is64) (x.sW ty.is64 a) (x.s32 b).toNat))) s)

/-- BFX (R146). -/
def execBfx (h : Hdr) (d : BitVec 8) (ty : ITy) (a b : Sel) (s : State) : Out :=
  .next (issue (.bfx h d ty a b) (perThread fun x =>
    putVal h d ty.is64 (BitVec.ofInt 64 (bfxVal ty (x.sW ty.is64 a) (x.s32 b)))) s)

/-- BFI (R146). -/
def execBfi (h : Hdr) (d : BitVec 8) (ty : ITy) (a b c : Sel) (s : State) : Out :=
  .next (issue (.bfi h d ty a b c) (perThread fun x =>
    putVal h d ty.is64 (BitVec.ofNat 64
      (bfiVal (wOf ty.is64) (x.sW ty.is64 a) (x.sW ty.is64 b) (x.s32 c)))) s)

/-- PERM (R147). -/
def execPerm (h : Hdr) (d : BitVec 8) (a b c : Sel) (s : State) : Out :=
  .next (issue (.perm h d a b c) (perThread fun x =>
    putVal h d false ((permVal (x.s32 a) (x.s32 b) (x.s32 c)).setWidth 64)) s)

/-- SEL (R148). -/
def execSel (h : Hdr) (d : BitVec 8) (ty : ATy) (a b : Sel) (c : PSel) (s : State) : Out :=
  .next (issue (.sel h d ty a b c) (perThread fun x =>
    putVal h d ty.is64 (BitVec.ofNat 64 (if x.p c then x.sA ty a else x.sA ty b))) s)

/-- ICMP (R149). -/
def execIcmp (h : GY) (op : ICmpOp) (d : BitVec 3) (ty : ITy) (a b : Sel) (s : State) : Out :=
  .next (issue (.icmp h op d ty a b) (perThread fun x =>
    { p := some (d, icmpVal op (x.sI ty a) (x.sI ty b)) }) s)

/-- PLOGIC (R150). -/
def execPlogic (h : GY) (op : PLogicOp) (d : BitVec 3) (a b : PSel) (s : State) : Out :=
  .next (issue (.plogic h op d a b) (perThread fun x => { p := some (d, plogicVal op (x.p a) (x.p b)) }) s)

/-- LEA (R152). -/
def execLea (h : Hdr) (d : BitVec 8) (signed : Bool) (sh : BitVec 3) (a b : Sel) (s : State) : Out :=
  .next (issue (.lea h d signed sh a b) (perThread fun x =>
    putVal h d true (leaVal signed (x.s64 a) (x.s32 b) sh.toNat)) s)

/-- MOV (R151). -/
def execMov (h : Hdr) (d : BitVec 8) (w64 : Bool) (a : Sel) (s : State) : Out :=
  .next (issue (.mov h d w64 a) (perThread fun x =>
    putVal h d w64 (if w64 then x.s64 a else (x.s32 a).setWidth 64)) s)

/-- KSET (R155): the lowest lane's value, visible four cycles later; of two writes in one cycle that of
pipe 1 stands. -/
def ksetEff (d : BitVec 6) (a : Sel) (x : Ctx) : Eff :=
  match x.on with
  | [] => { s := x.s }
  | t :: _ =>
    let e := (x.s.now + 4, d.toNat, (x.rd t).s64 a)
    let now := x.g.kset.filter fun k => k.1 == x.s.now + 4
    let g := { x.g with kset := if x.pipe = 0 then (x.g.kset.filter fun k => k.1 != x.s.now + 4) ++ e :: now
                                else x.g.kset ++ [e] }
    { s := x.s.setGrp x.core g }

def execKset (h : GY) (d : BitVec 6) (a : Sel) (s : State) : Out := .next (issue (.kset h d a) (ksetEff d a) s)

/-- SREG (R156). -/
def execSreg (h : Hdr) (d : BitVec 8) (r : SReg) (s : State) : Out :=
  .next (issue (.sreg h d r) (fun x =>
    perThread (fun y => putVal h d (r == .clock) (sregVal x.s x.core x.g y.t r)) x) s)

/-- FMTQ (R157). -/
def execFmtq (h : Hdr) (d : BitVec 8) (f : BitVec 3) (s : State) : Out :=
  .next (issue (.fmtq h d f) (perThread fun x =>
    putVal h d false (let v := x.g.fslot f.toNat; if bits v 0 8 = 0 then 0 else v &&& 0xFFFFFFFF)) s)

/-- MOVI (R153). -/
def execMovi (h : Hdr) (d : BitVec 8) (imm : W32) (s : State) : Out :=
  .next (issue (.movi h d imm) (perThread fun _ => putVal h d false (imm.setWidth 64)) s)

/-- The words of R153 that read A. -/
def flPut (f : W32 → W32 → W32) (o : FLOp) (x : Rd) : Put :=
  putVal o.h o.d false ((f (x.s32 o.a) o.imm).setWidth 64)

/-- IADDI (R153). -/
def execIaddi (o : FLOp) (s : State) : Out := .next (issue (.iaddi o) (perThread (flPut (· + ·) o)) s)

/-- ANDI (R153). -/
def execAndi (o : FLOp) (s : State) : Out := .next (issue (.andi o) (perThread (flPut (· &&& ·) o)) s)

/-- ORI (R153). -/
def execOri (o : FLOp) (s : State) : Out := .next (issue (.ori o) (perThread (flPut (· ||| ·) o)) s)

/-- XORI (R153). -/
def execXori (o : FLOp) (s : State) : Out := .next (issue (.xori o) (perThread (flPut (· ^^^ ·) o)) s)

end Sys2Proof.Machine
end

