-- ==== Sys2Proof/Machine/FloatWords.lean ====
section
/-! DEFINITION. The floating-point words but QPACK (R184-R197), and pair words (R108, R158). -/

namespace Sys2Proof.Machine

/-- A 32-bit float result with its flags (R182, R183). -/
def putF (h : Hdr) (d : BitVec 8) (v : Nat) (f : Flags) : Put :=
  { putVal h d false (BitVec.ofNat 64 v) with fl := f }

/-- A result after SAT (R179). -/
def satF (t : FTy) (sat : Bool) (r : Nat × Flags) : Nat × Flags := (satBits t sat r.1, r.2)

/-- FADD and FMUL (R184). -/
def fBinPut (f : FTy → Rnd → Nat → Nat → Nat × Flags) (o : FBin) (x : Rd) : Put :=
  let r := satF o.ty o.sat (f o.ty o.rnd (x.sF o.ty o.a) (x.sF o.ty o.b))
  putF o.h o.d r.1 r.2

/-- Both halves of a packed word (R192). -/
def packed (f : Nat → Nat × Flags) : Nat × Flags :=
  let r0 := f 0
  let r1 := f 1
  (r1.1 * 2 ^ 16 + r0.1, r0.2 ||| r1.2)

/-- HADD2 and HMUL2 (R192). -/
def hBinPut (f : FTy → Rnd → Nat → Nat → Nat × Flags) (o : FBin) (x : Rd) : Put :=
  let r := packed fun h => satF o.ty o.sat (f o.ty o.rnd (x.sH o.ty h o.a) (x.sH o.ty h o.b))
  putF o.h o.d r.1 r.2

/-- CVT (R194): the result's bits and flags. -/
def cvtVal (dst src : ATy) (rnd : Rnd) (sat : Bool) (x : Rd) (a : Sel) : W64 × Flags :=
  match src, dst with
  | .int s, .int d => (narrow d (sat && s != d) (x.sI s a), 0)
  | .int s, .flt d =>
    let r := satF d sat (roundInt d rnd (x.sI s a) 0 false)
    (BitVec.ofNat 64 r.1, r.2)
  | .flt s, .int d =>
    let r := cvtToInt s d rnd (x.sF s a)
    (BitVec.ofInt 64 r.1, r.2)
  | .flt s, .flt d =>
    let r := satF d sat (cvtFloat s d rnd (x.sF s a))
    (BitVec.ofNat 64 r.1, r.2)

/-- QUNPACK (R197). -/
def qunpackVal (q4 zp0 : Bool) (a b i : W32) : Nat × Flags :=
  let q := if q4 then (bits a (4 * (bits i 0 3).toNat) 4).toNat else (bits a (8 * (bits i 0 2).toNat) 8).toNat
  let zp := if zp0 then 0 else if q4 then (bits b 16 4).toNat else (bits b 16 8).toNat
  let s := cvtFloat .f16 .f32 .rn (bits b 0 16).toNat
  let k := roundInt .f32 .rn ((q : Int) - zp) 0 false
  let r := fMul .f32 .rn s.1 k.1
  (r.1, s.2 ||| r.2)

/-! ## Halves of a pair word (R158) -/

/-- A result of an integer half. -/
def halfInt (d : BitVec 8) (v : W32) : Put := { ws := [(d.toNat, v)], latch := v }

/-- A result of a float half. -/
def halfF (d : BitVec 8) (r : Nat × Flags) : Put :=
  { halfInt d (BitVec.ofNat 32 r.1) with fl := r.2 }

/-- The effect of one half (R109, R158). -/
def halfPut (x : Rd) : Half → Put
  | .nop => {}
  | .iadd d s => halfInt d (x.s32 (.w d) + x.s32 s)
  | .isub d s => halfInt d (x.s32 (.w d) - x.s32 s)
  | .and d s => halfInt d (x.s32 (.w d) &&& x.s32 s)
  | .or d s => halfInt d (x.s32 (.w d) ||| x.s32 s)
  | .xor d s => halfInt d (x.s32 (.w d) ^^^ x.s32 s)
  | .shli d s n => halfInt d (BitVec.ofNat 32 (shiftVal .shl 32 (x.s32 s).toNat n.toNat))
  | .shri d s n => halfInt d (BitVec.ofNat 32 (shiftVal .shr 32 (x.s32 s).toNat n.toNat))
  | .sari d s n => halfInt d (BitVec.ofNat 32 (shiftVal .sar 32 (x.s32 s).toNat n.toNat))
  | .imin d s => halfInt d (BitVec.ofInt 32 (intMin (x.sI .s32 (.w d)) (x.sI .s32 s)))
  | .imax d s => halfInt d (BitVec.ofInt 32 (intMax (x.sI .s32 (.w d)) (x.sI .s32 s)))
  | .mov d s => halfInt d (x.s32 s)
  | .movi8 d i => halfInt d (i.signExtend 32)
  | .iaddi8 d s i => halfInt d (x.s32 s + i.signExtend 32)
  | .fadd d s => halfF d (fAdd .f32 .rn (x.sF .f32 (.w d)) (x.sF .f32 s))
  | .fmul d s => halfF d (fMul .f32 .rn (x.sF .f32 (.w d)) (x.sF .f32 s))
  | .fmin d s => halfF d (fMinMax .f32 .min (x.sF .f32 (.w d)) (x.sF .f32 s))
  | .fmax d s => halfF d (fMinMax .f32 .max (x.sF .f32 (.w d)) (x.sF .f32 s))
  | .hadd2 d s => halfF d (packed fun h => fAdd .f16 .rn (x.sH .f16 h (.w d)) (x.sH .f16 h s))
  | .hmul2 d s => halfF d (packed fun h => fMul .f16 .rn (x.sH .f16 h (.w d)) (x.sH .f16 h s))

/-- Both halves read before either writes; half X enters the latch (R108, R134). -/
def pairPut (x z : Half) (r : Rd) : Put :=
  let p := halfPut r x
  let q := halfPut r z
  { ws := p.ws ++ q.ws, latch := p.latch, fl := p.fl ||| q.fl }

/-! ## Meanings -/

/-- FADD (R184). -/
def execFadd (o : FBin) (s : State) : Out := .next (issue (.fadd o) (perThread (fBinPut fAdd o)) s)

/-- FMUL (R184). -/
def execFmul (o : FBin) (s : State) : Out := .next (issue (.fmul o) (perThread (fBinPut fMul o)) s)

/-- FFMA (R184). -/
def execFfma (o : FTern) (s : State) : Out :=
  .next (issue (.ffma o) (perThread fun x =>
    let r := satF o.ty o.sat (fFma o.ty o.rnd (x.sF o.ty o.a) (x.sF o.ty o.b) (x.sF o.ty o.c))
    putF o.h o.d r.1 r.2) s)

/-- FMINMAX (R185). -/
def execFminmax (h : Hdr) (op : FMinMaxOp) (d : BitVec 8) (ty : FTy) (a b : Sel) (s : State) : Out :=
  .next (issue (.fminmax h op d ty a b) (perThread fun x =>
    let r := fMinMax ty op (x.sF ty a) (x.sF ty b)
    putF h d r.1 r.2) s)

/-- FCMP (R186). -/
def execFcmp (h : GY) (op : FCmpOp) (d : BitVec 3) (ty : FTy) (a b : Sel) (s : State) : Out :=
  .next (issue (.fcmp h op d ty a b) (perThread fun x =>
    let r := fCmp ty op (x.sF ty a) (x.sF ty b)
    { p := some (d, r.1), fl := r.2 }) s)

/-- FUNARY (R187). -/
def execFunary (h : Hdr) (op : FUnaryOp) (d : BitVec 8) (ty : FTy) (rnd : Rnd) (a : Sel) (s : State) : Out :=
  .next (issue (.funary h op d ty rnd a) (perThread fun x =>
    let r := fUnary ty op rnd (x.sF ty a)
    putF h d r.1 r.2) s)

/-- FSPEC (R189, R190). -/
def execFspec (h : Hdr) (op : FSpecOp) (d : BitVec 8) (ty : FTy) (a : Sel) (s : State) : Out :=
  .next (issue (.fspec h op d ty a) (perThread fun x =>
    let r := fSpec ty op (x.sF ty a)
    putF h d r.1 r.2) s)

/-- TWOSUM (R191). -/
def execTwosum (h : Hdr) (d : BitVec 8) (a b : Sel) (s : State) : Out :=
  .next (issue (.twosum h d a b) (perThread fun x =>
    let r := twoSum (x.sF .f32 a) (x.sF .f32 b)
    { putVal h d true (BitVec.ofNat 64 (r.1.2 * 2 ^ 32 + r.1.1)) with fl := r.2 }) s)

/-- HADD2 (R192). -/
def execHadd2 (o : FBin) (s : State) : Out := .next (issue (.hadd2 o) (perThread (hBinPut fAdd o)) s)

/-- HMUL2 (R192). -/
def execHmul2 (o : FBin) (s : State) : Out := .next (issue (.hmul2 o) (perThread (hBinPut fMul o)) s)

/-- HFMA2 (R192). -/
def execHfma2 (o : FTern) (s : State) : Out :=
  .next (issue (.hfma2 o) (perThread fun x =>
    let r := packed fun h => satF o.ty o.sat
      (fFma o.ty o.rnd (x.sH o.ty h o.a) (x.sH o.ty h o.b) (x.sH o.ty h o.c))
    putF o.h o.d r.1 r.2) s)

/-- CVT (R194). -/
def execCvt (h : Hdr) (d : BitVec 8) (dst src : ATy) (rnd : Rnd) (sat : Bool) (a : Sel) (s : State) : Out :=
  .next (issue (.cvt h d dst src rnd sat a) (perThread fun x =>
    let r := cvtVal dst src rnd sat x a
    { putVal h d dst.is64 r.1 with fl := r.2 }) s)

/-- QUNPACK (R197): A and B are read as words of 32 bits, an inline integer too, sign-extended (DEDUCED, log 119). -/
def execQunpack (h : Hdr) (d : BitVec 8) (q4 zp0 : Bool) (a b c : Sel) (s : State) : Out :=
  .next (issue (.qunpack h d q4 zp0 a b c) (perThread fun x =>
    let r := qunpackVal q4 zp0 (x.s32 a) (x.s32 b) (x.s32 c)
    putF h d r.1 r.2) s)

/-- FCLASS (R188). -/
def execFclass (h : Hdr) (d : BitVec 8) (ty : FTy) (a : Sel) (s : State) : Out :=
  .next (issue (.fclass h d ty a) (perThread fun x => putF h d (fClass ty (x.sF ty a)) 0) s)

/-- A pair word (R108). -/
def execPairWord (y : Bool) (x z : Half) (s : State) : Out :=
  .next (issue (.pairWord y x z) (perThread (pairPut x z)) s)

end Sys2Proof.Machine
end

