-- ==== Sys2Proof/Machine/Lane.lean ====
section
/-! DEFINITION. The lane operations BALLOT, SHUF, REDUX, SCAN (R159-R163) and QPACK (R195, R196). -/

namespace Sys2Proof.Machine

/-- BALLOT's result over the active lanes (R160). -/
def ballotVal (op : BallotOp) (l : List (Nat × Bool)) : W32 :=
  match op with
  | .any => if l.any (·.2) then 1 else 0
  | .all => if l.all (·.2) then 1 else 0
  | .mask => l.foldl (fun m (t, b) => if b then m ||| ((1 : W32) <<< (t % 32)) else m) 0

/-- SHUF's source lane, if any (R161). -/
def shufLane (op : ShufOp) (l j : Nat) : Option Nat :=
  match op with
  | .idx => some j
  | .up => if j ≤ l then some (l - j) else none
  | .down => if l + j ≤ 31 then some (l + j) else none
  | .xor => some (Nat.xor l j)

/-- One step of REDUX or SCAN at a type (R162). -/
def reduxStep (op : ReduxOp) (ty : RTy) (rnd : Rnd) (a b : Nat) : Nat × Flags :=
  match ty with
  | .f32 =>
    match op with
    | .add => fAdd .f32 rnd a b
    | .min => fMinMax .f32 .min a b
    | .max => fMinMax .f32 .max a b
    | _ => (a, 0)
  | .int t =>
    let w := wOf t.is64
    let lt (p q : Nat) : Bool := if t.signed then decide ((BitVec.ofNat w p).toInt < (BitVec.ofNat w q).toInt) else decide (p < q)
    match op with
    | .add => ((a + b) % 2 ^ w, 0)
    | .min => (if lt b a then b else a, 0)
    | .max => (if lt a b then b else a, 0)
    | .and => (Nat.land a b, 0)
    | .or => (Nat.lor a b, 0)
    | .xor => (Nat.xor a b, 0)

/-- The combinations of a list in order: accumulators, each with the flags of its step. -/
def scanGo (f : Nat → Nat → Nat × Flags) (acc : Nat) : List Nat → List (Nat × Flags)
  | [] => []
  | a :: r =>
    let x := f acc a
    x :: scanGo f x.1 r

def scanAll (f : Nat → Nat → Nat × Flags) : List Nat → List (Nat × Flags)
  | [] => []
  | a :: r => (a, 0) :: scanGo f a r

/-- A REDUX or SCAN operand (R162). -/
def Rd.sR (x : Rd) (ty : RTy) (a : Sel) : Nat :=
  match ty with
  | .int t => x.sW t.is64 a
  | .f32 => x.sF .f32 a

def flagsOf (l : List (Nat × Flags)) : Flags := l.foldl (fun f x => f ||| x.2) 0

/-! ## QPACK (R195, R196) -/

/-- The finite value of F32 bits as a multiple of 2^-149; NaNs and infinities have none. -/
def fixed149 (v : Nat) : Option Int :=
  match unpack .f32 v with
  | .fin neg m e => some ((if neg then -1 else 1) * ((m * 2 ^ (e + 149).toNat : Nat) : Int))
  | .zero _ => some 0
  | _ => none

/-- Scale (bits) and zero point of a group (R196). `lo`, `hi` are multiples of 2^-149. -/
def qScale (qmax : Nat) (lo hi : Int) : Nat × Nat :=
  if hi = lo then (0, 0)
  else
    let s := (roundRat .f16 .rn false (hi - lo).toNat qmax (-149)).1
    let s := if s = 0 then 1 else if s = 0x7C00 then 0x7BFF else s
    -- s in multiples of 2^-149
    let f := (fixed149 (cvtFloat .f16 .f32 .rn s).1).getD 1
    (s, (clampInt (rneDiv (-lo) f.toNat) 0 qmax).toNat)

/-- One quantised element (R196). -/
def qElem (qmax s z : Nat) (v : Nat) : Nat :=
  match unpack .f32 v with
  | .inf neg => if s = 0 then z else if neg then 0 else qmax
  | .nan _ => z
  | _ =>
    if s = 0 then z
    else
      let f := (fixed149 (cvtFloat .f16 .f32 .rn s).1).getD 1
      (clampInt (rneDiv ((fixed149 v).getD 0) f.toNat + z) 0 qmax).toNat

/-- Bits packed in ascending order of elements (R175). -/
def packElems (b : Nat) : List Nat → Nat
  | [] => 0
  | q :: r => q + 2 ^ b * packElems b r

/-- The group's elements: those of the active lanes, by (lane, element) (R195). -/
def qpackPuts (h : Hdr) (d : BitVec 8) (f : W64) (lanes : List (Nat × List Nat)) : List (Nat × Put) :=
  let q4 := bits f 0 8 == 6
  let b := if q4 then 4 else 8
  let n := 2 ^ (bits f 8 8).toNat / 32
  let vs := lanes.flatMap (·.2)
  let fin := vs.filterMap fixed149
  let hi := fin.foldl max 0
  let lo := if bit f 24 then 0 else fin.foldl min 0
  let qmax := 2 ^ b - 1
  let (s, z) := qScale qmax lo hi
  let elem (k : Nat) : Nat :=
    match lanes.find? fun l => l.1 % 32 == k / n with
    | some l => qElem qmax s z (l.2.getD (k % n) 0)
    | none => z
  let packed := packElems b ((List.range (32 * n)).map elem)
  let words := n * b
  let bad := vs.any fun v => (fixed149 v).isNone
  lanes.map fun (t, _) =>
    let w := if t % 32 < words then (packed >>> (32 * (t % 32))) % 2 ^ 32 else 0
    (t, { putVal h d true (BitVec.ofNat 64 ((z * 2 ^ 16 + s) * 2 ^ 32 + w)) with fl := flagIf bad fNV })

/-- QPACK (R195, R196): the slot is checked first. -/
def qpackEff (h : Hdr) (d a : BitVec 8) (f : BitVec 3) (x : Ctx) : Eff :=
  let slot := x.g.fslot f.toNat
  let n := 2 ^ (bits slot 8 8).toNat / 32
  if (bits slot 0 8 != 5 && bits slot 0 8 != 6) || a.toNat % n != 0 || decide (x.g.regs < a.toNat + n) then
    { s := x.s, fates := x.on.map fun t => (t, .trap cIllegalOperand x.raw) }
  else
    regEff x (qpackPuts h d slot (x.on.map fun t =>
      (t, (List.range n).map fun j => ((x.g.thread t).r (a.toNat + j)).toNat)))

/-! ## Meanings -/

/-- BALLOT (R160). -/
def execBallot (h : Hdr) (op : BallotOp) (d : BitVec 8) (a : PSel) (s : State) : Out :=
  .next (issue (.ballot h op d a) (fun x =>
    let v := ballotVal op (x.on.map fun t => (t, (x.rd t).p a))
    perThread (fun _ => putVal h d false (v.setWidth 64)) x) s)

/-- SHUF (R161). -/
def execShuf (h : Hdr) (op : ShufOp) (d : BitVec 8) (ty : ATy) (a b : Sel) (s : State) : Out :=
  .next (issue (.shuf h op d ty a b) (fun x =>
    perThread (fun y =>
      let src := (shufLane op (y.t % 32) (bits (y.s32 b) 0 5).toNat).bind fun m => x.on.find? fun t => t % 32 == m
      putVal h d ty.is64 (BitVec.ofNat 64 ((x.rd (src.getD y.t)).sA ty a))) x) s)

/-- REDUX (R162). -/
def execRedux (h : Hdr) (op : ReduxOp) (d : BitVec 8) (ty : RTy) (rnd : Rnd) (a : Sel) (s : State) : Out :=
  .next (issue (.redux h op d ty rnd a) (fun x =>
    let l := scanAll (reduxStep op ty rnd) (x.on.map fun t => (x.rd t).sR ty a)
    let v := (l.getLast?.map (·.1)).getD 0
    perThread (fun _ => { putVal h d ty.is64 (BitVec.ofNat 64 v) with fl := flagsOf l }) x) s)

/-- SCAN (R163). -/
def execScan (h : Hdr) (op : ScanOp) (d : BitVec 8) (ty : RTy) (rnd : Rnd) (a : Sel) (s : State) : Out :=
  .next (issue (.scan h op d ty rnd a) (fun x =>
    let f := reduxStep (match op with | .max => .max | _ => .add) ty rnd
    let l := scanAll f (x.on.map fun t => (x.rd t).sR ty a)
    let vs := l.map (·.1)
    let vs := match op with | .exc => 0 :: vs | _ => vs
    regEff x ((x.on.zip vs).map fun (t, v) =>
      (t, { putVal h d ty.is64 (BitVec.ofNat 64 v) with fl := flagsOf l }))) s)

/-- QPACK (R195, R196). -/
def execQpack (h : Hdr) (d : BitVec 8) (a : Sel) (f : BitVec 3) (s : State) : Out :=
  .next (issue (.qpack h d a f) (fun x =>
    match a with
    | .w n => qpackEff h d n f x
    | _ => { s := x.s }) s)

end Sys2Proof.Machine
end

