-- ==== Sys2Proof/Machine/Access.lean ====
section
/-! DEFINITION. Accesses of threads as words make them: effective addresses (R198), roles (R119), a thread's
own buffered bytes (R228), reads and writes performed at once, the read-only places (R272, R307, R388). -/

namespace Sys2Proof.Machine

/-! ## Addresses and roles -/

/-- EA of an FM word (R198). -/
def memEa (m : MemAddr) (x : Rd) : W64 := x.s64 m.a + m.off.signExtend 64

/-- EA of ATOM and RED (R337). -/
def atomEa (m : AtomAddr) (x : Rd) : W64 := x.s64 m.a + m.off.signExtend 64

/-- A gang lies in a role's range of the launch record (R119). -/
def inRole (g : Group) (t g0 : Nat) : Bool :=
  let d := recDw g.lrec 3
  let first := (bits d g0 7).toNat
  let n := (bits d (g0 + 8) 7).toNat
  decide (first ≤ t / 32) && decide (t / 32 < first + n)

def isCopy (g : Group) (t : Nat) : Bool := inRole g t 0
def isMatrix (g : Group) (t : Nat) : Bool := inRole g t 16

/-! ## The thread's own buffered bytes (R228) -/

/-- The byte that an entry not yet performed holds at offset `i` of a location. -/
def RbEntry.byteAt (e : RbEntry) (l : Loc) (i : Nat) : Option Byte :=
  if e.tag.isSome || e.st == .applied then none
  else
    match e.acc.loc, l with
    | .ia y, .ia x => if y ≤ x + i ∧ x + i < y + e.acc.n then e.data[x + i - y]? else none
    | .spad c y, .spad d x => if c = d ∧ y ≤ x + i ∧ x + i < y + e.acc.n then e.data[x + i - y]? else none
    | _, _ => none

/-- For each byte of an access, what the thread's youngest entry for it holds. -/
def ownBytes (g : Group) (t : Nat) (a : Acc) : List (Option Byte) :=
  (List.range a.n).map fun i =>
    (g.rb.filter fun e => e.tid == t).foldl (fun o e => match e.byteAt a.loc i with | some b => some b | none => o) none

/-- Bytes read, with the thread's own where it has them. -/
def mergeOwn (own : List (Option Byte)) (bs : List Byte) : List Byte :=
  (own.zip bs).map fun (o, b) => o.getD b

/-! ## Collective groups, as their status needs them (R371, R387) -/

/-- A dword of a collective group. -/
def State.collDw (s : State) (p grp i : Nat) : W64 := s.reg (0x20000 + 0x800 * p + 128 * grp + 8 * i)

/-- NMEM of a valid group. -/
def collSize (s : State) (p grp : Nat) : Option Nat :=
  let h := s.collDw p grp 0
  let n := (bits h 1 4).toNat
  if bit h 0 ∧ 2 ≤ n ∧ n ≤ 15 then some n else none

/-- The rank at which a logical segment of this package stands in a group (R372). -/
def collRankOf (s : State) (p grp lseg : Nat) : Option Nat :=
  match collSize s p grp with
  | none => none
  | some n => (List.range n).find? fun r =>
      let m := s.collDw p grp (1 + r)
      bit m 0 && !bit m 1 && (bits m 2 3).toNat == lseg

/-- The fields of a COLL block (R373). -/
def collGroup (b : List W64) : Nat := (bits (recDw b 0) 20 4).toNat
def collCseq (b : List W64) : W32 := bits (recDw b 9) 32 32

/-- CPROG's value (R387). -/
def progWord (state rank minpv folds : Nat) : W64 :=
  BitVec.ofNat 64 (state % 8 + 2 ^ 8 * (rank % 16) + 2 ^ 16 * (minpv % 2 ^ 16) + 2 ^ 32 * (min folds 255))

def CollRank.minPv (r : CollRank) : Nat :=
  match r.pvA ++ r.pvB with
  | [] => 0
  | x :: l => minNat x (x :: l)

/-- STATE of a command that its queue runs (R387); one that has failed reads 7 while its completion waits. -/
def CollRank.state (r : CollRank) : Nat :=
  if r.failed.isSome then 7 else if r.agreeing && r.matched then 5 else if !r.trig then 2 else if !r.matched then 3 else 4

def CollRank.prog (r : CollRank) : W64 := progWord r.state r.rank r.minPv r.folds

/-- The ring engine of a segment starts no entry of a partition (R410) (DEDUCED, log 112). -/
def State.ringFrozen (s : State) (seg part : Nat) : Bool := s.rfrozen.any fun f => f.1 == seg && f.2.1 == part

/-- The command that a core's queue runs: one at most (R369). -/
def State.runningAt (s : State) (core : Nat) : Option CollRank := s.ranks.find? fun r => !r.remote && r.core == core

/-- A rank is of an entry of a core group. -/
def CollRank.of (r : CollRank) (g : Group) (b : List W64) : Bool :=
  r.key.part == g.part && r.lid == g.lid && r.linear == g.linear && r.blk == b

/-- The running command of a core's queue is the head of its core group's entries. -/
def State.rankAt (s : State) (core : Nat) : Option CollRank :=
  match s.grp? core, s.runningAt core with
  | some g, some r =>
    if g.rqBusy then none else (match g.rq with | .coll b :: _ => if r.of g b then some r else none | _ => none)
  | _, _ => none

/-- The command that a core's queue still runs for a core group that has left the core (R370). -/
def State.leftAt (s : State) (core : Nat) : Option CollRank :=
  if (s.rankAt core).isSome then none else s.runningAt core

/-- The state of an entry of a core's ring-engine queue that has not started (R387). -/
def queuedProg (s : State) (core : Nat) (g : Group) (b : List W64) : W64 :=
  let rank := match s.logSeg g.part (segOf core) with
    | some l => (collRankOf s g.part (collGroup b) l).getD 0
    | none => 0
  progWord 1 rank 0 0

/-- The entries of a core's queue, with their states (R387): what runs, and what waits. -/
def ringQueue (s : State) (core : Nat) (g : Group) : List (List W64 × W64) :=
  let run := match s.runningAt core with | some r => [(r.blk, r.prog)] | none => []
  let q := if (s.rankAt core).isSome then g.rq.drop 1 else g.rq
  run ++ q.filterMap fun e => match e with | .coll b => some (b, queuedProg s core g b) | .fence _ => none

/-! ## Read-only places -/

/-- QSTAT (R305): the engine is busy while an MMA or a drain is in progress (DEDUCED, log 121). -/
def Matrix.qstat (m : Matrix) : W64 :=
  BitVec.ofNat 64 (min m.q.length 16) ||| (if m.mrun || m.drun then 0x20 else 0) ||| (if m.frozen then 0x40 else 0)

/-- MPX and DPX (R306). -/
def Matrix.mpx (m : Matrix) : W64 :=
  BitVec.ofNat 64 (m.kgroup % 2 ^ 24 + 2 ^ 24 * m.done.toNat + if m.mrun then 2 ^ 40 else 0)

def Matrix.dpx (m : Matrix) : W64 := BitVec.ofNat 64 (m.drained.toNat + if m.drun then 2 ^ 16 else 0)

/-- Fields of a transfer record (R253). -/
def xLen (r : List W64) : Nat := (bits (recDw r 2) 0 30).toNat
def xSid (r : List W64) : Nat := (bits (recDw r 3) 0 3).toNat
def xDstg (r : List W64) : Bool := bit (recDw r 3) 3

/-- Bytes that a copy command moves. -/
def CopyRun.total (c : CopyRun) : Nat := c.planes * c.rows * xLen c.desc

/-- W, the modulus of a ring's counts and numbers (R265). -/
def Ring.mod (r : Ring) : Nat := r.slots * 2 ^ 24

/-- A difference of counts, modulo W. -/
def Ring.sub (r : Ring) (a b : Nat) : Nat := (a % r.mod + r.mod - b % r.mod) % r.mod

def Ring.filled (r : Ring) : Nat := r.sub r.fillc r.takec

def Ring.free (r : Ring) : Nat := r.sub (r.freec + r.slots) r.claimc

/-- A transfer has a stage slot of a ring still to claim (R267). -/
def CopyRun.wantsSlot (c : CopyRun) (sid : Nat) : Bool :=
  xDstg c.desc && xSid c.desc == sid && c.claim.isNone && c.code.isNone

/-- The transfer at work waits for a free slot: its ring has none (R267). -/
def CopyQ.stgWait (q : CopyQ) (g : Group) : Bool :=
  match q.run with
  | some c => g.rings.any fun r => c.wantsSlot (bits r.decl 24 3).toNat && r.free == 0
  | none => false

/-- A piece of the transfer at work waits for fault service (R256); its completion does not count. -/
def CopyQ.pieceWait (q : CopyQ) : Bool :=
  match q.run with
  | some c => c.faultWait.isSome && c.code.isNone && decide (c.pos < c.total)
  | none => false

/-- The two status words of a copy queue (R272). -/
def CopyQ.status (q : CopyQ) (g : Group) : W64 × W64 :=
  let ow := match q.walk with | some w => w.ownWait | none => false
  (BitVec.ofNat 64 (q.q.length % 128) ||| (if q.walk.isSome then 0x80 else 0) ||| (if ow then 0x100 else 0) |||
     (if q.stgWait g then 0x200 else 0) ||| (if q.pieceWait then 0x400 else 0) ||| (if g.cfrozen then 0x800 else 0),
   match q.walk with | some w => w.p | none => 0)

/-- A dword of the engine-status place (R272, R307, R388). -/
def engDw (s : State) (core i : Nat) : W64 :=
  match s.grp? core with
  | none => 0
  | some g =>
    if i < 8 then
      match g.cqs[i / 2]? with
      | some q => if i % 2 = 0 then (q.status g).1 else (q.status g).2
      | none => 0
    else if i = 8 then g.mx.qstat
    else if i = 9 then g.mx.mpx
    else if i = 10 then g.mx.dpx
    else if i = 11 then BitVec.ofNat 64 (g.mx.wa.toNat + 256 * g.mx.wb.toNat)
    else
      let fence := (s.runningAt core).isNone && (match g.rq with | .fence _ :: _ => true | _ => false)
      let head := if fence then none else (ringQueue s core g).head?
      if i = 12 then
        BitVec.ofNat 64 ((g.rq.length + if (s.leftAt core).isSome then 1 else 0) % 16) |||
          (if (s.runningAt core).isSome then 0x10 else 0) ||| (if s.ringFrozen (segOf core) g.part then 0x20 else 0)
      else if i = 13 then
        match head with
        | some (b, _) => BitVec.ofNat 64 ((collCseq b).toNat + 2 ^ 32 * collGroup b)
        | none => 0
      else if i = 14 then
        match head with
        | some (_, v) => v
        | none => 0
      else 0

/-- A dword of the stage-ring place (R272). -/
def ringDw (s : State) (core i : Nat) : W64 :=
  match s.grp? core with
  | none => 0
  | some g =>
    match g.ring? (i / 8) with
    | none => 0
    | some r =>
      match i % 8 with
      | 0 => BitVec.ofNat 64 (r.claimc + 2 ^ 32 * r.fillc)
      | 1 => BitVec.ofNat 64 (r.takec + 2 ^ 32 * r.freec)
      | 2 => r.decl
      | 3 => 0
      | j => bits r.ph (64 * (j - 4)) 64

/-- Bytes of a read-only place. -/
def dwBytes (f : Nat → W64) (lim off n : Nat) : List Byte :=
  (List.range n).map fun i => if off + i < lim then bits (f ((off + i) / 8)) (8 * ((off + i) % 8)) 8 else 0

/-- Bytes of a place (R90, R91) (DEDUCED, log 48). -/
def placeRead (s : State) (l : Loc) (n : Nat) : List Byte :=
  match l with
  | .spad c o => spadRead s c o n
  | .ring c o => dwBytes (ringDw s c) 0x200 o n
  | .eng c o => dwBytes (engDw s c) 0x80 o n
  | .ia _ => List.replicate n 0

/-! ## Loads -/

/-- The registers that a load of a size gives (R213). -/
def loadWords (n : Nat) (sx : Bool) (bs : List Byte) : List W32 :=
  if n < 4 then
    let v := natOfBytes bs
    if sx && v.testBit (8 * n - 1) then [BitVec.ofInt 32 ((v : Int) - 2 ^ (8 * n))] else [BitVec.ofNat 32 v]
  else wordsOfBytes bs

/-- A result whose registers are given: outstanding, in a given state (R133). -/
def addPend (g : Group) (t : Nat) (pc : Va) (dsts : List Nat) (k : PKind) (st : PSt) (use : Purpose := .word) : Group :=
  let g := g.cancel t dsts
  { g with pend := g.pend ++ [⟨g.nextId, t, pc, dsts.map some, k, st, use⟩], nextId := g.nextId + 1 }

/-- The bytes of an access in an L1 line, where all its words are valid (R203). -/
def L1Line.bytes? (l : L1Line) (ia n : Nat) : Option (List Byte) :=
  if (accMask ia n &&& ~~~l.v) == 0 then
    some (((l.data.flatMap fun w => bytesOf 4 w.toNat).drop (ia % 128)).take n)
  else none

/-- The pointer's tag matches TAGS of the granule touched; a line of no device memory has no tags (R207,
R208). -/
def L1Line.tagOk (l : L1Line) (a : Acc) (ia : Nat) : Bool :=
  !a.tagchk ||
    match l.tags[ia % 128 / 32]? with
    | some tg => tg == bits a.va 60 4
    | none => true

/-- A miss of a line is pending, or is asked for now (R206). -/
def askMiss (s : State) (core line : Nat) (rt : RT) : State :=
  if (s.core core).misses.any fun m => m.line == line then s
  else
    match s.grp? core with
    | none => s
    | some g =>
      let s := s.modCore core fun c => { c with misses := c.misses ++ [⟨g.nextId, line, rt, none, s.now⟩] }
      s.modGrp core fun g => { g with nextId := g.nextId + 1 }

/-- A load of a thread from an IA (R203, R208, R228): from the L1, by a miss, or at the home. One that follows a load of
the same bytes still on its way goes to the home after it (R201). `none` where the L1 finds another tag. -/
def loadAt (s : State) (core t : Nat) (pc : Va) (dsts : List Nat) (sx : Bool) (use : Purpose) (a : Acc) (ia : Nat) :
    Option State :=
  match s.grp? core with
  | none => some s
  | some g =>
    let own := ownBytes g t a
    let put (atHome : Bool) (st : PSt) : State := s.setGrp core (addPend g t pc dsts (.load a sx own atHome) st use)
    if a.rt = .u ∨ g.earlierLoad t g.nextId a then some (put true .sent)
    else
      match (s.core core).line? (ia / 128) with
      | none => some (askMiss (put false .sent) core (ia / 128) a.rt)
      | some l =>
        match l.bytes? ia a.n with
        | none => some (askMiss (put false .sent) core (ia / 128) a.rt)
        | some bs =>
          if l.tagOk a ia then
            some ((put false (.ready (loadWords a.n sx (mergeOwn own bs)))).modCore core fun c => c.useLine l)
          else none

/-! ## Stores -/

/-- An entry of the region buffer is placed: its one probe is sent, or a place's store is taken at once (R226). -/
def addEntry (g : Group) (t : Nat) (pc : Va) (a : Acc) (data : List Byte) (tag : Option (BitVec 4)) (slots : Nat)
    (use : Purpose := .word) : Group :=
  let st := match a.loc with | .ia _ => RbSt.probing | _ => .acked 0
  { g with rb := g.rb ++ [⟨g.nextId, t, pc, a, data, tag, slots, st, none, use, false⟩], nextId := g.nextId + 1 }

/-- Entries of the thread's region, which is not complete (R229). -/
def Group.mySlots (g : Group) (t : Nat) : Nat :=
  ((g.rb.filter fun e => e.tid == t && e.held).map (·.slots)).foldl (· + ·) 0

/-- The youngest region that holds entries, is not complete, and is younger than the thread's (R225, R229). -/
def Group.victim (g : Group) (t : Nat) : Option Nat :=
  let age (u : Nat) : List Nat := [(g.thread u).rage, u]
  let us := (dedup ((g.rb.filter (·.held)).map (·.tid))).filter fun u => decide (age t < age u) && !g.answered u
  bestBy age us

/-- A region is aborted by pressure while a word issues (R229): a thread of the sheet goes back to its
region start with the end of this run. -/
def pressAbort (x : Ctx) (u : Nat) (e : Eff) : Eff :=
  if x.r.tids.contains u then
    let s := discardRegion e.s x.core u
    { e with s := s.modGrp x.core fun g => g.toStart u, fates := (u, .stay) :: e.fates }
  else { e with s := abortRegion e.s x.core u }

/-- An effect that takes `k` entries of the region buffer, once there is room: younger regions that stand in its way are
aborted, or the thread waits (R229). -/
def withRoom (x : Ctx) (k t : Nat) : Nat → (Eff → Eff) → Eff → Eff
  | 0, _, e => { e with fates := e.fates ++ [(t, .stay)] }
  | n + 1, f, e =>
    let g := (e.s.grp? x.core).getD x.g
    if g.rbUsed + k ≤ 2048 then f e
    else
      match g.victim t with
      | some u => withRoom x k t n f (pressAbort x u e)
      | none =>
        { e with
          s := e.s.setGrp x.core (g.modThread t fun y => { y with rbwait := k }), fates := e.fates ++ [(t, .stay)] }

/-! ## Accesses performed at once -/

/-- A load performed at its home at once: the count of a WAITGE (R345). -/
def loadNow (s : State) (core t : Nat) (g : Group) (a : Acc) : State × HAns (List Byte) :=
  let own := ownBytes g t a
  match a.loc with
  | .ia ia =>
    if pendingAt s core ia a.n then (s, .held)
    else
      match loadHome s g.part (segOf core) a ia (some core) with
      | (s, .ok bs) => (dropStale s g.part core ia a.n, .ok (mergeOwn own bs))
      | r => r
  | l => (s, .ok (mergeOwn own (placeRead s l a.n)))

/-- A W-type load of a block, performed as its word issues: from the L1 where it holds the words; else it waits for a miss
of their line, or asks the home for words that no fill makes valid (R203, R208, R261). -/
def blockNow (s : State) (core t : Nat) (g : Group) (a : Acc) : State × HAns (List Byte) :=
  match a.loc with
  | .ia ia =>
    match (s.core core).line? (ia / 128) with
    | some l =>
      match l.bytes? ia a.n with
      | some bs =>
        if l.tagOk a ia then (s.modCore core fun c => c.useLine l, .ok (mergeOwn (ownBytes g t a) bs))
        else (s, .fault cTagMismatch false false)
      | none => blockMiss ia
    | none => blockMiss ia
  | _ => loadNow s core t g a
where
  /-- A miss, where its fill will bring every word of the block. -/
  blockMiss (ia : Nat) : State × HAns (List Byte) :=
    let seg := segOf core
    match askHome s g.part seg a ia .load, target s g.part seg a.pasid (ia / 128 * 128) with
    | .ok _, .ok t0 =>
      if t0.cacheable && (accMask ia a.n &&& ~~~fillMask s t0 (readAddr s g.part seg t0 (ia / 128 * 128) 128 (some core))) == 0 then
        (askMiss s core (ia / 128) .w, .held)
      else loadNow s core t g a
    | _, _ => loadNow s core t g a

/-- The fate of a thread whose access, made at once, meets an answer other than success (R96, R136, R230,
R232): nothing of the word has taken effect. -/
def homeFate (s : State) (g : Group) (a : Acc) (cause : Nat) (servable prifail : Bool) (akind : Nat) : Fate :=
  let f := priFilter s g.part g.ctxid (mfault a cause servable prifail)
  if f.servable then .absent f.page a.va akind
  else .trapRec f.cause a.va (trecOf 0 0 akind f.prifail false)

end Sys2Proof.Machine
end

