-- ==== Sys2Proof/Machine/Join.lean ====
section
/-! DEFINITION. What joins threads: releases and acquires (R204, R334, R349), barriers (R340) and phases
(R343), and the exit of threads from them. -/

namespace Sys2Proof.Machine

/-! ## Releases and acquires -/

/-- A word of the core's L1 is pending: a store that has updated it, so that other threads of the core group read it, is
not performed yet (R349). -/
def hasPending (s : State) (core : Nat) : Bool :=
  match s.grp? core with
  | none => false
  | some g => g.rb.any fun e => e.drains && e.early

/-- Dirty owned words of one line are written to their home (R203). -/
def flushLine (s : State) (p core : Nat) (l : L1Line) : State :=
  if l.dty = 0 then s
  else
    match lineAddr s p l.line with
    | some base => writeBackWords s p core l.line base l.dty
    | none => s

/-- Every dirty owned word of the core's L1 is written to its home (R334). -/
def flushOwned (s : State) (p core : Nat) : State := (s.core core).l1.foldl (fun s l => flushLine s p core l) s

/-- Every invalidation that the core's writes caused has been acknowledged (R332). -/
def acked (s : State) (core : Nat) : Bool := s.invs.all fun i => i.src != core

/-- Every store of the core to memory of KIND 1 to 3 has been performed there (R332). -/
def hostDone (s : State) (core : Nat) : Bool := s.posted.all fun x => x.writer != core

/-- A release (R334): write-back, then whether it has been performed. One of SYS scope waits besides for the stores to
memory of KIND 1 to 3: the host home agent has returned global observation, the host port the read behind them, the peer
its acknowledgement (R332, R348, R362). -/
def release (s : State) (p core : Nat) (sys : Bool) : State × Bool :=
  if hasPending s core then (s, false)
  else
    let s := flushOwned s p core
    (s, acked s core && (!sys || hostDone s core))

/-- The later stores of a thread may go: no FENCE.AR holds them, or its earlier stores have been performed and the
release of the core's words with them (R334, R353) (DESIGN CHOICE, log 110). -/
def arDone (s : State) (core tid : Nat) : State × Bool :=
  match s.grp? core with
  | none => (s, true)
  | some g =>
    match (g.thread tid).arHold with
    | none => (s, true)
    | some sys =>
      if g.rb.any fun e => e.tid == tid && !e.held && (sys || !e.gone) then (s, false)
      else
        match release s g.part core sys with
        | (s, true) => (s.modGrp core fun g => g.modThread tid fun y => { y with arHold := none }, true)
        | r => r

/-- The stores of a thread's complete region drain, once no FENCE.AR holds them (R227, R334). -/
def drainHeld (s : State) (core tid : Nat) : State :=
  match arDone s core tid with
  | (s, true) => drainRegion s core tid
  | (s, false) => s

/-- The core's L1 holds an SI line of memory of KIND 1 or 3, or awaits one. -/
def hasHostSi (s : State) (core : Nat) : Bool :=
  match s.grp? core with
  | none => false
  | some g =>
    let host (line : Nat) : Bool := match hme s g.part (line * 128) with | some h => h.kind != 0 | none => false
    ((s.core core).l1.any fun l => l.si && host l.line) || (s.core core).fills.any fun f => f.si && host f.line

/-- An acquire drops every SI line, but for pending and owned words, and SI fills on their way (R204, R349). Below SYS
scope, lines of memory of KIND 1 and 3 may stay: a free value says so (R348, R362) (DESIGN CHOICE, log 1). -/
def acquire (s : State) (core : Nat) (sys : Bool) : State :=
  if sys || !hasHostSi s core then dropSi s core true
  else
    let (f, s') := s.draw
    dropSi s' core (bit f 0)

/-! ## Core groups of a launch -/

/-- Every core group of a launch that has not retired: on cores, in shadow pools, in memory. -/
def groupsOf (s : State) (p lid : Nat) : List Group :=
  ((s.cores.flatMap fun (_, c) => c.grp.toList ++ c.shadow.toList) ++ (s.part p).csa).filter fun g =>
    g.part == p && g.lid == lid && g.st != .retired

/-- The group of a level that a core group lies in (R38, R340). -/
def levelIdx (lv : Level) (g : Group) : Nat :=
  match lv with
  | .core => g.linear
  | .slice => g.linear / recCgPerSg g.lrec
  | .stack => g.linear / (recCgPerSg g.lrec * recSgPerKg g.lrec)
  | .ring => g.bind.rgx

def levelNum : Level → Nat
  | .core => 0 | .slice => 1 | .stack => 2 | .ring => 3

/-! ## Barriers -/

def Bar.same (b : Bar) (p lid : Nat) (lv : Level) (grp n : Nat) : Bool :=
  b.part == p && b.lid == lid && b.lv == lv && b.grp == grp && b.n == n

/-- A barrier as it stands (R340). -/
def State.bar (s : State) (p lid : Nat) (lv : Level) (grp n : Nat) : Bar :=
  (s.bars.find? fun b => b.same p lid lv grp n).getD ⟨p, lid, lv, grp, n, 0, []⟩

def State.setBar (s : State) (b : Bar) : State :=
  { s with bars := (s.bars.filter fun x => !x.same b.part b.lid b.lv b.grp b.n) ++ [b] }

/-- The participants of a barrier, as (L, TID) (R340). -/
def participants (s : State) (b : Bar) : List (Nat × Nat) :=
  ((groupsOf s b.part b.lid).filter fun g => levelIdx b.lv g == b.grp).flatMap fun g =>
    g.live.map fun t => (g.linear, t)

/-- A generation completes when every participant has arrived (R340). -/
def settleBar (s : State) (b : Bar) : State :=
  let ps := participants s b
  if !ps.isEmpty && ps.all (b.arrived.contains ·) then s.setBar { b with gen := b.gen + 1, arrived := [] } else s

/-- Barriers of a launch that exits have completed (R340). -/
def settleBars (s : State) (p lid : Nat) : State :=
  (s.bars.filter fun b => b.part == p && b.lid == lid).foldl settleBar s

/-- A generation has not been reached (R341). -/
def genFuture (gen g : W32) : Bool := decide (1 ≤ (g - gen).toNat) && decide ((g - gen).toNat < 2 ^ 31)

/-! ## Phases (R343, R344) -/

/-- The key of a published counter. -/
def phaseKey (p lid lseg : Nat) : Nat := (p * 65536 + lid) * 8 + lseg

/-- The counter of a logical segment for a launch, as published (R343). -/
def State.phaseOf (s : State) (p lid lseg : Nat) : W32 := alGet 0 s.phases (phaseKey p lid lseg)

/-- The counters of a launch are published: on each segment the minimum PHASECUR of the core groups that
have not retired, a saved one with its own; a counter never falls (R343). -/
def publish (s : State) (p lid : Nat) : State :=
  (List.range 8).foldl (fun s l =>
    let v := match ((groupsOf s p lid).filter fun g => g.lseg == l).map fun g => g.phasecur.toNat with
      | [] => 0xFFFFFFFF
      | x :: r => minNat x (x :: r)
    let old := (s.phaseOf p lid l).toNat
    { s with phases := alSet (phaseKey p lid l) (BitVec.ofNat 32 (max old v)) s.phases }) s

/-- PHASECUR rises while every live thread's phase is above it (R343). -/
def closePhases : Nat → Group → Group
  | 0, g => g
  | n + 1, g =>
    if !g.live.isEmpty && g.live.all (fun t => decide (g.phasecur.toNat < (g.thread t).phase.toNat)) then
      closePhases n { g with phasecur := g.phasecur + 1 }
    else g

/-- The phases of a core group after an ADV or an exit. -/
def settlePhases (s : State) (core : Nat) : State :=
  match s.grp? core with
  | none => s
  | some g =>
    let g' := closePhases 2 g
    if g'.phasecur = g.phasecur then s else publish (s.setGrp core g') g.part g.lid

/-- What the exit of threads settles (R168, R340, R343). -/
def afterExit (s : State) (core : Nat) : State :=
  match s.grp? core with
  | none => s
  | some g => settlePhases (settleBars s g.part g.lid) core

end Sys2Proof.Machine
end

