-- ==== Sys2Proof/Machine/Control.lean ====
section
/-! DEFINITION. The control words (R164-R172), the return stack (R135-R138), and the privileged words CSRR,
CSRW and ERET (R399-R402). -/

namespace Sys2Proof.Machine

/-! ## Branches -/

/-- The target of BRA and CALL: the PC, and whether it lies in range (R96, R165). -/
def targetOf (pc : Va) (t : Target) : Int := (pc.toNat : Int) + 8 * t.off.toInt

def targetOk (x : Int) : Bool := decide (0 ≤ x) && decide (x ≤ 2 ^ 56 - 8)

/-- A function pointer as a pair (R31, R166). -/
def jumpTo (p : W64) : Fate := .jump (pcOf p) (bits p 56 8)

/-- The fate of a taken BRA (R165). -/
def braFate (pc : Va) (t : Target) : Fate :=
  let x := targetOf pc t
  if targetOk x then .jump (BitVec.ofInt 57 x) t.prio else .trap cWindow (BitVec.ofInt 64 x)

/-! ## The return stack -/

/-- The address of a spill slot (R136). -/
def spillSlot (g : Group) (t n : Nat) : W64 :=
  recDw g.lrec 7 + BitVec.ofNat 64 ((g.linear * g.nThreads + t) * recSpillStride g.lrec + 16 * n)

/-- The return entry of a call (R135, R136). -/
def retEntry (g : Group) (pc : Va) (prio : BitVec 8) : W64 := tpcOf (nextPc pc) (fallPrio g.blocks (nextPc pc) prio)

/-- The access of a spill or refill: through a window, never a place (R136, R137). -/
def spillAcc (s : State) (core : Nat) (g : Group) (r : Right) (va : W64) : Except Bad Acc :=
  if isPlace va then .error (cWindow, va) else locate s core g r va 16 16 .w

/-- The two entries of a spill, of 8 bytes each (R136, R200). -/
def spillEntries (g : Group) (t : Nat) (pc : Va) (a : Acc) (entry : W64) : Group :=
  let lo : Acc := { a with n := 8 }
  let hi : Acc := { a with va := a.va + 8, n := 8, loc := match a.loc with | .ia x => .ia (x + 8) | l => l }
  addEntry (addEntry g t pc lo (bytesOf 8 entry.toNat) none 1 .spill) t pc hi (bytesOf 8 0) none 1 .spill

/-- A call of one thread to a pair: the push, with the spill of the oldest entry, which is a store of its own region. The
stack before the call stands until the spill is acknowledged (R135, R136). -/
def callThread (x : Ctx) (dest : Fate) (e : Eff) (t : Nat) : Eff :=
  if (alFind e.fates t).isSome then e
  else
    let g := (e.s.grp? x.core).getD x.g
    let th := g.thread t
    let entry := retEntry g x.pc th.prio
    let stop (f : Fate) (e : Eff) : Eff := { e with fates := e.fates ++ [(t, f)] }
    match th.ret.drop 3 with
    | [] =>
      stop dest { e with s := e.s.modGrp x.core fun g => g.modThread t fun y => { y with ret := entry :: y.ret } }
    | old :: _ =>
      let slot := spillSlot g t th.spilln
      if recSpillStride g.lrec / 16 ≤ th.spilln then stop (.trap cCallSpill slot) e
      else
        match spillAcc e.s x.core g .wr slot with
        | .error (c, v) => stop (.trap c v) e
        | .ok a =>
          let push (e : Eff) : Eff :=
            stop dest { e with s := e.s.modGrp x.core fun g =>
              (spillEntries g t x.pc a old).modThread t fun y =>
                { y with ret := entry :: y.ret.take 3, spilln := y.spilln + 1, undo := some (y.ret, y.spilln) } }
          withRoom x 2 t 2048 push e

/-- A return of one thread: the pop, with the refill of the oldest entry, which is a load of its own region. The stack
before the return stands until the refill is answered (R135, R137). -/
def retThread (x : Ctx) (e : Eff) (t : Nat) : Eff :=
  if (alFind e.fates t).isSome then e
  else
    let g := (e.s.grp? x.core).getD x.g
    let th := g.thread t
    let stop (f : Fate) (e : Eff) : Eff := { e with fates := e.fates ++ [(t, f)] }
    match th.ret with
    | [] => stop (.trap cCallSpill 0) e
    | top :: rest =>
      if th.spilln = 0 then
        stop (jumpTo top) { e with s := e.s.modGrp x.core fun g => g.modThread t fun y => { y with ret := rest } }
      else
        let slot := spillSlot g t (th.spilln - 1)
        match spillAcc e.s x.core g .rd slot with
        | .error (c, v) => stop (.trap c v) e
        | .ok a =>
          match loadAt e.s x.core t x.pc [] false .spill { a with n := 8 } a.ia with
          | none => stop (.trap cTagMismatch a.va) e
          | some s =>
            stop (jumpTo top) { e with s := s.modGrp x.core fun g => g.modThread t fun y =>
              { y with ret := rest, undo := some (y.ret, y.spilln) } }

/-! ## Meanings of control words -/

/-- BRA (R165). -/
def execBra (h : GY) (t : Target) (close : Bool) (s : State) : Out :=
  .next (issue (.bra h t close) (fun x => { s := x.s, fates := x.on.map fun u => (u, braFate x.pc t) }) s)

/-- BRX (R166). -/
def execBrx (h : GY) (aux : BitVec 8) (s : State) : Out :=
  .next (issue (.brx h aux) (fun x =>
    { s := x.s, fates := x.on.map fun u => (u, jumpTo ((x.g.thread u).r64 aux.toNat)) }) s)

/-- CALL (R136, R165). -/
def execCall (h : GY) (t : Target) (s : State) : Out :=
  .next (issue (.call h t) (fun x =>
    match braFate x.pc t with
    | .trap c v => { s := x.s, fates := x.on.map fun u => (u, .trap c v) }
    | f => x.on.foldl (callThread x f) { s := x.s }) s)

/-- CALLX (R136, R166). -/
def execCallx (h : GY) (aux : BitVec 8) (s : State) : Out :=
  .next (issue (.callx h aux) (fun x =>
    x.on.foldl (fun e t => callThread x (jumpTo ((x.g.thread t).r64 aux.toNat)) e t) { s := x.s }) s)

/-- RET (R137, R167). -/
def execRet (h : GY) (s : State) : Out :=
  .next (issue (.ret h) (fun x => x.on.foldl (retThread x) { s := x.s }) s)

/-- EXIT (R168). -/
def execExit (h : GY) (s : State) : Out :=
  .next (afterExit (issue (.exit h) (fun x => { s := x.s, fates := x.on.map fun t => (t, .exit) }) s) s.sel.1)

/-- YIELD ends its run, whatever its guard (R169). -/
def execYield (h : GY) (s : State) : Out :=
  .next (issue (.yield h) (fun x => { s := x.s, ends := true }) s)

/-- TRAP (R169) (DEDUCED, log 41). -/
def execTrap (h : GY) (aux : BitVec 8) (s : State) : Out :=
  .next (issue (.trap h aux) (fun x =>
    { s := x.s,
      fates := x.on.map fun t => (t, .trapAfter cSoftware (((x.g.thread t).r aux.toNat).setWidth 64)) }) s)

/-- BRK (R169). -/
def execBrk (h : GY) (aux : BitVec 8) (s : State) : Out :=
  .next (issue (.brk h aux) (fun x =>
    { s := x.s,
      fates := x.on.map fun t => (t, .trapAfter cBreak (((x.g.thread t).r aux.toNat).setWidth 64)) }) s)

/-- REGION (R170). -/
def execRegion (y : Bool) (s : State) : Out := .next (issue (.region y) (fun x => { s := x.s }) s)

/-! ## The no-pre-emption window (R171) -/

/-- NOPRE.OPEN (R171): the window, and the cycles left; 0 while a request waits (R172's example) (DEDUCED, log
49) (DEDUCED, log 52). -/
def nopreOpenEff (aux : BitVec 8) (x : Ctx) : Eff :=
  match x.on with
  | [] => { s := x.s }
  | _ =>
    let clock := x.s.clock x.core x.g.clockOff
    let waits := (x.s.core x.core).preq || (x.s.core x.core).testDue
    let nopre := if x.g.nopreOpen clock then x.g.nopre else if waits then none else some (clock + 65536)
    let left := match waits, nopre with | false, some d => BitVec.ofNat 32 (d - clock) | _, _ => 0
    let g := x.on.foldl (fun g t => g.send t x.pc [aux.toNat] [left] false) { x.g with nopre := nopre }
    { s := x.s.setGrp x.core g }

def execNopreOpen (h : GY) (aux : BitVec 8) (s : State) : Out :=
  .next (issue (.nopreOpen h aux) (nopreOpenEff aux) s)

/-- NOPRE.SHUT (R171). -/
def execNopreShut (h : GY) (s : State) : Out :=
  .next (issue (.nopreShut h) (fun x =>
    { s := if x.on.isEmpty then x.s else x.s.setGrp x.core { x.g with nopre := none } }) s)

/-! ## Trap-mode words -/

/-- ERET (R402): the run ends where a thread executes it; with a false guard for every thread it does as its Y bit says
(R113) (DEDUCED, log 111). -/
def execEret (h : GY) (s : State) : Out :=
  .next (issue (.eret h) (fun x => { s := x.s, fates := x.on.map fun t => (t, .eret) }) s)

/-- The value of a CSR (R399). -/
def csrVal (s : State) (core : Nat) (g : Group) (t : Nat) (c : Csr) : W64 :=
  let th := g.thread t
  match c with
  | .tvec => s.tvec g.part
  | .tcause => th.tcause
  | .tpc => th.tpc
  | .tval => th.tval
  | .trec => th.trec
  | .tstate => th.tstate
  | .fpx => g.fpx.setWidth 64
  | .win n d => (s.core core).wins.getD (2 * n.toNat + d.toNat) 0
  | .ctxperm => (s.core core).ctxperm
  | .ringshare => (s.part g.part).ringshare

/-- CSRR (R401). -/
def execCsrr (h : Hdr) (d : BitVec 8) (c : Csr) (s : State) : Out :=
  .next (issue (.csrr h d c) (fun x =>
    if h.nw then { s := x.s }
    else
      { s := x.s.setGrp x.core (x.on.foldl (fun g t =>
          g.send t x.pc [d.toNat, d.toNat + 1] (words64 (csrVal x.s x.core x.g t c)) false) x.g) }) s)

/-- A write of a thread's trap register, with its res0 fields kept zero (R400, R401). -/
def Thread.csrw (t : Thread) (c : Csr) (v : W64) : Thread :=
  match c with
  | .tcause => { t with tcause := v &&& 0xFF }
  | .tpc => { t with tpc := v &&& ~~~7, tstate := t.tstate &&& 0xFFFFFFFF }
  | .tval => { t with tval := v }
  | .tstate => { t with tstate := v &&& 0x1FFFFFFFF }
  | _ => t

/-- A write of RINGSHARE: of one cycle's writes that of pipe 1 stands (R401). -/
def ringshareWrite (x : Ctx) (v : W64) : State :=
  let c := x.s.core x.core
  if x.pipe = 0 ∧ c.rsAt = x.s.now + 1 then x.s
  else
    let s := if x.pipe = 1 then x.s.setCore x.core { c with rsAt := x.s.now + 1 } else x.s
    s.modPart x.g.part fun p => { p with ringshare := v &&& 0xFFFFFFFF }

/-- CSRW (R401). -/
def csrwEff (c : Csr) (a : Sel) (x : Ctx) : Eff :=
  if !c.writable then { s := x.s, fates := x.on.map fun t => (t, .trap cPriv x.raw) }
  else
    match c with
    | .fpx => { s := x.s.setGrp x.core (x.on.foldl (fun g t => clearFpx g x.s.now ((x.rd t).s64 a)) x.g) }
    | .ringshare =>
      match x.on.getLast? with
      | some t => { s := ringshareWrite x ((x.rd t).s64 a) }
      | none => { s := x.s }
    | _ => { s := x.s.setGrp x.core (x.on.foldl (fun g t => g.modThread t fun y => y.csrw c ((x.rd t).s64 a)) x.g) }

def execCsrw (h : GY) (c : Csr) (a : Sel) (s : State) : Out := .next (issue (.csrw h c a) (csrwEff c a) s)

end Sys2Proof.Machine
end

