-- ==== Sys2Proof/Machine/Memory.lean ====
section
/-! DEFINITION. The memory words LD, ST, PREF, PGINFO, TAGSET (R212-R214, R218-R220), ATOM and RED (R336,
R337), and APPEND, SEAL, TAILQ (R313-R318). -/

namespace Sys2Proof.Machine

/-- A thread's fate joins an effect. -/
def Eff.fate (e : Eff) (t : Nat) (f : Fate) : Eff := { e with fates := e.fates ++ [(t, f)] }

/-- Checks 1 to 3 of R198 failed: a trap at the word, or an isolation violation (R91, R410). -/
def Eff.badAcc (e : Eff) (t : Nat) (b : Bad) : Eff :=
  if b.1 = cIsolation then { e with iso := some b.2 } else e.fate t (.trap b.1 b.2)

/-- The core group as an effect has it. -/
def Eff.grp (x : Ctx) (e : Eff) : Group := (e.s.grp? x.core).getD x.g

def Eff.setGrp (x : Ctx) (e : Eff) (g : Group) : Eff := { e with s := e.s.setGrp x.core g }

/-! ## Loads -/

/-- A load of one thread from device or host memory (R203, R208, R228). -/
def ldMem (x : Ctx) (dsts : List Nat) (sx : Bool) (a : Acc) (ia t : Nat) (e : Eff) : Eff :=
  match loadAt e.s x.core t x.pc dsts sx .word a ia with
  | some s => { e with s := s }
  | none => e.fate t (.trap cTagMismatch a.va)

/-- An access of 16 bytes is made as two of 8 bytes (R200). -/
def Acc.halves (a : Acc) (ia : Nat) : List (Acc × Nat) :=
  if a.n = 16 then [({ a with n := 8 }, ia), ({ a with va := a.va + 8, loc := .ia (ia + 8), n := 8 }, ia + 8)]
  else [(a, ia)]

/-- A load of one thread, its halves each on their own (R200). -/
def ldHalves (x : Ctx) (dsts : List Nat) (sx : Bool) (a : Acc) (ia t : Nat) (e : Eff) : Eff :=
  ((a.halves ia).zipIdx).foldl (fun e ((b, i), k) =>
    if (alFind e.fates t).isSome then e
    else ldMem x (if a.n = 16 then (dsts.drop (2 * k)).take 2 else dsts) sx b i t e) e

/-- The largest number of distinct words that fall in one bank (R210). -/
def bankTurns (ws : List Nat) : Nat :=
  let ws := dedup ws
  (List.range 32).foldl (fun m b => max m ((ws.filter fun w => w % 32 == b).length)) 0

/-- The words of the own scratchpad that a sheet's access touches. -/
def spadWords (core : Nat) (as : List Acc) : List Nat :=
  as.flatMap fun a =>
    match a.loc with
    | .spad c o => if c = core then (List.range ((a.n + 3) / 4)).map (o / 4 + ·) else []
    | _ => []

/-- A load of one thread whose access has passed checks 1 to 3 (R211, R213). -/
def ldAcc (x : Ctx) (lat : Nat) (dsts : List Nat) (sx : Bool) (a : Acc) (t : Nat) (e : Eff) : Eff :=
  let g := e.grp x
  let vs := loadWords a.n sx (mergeOwn (ownBytes g t a) (placeRead e.s a.loc a.n))
  match a.loc with
  | .ia ia => ldHalves x dsts sx a ia t e
  | .spad c _ =>
    if c = x.core then e.setGrp x (g.put t (x.s.now + lat) { ws := dsts.zip vs })
    else e.setGrp x (addPend g t x.pc dsts (.load a sx [] true) (.ready vs))
  | _ => e.setGrp x (addPend g t x.pc dsts (.load a sx [] true) (.ready vs))

/-- LD (R213). -/
def ldEff (h : Hdr) (d : BitVec 8) (m : MemAddr) (sz : Sz) (sx : Bool) (rt : RT) (x : Ctx) : Eff :=
  let accs := x.on.map fun t => (t, locate x.s x.core x.g .rd (memEa m (x.rd t)) sz.bytes sz.bytes rt)
  let c := bankTurns (spadWords x.core (accs.filterMap fun (_, a) => a.toOption))
  let dsts := if h.nw then [] else regsFrom d.toNat sz.regs
  accs.foldl (fun e (t, a) =>
    match a with
    | .error b => e.badAcc t b
    | .ok a => ldAcc x (14 + 4 * (c - 1)) dsts sx a t e) { s := x.s }

def execLd (h : Hdr) (d : BitVec 8) (m : MemAddr) (sz : Sz) (sx : Bool) (rt : RT) (s : State) : Out :=
  .next (issue (.ld h d m sz sx rt) (ldEff h d m sz sx rt) s)

/-! ## Stores and the region buffer -/

/-- The place of a store in the region buffer, with one probe: two entries for 16 bytes, which drain as two of 8 bytes
each (R200, R226, R310). -/
def storeEntries (g : Group) (t : Nat) (pc : Va) (a : Acc) (data : List Byte) : Group :=
  addEntry g t pc a data none (if a.n = 16 then 2 else 1)

/-- A store of one thread, which takes `k` entries (R214, R226, R229). -/
def storeThread (x : Ctx) (a : Except Bad Acc) (place : Acc → Group → Group) (k t : Nat) (e : Eff) : Eff :=
  if (alFind e.fates t).isSome then e
  else
    match a with
    | .error b => e.badAcc t b
    | .ok a =>
      if 2048 - k < (e.grp x).mySlots t then e.fate t (.trap cIllegalOperand x.raw)
      else withRoom x k t 2048 (fun e => e.setGrp x (place a (e.grp x))) e

/-- The bytes of a data operand (R214). -/
def dataBytes (x : Rd) (sz : Sz) (b : Sel) : List Byte :=
  match sz with
  | .b64 => bytesOf 8 (x.s64 b).toNat
  | .b128 =>
    match b with
    | .w n => ((List.range 4).map fun i => x.th.r (n.toNat + i)).flatMap fun w => bytesOf 4 w.toNat
    | _ => []
  | _ => bytesOf sz.bytes (x.s32 b).toNat

/-- ST (R214). -/
def execSt (h : GY) (m : MemAddr) (b : Sel) (sz : Sz) (rt : RT) (s : State) : Out :=
  .next (issue (.st h m b sz rt) (fun x =>
    x.on.foldl (fun e t =>
      storeThread x (locate x.s x.core x.g .wr (memEa m (x.rd t)) sz.bytes sz.bytes rt)
        (fun a g => storeEntries g t x.pc a (dataBytes (x.rd t) sz b)) (if sz == .b128 then 2 else 1) t e)
      { s := x.s }) s)

/-- The access of a TAGSET: no tag check; a place that exists is refused (R90, R220). -/
def tagsetAcc (s : State) (core : Nat) (g : Group) (ea : W64) (ext : Nat) : Except Bad Acc :=
  match locate s core g .wr ea ext ext .u with
  | .error b => .error b
  | .ok a =>
    match a.loc with
    | .ia _ => .ok { a with tagchk := false }
    | _ => .error (cPageDenied, ea)

/-- TAGSET (R220): its extent, and its tag (DEDUCED, log 46). -/
def execTagset (h : GY) (m : MemAddr) (b : Sel) (sz : Sz) (s : State) : Out :=
  .next (issue (.tagset h m b sz) (fun x =>
    x.on.foldl (fun e t =>
      let ea := memEa m (x.rd t)
      let ext := 32 * sz.bytes
      storeThread x (tagsetAcc x.s x.core x.g ea ext)
        (fun a g => addEntry g t x.pc a [] (some (bits ((x.rd t).s32 b) 0 4)) 2) 2 t e) { s := x.s }) s)

/-! ## PREF and PGINFO -/

/-- A line of a sealed page fills its home slice (R218, R320); of other lines the home slice keeps nothing that a program
could tell from memory (log 33). -/
def prefHome (s : State) (core p ia : Nat) (t : Tgt) : State :=
  let s := noteWalk s p (winPasid (s.core core).wins) ia
  match t.cls == 2, hme s p ia with
  | true, some h => keepL2 s p (fillOf s core p ⟨0, ia / 128, .u, none, s.now⟩ t) (homeSlice s p h ia)
  | _, _ => s

/-- The L1 has every word of a line that a fill would make valid. -/
def lineWhole (s : State) (core p ia : Nat) (t : Tgt) : Bool :=
  let m := fillMask s t (readAddr s p (segOf core) t ia 128 (some core))
  match (s.core core).line? (ia / 128) with
  | some l => (m &&& ~~~l.v) == 0
  | none => false

/-- One line of a PREF (R218): a failure drops it. A line whose first word lies below the tail of its page is asked for. -/
def prefLine (x : Ctx) (rt : RT) (va : W64) (e : Eff) : Eff :=
  if isPlace va then e
  else
    match locate x.s x.core x.g .rd va 4 1 rt with
    | .error _ => e
    | .ok a =>
      match a.loc with
      | .ia ia =>
        match askHome e.s x.g.part (segOf x.core) a ia .load with
        | .ok t =>
          if poisoned e.s t.addr 128 || (a.tagchk && t.kind == 0 && !tagsOk e.s t.addr 128 (bits a.va 60 4)) then e
          else if rt = .u then { e with s := prefHome e.s x.core x.g.part ia t }
          else if !t.cacheable || lineWhole e.s x.core x.g.part ia t then e
          else { e with s := askMiss e.s x.core (ia / 128) rt }
        | _ => e
      | _ => e

/-- PREF (R218). -/
def execPref (h : GY) (m : MemAddr) (sz : Sz) (rt : RT) (s : State) : Out :=
  .next (issue (.pref h m sz rt) (fun x =>
    x.on.foldl (fun e t =>
      let ea := memEa m (x.rd t) &&& ~~~127
      (List.range sz.bytes).foldl (fun e i => prefLine x rt (ea + BitVec.ofNat 64 (128 * i)) e) e) { s := x.s }) s)

/-- PGINFO's HOPS: to the nearest of the home and the replicas (R95). While a replica of the page is still being placed,
a snapshot may show the hops to the home instead, as R327 has it: `far` says so (DESIGN CHOICE, log 108). -/
def pginfoHops (s : State) (seg : Nat) (h : Hme) (ms : List (Nat × Nat)) (far : Bool) : Nat :=
  match far, ms with
  | false, (k, _) :: _ => hops s.pkg seg (k / 2)
  | _, _ => hops s.pkg seg h.seg

/-- PGINFO's result for an IA (R95, R219). -/
def pginfoIa (s : State) (p seg ia : Nat) (far : Bool) : W64 :=
  let pack (home hops cls big repl tail : Nat) : W64 :=
    BitVec.ofNat 64 (home + 16 * hops + 256 * cls + 1024 * big + 2 ^ 12 * repl + 2 ^ 24 * tail)
  match hme s p ia with
  | none => pack 15 15 3 0 0 0
  | some h =>
    if h.kind ≠ 0 then pack 15 15 0 0 0 0
    else
      let home := (s.logSeg p h.seg).getD 15
      match leafAt s p h ia with
      | .leaf l =>
        let ms := members s p seg l ia none
        let ct := match s.tail? l with | some r => 16 * r.ct | none => 0
        pack home (pginfoHops s seg h ms far) l.cls (if l.big then 1 else 0) (ms.length - 1) (if l.cls = 1 then ct else 0)
      | _ => pack home (hops s.pkg seg h.seg) 3 0 0 0

/-- A replica of the page of an IA is being placed. -/
def placingAt (s : State) (p ia : Nat) : Bool :=
  match hme s p ia with
  | none => false
  | some h =>
    match leafAt s p h ia with
    | .leaf l => s.replicas.any fun r => r.part == p && r.page == l.pageIa ia / 65536 && r.st == .placing
    | _ => false

/-- A PGINFO request is held with its region (R94). -/
def pginfoHeld (s : State) (p ia : Nat) : Bool := match hme s p ia with | some h => h.hold | none => false

/-- The snapshot that a home gives a PGINFO request (R95, R219). -/
def pginfoAt (s : State) (p seg ia : Nat) : W64 × State :=
  if placingAt s p ia then
    let (f, s') := s.draw
    (pginfoIa s p seg ia (bit f 0), s')
  else (pginfoIa s p seg ia false, s)

/-- PGINFO of one thread, whose address has passed its checks (R219). -/
def pginfoThread (x : Ctx) (dsts : List Nat) (t ia : Nat) (ea : W64) (e : Eff) : Eff :=
  let put (e : Eff) (st : PSt) : Eff :=
    e.setGrp x (addPend (e.grp x) t x.pc dsts (.pginfo ⟨ea, .ia ia, 8, .u, false, winPasid (x.s.core x.core).wins⟩) st)
  if pginfoHeld e.s x.g.part ia then put e .sent
  else
    let (v, s) := pginfoAt e.s x.g.part (segOf x.core) ia
    put { e with s := s } (.ready (words64 v))

/-- PGINFO (R90, R219). -/
def execPginfo (h : Hdr) (d : BitVec 8) (m : MemAddr) (s : State) : Out :=
  .next (issue (.pginfo h d m) (fun x =>
    x.on.foldl (fun e t =>
      let ea := memEa m (x.rd t)
      let dsts := if h.nw then [] else regsFrom d.toNat 2
      if !ptrOk ea || (isPlace ea && placeBad ea) then e.fate t (.trap cWindow ea)
      else if isPlace ea then
        e.setGrp x (addPend (e.grp x) t x.pc dsts (.pginfo ⟨ea, .ia 0, 8, .u, false, 0⟩) (.ready (words64 0x30F)))
      else
        match winTranslate (x.s.core x.core).wins .none ea with
        | .error b => e.badAcc t b
        | .ok (ia, _) => pginfoThread x dsts t ia ea e) { s := x.s }) s)

/-! ## Atomics (R336-R338) -/

/-- The kind of the address and the scope allow an operation (R338). -/
def atomAllowed (s : State) (p : Nat) (a : Acc) (op : AtomOp) (isRed : Bool) (sc : Scope) : Bool :=
  match a.loc with
  | .ia ia =>
    match hme s p ia with
    | some h =>
      if h.kind = 0 then true
      else sc == .sys && (h.kind != 2 || (pcieOk op && !isRed))
    | none => true
  | _ => true

/-- The value of an atomic's operand at a size (R101, R336): FADD reads an inline integer as the F32 value. -/
def atomOperand (x : Rd) (op : AtomOp) (sz : Sz) (b : Sel) : Nat :=
  match op, b with
  | .fadd, .i v => intBits .f32 v.toInt
  | _, _ => natOfBytes (dataBytes x sz b)

/-- ATOM and RED of one thread: checks, then the request (R337). -/
def atomThread (x : Ctx) (op : AtomOp) (isRed : Bool) (sc : Scope) (dsts : List Nat) (ea : W64) (sz : Sz)
    (k : Acc → PKind) (t : Nat) (e : Eff) : Eff :=
  match locate x.s x.core x.g .rdwr ea sz.bytes sz.bytes .u with
  | .error b => e.badAcc t b
  | .ok a =>
    if atomAllowed x.s x.g.part a op isRed sc then e.setGrp x (addPend (e.grp x) t x.pc dsts (k a) .sent)
    else e.fate t (.trap cIllegalOperand x.raw)

/-- ATOM (R337). -/
def execAtom (h : Hdr) (op : AtomOp) (d : BitVec 8) (m : AtomAddr) (b : Sel) (sz : Sz) (sc : Scope) (s : State) :
    Out :=
  .next (issue (.atom h op d m b sz sc) (fun x =>
    x.on.foldl (fun e t =>
      let y := x.rd t
      atomThread x op false sc (if h.nw then [] else regsFrom d.toNat sz.regs) (atomEa m y) sz
        (fun a => .atom op a (atomOperand y op sz b) (atomOperand y op sz (.w d)) sc x.raw) t e) { s := x.s }) s)

/-- RED (R337). -/
def execRed (h : GY) (op : RedOp) (m : AtomAddr) (b : Sel) (sz : Sz) (sc : Scope) (s : State) : Out :=
  .next (issue (.red h op m b sz sc) (fun x =>
    x.on.foldl (fun e t =>
      let y := x.rd t
      atomThread x (redToAtom op) true sc [] (atomEa m y) sz
        (fun a => .red op a (atomOperand y (redToAtom op) sz b) sc x.raw) t e)
      { s := x.s }) s)

/-! ## APPEND, SEAL, TAILQ (R313-R318) -/

/-- The access of an append word: no alignment, no tag check, no place (R90, R313, R314). -/
def pageAcc (s : State) (core : Nat) (g : Group) (r : Right) (va : W64) : Except Bad Acc :=
  if ptrOk va && isPlace va then .error (if placeBad va then cWindow else cPageDenied, va)
  else (locate s core g r va 1 1 .u).map fun a => { a with tagchk := false }

/-- An append word of one thread (DEDUCED, log 74). -/
def appendThread (x : Ctx) (r : Right) (a : Sel) (dsts : List Nat) (k : Acc → PKind) (t : Nat) (e : Eff) : Eff :=
  match pageAcc x.s x.core x.g r ((x.rd t).s64 a) with
  | .error b => e.badAcc t b
  | .ok ac => e.setGrp x (addPend (e.grp x) t x.pc dsts (k ac) .sent)

/-- An append word, lane by lane in ascending order (R313). -/
def appendEff (r : Right) (a : Sel) (nw : Bool) (d : BitVec 8) (n : Nat) (k : Acc → PKind) (x : Ctx) : Eff :=
  x.on.foldl (fun e t => appendThread x r a (if nw then [] else regsFrom d.toNat n) k t e) { s := x.s }

/-- APPEND.RES (R315). -/
def execAppendRes (h : Hdr) (d : BitVec 8) (a b : Sel) (s : State) : Out :=
  .next (issue (.appendRes h d a b) (fun x =>
    x.on.foldl (fun e t =>
      let n := (x.rd t).s32 b
      if n = 0 then e.fate t (.trap cIllegalOperand x.raw)
      else appendThread x .wr a (if h.nw then [] else [d.toNat]) (.appendRes · n x.g.nextId) t e) { s := x.s }) s)

/-- APPEND.QUERY (R316). -/
def execAppendQuery (h : Hdr) (d : BitVec 8) (a : Sel) (s : State) : Out :=
  .next (issue (.appendQuery h d a) (fun x => appendEff .rd a h.nw d 2 (.appendQuery · x.g.nextId) x) s)

/-- SEAL.PLAIN (R318). -/
def execSealPlain (h : Hdr) (d : BitVec 8) (a : Sel) (s : State) : Out :=
  .next (issue (.sealPlain h d a) (appendEff .wr a h.nw d 2 (.seal · false false)) s)

/-- SEAL.BCAST (R318). -/
def execSealBcast (h : Hdr) (d : BitVec 8) (a : Sel) (s : State) : Out :=
  .next (issue (.sealBcast h d a) (appendEff .wr a h.nw d 2 (.seal · true false)) s)

/-- TAILQ (R317). -/
def execTailq (h : Hdr) (d : BitVec 8) (a : Sel) (s : State) : Out :=
  .next (issue (.tailq h d a) (fun x => appendEff .rd a h.nw d 1 (.tailq · x.g.nextId) x) s)

end Sys2Proof.Machine
end

