-- ==== Sys2Proof/Machine/Long.lean ====
section
/-! DEFINITION. The long instructions GATHER, SCATTER and CST (R215-R217): the register block, the elements
in ascending order, progress in PIX. -/

namespace Sys2Proof.Machine

/-- Registers after the block's header that the block takes (R215). -/
def LongOp.blockLen (o : LongOp) (e n : Nat) : Nat :=
  let dr := if e = 8 then 2 else 1
  match o with
  | .gather _ _ _ => n
  | .scatter => (n + 3) / 4 * 4 + n * dr
  | .cst => n * dr

/-- The block of a thread is legal (R215). -/
def blockOk (g : Group) (th : Thread) (o : LongOp) (e b : Nat) : Bool :=
  let n := (bits (th.r b) 0 7).toNat
  let len := 4 + o.blockLen e n
  decide (n ≤ 64) && bits (th.r b) 7 25 == 0 && th.r (b + 1) == 0 && decide (b + len ≤ g.regs) &&
  (match o with
   | .gather d _ _ =>
     let dn := n * (if e = 8 then 2 else 1)
     decide (d + dn ≤ g.regs) && (dn == 0 || decide (d + dn ≤ b) || decide (b + len ≤ d))
   | _ => true)

/-- The mask of a block (R215). -/
def blockMask (th : Thread) (b : Nat) : W64 := th.r64 (b + 2)

/-- The address of element `j` (R215). -/
def elemAddr (th : Thread) (o : LongOp) (ea : W64) (e b j : Nat) : W64 :=
  match o with
  | .cst =>
    let m := blockMask th b
    ea + BitVec.ofNat 64 (e * ((List.range j).filter fun k => bit m k).length)
  | _ => ea + (th.r (b + 4 + j)).signExtend 64 * BitVec.ofNat 64 e

/-- The data of element `j` (R215). -/
def elemData (th : Thread) (o : LongOp) (e b n j : Nat) : List Byte :=
  let start := match o with
    | .scatter => b + 4 + (n + 3) / 4 * 4
    | _ => b + 4
  if e = 8 then bytesOf 8 (th.r64 (start + 2 * j)).toNat else bytesOf e (th.r (start + j)).toNat

/-- Some element takes part (R217). -/
def anyElem (th : Thread) (b : Nat) : Bool :=
  (List.range (min 64 (bits (th.r b) 0 7).toNat)).any fun j => bit (blockMask th b) j

/-! ## Elements, one after another (R216) (DEDUCED, log 31) -/

/-- How a long instruction stands after a step: it goes on or has ended; a check of an element fails; an element asks for
what another partition owns. -/
inductive Adv where
  | go (s : State)
  | bad (s : State) (cause : Nat) (val : W64)
  | iso (s : State) (va : W64)

/-- The first element not yet committed. -/
def Thread.next (th : Thread) : Nat := (bits th.pix 0 7).toNat

/-- NEXT moves past an element (R216). -/
def commitElem (s : State) (core t : Nat) : State :=
  s.modGrp core fun g => g.modThread t fun y =>
    { y with pix := (y.pix &&& 0x80000000) ||| BitVec.ofNat 32 (y.next + 1) }

/-- The word has ended: PIX is zero (R216). -/
def endLong (s : State) (core t : Nat) : State :=
  s.modGrp core fun g => g.modThread t fun y => { y with pix := 0, long := none }

/-- An entry of a place is stored at once; that of an IA is probed (R211, R226). -/
def elemEntry (g : Group) (t : Nat) (pc : Va) (a : Acc) (data : List Byte) : Group :=
  let id := g.nextId
  let g := addEntry g t pc a data none 1 .elem
  { g with rb := g.rb.map fun e => if e.id = id ∧ e.st ≠ .probing then { e with st := .draining 0 } else e }

/-- An element that takes part is asked for: its checks, then its load, or its entry of the region buffer with its probe;
where the buffer is full it waits (R198, R216, R226, R229). -/
def startElem (s : State) (core t : Nat) (g : Group) (o : LongRun) (j : Nat) : Adv :=
  let th := g.thread t
  let va := elemAddr th o.op o.ea o.e o.b j
  let right := match o.op with | .gather _ _ _ => Right.rd | _ => .wr
  match locateIn o.wins s core g right va o.e o.e o.rt with
  | .error (c, v) => if c = cIsolation then .iso s v else .bad s c v
  | .ok a =>
    match o.op with
    | .gather d sx nw =>
      let k := if o.e = 8 then 2 else 1
      let dsts := if nw then [] else regsFrom (d + k * j) k
      match a.loc with
      | .ia ia =>
        match loadAt s core t o.pc dsts sx .elem a ia with
        | some s => .go s
        | none => .bad s cTagMismatch va
      | l => .go (s.setGrp core (addPend g t o.pc dsts (.load a sx [] true) (.ready (loadWords o.e sx (placeRead s l a.n))) .elem))
    | _ =>
      if g.rbUsed + 1 ≤ 2048 then .go (s.setGrp core (elemEntry g t o.pc a (elemData th o.op o.e o.b o.n j)))
      else .go (s.setGrp core (g.modThread t fun y => { y with rbwait := 1 }))

/-- The word goes on from NEXT: elements that take no part commit with no access, the next other one is asked for; after
the last the word ends (R216). -/
def advanceLong (core t : Nat) : Nat → State → Adv
  | 0, s => .go s
  | f + 1, s =>
    match s.grp? core with
    | none => .go s
    | some g =>
      let th := g.thread t
      match th.long with
      | none => .go s
      | some o =>
        if o.n ≤ th.next then .go (endLong s core t)
        else if bit (blockMask th o.b) th.next then startElem s core t g o th.next
        else advanceLong core t f (commitElem s core t)

/-- A thread whose element fails a check traps precisely at its word, with PIX and RESUME (R216). -/
def elemTrap (s : State) (core t cause : Nat) (val : W64) : State :=
  let s := quitRun s core t
  moveOut s core t fun g => (g.toStart t).trapThread (s.tvec g.part) t cause val (g.thread t).rsPc (g.thread t).rsPrio 0

/-- A long instruction goes on after an element, or once the buffer has room. -/
def longOn (s : State) (core t : Nat) : State :=
  match advanceLong core t 66 s with
  | .go s => s
  | .bad s c v => elemTrap s core t c v
  | .iso s va => freezeGroup s core va

/-- An element of SCATTER or CST, accepted by its home, is performed and committed (R216, R226). -/
def commitStore (s : State) (core : Nat) (g : Group) (e : RbEntry) : State :=
  longOn (commitElem (storeEntry s core g e) core e.tid) core e.tid

/-- The progress of a thread stopped at an element. -/
def stopLong (s : State) (core t : Nat) : State :=
  s.modGrp core fun g => g.modThread t fun y => { y with pix := y.pix ||| 0x80000000, long := none }

/-- A long instruction of one thread: without an element that takes part it does nothing; else its block is checked, and it
begins, at NEXT where RESUME says so (R215-R217). -/
def longThread (x : Ctx) (o : LongOp) (m : MemAddr) (b : Nat) (sz : Sz) (rt : RT) (r : Eff) (t : Nat) : Eff :=
  let th := x.g.thread t
  if !anyElem th b then { r with s := endLong r.s x.core t }
  else if !blockOk x.g th o sz.bytes b then r.fate t (.trap cIllegalOperand x.raw)
  else
    let run : LongRun := ⟨o, x.pc, memEa m (x.rd t), sz.bytes, rt, b, (bits (th.r b) 0 7).toNat, (x.s.core x.core).wins⟩
    let s := r.s.modGrp x.core fun g => g.modThread t fun y =>
      { y with long := some run, pix := if bit y.pix 31 then y.pix else 0 }
    match advanceLong x.core t 66 s with
    | .go s => { r with s := s }
    | .bad s c v => ({ r with s := stopLong s x.core t }).fate t (.trap c v)
    | .iso s va => { r with s := stopLong s x.core t, iso := some va }

/-- GATHER (R215). -/
def execGather (h : Hdr) (d : BitVec 8) (m : MemAddr) (b : BitVec 8) (sz : Sz) (sx : Bool) (rt : RT) (s : State) :
    Out :=
  .next (issue (.gather h d m b sz sx rt) (fun x =>
    x.on.foldl (longThread x (.gather d.toNat sx h.nw) m b.toNat sz rt) { s := x.s }) s)

/-- SCATTER (R215). -/
def execScatter (h : GY) (m : MemAddr) (b : BitVec 8) (sz : Sz) (rt : RT) (s : State) : Out :=
  .next (issue (.scatter h m b sz rt) (fun x =>
    x.on.foldl (longThread x .scatter m b.toNat sz rt) { s := x.s }) s)

/-- CST (R215, R217). -/
def execCst (h : GY) (m : MemAddr) (b : BitVec 8) (sz : Sz) (rt : RT) (s : State) : Out :=
  .next (issue (.cst h m b sz rt) (fun x =>
    x.on.foldl (longThread x .cst m b.toNat sz rt) { s := x.s }) s)

end Sys2Proof.Machine
end

