-- ==== Sys2Proof/Machine/Sync.lean ====
section
/-! DEFINITION. The synchronisation words FENCE (R333, R334), BAR (R339-R341), PHASE (R342-R344), WAITGE
(R345) and BACKOFF (R346), and the conditions under which their waits end. -/

namespace Sys2Proof.Machine

/-! ## Fences -/

/-- An acquire at a scope (R334): at RING and SYS scope the owned words are written back first. The state,
and whether the acquire has been performed (DEDUCED, log 43). -/
def acquireAt (s : State) (p core : Nat) (sc : Scope) : State × Bool :=
  match sc with
  | .ring | .sys =>
    match release s p core false with
    | (s, true) => (acquire s core (sc == .sys), true)
    | (s, false) => (s, false)
  | _ => (acquire s core false, true)

/-- A FENCE of a kind at a scope (R334). -/
def fenceDo (s : State) (p core : Nat) (k : FenceKind) (sc : Scope) : State × Bool :=
  match k with
  | .acq => acquireAt s p core sc
  | .rel => release s p core (sc == .sys)
  | .ar | .sc =>
    match release s p core (sc == .sys) with
    | (s, true) => (acquire s core (sc == .sys), true)
    | (s, false) => (s, false)

/-- An AR fence as it issues (R334, R353): its stores may still be on their way when it lets the threads go on to later
loads, with their later stores held; or it waits for its stores. A free value says which (DESIGN CHOICE, log 110). -/
def fenceAr (x : Ctx) (sc : Scope) : Eff :=
  let late (s : State) : Eff :=
    { s := s.modGrp x.core fun g => x.on.foldl (fun g t => addPend g t x.pc [] (.fence .ar sc) .sent) g, ends := true }
  let (f, s) := x.s.draw
  if bit f 0 then
    match acquireAt s x.g.part x.core sc with
    | (s, true) =>
      { s := s.modGrp x.core fun g => x.on.foldl (fun g t => g.modThread t fun y =>
          { y with arHold := some (y.arHold.getD false || sc == .sys) }) g, ends := true }
    | (s, false) => late s
  else late s

/-- FENCE (R334): the run ends after it, and each thread that executes it waits until it is performed, as for a result of
variable latency. -/
def execFence (h : GY) (kind : FenceKind) (sc : Scope) (s : State) : Out :=
  .next (issue (.fence h kind sc) (fun x =>
    if x.on.isEmpty then { s := x.s }
    else if kind == .ar then fenceAr x sc
    else
      match fenceDo x.s x.g.part x.core kind sc with
      | (s, true) => { s := s, ends := true }
      | (s, false) =>
        { s := s.modGrp x.core fun g => x.on.foldl (fun g t => addPend g t x.pc [] (.fence kind sc) .sent) g, ends := true })
    s)

/-- HOME_LOAD of a FENCE that waits: it is performed once the stores of the closed region are and the conditions of its
kind are met (R225, R334). -/
def serveFence (s : State) (core : Nat) (g : Group) (x : Pend) (k : FenceKind) (sc : Scope) : State :=
  if g.rb.any fun e => e.tid == x.tid && !e.gone then s
  else
    match fenceDo s g.part core k sc with
    | (s, true) => s.modGrp core fun g =>
        { (g.modThread x.tid fun y => if k == .ar then { y with arHold := none } else y) with
          pend := g.pend.filter fun y => y.id != x.id }
    | (s, false) => s

/-! ## Barriers -/

/-- The barrier that a thread of a core group names (R340). -/
def barOf (s : State) (g : Group) (lv : Level) (n : Nat) : Bar := s.bar g.part g.lid lv (levelIdx lv g) n

/-- The scope of a barrier's acquire (R4, R341). -/
def levelScope : Level → Scope
  | .core => .core | .slice => .slice | .stack => .stack | .ring => .ring

/-- The level lies above the launch's RESID (R339). -/
def levelBad (g : Group) (lv : Level) : Bool := decide (recResid g.lrec < levelNum lv)

/-- A thread arrives at a barrier (R340, R341) (DEDUCED, log 53). -/
def barArrive (s : State) (g : Group) (lv : Level) (n t : Nat) : State :=
  let b := barOf s g lv n
  settleBar (s.setBar { b with arrived := b.arrived ++ [(g.linear, t)] }) { b with arrived := b.arrived ++ [(g.linear, t)] }

/-- Generation g of a barrier has completed (R341): it is neither the current one nor one to come. -/
def barDone (s : State) (g : Group) (lv : Level) (n : Nat) (k : W32) : Bool :=
  let b := barOf s g lv n
  b.gen != k && !genFuture b.gen k

/-- BARGEN of a thread rises (R341). -/
def bumpGen (s : State) (core t : Nat) : State :=
  s.modGrp core fun g => g.modThread t fun y => { y with bargen := y.bargen + 1 }

/-- A thread past its arrival, or with a token, at generation k: it goes on after its acquire, or waits (R341). -/
def barWaitThread (x : Ctx) (lv : Level) (n : Nat) (k : W32) (t : Nat) (e : Eff) : Eff :=
  if barDone e.s x.g lv n k then
    match acquireAt e.s x.g.part x.core (levelScope lv) with
    | (s, true) => { e with s := bumpGen s x.core t }
    | (s, false) => ({ e with s := s }).fate t (.park (.bar lv n k) false)
  else e.fate t (.park (.bar lv n k) false)

/-- The threads that may arrive, and the fates of the others (R339, R341). -/
def arrivals (x : Ctx) (lv : Level) (n : Nat) : List Nat × List (Nat × Fate) :=
  let bad (t : Nat) : Bool := levelBad x.g lv || (barOf x.s x.g lv n).arrived.contains (x.g.linear, t)
  (x.on.filter fun t => !bad t, (x.on.filter bad).map fun t => (t, .trap cIllegalOperand x.raw))

/-- The arrivals of a sheet after their release; without it each stays at the word. `f` is what each does
once all have arrived, given the generation at which it arrived. -/
def barEff (lv : Level) (n : Nat) (f : Ctx → W32 → Nat → Eff → Eff) (x : Ctx) : Eff :=
  let (ok, fs) := arrivals x lv n
  if ok.isEmpty then { s := x.s, fates := fs }
  else
    match release x.s x.g.part x.core false with
    | (s, false) => { s := s, fates := fs ++ ok.map fun t => (t, .stay) }
    | (s, true) =>
      let k := (barOf s x.g lv n).gen
      let s := ok.foldl (fun s t => barArrive s x.g lv n t) s
      ok.foldl (fun e t => f x k t e) { s := s, fates := fs }

/-- BAR.SYNC (R341). -/
def execBarSync (h : GY) (lv : Level) (n : BitVec 3) (s : State) : Out :=
  .next (issue (.barSync h lv n) (barEff lv n.toNat fun x k t e => barWaitThread x lv n.toNat k t e) s)

/-- BAR.ARRIVE (R341): D receives G. -/
def execBarArrive (h : Hdr) (d : BitVec 8) (lv : Level) (n : BitVec 3) (s : State) : Out :=
  .next (issue (.barArrive h d lv n) (barEff lv n.toNat fun x k t e =>
    e.setGrp x ((e.grp x).send t x.pc (if h.nw then [] else [d.toNat]) [k] false)) s)

/-- BAR.WAIT (R341). -/
def execBarWait (h : GY) (lv : Level) (n : BitVec 3) (b : Sel) (s : State) : Out :=
  .next (issue (.barWait h lv n b) (fun x =>
    x.on.foldl (fun e t =>
      let k := (x.rd t).s32 b
      if levelBad x.g lv then e.fate t (.trap cIllegalOperand x.raw)
      else if genFuture (barOf e.s x.g lv n.toNat).gen k then e.fate t (.trap cIllegalOperand (k.setWidth 64))
      else barWaitThread x lv n.toNat k t e) { s := x.s }) s)

/-! ## Phases -/

/-- The counter of a logical segment for a launch as it reads now (R343). -/
def phaseCount (s : State) (p lid l : Nat) : W32 := (publish s p lid).phaseOf p lid l

/-- A launch may use phases (R342) (DEDUCED, log 47). -/
def phaseLegal (g : Group) : Bool := recResid g.lrec == 3 && recRgCount g.lrec == 1

/-- The logical segment of a segment operand (R342), or the trap of check 6. -/
def phaseSeg (x : Ctx) (v : W32) : Except Fate Nat :=
  if ¬(v.toNat < 8 ∨ v.toNat = 15) then .error (.trap cIllegalOperand x.raw)
  else if v.toNat = 15 then
    if phaseLegal x.g then .ok x.g.lseg else .error (.trap cPageDenied (v.setWidth 64))
  else if (x.s.segmap x.g.part v.toNat).isNone || !phaseLegal x.g then .error (.trap cPageDenied (v.setWidth 64))
  else .ok v.toNat

/-- A thread's phase rises after its release (R343). -/
def bumpPhase (s : State) (core t : Nat) : State :=
  s.modGrp core fun g => g.modThread t fun y => { y with phase := y.phase + 1 }

/-- One thread's ADV (R343). The TVAL of an ADV in a launch without phases is a free value (DESIGN CHOICE, log 1): it names
no segment. -/
def phaseAdvThread (x : Ctx) (t : Nat) (e : Eff) : Eff :=
  if !phaseLegal x.g then
    let (v, s) := e.s.draw
    ({ e with s := s }).fate t (.trap cPageDenied v)
  else if decide (x.g.phasecur.toNat < (x.g.thread t).phase.toNat) then e.fate t (.park .phaseAdv true)
  else
    match release e.s x.g.part x.core false with
    | (s, true) => { e with s := bumpPhase s x.core t }
    | (s, false) => ({ e with s := s }).fate t .stay

/-- PHASE.ADV (R343). -/
def execPhaseAdv (h : GY) (s : State) : Out :=
  .next (settlePhases (issue (.phaseAdv h) (fun x => x.on.foldl (fun e t => phaseAdvThread x t e) { s := x.s }) s)
    s.sel.1)

/-- PHASE.WAIT (R344). -/
def execPhaseWait (h : GY) (a b : Sel) (s : State) : Out :=
  .next (issue (.phaseWait h a b) (fun x =>
    x.on.foldl (fun e t =>
      match phaseSeg x ((x.rd t).s32 a) with
      | .error f => e.fate t f
      | .ok l =>
        let n := (x.rd t).s32 b
        if decide (n.toNat ≤ (phaseCount e.s x.g.part x.g.lid l).toNat) then
          match acquireAt e.s x.g.part x.core .ring with
          | (s, true) => { e with s := s }
          | (s, false) => ({ e with s := s }).fate t .stay
        else e.fate t (.park (.phase l n x.s.now) false)) { s := x.s }) s)

/-- PHASE.READ (R344). -/
def execPhaseRead (h : Hdr) (d : BitVec 8) (a : Sel) (s : State) : Out :=
  .next (issue (.phaseRead h d a) (fun x =>
    x.on.foldl (fun e t =>
      match phaseSeg x ((x.rd t).s32 a) with
      | .error f => e.fate t f
      | .ok l =>
        e.setGrp x ((e.grp x).send t x.pc (if h.nw then [] else [d.toNat])
          [phaseCount x.s x.g.part x.g.lid l] true)) { s := x.s }) s)

/-! ## WAITGE and BACKOFF -/

/-- What a look at a WAITGE's count gives (R345). -/
inductive Look where
  /-- The count is below the target. -/
  | below (s : State)
  /-- The count is reached, but the acquire is not performed yet; or the home holds the request. -/
  | later (s : State)
  | done (s : State)
  | fault (s : State) (f : MFault) (a : Acc)
  | bad (b : Bad)
  | err (s : State) (v : W64)

/-- The 64-bit value at an access's home, with the thread's own bytes. -/
def readCount (s : State) (core t : Nat) (g : Group) (a : Acc) : State × HAns Nat :=
  match loadNow s core t g a with
  | (s, .ok bs) => (s, .ok (natOfBytes bs))
  | (s, .held) => (s, .held)
  | (s, .fault c v f) => (s, .fault c v f)
  | (s, .iso) => (s, .iso)

/-- The windows of a WAITGE: those in force when it issued (R81). -/
def waitgeWins (s : State) (core t : Nat) (g : Group) : List W64 :=
  match g.waiting t with
  | some ⟨_, .waitge _ _ _ _ _⟩ => (g.thread t).waitWins
  | _ => (s.core core).wins

/-- The error word behind a count (R345). -/
def lookErr (s : State) (core t : Nat) (g : Group) (a : Acc) : Look :=
  match locateIn (waitgeWins s core t g) s core g .rd (a.va + 8) 8 8 .u with
  | .error b => .bad b
  | .ok ae =>
    match readCount s core t g ae with
    | (s, .ok v) => if v = 0 then .done s else .err s (BitVec.ofNat 64 v)
    | (s, .held) => .later s
    | (s, .fault c v f) => .fault s (mfault ae c v f) ae
    | (_, .iso) => .bad (cIsolation, ae.va)

/-- A look at the count of a WAITGE: read, acquire at its scope, error word (R345). -/
def lookCount (s : State) (core t : Nat) (g : Group) (a : Acc) (target : W64) (err sys : Bool) : Look :=
  match readCount s core t g a with
  | (s, .held) => .later s
  | (s, .fault c v f) => .fault s (mfault a c v f) a
  | (_, .iso) => .bad (cIsolation, a.va)
  | (s, .ok v) =>
    if v < target.toNat then .below s
    else
      match acquireAt s g.part core (if sys then .sys else .ring) with
      | (s, false) => .later s
      | (s, true) => if err then lookErr s core t g a else .done s

/-- One thread's WAITGE (R345). -/
def waitgeThread (x : Ctx) (err sys : Bool) (a b : Sel) (t : Nat) (e : Eff) : Eff :=
  match locate x.s x.core x.g .rd ((x.rd t).s64 a) 8 8 .u with
  | .error f => e.badAcc t f
  | .ok ac =>
    match ac.loc with
    | .ia _ =>
      let g := e.grp x
      match lookCount e.s x.core t g ac ((x.rd t).s64 b) err sys with
      | .below s =>
        let s := s.modGrp x.core fun g => g.modThread t fun y => { y with waitWins := (x.s.core x.core).wins }
        ({ e with s := s }).fate t (.park (.waitge ac ((x.rd t).s64 b) err sys x.s.now) true)
      | .later s => ({ e with s := s }).fate t .stay
      | .done s => { e with s := s }
      | .fault s f ae => ({ e with s := s }).fate t (homeFate s g ae f.cause f.servable f.prifail 0)
      | .bad f => e.badAcc t f
      | .err s v => ({ e with s := s }).fate t (.trap cSoftware v)
    | _ => e.fate t (.trap cPageDenied ac.va)

/-- WAITGE (R345). -/
def execWaitge (h : GY) (err sys : Bool) (a b : Sel) (s : State) : Out :=
  .next (issue (.waitge h err sys a b) (fun x =>
    x.on.foldl (fun e t => waitgeThread x err sys a b t e) { s := x.s }) s)

/-- BACKOFF (R346). -/
def execBackoff (h : GY) (a : Sel) (s : State) : Out :=
  .next (issue (.backoff h a) (fun x =>
    { s := x.s.setGrp x.core (x.on.foldl (fun g t =>
        let m := min ((x.rd t).s32 a).toNat 65535
        g.modThread t fun y => { y with backoff := if m = 0 then 0 else x.s.now + m }) x.g),
      ends := !x.on.isEmpty }) s)

end Sys2Proof.Machine
end

