-- ==== Sys2Proof/Machine/Stage.lean ====
section
/-! DEFINITION. Stage rings (R265-R268) and STG (R269, R270). -/

namespace Sys2Proof.Machine

/-! ## Counts of a ring (R265, R266) -/

/-- Lap parity of a number. -/
def Ring.parity (r : Ring) (n : Nat) : Bool := (n / r.slots + 1) % 2 == 1

/-- The slot of a number, and its scratchpad offset. -/
def Ring.slot (r : Ring) (n : Nat) : Nat := n % r.slots
def Ring.slotBase (r : Ring) (n : Nat) : Nat := r.base + r.slot n * r.slotsz

/-- `a ≤ n < b` on counts (R265). -/
def Ring.between (r : Ring) (a n b : Nat) : Bool := decide (r.sub n a < r.sub b a)

/-- Sets one bit of a mask. -/
def setBit (m : BitVec 256) (i : Nat) (v : Bool) : BitVec 256 :=
  let one : BitVec 256 := (1 : BitVec 256) <<< i
  if v then m ||| one else m &&& ~~~one

/-- FILLC rises over filled slots (R266). -/
def fillGo : Nat → Ring → Ring
  | 0, r => r
  | n + 1, r =>
    if bit r.ph (r.slot r.fillc) == r.parity r.fillc && r.sub r.claimc r.fillc != 0 then
      fillGo n { r with fillc := (r.fillc + 1) % r.mod }
    else r

/-- FREEC rises over released slots (R266). -/
def freeGo : Nat → Ring → Ring
  | 0, r => r
  | n + 1, r =>
    if bit r.rl (r.slot r.freec) == r.parity r.freec && r.sub r.takec r.freec != 0 then
      freeGo n { r with freec := (r.freec + 1) % r.mod }
    else r

def Ring.claim (r : Ring) : Ring := { r with claimc := (r.claimc + 1) % r.mod }
def Ring.take (r : Ring) : Ring := { r with takec := (r.takec + 1) % r.mod }
def Ring.fill (r : Ring) (n : Nat) : Ring := fillGo r.slots { r with ph := setBit r.ph (r.slot n) (r.parity n) }
def Ring.release (r : Ring) (n : Nat) : Ring := freeGo r.slots { r with rl := setBit r.rl (r.slot n) (r.parity n) }

/-- FILL of a number is allowed (R270). -/
def Ring.fillOk (r : Ring) (n : Nat) : Bool :=
  decide (n < r.mod) && r.between r.fillc n r.claimc && bit r.ph (r.slot n) != r.parity n

/-- FREE of a number is allowed (R270). -/
def Ring.freeOk (r : Ring) (n : Nat) : Bool :=
  decide (n < r.mod) && r.between r.freec n r.takec && bit r.rl (r.slot n) != r.parity n

def Group.setRing (g : Group) (sid : Nat) (r : Ring) : Group :=
  { g with rings := g.rings.map fun x => if (bits x.decl 24 3).toNat == sid then r else x }

/-- The order of those that wait for a ring: by the cycle in which they began, in one cycle threads by TID, then
the copy queues, then the matrix engine (R210, R266, R270, R290). -/
def stgKey (since k : Nat) : Nat := since * 8192 + k

/-- The key of the matrix engine. -/
def mxStgKey (since : Nat) : Nat := stgKey since 4160

/-- Operand `x` (0 A, 1 B) of an MMA block is taken from a stage ring (R290, R297). -/
def mmaStage (b : List W64) (x sid : Nat) : Bool :=
  bit (recDw b 4) (8 * x + 3) && (bits (recDw b 4) (8 * x + 4) 3).toNat == sid

/-- The MMA in progress has a slot of a ring still to take. -/
def Matrix.wantsTake (m : Matrix) (sid : Nat) : Option Nat :=
  match m.mma, m.q.find? fun i => i.st == .running && (i.cmd matches .mma _) with
  | some r, some i =>
    match i.cmd with
    | .mma b => if (r.slotA.isNone && mmaStage b 0 sid) || (r.slotB.isNone && mmaStage b 1 sid) then some r.since else none
    | _ => none
  | _, _ => none

/-- The keys of all that wait for a claim or a take of a ring. -/
def Group.stgKeys (g : Group) (sid : Nat) (take : Bool) : List Nat :=
  (g.waits.filterMap fun w =>
    match w.why with
    | .stg s tk _ since => if s = sid ∧ tk = take then some (stgKey since w.tid) else none
    | _ => none) ++
  (if take then (match g.mx.wantsTake sid with | some c => [mxStgKey c] | none => [])
   else (g.cqs.zipIdx).filterMap fun (q, i) =>
    match q.run with
    | some c => if c.wantsSlot sid then some (stgKey c.since (4096 + i)) else none
    | none => none)

/-- None that waits for the ring comes before a key (R270). -/
def Group.stgFirst (g : Group) (sid : Nat) (take : Bool) (key : Nat) : Bool :=
  (g.stgKeys sid take).all fun k => decide (key ≤ k)

/-- A ring has a slot for a claim or a take. -/
def Ring.has (r : Ring) (take : Bool) : Bool := if take then decide (0 < r.filled) else decide (0 < r.free)

/-- A thread gets the next number: its slot's offset and number go to its registers (R270). -/
def stgGive (g : Group) (sid : Nat) (r : Ring) (take : Bool) (t : Nat) (pc : Va) (dst : Option Nat) : Group :=
  let n := if take then r.takec else r.claimc
  let g := g.setRing sid (if take then r.take else r.claim)
  let dsts := match dst with | some d => [d, d + 1] | none => []
  g.send t pc dsts [BitVec.ofNat 32 (r.slotBase n), BitVec.ofNat 32 n] false

/-! ## STG -/

/-- The ring and the destination of an STG that names one (R269) (DEDUCED, log 27). -/
def stgDst (x : Ctx) (h : Hdr) (d : BitVec 8) (sid : Nat) : Option (Ring × Option Nat) :=
  match x.g.ring? sid with
  | none => none
  | some r =>
    if !even8 d || decide (x.g.regs < d.toNat + 2) then none
    else some (r, if h.nw then none else some d.toNat)

/-- CLAIM and TAKE of one thread (R270). -/
def stgGetThread (x : Ctx) (h : Hdr) (d : BitVec 8) (sid : Nat) (take : Bool) (t : Nat) (e : Eff) : Eff :=
  match stgDst x h d sid with
  | none => e.fate t (.trap cIllegalOperand x.raw)
  | some (_, dst) =>
    let g := e.grp x
    match g.ring? sid with
    | none => e
    | some r =>
      if r.has take && g.stgFirst sid take (stgKey x.s.now t) then
        e.setGrp x (stgGive g sid r take t x.pc dst)
      else e.fate t (.park (.stg sid take dst x.s.now) false)

/-- FILL and FREE of one thread (R270). -/
def stgPutThread (x : Ctx) (sid : Nat) (b : Sel) (ok : Ring → Nat → Bool) (f : Ring → Nat → Ring) (t : Nat) (e : Eff) :
    Eff :=
  let g := e.grp x
  match g.ring? sid with
  | none => e.fate t (.trap cIllegalOperand x.raw)
  | some r =>
    let n := (x.rd t).s32 b
    if ok r n.toNat then e.setGrp x (g.setRing sid (f r n.toNat))
    else e.fate t (.trap cIllegalOperand (n.setWidth 64))

/-- STG.CLAIM (R270). -/
def execStgClaim (h : Hdr) (d : BitVec 8) (ring : BitVec 3) (s : State) : Out :=
  .next (issue (.stgClaim h d ring) (fun x =>
    x.on.foldl (fun e t => stgGetThread x h d ring.toNat false t e) { s := x.s }) s)

/-- STG.TAKE (R270). -/
def execStgTake (h : Hdr) (d : BitVec 8) (ring : BitVec 3) (s : State) : Out :=
  .next (issue (.stgTake h d ring) (fun x =>
    x.on.foldl (fun e t => stgGetThread x h d ring.toNat true t e) { s := x.s }) s)

/-- STG.FILL (R270). -/
def execStgFill (h : GY) (ring : BitVec 3) (b : Sel) (s : State) : Out :=
  .next (issue (.stgFill h ring b) (fun x =>
    x.on.foldl (fun e t => stgPutThread x ring.toNat b Ring.fillOk Ring.fill t e) { s := x.s }) s)

/-- STG.FREE (R270). -/
def execStgFree (h : GY) (ring : BitVec 3) (b : Sel) (s : State) : Out :=
  .next (issue (.stgFree h ring b) (fun x =>
    x.on.foldl (fun e t => stgPutThread x ring.toNat b Ring.freeOk Ring.release t e) { s := x.s }) s)

/-- STG.QUERY (R270). -/
def execStgQuery (h : Hdr) (d : BitVec 8) (ring : BitVec 3) (s : State) : Out :=
  .next (issue (.stgQuery h d ring) (fun x =>
    x.on.foldl (fun e t =>
      match stgDst x h d ring.toNat with
      | none => e.fate t (.trap cIllegalOperand x.raw)
      | some (r, dst) =>
        let dsts := match dst with | some d => [d, d + 1] | none => []
        e.setGrp x ((e.grp x).send t x.pc dsts [BitVec.ofNat 32 r.filled, BitVec.ofNat 32 r.free] false))
      { s := x.s }) s)

end Sys2Proof.Machine
end

