-- ==== Sys2Proof/Machine/Copy.lean ====
section
/-! DEFINITION. The words that place entries in engine queues (R260-R264, R297, R304, R375), and the copy
engine: transfer records (R253-R256), stage destinations (R267), chains (R262), joins (R264). -/

namespace Sys2Proof.Machine

/-! ## Placing entries -/

/-- The block that a word reads at its operand (R261, R297, R375): ALIGN, then a W-type load (DEDUCED, log 22). -/
def readBlock (x : Ctx) (e : Eff) (t : Nat) (va : W64) (n : Nat) : Except Eff (State × List W64) :=
  if vaOf va % n ≠ 0 then .error (e.fate t (.trap cAlign va))
  else
    match locate x.s x.core x.g .rd va n n .w with
    | .error b => .error (e.badAcc t b)
    | .ok a =>
      match blockNow e.s x.core t (e.grp x) a with
      | (s, .ok bs) => .ok (s, dwordsOf bs)
      | (s, .held) => .error (({ e with s := s }).fate t .stay)
      | (_, .fault c v f) => .error (e.fate t (homeFate e.s (e.grp x) a c v f 0))
      | (_, .iso) => .error { e with iso := some va }

/-- A thread waits for room in an engine queue with the block that its word has read (R261). -/
def Eff.waitRoom (e : Eff) (x : Ctx) (t : Nat) (b : List W64) : Eff :=
  (e.setGrp x ((e.grp x).modThread t fun y => { y with qblk := some b })).fate t .stay

/-- The thread's entry has its place. -/
def Eff.hasRoom (e : Eff) (x : Ctx) (t : Nat) : Eff :=
  e.setGrp x ((e.grp x).modThread t fun y => { y with qblk := none })

/-- A thread that places an entry: role, block, room, entry (R120, R261, R297, R375). Once one thread waits
for room, the higher lanes wait too. -/
def placeThread (x : Ctx) (role : Group → Nat → Bool) (a : Sel) (n : Nat) (full : Group → Bool)
    (put : List W64 → Group → Group) (e : Eff) (t : Nat) : Eff :=
  if !role x.g t then e.fate t (.trap cRole x.raw)
  else
    let got := match (x.g.thread t).qblk with
      | some b => Except.ok (e.s, b)
      | none => readBlock x e t ((x.rd t).s64 a) n
    match got with
    | .error e => e
    | .ok (s, b) =>
      let e := { e with s := s }
      if full (e.grp x) then e.waitRoom x t b else (e.setGrp x (put b (e.grp x))).hasRoom x t

def Group.modCq (g : Group) (q : Nat) (f : CopyQ → CopyQ) : Group := { g with cqs := modNth f q g.cqs }

def Group.pushCq (g : Group) (q : Nat) (e : CqEntry) : Group := g.modCq q fun c => { c with q := c.q ++ [e] }
def Group.pushMq (g : Group) (c : MqCmd) : Group := { g with mx := { g.mx with q := g.mx.q ++ [⟨c, .waiting, []⟩] } }

/-- COPY (R261). -/
def execCopy (h : GY) (q : BitVec 2) (a : Sel) (s : State) : Out :=
  .next (issue (.copy h q a) (fun x =>
    x.on.foldl (placeThread x isCopy a 64 (cqFull · q.toNat) fun b g => g.pushCq q.toNat (.xfer b)) { s := x.s }) s)

/-- CHAIN of one thread (R262). -/
def chainThread (x : Ctx) (q : Nat) (a : Sel) (e : Eff) (t : Nat) : Eff :=
  let va := (x.rd t).s64 a
  let g := e.grp x
  if !isCopy x.g t then e.fate t (.trap cRole x.raw)
  else if va = 0 then
    e.setGrp x (g.modCq q fun c => { c with walk := c.walk.map fun w => { w with stop := true } })
  else if va.toNat % 64 ≠ 0 then e.fate t (.trap cAlign va)
  else if (g.cq q).hasChain then
    (e.setGrp x (g.modCq q fun c => { c with walk := c.walk.map fun w => { w with ownWait := false } })).hasRoom x t
  else if cqFull g q then e.waitRoom x t []
  else (e.setGrp x (g.pushCq q (.chain va))).hasRoom x t

/-- CHAIN (R262). -/
def execChain (h : GY) (q : BitVec 2) (a : Sel) (s : State) : Out :=
  .next (issue (.chain h q a) (fun x => x.on.foldl (chainThread x q.toNat a) { s := x.s }) s)

/-- Threads outside a role trap; the others of the sheet (R120). -/
def splitRole (x : Ctx) (role : Group → Nat → Bool) : List Nat × List (Nat × Fate) :=
  (x.on.filter (role x.g), (x.on.filter fun t => !role x.g t).map fun t => (t, .trap cRole x.raw))

/-- One entry for the whole sheet, waiting while there is no room (R264, R304). -/
def placeOnce (x : Ctx) (role : Group → Nat → Bool) (full : Group → Bool) (put : Nat → Group → Group) : Eff :=
  let (ok, fs) := splitRole x role
  match ok with
  | [] => { s := x.s, fates := fs }
  | t :: _ =>
    let e : Eff := { s := x.s, fates := fs }
    if full x.g then ok.foldl (fun e t => e.waitRoom x t []) e
    else ok.foldl (fun e t => e.hasRoom x t) (e.setGrp x (put t x.g))

/-- A fence entry in each named queue (R264). -/
def putFence (mask : BitVec 6) (comp : W64) (g : Group) : Group :=
  let id := g.nextId
  let g := (List.range 4).foldl (fun g q => if bit mask q then g.pushCq q (.fence id) else g) g
  let g := if bit mask 4 then g.pushMq (.fence id) else g
  let g := if bit mask 5 then { g with rq := g.rq ++ [.fence id] } else g
  { g with fences := g.fences ++ [⟨id, mask, comp⟩], nextId := id + 1 }

/-- QFENCE (R264). -/
def execQfence (h : GY) (mask : BitVec 6) (b : Sel) (s : State) : Out :=
  .next (issue (.qfence h mask b) (fun x =>
    placeOnce x isCopy (maskFull mask) fun t g => putFence mask ((x.rd t).s64 b) g) s)

/-- MMA (R297). -/
def execMma (h : GY) (a : Sel) (s : State) : Out :=
  .next (issue (.mma h a) (fun x =>
    x.on.foldl (placeThread x isMatrix a 64 mqFull fun b g => g.pushMq (.mma b)) { s := x.s }) s)

/-- MDRAIN (R297). -/
def execMdrain (h : GY) (a : Sel) (s : State) : Out :=
  .next (issue (.mdrain h a) (fun x =>
    x.on.foldl (placeThread x isMatrix a 64 mqFull fun b g => g.pushMq (.mdrain b)) { s := x.s }) s)

/-- MPREC (R304). -/
def execMprec (h : GY) (wa wb : BitVec 5) (s : State) : Out :=
  .next (issue (.mprec h wa wb) (fun x => placeOnce x isMatrix mqFull fun _ g => g.pushMq (.mprec wa wb)) s)

/-- MZERO (R304). -/
def execMzero (h : GY) (bank : Bool) (s : State) : Out :=
  .next (issue (.mzero h bank) (fun x => placeOnce x isMatrix mqFull fun _ g => g.pushMq (.mzero bank)) s)

/-- MSTAT's value (R305). -/
def mstatVal (m : Matrix) : MStatSel → W64
  | .mpx => m.mpx
  | .corr => m.corr
  | .gstall => m.gstall
  | .cserr => m.cserr
  | .nonfin => m.nonfin
  | .qstat => m.qstat
  | .bpused => m.bpused
  | .dpx => m.dpx

/-- MSTAT (R305). -/
def execMstat (h : Hdr) (d : BitVec 8) (r : MStatSel) (s : State) : Out :=
  .next (issue (.mstat h d r) (fun x =>
    { s := x.s.setGrp x.core (x.on.foldl (fun g t =>
        g.send t x.pc (if h.nw then [] else regsFrom d.toNat 2) (words64 (mstatVal x.g.mx r)) false) x.g) }) s)

/-- An entry of the ring engine's queue: its block, and after it the logical segment that it names as a member, the cycle
in which it was placed, and its number in its core group (R370, R372, R375). -/
def ringEntry (now : Nat) (b : List W64) (g : Group) : RqEntry :=
  .coll (b.take 16 ++ [BitVec.ofNat 64 g.lseg, BitVec.ofNat 64 now, BitVec.ofNat 64 g.nextId])

/-- A block is placed in the ring engine's queue. -/
def Group.pushRq (now : Nat) (b : List W64) (g : Group) : Group :=
  { g with rq := g.rq ++ [ringEntry now b g], nextId := g.nextId + 1 }

/-- COLL (R375). -/
def execColl (h : GY) (a : Sel) (s : State) : Out :=
  .next (issue (.coll h a) (fun x =>
    x.on.foldl (placeThread x isCopy a 128 rqFull (Group.pushRq x.s.now)) { s := x.s }) s)

/-- CPROG's snapshot (R387): the queue's entry for (GROUP, CSEQ), or one of the last 16 completed. -/
def cprogVal (s : State) (core : Nat) (g : Group) (grp : Nat) (cseq : W32) : W64 :=
  let same (b : List W64) : Bool := collGroup b == grp && collCseq b == cseq
  match (ringQueue s core g).find? fun e => same e.1 with
  | some e => e.2
  | none =>
    match (s.core core).rdone.find? fun r => r.part == g.part && r.group == grp && r.cseq == cseq with
    | some r => r.prog
    | none => 0

/-- CPROG (R387). -/
def execCprog (h : Hdr) (d : BitVec 8) (group : BitVec 4) (b : Sel) (s : State) : Out :=
  .next (issue (.cprog h d group b) (fun x =>
    x.on.foldl (fun e t =>
      if !isCopy x.g t then e.fate t (.trap cRole x.raw)
      else
        let v := cprogVal x.s x.core x.g group.toNat ((x.rd t).s32 b)
        e.setGrp x ((e.grp x).send t x.pc (if h.nw then [] else regsFrom d.toNat 2) (words64 v) true)) { s := x.s }) s)

/-! ## Engine accesses, places among them (R252) -/

/-- The location of an engine's access of its core group. -/
def engLoc (s : State) (core : Nat) (g : Group) (wins : List W64) (write : Bool) (va : W64) (n : Nat) :
    Except Bad Acc :=
  if !ptrOk va then .error (cWindow, va)
  else if isPlace va then (placeLoc s core g write va).map fun l => ⟨va, l, n, .u, false, 0⟩
  else engAcc wins (if write then .wr else .rd) va n

/-- An engine's read. -/
def engRead (s : State) (core : Nat) (g : Group) (wins : List W64) (va : W64) (n : Nat) : State × HAns (List Byte) :=
  match engLoc s core g wins false va n with
  | .error (c, _) => if c = cIsolation then (s, .iso) else (s, .fault c false false)
  | .ok a =>
    match a.loc with
    | .ia ia => unlessLate s core g.part ia fun _ => loadHome s g.part (segOf core) a ia (some core)
    | l => (s, .ok (placeRead s l n))

/-- An engine's write. -/
def engWrite (s : State) (core : Nat) (g : Group) (wins : List W64) (va : W64) (bs : List Byte) : State × HAns Unit :=
  match engLoc s core g wins true va bs.length with
  | .error (c, _) => if c = cIsolation then (s, .iso) else (s, .fault c false false)
  | .ok a =>
    match a.loc with
    | .ia ia => unlessLate s core g.part ia fun _ => engineStore s g.part (segOf core) core a ia bs
    | .spad c off => (spadWrite s c off bs, .ok ())
    | _ => (s, .ok ())

/-- Every byte of a range passes its window or place checks: one check for each 64 KiB piece (R80, R256). -/
def rangeOk (s : State) (core : Nat) (g : Group) (wins : List W64) (write : Bool) : Nat → W64 → Nat → Bool
  | 0, _, n => n == 0
  | f + 1, va, n =>
    if n = 0 then true
    else
      let k := min n (65536 - vaOf va % 65536)
      (match engLoc s core g wins write va k with
       | .ok a =>
         (match a.loc with
          | .spad c off =>
            (match s.grp? c with
             | some h => decide (off + k ≤ recSpadG h.lrec * 16384)
             | none => false)
          | _ => true)
       | .error (c, _) => c == cIsolation) &&
      rangeOk s core g wins write f (va + BitVec.ofNat 64 k) (n - k)

def rangeChk (s : State) (core : Nat) (g : Group) (wins : List W64) (write : Bool) (va : W64) (n : Nat) : Bool :=
  rangeOk s core g wins write (n / 65536 + 2) va n

/-! ## Transfer records (R253-R255) -/

def xHandle (r : List W64) : Nat := (bits (recDw r 2) 32 16).toNat
def xComp (r : List W64) : W64 := recDw r 4
def xWeight (r : List W64) : W32 := bits (recDw r 5) 0 32
def xCseq (r : List W64) : W32 := bits (recDw r 5) 32 32
def xNext (r : List W64) : W64 := recDw r 6
def xOwn (r : List W64) : Bool := bit (recDw r 7) 0

def xMalformed (r : List W64) : Bool :=
  bits (recDw r 2) 30 2 != 0 || bits (recDw r 2) 48 16 != 0 || bits (recDw r 3) 4 60 != 0 || bits (recDw r 7) 1 63 != 0

/-- A layout-handle entry's four dwords, where the table has it (R82, R255). -/
def handleEntry (s : State) (p ctx h : Nat) : Option (List W64) :=
  if h < (bits (ctxDw s p ctx 0x18) 0 16).toNat then
    let a := (bits (ctxDw s p ctx 0x10) 0 56).toNat + 32 * h
    some ((List.range 4).map fun i => memRead64 s.mem (a + 8 * i))
  else none

/-- A run of a record whose strides are those of a handle, or of one row (R254, R255); none where the
handle is invalid. -/
def xRun (s : State) (g : Group) (wins r : List W64) : Option CopyRun :=
  let one : CopyRun := ⟨r, wins, 1, 1, 0, 0, 0, 0, none, 0, none, none, s.now⟩
  if xHandle r = 0 then some one
  else
    match handleEntry s g.part g.ctxid (xHandle r) with
    | none => none
    | some e =>
      let d0 := recDw e 0
      let d1 := recDw e 1
      let rows := (bits d1 0 16).toNat
      let planes := (bits d1 16 16).toNat
      if !bit d0 32 || (bits d0 0 32).toNat != g.ctxid || rows == 0 || planes == 0 || bits d0 33 31 != 0 || bits d1 32 32 != 0
      then none
      else
        some { one with
          rows := rows, planes := planes,
          srow := (bits (recDw e 2) 0 32).toInt, drow := (bits (recDw e 2) 32 32).toInt,
          splane := (bits (recDw e 3) 0 32).toInt, dplane := (bits (recDw e 3) 32 32).toInt }

/-- The source address of byte `b` of row `r` of plane `p` (R254). -/
def CopyRun.src (c : CopyRun) (p r b : Nat) : W64 :=
  recDw c.desc 0 + BitVec.ofInt 64 ((p : Int) * c.splane + (r : Int) * c.srow) + BitVec.ofNat 64 b

/-- The destination address when it is no stage slot. -/
def CopyRun.dst (c : CopyRun) (p r b : Nat) : W64 :=
  recDw c.desc 1 + BitVec.ofInt 64 ((p : Int) * c.dplane + (r : Int) * c.drow) + BitVec.ofNat 64 b

/-- The own core's scratchpad place at an offset (R90). -/
def ownSpad (off : Nat) : W64 := 0x01F0FFC000000000 + BitVec.ofNat 64 off

/-- The rows of a command, as (plane, row). -/
def CopyRun.rowsOf (c : CopyRun) : List (Nat × Nat) :=
  (List.range c.planes).flatMap fun p => (List.range c.rows).map fun r => (p, r)

/-- The windows and rights of every piece (R256). -/
def CopyRun.windowsOk (s : State) (core : Nat) (g : Group) (c : CopyRun) : Bool :=
  c.rowsOf.all fun (p, r) =>
    rangeChk s core g c.wins false (c.src p r 0) (xLen c.desc) &&
    (xDstg c.desc || rangeChk s core g c.wins true (c.dst p r 0) (xLen c.desc))

/-- A record as a command starts: the run, with the code of the first check that fails (R253-R256, R267)
(DEDUCED, log 56). -/
def startRun (s : State) (core : Nat) (g : Group) (r : List W64) : CopyRun :=
  let wins := (s.core core).wins
  let bad (n : Nat) : CopyRun := ⟨r, wins, 1, 1, 0, 0, 0, 0, none, 0, some n, none, s.now⟩
  if xMalformed r then bad 0x0106
  else if xDstg r && (g.ring? (xSid r)).isNone then bad 0x0108
  else
    match xRun s g wins r with
    | none => bad 0x0103
    | some c =>
      let big := match g.ring? (xSid r) with
        | some k => xDstg r && decide (k.slotsz < c.total)
        | none => false
      if big then { c with code := some 0x0108 }
      else if CopyRun.windowsOk s core g c then c
      else { c with code := some 0x0105 }

/-! ## Events of the copy engine -/

/-- A queue's head may start. -/
def cqIdle (g : Group) (q : Nat) : Bool := !g.cfrozen && (g.cq q).run.isNone

/-- A copy queue takes its next entry (R250, R253): a transfer starts, or a chain begins to be walked. -/
def execCopyEntryStart (core q : Nat) (s : State) : Out :=
  .next (match s.grp? core with
  | none => s
  | some g =>
    if cqIdle g q then
      match (g.cq q).q with
      | .xfer r :: _ => s.setGrp core (g.modCq q fun c => { c with run := some (startRun s core g r) })
      | .chain p :: _ =>
        if (g.cq q).walk.isSome then s
        else s.setGrp core (g.modCq q fun c => { c with walk := some ⟨p, false, false, s.now⟩ })
      | _ => s
    else s)

/-- The transfer of a queue, where it may move bytes; one that has started goes on when the engine is frozen, which
starts no further entry (R256). -/
def movingRun (g : Group) (q : Nat) : Option CopyRun :=
  match (g.cq q).run with
  | some c => if c.code.isNone && c.faultWait.isNone then some c else none
  | none => none

/-- A claimed slot is filled once every byte is written (R267). -/
def fillClaim (g : Group) (c : CopyRun) : Group :=
  match c.claim, g.ring? (xSid c.desc) with
  | some n, some r => g.setRing (xSid c.desc) (r.fill n)
  | _, _ => g

/-- A pipe of the core has a word to issue, or an entry to choose, in a cycle that has come: in one cycle the pipes come
before the copy engine (R266). -/
def pipeDue (s : State) (core : Nat) (g : Group) (pipe : Nat) : Bool :=
  match dueCycle s core g pipe with
  | some c => decide (c ≤ s.now)
  | none => false

/-- A transfer whose destination is a stage slot claims the next one, in the order of all that wait for the ring (R266,
R267, R270). -/
def execCopyStageClaim (core q : Nat) (s : State) : Out :=
  .next (match s.grp? core with
  | none => s
  | some g =>
    match movingRun g q with
    | none => s
    | some c =>
      match g.ring? (xSid c.desc) with
      | none => s
      | some r =>
        if c.wantsSlot (xSid c.desc) && decide (0 < r.free) && g.stgFirst (xSid c.desc) false (stgKey c.since (4096 + q)) &&
            !pipeDue s core g 0 && !pipeDue s core g 1 then
          let c' := { c with claim := some r.claimc }
          let g := (g.setRing (xSid c.desc) r.claim).modCq q fun x => { x with run := some c' }
          s.setGrp core (if c.total = 0 then fillClaim g c' else g)
        else s)

/-- A block: source, destination, length (R254). -/
def blockOf (g : Group) (c : CopyRun) : W64 × W64 × Nat :=
  let len := xLen c.desc
  let b := c.pos % len
  let row := c.pos / len
  let p := row / c.rows
  let r := row % c.rows
  let src := c.src p r b
  let dst := if xDstg c.desc then
      ownSpad ((match c.claim, g.ring? (xSid c.desc) with
        | some n, some k => k.slotBase n
        | _, _ => 0) + row * len + b)
    else c.dst p r b
  (src, dst, min (len - b) (min (128 - src.toNat % 128) (128 - dst.toNat % 128)))

/-- The page of an engine's address, and whether a fault there is served (R230, R235). -/
def engPage (wins : List W64) (va : W64) : Nat :=
  match winTranslate wins .none va with
  | .ok (ia, _) => ia / 65536
  | .error _ => 0

/-- What an engine does with a fault at an address: it waits for the page's service, or stops (R256, R289,
R382). `wait` and `stop` record it. -/
def engFault (s : State) (g : Group) (wins : List W64) (va : W64) (cause : Nat) (servable : Bool)
    (wait : State → Nat → State) (stop : State → State) : State :=
  let f := priFilter s g.part g.ctxid ⟨cause, va, servable, engPage wins va, false, false⟩
  if f.servable then wait (startService s g.part g.ctxid f.page) f.page else stop s

def setRunOf (s : State) (core q : Nat) (f : CopyRun → CopyRun) : State :=
  s.modGrp core fun g => g.modCq q fun x => { x with run := x.run.map f }

/-- The code of an unservable fault on a piece (R256). -/
def pieceCode (cause : Nat) (isSrc : Bool) : Nat :=
  if cause = cTagMismatch then 0x0109
  else if isSrc ∧ cause = cPoison then 0x0107
  else if isSrc then 0x0101 else 0x0102

def pieceFault (s : State) (core q : Nat) (g : Group) (c : CopyRun) (va : W64) (cause : Nat) (servable isSrc : Bool) :
    State :=
  engFault s g c.wins va cause servable
    (fun s page => setRunOf s core q fun c => { c with faultWait := some page })
    (fun s => setRunOf s core q fun c => { c with code := some (pieceCode cause isSrc) })

/-- A page of another partition stops the command and freezes the engine (R256, R410). -/
def copyFreeze (s : State) (core q : Nat) (g : Group) (va : W64) : State :=
  let s := (setRunOf s core q fun c => { c with code := some 0x0104 }).modGrp core fun g => { g with cfrozen := true }
  reportFreeze s g 0x0104 va

/-- A block reads or writes a place, and a pipe has a word due in this cycle, which comes first in the wheel (R210). -/
def wheelWaits (s : State) (core : Nat) (g : Group) (src dst : W64) : Bool :=
  (isPlace src || isPlace dst) && (pipeDue s core g 0 || pipeDue s core g 1)

/-- The next block of a transfer is read whole, then written (R254); the last one of a stage slot fills it, after what the
pipes do to the ring in the same cycle (R210, R266). -/
def execCopyBlock (core q : Nat) (s : State) : Out :=
  .next (match s.grp? core with
  | none => s
  | some g =>
    match movingRun g q with
    | none => s
    | some c =>
      if c.total ≤ c.pos || (xDstg c.desc && c.claim.isNone) then s
      else
        let (src, dst, n) := blockOf g c
        if wheelWaits s core g src dst then s else
        match engRead s core g c.wins src n with
        | (s, .held) => s
        | (s, .iso) => copyFreeze s core q g src
        | (s, .fault k v _) => pieceFault s core q g c src k v true
        | (s, .ok bs) =>
          match engWrite s core g c.wins dst bs with
          | (s, .held) => s
          | (s, .iso) => copyFreeze s core q g dst
          | (s, .fault k v _) => pieceFault s core q g c dst k v false
          | (s, .ok ()) =>
            let s := setRunOf s core q fun c => { c with pos := c.pos + n }
            if c.pos + n < c.total then s else s.modGrp core fun g => fillClaim g c)

/-- A chain ends: its entry leaves the queue (R262). -/
def endChain (s : State) (core q : Nat) : State :=
  s.modGrp core fun g => g.modCq q fun c => { q := c.q.drop 1, run := none, walk := none }

/-- A chain record that cannot be read is reported, and the chain ends (R262) (DEDUCED, log 55). -/
def badChain (s : State) (core q : Nat) (g : Group) (p : W64) : State :=
  endChain (post s (groupFn s g) 3 0x0106 (recSeq g.lrec) p g.lid) core q

/-- The engine id of a core's engine (R257). -/
def engineId (s : State) (p core base : Nat) : Nat :=
  match s.logCore p core with
  | some (l, c) => base + 64 * l + c
  | none => base

/-- The channel of a queue, as it asks for the page of an address. -/
def chanAsker (s : State) (p core q : Nat) (va : W64) : Asker := ⟨engineId s p core 0x1000, va, BitVec.ofNat 32 q⟩

/-- The channel reads the record at its pointer; one whose page the firmware has declined cannot be read (R230, R262). -/
def readChain (s : State) (core q : Nat) (g : Group) (w : ChainWalk) : State :=
  let wins := (s.core core).wins
  if w.p.toNat % 64 ≠ 0 then badChain s core q g w.p
  else
    let me := chanAsker s g.part core q w.p
    match engRead s core g wins w.p 64 with
    | (s, .held) => s
    | (s, .iso) => reportFreeze (badChain (s.modGrp core fun g => { g with cfrozen := true }) core q g w.p) g 0x0104 w.p
    | (s, .fault k v _) =>
      if s.deniedTo g.part (engPage wins w.p) me then badChain (s.settle g.part me) core q g w.p
      else engFault s g wins w.p k v (fun s page => s.noteAsk g.part page me) fun s => badChain s core q g w.p
    | (s, .ok bs) =>
      let s := s.settle g.part me
      let r := dwordsOf bs
      if xOwn r then
        s.modGrp core fun g => g.modCq q fun c =>
          { c with run := some (startRun s core g r), walk := some { w with ownWait := false, readAt := s.now } }
      else s.modGrp core fun g => g.modCq q fun c => { c with walk := some { w with ownWait := true, readAt := s.now } }

/-- The walk of a queue that has no record in progress. -/
def idleWalk (g : Group) (q : Nat) : Option ChainWalk := if cqIdle g q then (g.cq q).walk else none

/-- The channel reads a record that it has not yet found to be the producer's (R262) (DEDUCED, log 54). -/
def execChainRecordRead (core q : Nat) (s : State) : Out :=
  .next (match s.grp? core with
  | none => s
  | some g =>
    match idleWalk g q with
    | some w => if w.ownWait then s else readChain s core q g w
    | none => s)

/-- The channel re-reads a record whose OWN was 0 (R262). -/
def execChainRereadTimer (core q : Nat) (s : State) : Out :=
  .next (match s.grp? core with
  | none => s
  | some g =>
    match idleWalk g q with
    | some w => if w.ownWait then readChain s core q g w else s
    | none => s)

/-! ## Completions -/

/-- Every write of the core's engines has been performed: no invalidation of theirs is in flight, and none is on its way to
the host (R251, R332). -/
def engineQuiet (s : State) (core : Nat) : Bool :=
  (s.invs.all fun i => i.src != byEngine core) && s.posted.all fun x => x.writer != byEngine core

/-- A transfer has nothing left to do but its completion. -/
def CopyRun.over (c : CopyRun) : Bool :=
  c.code.isSome || (decide (c.total ≤ c.pos) && (!xDstg c.desc || c.claim.isSome))

/-- The record of a chain is done: OWN is cleared, and the walk goes on or ends (R262). -/
def nextRecord (s : State) (core q : Nat) (g : Group) (w : ChainWalk) (c : CopyRun) : State × HAns Unit :=
  match engWrite s core g c.wins (w.p + 0x38) [0] with
  | (s, .ok ()) =>
    if xNext c.desc = 0 || w.stop then (endChain s core q, .ok ())
    else
      (s.modGrp core fun g => g.modCq q fun x =>
        { x with run := none, walk := some { w with p := xNext c.desc, ownWait := false } }, .ok ())
  | (s, .held) => (s, .held)
  | (s, .fault k v f) =>
    let me := chanAsker s g.part core q (w.p + 0x38)
    if v && canServe s g.part (groupFn s g) (engPage c.wins (w.p + 0x38)) me then (s, .fault k v f)
    else (badChain (s.settle g.part me) core q g w.p, .ok ())
  | (s, .iso) => (badChain s core q g w.p, .ok ())

/-- A copy command's completion (R258), after which its entry, or its record, is done; one that is refused freezes the
engine (R410). -/
def completeCopy (s : State) (core q : Nat) : State :=
  match s.grp? core with
  | none => s
  | some g =>
    match (g.cq q).run with
    | none => s
    | some c =>
      if !c.over || c.faultWait.isSome || !engineQuiet s core then s
      else
        match complete s g.part (segOf core) core c.wins (xComp c.desc) (xWeight c.desc) (c.code.getD 0)
            (engineId s g.part core 0x1000) (xCseq c.desc) (groupFn s g) with
        | .held => s
        | .wait s page =>
          setRunOf (startService s g.part g.ctxid page) core q fun c => { c with faultWait := some page }
        | .iso s va =>
          let s := reportFreeze (s.modGrp core fun g => { g with cfrozen := true }) g 0x0104 va
          s.modGrp core fun g => g.modCq q fun x => { q := x.q.drop 1, run := none, walk := none }
        | .done s' =>
          match (g.cq q).walk with
          | none => s'.modGrp core fun g => g.modCq q fun x => { x with q := x.q.drop 1, run := none }
          | some w =>
            match nextRecord s' core q g w c with
            | (s'', .ok ()) => s''
            | (_, .fault _ _ _) =>
              let page := engPage c.wins (w.p + 0x38)
              setRunOf (startService (s.noteAsk g.part page (chanAsker s g.part core q (w.p + 0x38))) g.part g.ctxid page) core q
                fun c => { c with faultWait := some page }
            | _ => s

/-! ## QFENCE performed (R264) -/

def CqEntry.isFence (id : Nat) : CqEntry → Bool
  | .fence n => n == id
  | _ => false

/-- A rank belongs to a core group. -/
def CollRank.ofGroup (g : Group) (x : CollRank) : Bool :=
  !x.remote && x.key.part == g.part && x.lid == g.lid && x.linear == g.linear

/-- A fence is the first entry of every queue that it names, and none of their engines is frozen; a command that the core
group's queue has started runs on elsewhere until it ends (R264, R370). -/
def fenceReady (s : State) (core : Nat) (g : Group) (f : QFence) : Bool :=
  ((List.range 4).all fun q => !bit f.mask q || (!g.cfrozen && (match (g.cq q).q with
    | e :: _ => CqEntry.isFence f.id e
    | [] => false))) &&
  (!bit f.mask 4 || (!g.mx.frozen && (match g.mx.q with
    | m :: _ => m.cmd == .fence f.id
    | [] => false))) &&
  (!bit f.mask 5 || (!s.ringFrozen (segOf core) g.part && !(s.ranks.any (CollRank.ofGroup g)) && !g.rqBusy && (match g.rq with
    | r :: _ => r == .fence f.id
    | [] => false)))

/-- A fence leaves its queues. -/
def dropFence (g : Group) (f : QFence) : Group :=
  { g with
    cqs := g.cqs.map fun c => { c with q := c.q.filter fun e => !CqEntry.isFence f.id e },
    mx := { g.mx with q := g.mx.q.filter fun m => m.cmd != .fence f.id },
    rq := g.rq.filter (· != .fence f.id),
    fences := g.fences.filter fun x => x.id != f.id }

/-- A fence is performed: 1 is added to its count (R264). -/
def execQfencePerformed (core : Nat) (s : State) : Out :=
  .next (match s.grp? core with
  | none => s
  | some g =>
    match g.fences.find? (fenceReady s core g) with
    | none => s
    | some f =>
      match complete s g.part (segOf core) core (s.core core).wins f.comp 1 0 0 0 (groupFn s g) with
      | .held => s
      | .wait s page => startService s g.part g.ctxid page
      | .iso s va =>
        reportFreeze (s.modGrp core fun g => { dropFence g f with cfrozen := true }) g 0x0104 va
      | .done s => s.modGrp core fun g => dropFence g f)

end Sys2Proof.Machine
end

