-- ==== Sys2Proof/Machine/Matrix.lean ====
section
/-! DEFINITION. The matrix engine (R274-R307): operand integers, group results, checksums, the governor,
fetches and pins, MMA, MDRAIN, MPREC and MZERO as its queue performs them. -/

namespace Sys2Proof.Machine

/-! ## Blocks (R298, R300) -/

def mM (b : List W64) : Nat := (bits (recDw b 3) 0 8).toNat
def mN (b : List W64) : Nat := (bits (recDw b 3) 8 8).toNat
def mK (b : List W64) : Nat := (bits (recDw b 3) 16 24).toNat
def mBank (b : List W64) : Bool := bit (recDw b 4) 26
def mComp (b : List W64) : W64 := recDw b 5
def mWeight (b : List W64) : W32 := bits (recDw b 6) 0 32
def mCseq (b : List W64) : W32 := bits (recDw b 6) 32 32

/-- One operand of an MMA as its block and format slot give it. -/
structure Side where
  src : W64
  stride : Nat
  fmt : Nat
  stg : Bool
  sid : Nat
  reuse : Bool
  width : Nat
  count : Nat
  code : Nat
  glog : Nat
  slotWidth : Nat
  zp0 : Bool
deriving DecidableEq, Repr

/-- Operand A (`x = 0`) or B (`x = 1`) of a block. -/
def sideOf (g : Group) (b : List W64) (x : Nat) : Side :=
  let d4 := recDw b 4
  let f := (bits d4 (8 * x) 3).toNat
  let slot := g.fslot f
  { src := recDw b x, stride := (bits (recDw b 2) (32 * x) 32).toNat, fmt := f,
    stg := bit d4 (8 * x + 3), sid := (bits d4 (8 * x + 4) 3).toNat, reuse := bit d4 (8 * x + 7),
    width := (bits d4 (16 + 5 * x) 5).toNat, count := if x = 0 then mM b else mN b,
    code := (bits slot 0 8).toNat, glog := (bits slot 8 8).toNat, slotWidth := (bits slot 16 8).toNat,
    zp0 := bit slot 24 }

def Side.g (x : Side) : Nat := 2 ^ x.glog

/-- RSZ (R288). -/
def Side.rsz (x : Side) : Nat :=
  match x.code with
  | 0x05 => 4 + x.g
  | 0x06 => 4 + x.g / 2
  | 0x04 => x.g
  | 0x07 => x.g / 2
  | 0x01 => 4 * x.g
  | _ => 2 * x.g

/-- Alignment of SRC (R298). -/
def Side.align (x : Side) : Nat :=
  match x.code with
  | 0x05 | 0x06 | 0x01 => 4
  | 0x02 | 0x03 => 2
  | _ => 1

/-- The widest width of a code (R42). -/
def Side.maxWidth (x : Side) : Nat :=
  match x.code with
  | 0x04 | 0x05 => 8
  | 0x06 | 0x07 => 4
  | _ => 16

/-- The resolved width (R276). -/
def Side.resolve (x : Side) (mpr : Nat) : Nat :=
  if x.width ≠ 0 then x.width else if mpr ≠ 0 then mpr else x.slotWidth

/-- Item 1 of R298 for one operand; the stride of an operand with REUSE, and its SRC, are checked like any other (R291)
(DEDUCED, log 58). -/
def Side.malformed (x : Side) : Bool :=
  decide (x.stride % 4 ≠ 0) || (x.stg && decide (x.stride ≠ 0)) || ((x.stg || x.reuse) && decide (x.src ≠ 0)) ||
  decide (x.src.toNat % x.align ≠ 0) || (x.stg && x.reuse)

/-- Item 4 of R298. -/
def Side.stageBad (g : Group) (x : Side) : Bool :=
  x.stg && (match g.ring? x.sid with
    | some r => decide (r.slotsz < x.count * x.rsz)
    | none => true)

/-- Item 5 of R298 (R291). -/
def Side.reuseBad (x : Side) (c : Option Coll) (w k : Nat) : Bool :=
  x.reuse && (match c with
    | some c => !(c.fmt == x.fmt && c.width == w && c.k == k && c.m == x.count)
    | none => true)

/-- The address of a group of a row or column (R288). -/
def Side.addr (x : Side) (i t : Nat) : W64 := x.src + BitVec.ofNat 64 (i * x.stride + t * x.rsz)

/-- Item 6 of R298: windows and rights; a place fails. -/
def Side.windowsOk (s : State) (core : Nat) (g : Group) (wins : List W64) (groups : Nat) (x : Side) : Bool :=
  x.stg || x.reuse || (List.range x.count).all fun i =>
    let va := x.addr i 0
    !isPlace va && !isPlace (va + BitVec.ofNat 64 (groups * x.rsz - 1)) &&
      rangeChk s core g wins false va (groups * x.rsz)

/-! ## Micro-tiles -/

def tileRow (u : Nat) : Nat := 32 * (u / 4)
def tileCol (u : Nat) : Nat := 32 * (u % 4)

/-- A micro-tile that covers a cell within M × N (R286). -/
def tileActive (m n u : Nat) : Bool := decide (tileRow u < m) && decide (tileCol u < n)

def inactiveMask (m n : Nat) : BitVec 16 :=
  (List.range 16).foldl (fun k u => if tileActive m n u then k else k ||| (1 <<< u)) 0

/-- Rows, or columns, of a micro-tile within a limit. -/
def tileSpan (base lim : Nat) : List Nat := (List.range (min 32 (lim - base))).map (base + ·)

/-! ## Operand integers (R277-R281) -/

/-- A group of one row or column as the array takes it: integers, zero point, and the scale m * 2^e; none
where it is non-finite. -/
structure OpGroup where
  q : List Int
  z : Int
  sm : Int
  se : Int
deriving DecidableEq, Repr

def nib (b : Byte) (hi : Bool) : Nat := if hi then b.toNat / 16 else b.toNat % 16

/-- Raw element k of a packed run (R175). -/
def rawElem (wide : Bool) (bs : List Byte) (k : Nat) : Nat :=
  if wide then (bs.getD k 0).toNat else nib (bs.getD (k / 2) 0) (k % 2 == 1)

/-- A raw element as signed. -/
def signedElem (wide : Bool) (v : Nat) : Int :=
  if wide then (if v < 128 then (v : Int) else (v : Int) - 256) else (if v < 8 then (v : Int) else (v : Int) - 16)

/-- RNE(v / 2^d), clamped (R279). -/
def reduceElem (d : Nat) (lo hi v : Int) : Int := clampInt (rneDiv v (2 ^ d)) lo hi

/-- An integer group (R278, R279). -/
def intGroup (signed wide zp0 : Bool) (g w : Nat) (bs : List Byte) : Option OpGroup :=
  let st := if wide then 8 else 4
  let d := st - w
  let lo : Int := if signed then -(2 ^ (w - 1) : Nat) else 0
  let hi : Int := if signed then (2 ^ (w - 1) : Nat) - 1 else (2 ^ w : Nat) - 1
  let red (v : Int) : Int := if d = 0 then v else reduceElem d lo hi v
  if signed then
    some ⟨(List.range g).map fun k => red (signedElem wide (rawElem wide bs k)), 0, 1, d⟩
  else
    let hd := bs.take 4
    let el := bs.drop 4
    let z : Int := if zp0 then 0 else if wide then ((hd.getD 2 0).toNat : Int) else ((hd.getD 2 0).toNat % 16 : Nat)
    let q := (List.range g).map fun k => red (rawElem wide el k : Nat)
    match unpack .f16 (natOfBytes (hd.take 2)) with
    | .nan _ | .inf _ => none
    | .zero _ => some ⟨q, red z, 0, 0⟩
    | .fin neg m e => some ⟨q, red z, if neg then -(m : Int) else m, e + d⟩

/-- ⌊log2 |x|⌋ of a finite non-zero value. -/
def fvLog (v : FV) : Option Int :=
  match v with
  | .fin _ m e => some (e + Nat.log2 m)
  | _ => none

/-- RNE(m × 2^e / 2^k) (DEDUCED, log 60). -/
def scaleRne (neg : Bool) (m : Nat) (e k : Int) : Int :=
  let v : Int := if neg then -(m : Int) else m
  if k ≤ e then v * 2 ^ (e - k).toNat else rneDiv v (2 ^ (k - e).toNat)

/-- A float group, aligned on its own (R280, R281). -/
def floatGroup (t : FTy) (size g w : Nat) (bs : List Byte) : Option OpGroup :=
  let xs := (List.range g).map fun k => unpack t (natOfBytes ((bs.drop (size * k)).take size))
  if xs.any fun x => x.isNan || x.isInf then none
  else
    match xs.filterMap fvLog with
    | [] => some ⟨xs.map fun _ => 0, 0, 1, 0⟩
    | e0 :: es =>
      let k := es.foldl max e0 - w + 2
      let lo : Int := -(2 ^ (w - 1) : Nat)
      let hi : Int := (2 ^ (w - 1) : Nat) - 1
      some ⟨xs.map fun x => match x with
        | .fin neg m e => clampInt (scaleRne neg m e k) lo hi
        | _ => 0, 0, 1, k⟩

/-- A group of an operand from its bytes at a width. -/
def Side.group (x : Side) (w : Nat) (bs : List Byte) : Option OpGroup :=
  match x.code with
  | 0x04 => intGroup true true false x.g w bs
  | 0x07 => intGroup true false false x.g w bs
  | 0x05 => intGroup false true x.zp0 x.g w bs
  | 0x06 => intGroup false false x.zp0 x.g w bs
  | 0x01 => floatGroup .f32 4 x.g w bs
  | 0x02 => floatGroup .f16 2 x.g w bs
  | _ => floatGroup .b16 2 x.g w bs

/-! ## One group (R282-R285) -/

def dotInt : List Int → List Int → Int
  | a :: as, b :: bs => a * b + dotInt as bs
  | _, _ => 0

def sumInt : List Int → Int := fun l => l.foldl (· + ·) 0

/-- The partial P of a cell (R282); a non-finite group enters the array as zeros. -/
def partialOf (a b : Option OpGroup) : Int :=
  match a, b with
  | some a, some b =>
    dotInt a.q b.q - b.z * sumInt a.q - a.z * sumInt b.q + (a.q.length : Int) * a.z * b.z
  | _, _ => 0

/-- The group result, and whether it is counted in NONFIN (R281, R283). -/
def groupResult (a b : Option OpGroup) (p : Int) : Nat × Bool :=
  match a, b with
  | some a, some b =>
    let x := (roundInt .f32 .rn (p * a.sm * b.sm) (a.se + b.se) false).1
    (x, (unpack .f32 x).isInf)
  | _, _ => (nanBits .f32, true)

/-- One cell's update (R284). -/
def cellUpdate (c : W32 × W32) (x : Nat) : W32 × W32 :=
  let (s, e) := (twoSum c.1.toNat x).1
  (BitVec.ofNat 32 s, BitVec.ofNat 32 (fAdd .f32 .rn c.2.toNat e).1)

/-- The centred elements of a group. -/
def centred (a : Option OpGroup) : List Int :=
  match a with
  | some a => a.q.map (· - a.z)
  | none => []

/-- The checksum of a row against the columns of its tile, or of a column against its rows (R285). -/
def checksum (a : Option OpGroup) (others : List (Option OpGroup)) (g : Nat) : Int :=
  let sums := (List.range g).map fun k => sumInt (others.map fun o => (centred o).getD k 0)
  dotInt (centred a) sums

def bankOf' (m : Matrix) (b : Bool) : List (Nat × (W32 × W32)) := if b then m.bank1 else m.bank0

def Matrix.setBank (m : Matrix) (b : Bool) (x : List (Nat × (W32 × W32))) : Matrix :=
  if b then { m with bank1 := x } else { m with bank0 := x }

/-- A cell of a bank: (+0, +0) where it is not listed. -/
def bankCell (l : List (Nat × (W32 × W32))) (k : Nat) : W32 × W32 := alGet (0, 0) l k

def setCell (l : List (Nat × (W32 × W32))) (k : Nat) (v : W32 × W32) : List (Nat × (W32 × W32)) :=
  if v = (0, 0) then alDel k l else alSet k v l

/-- What the comparison of a tile's partials with its checksums decides (R285). -/
inductive TileCheck where
  | ok
  | fix (i j : Nat) (d : Int)
  | lane
  | fail
deriving DecidableEq, Repr

/-- From the rows and columns that differ, with their amounts. -/
def tileVerdict (rows cols : List (Nat × Int)) : TileCheck :=
  match rows, cols with
  | [], [] => .ok
  | [(i, d)], [(j, e)] => if d = e then .fix i j d else .fail
  | [_], [] => .lane
  | [], [_] => .lane
  | _, _ => .fail

/-- An error of the array in a partial (R285). -/
def cellError (fs : List MxFault) (i j : Nat) : Int :=
  fs.foldl (fun d f => match f with | .cell a b e => if a = i ∧ b = j then d + e else d | _ => d) 0

def rowError (fs : List MxFault) (u i : Nat) : Int :=
  fs.foldl (fun d f => match f with | .row t a e => if t = u ∧ a = i then d + e else d | _ => d) 0

def colError (fs : List MxFault) (u j : Nat) : Int :=
  fs.foldl (fun d f => match f with | .col t a e => if t = u ∧ a = j then d + e else d | _ => d) 0

/-- The errors that a tile's step takes. -/
def faultOfTile (u : Nat) : MxFault → Bool
  | .cell i j _ => i / 32 == u / 4 && j / 32 == u % 4
  | .row t _ _ | .col t _ _ => t == u

/-- The operands of a tile, by row and by column number. -/
structure TileOps where
  a : List (Nat × Option OpGroup)
  b : List (Nat × Option OpGroup)

/-- A tile's partials as the array formed them, by row and column. -/
def tilePartials (o : TileOps) (fs : List MxFault) : List (Nat × Nat × Int) :=
  o.a.flatMap fun (i, a) => o.b.map fun (j, b) => (i, j, partialOf a b + cellError fs i j)

/-- The comparison of R285. -/
def tileCheck (o : TileOps) (fs : List MxFault) (u g : Nat) (ps : List (Nat × Nat × Int)) : TileCheck :=
  let rows := o.a.filterMap fun (i, a) =>
    let d := sumInt (ps.filterMap fun (r, _, p) => if r = i then some p else none) -
      (checksum a (o.b.map (·.2)) g + rowError fs u i)
    if d = 0 then none else some (i, d)
  let cols := o.b.filterMap fun (j, b) =>
    let d := sumInt (ps.filterMap fun (_, c, p) => if c = j then some p else none) -
      (checksum b (o.a.map (·.2)) g + colError fs u j)
    if d = 0 then none else some (j, d)
  tileVerdict rows cols

/-- The updates of a tile's cells: the bank, and how many results were not finite (R283, R284). -/
def tileUpdate (o : TileOps) (ps : List (Nat × Nat × Int)) (fix : Option (Nat × Nat × Int))
    (bank : List (Nat × (W32 × W32))) : List (Nat × (W32 × W32)) × Nat :=
  ps.foldl (fun (bk, n) (i, j, p) =>
    let p := match fix with
      | some (fi, fj, d) => if fi = i ∧ fj = j then p - d else p
      | none => p
    let r := groupResult (((alFind o.a i).getD none)) (((alFind o.b j).getD none)) p
    let k := 128 * i + j
    (setCell bk k (cellUpdate (bankCell bk k) r.1), if r.2 then n + 1 else n)) (bank, 0)

/-! ## The queue (R294) -/

def MqCmd.bank? : MqCmd → Option Bool
  | .mma b => some (mBank b)
  | .mdrain b => some (bit (recDw b 1) 48)
  | .mzero b => some b
  | _ => none

def MqCmd.isMma : MqCmd → Bool
  | .mma _ => true
  | _ => false

def MqCmd.isDrain : MqCmd → Bool
  | .mdrain _ => true
  | _ => false

def MqCmd.isMprec : MqCmd → Bool
  | .mprec _ _ => true
  | _ => false

def MqCmd.isFence : MqCmd → Bool
  | .fence _ => true
  | _ => false

/-- An entry may start behind the entries before it (R264, R294). -/
def mayStart (before : List MqItem) (c : MqCmd) : Bool :=
  before.all fun m =>
    !m.cmd.isFence &&
    (match c.bank?, m.cmd.bank? with
     | some a, some b => a != b
     | _, _ => true) &&
    (match c with
     | .mma _ => !m.cmd.isMprec && !(m.cmd.isMma && m.st == .waiting)
     | .mprec _ _ => !m.cmd.isMprec && !(m.cmd.isMma && m.st == .waiting)
     | .mdrain _ => !(m.cmd.isDrain && m.st == .waiting)
     | _ => true)

/-- The first waiting entry of a kind that may start, by its place (DEDUCED, log 62). -/
def startable (q : List MqItem) (p : MqCmd → Bool) : Option (Nat × MqCmd) :=
  (q.zipIdx.find? fun (m, i) => p m.cmd && m.st == .waiting && mayStart (q.take i) m.cmd).map fun (m, i) => (i, m.cmd)

def Group.modMx (g : Group) (f : Matrix → Matrix) : Group := { g with mx := f g.mx }

def modMx (s : State) (core : Nat) (f : Matrix → Matrix) : State := s.modGrp core fun g => g.modMx f

def Matrix.modItem (m : Matrix) (i : Nat) (f : MqItem → MqItem) : Matrix := { m with q := modNth f i m.q }

/-- The item in progress of a kind, by its place. -/
def runningItem (q : List MqItem) (p : MqCmd → Bool) : Option (Nat × MqItem) :=
  (q.zipIdx.find? fun (m, _) => p m.cmd && m.st == .running).map fun (m, i) => (i, m)

/-! ## MMA -/

/-- The first check of R298 that fails; a width above the slot's limit (R276) is found with item 2, before K is looked at
(DEDUCED, log 58). -/
def mmaCheck (s : State) (core : Nat) (g : Group) (b : List W64) : Option Nat :=
  let x := sideOf g b 0
  let y := sideOf g b 1
  let m := g.mx
  let wa := x.resolve m.wa.toNat
  let wb := y.resolve m.wb.toNat
  let ok1 := bits (recDw b 3) 40 24 == 0 && bits (recDw b 4) 27 37 == 0 && recDw b 7 == 0 &&
    decide (1 ≤ mM b) && decide (mM b ≤ 128) && decide (1 ≤ mN b) && decide (mN b ≤ 128) && decide (mK b ≠ 0)
  if !ok1 || x.malformed || y.malformed then some 0x0203
  else if x.code = 0 ∨ y.code = 0 ∨ x.glog ≠ y.glog ∨ wa = 0 ∨ x.maxWidth < wa ∨ wb = 0 ∨ y.maxWidth < wb then
    some 0x0204
  else if mK b % x.g ≠ 0 then some 0x0203
  else if x.stageBad g || y.stageBad g then some 0x0205
  else if x.reuseBad m.collA wa (mK b) || y.reuseBad m.collB wb (mK b) then some 0x0206
  else
    let n := mK b / x.g
    if Side.windowsOk s core g (s.core core).wins n x && Side.windowsOk s core g (s.core core).wins n y then none
    else some 0x0209

/-- Bytes of an operand small enough for the collector (R291). -/
def keepOf (x : Side) (k : Nat) : Option (List (List Byte)) :=
  if x.count * x.rsz * (k / x.g) ≤ 65536 then some [] else none

/-- An MMA ends with a code (R291, R296). -/
def endMma (m : Matrix) (i code : Nat) (ca cb : Option Coll) : Matrix :=
  { m.modItem i (fun x => { x with st := .ended code }) with
    mma := none, mrun := false,
    collA := if code = 0 then ca else none, collB := if code = 0 then cb else none }

/-- An entry starts with the windows in force, which it keeps to its end, one that fails a check too (R81). -/
def Matrix.startItem (m : Matrix) (i : Nat) (wins : List W64) : Matrix :=
  m.modItem i fun x => { x with st := .running, wins := wins }

/-- An MMA entry starts (R276, R298) (DEDUCED, log 59). -/
def execMmaStart (core : Nat) (s : State) : Out :=
  .next (match s.grp? core with
  | none => s
  | some g =>
    if g.mx.frozen || g.mx.mma.isSome then s
    else
      match startable g.mx.q MqCmd.isMma with
      | some (i, .mma b) =>
        match mmaCheck s core g b with
        | some c => modMx s core fun m => endMma (m.startItem i (s.core core).wins) i c none none
        | none =>
          let x := sideOf g b 0
          let y := sideOf g b 1
          modMx s core fun m =>
            { m.startItem i (s.core core).wins with
              kgroup := 0, done := inactiveMask (mM b) (mN b), mrun := true,
              mma := some ⟨x.resolve m.wa.toNat, y.resolve m.wb.toNat, [], false, false, none, none, none, [], none,
                keepOf x (mK b), keepOf y (mK b), s.now⟩ }
      | _ => s)

/-! ## Fetching (R288-R291) -/

/-- Reads a span piece by piece, none crossing a 128-byte line. -/
def engSpan (s : State) (core : Nat) (g : Group) (wins : List W64) :
    Nat → W64 → Nat → State × HAns (List Byte) × W64
  | 0, va, _ => (s, .ok [], va)
  | f + 1, va, n =>
    if n = 0 then (s, .ok [], va)
    else
      let k := min n (128 - va.toNat % 128)
      match engRead s core g wins va k with
      | (s, .ok bs) =>
        match engSpan s core g wins f (va + BitVec.ofNat 64 k) (n - k) with
        | (s, .ok r, v) => (s, .ok (bs ++ r), v)
        | r => r
      | (s, a) => (s, a, va)

/-- Bytes of rows of an operand for a group. -/
def fetchRows (s : State) (core : Nat) (g : Group) (wins : List W64) (x : Side) (t : Nat) :
    List Nat → State × HAns (List (List Byte)) × W64
  | [] => (s, .ok [], 0)
  | i :: r =>
    match engSpan s core g wins (x.rsz / 128 + 2) (x.addr i t) x.rsz with
    | (s, .ok bs, _) =>
      match fetchRows s core g wins x t r with
      | (s, .ok l, v) => (s, .ok (bs :: l), v)
      | q => q
    | (s, .held, v) => (s, .held, v)
    | (s, .fault c v f, a) => (s, .fault c v f, a)
    | (s, .iso, v) => (s, .iso, v)

/-- Rows of a side, from the collector, a stage slot or memory. -/
def sideRows (s : State) (core : Nat) (g : Group) (wins : List W64) (x : Side) (c : Option Coll) (slot : Option Nat)
    (t : Nat) (rows : List Nat) : State × HAns (List (List Byte)) × W64 :=
  if x.reuse then
    (s, .ok (rows.map fun i => match c with | some c => c.rows.getD (t * x.count + i) [] | none => []), 0)
  else if x.stg then
    match slot, g.ring? x.sid with
    | some n, some r => (s, .ok (rows.map fun i => memReadN g.spad (r.slotBase n + i * x.rsz) x.rsz), 0)
    | _, _ => (s, .held, 0)
  else fetchRows s core g wins x t rows

/-- Lines that a side's rows take at their homes, as partition line keys. -/
def sideLines (g : Group) (wins : List W64) (x : Side) (t : Nat) (rows : List Nat) : List Nat :=
  if x.reuse || x.stg then []
  else rows.flatMap fun i =>
    let va := x.addr i t
    (List.range ((va.toNat % 128 + x.rsz + 127) / 128)).filterMap fun k =>
      match winTranslate wins .none (va + BitVec.ofNat 64 (128 * k)) with
      | .ok (ia, _) => some (lineKey g.part ia)
      | .error _ => none

/-- The home slice of a line key (R84). -/
def sliceOfKey (s : State) (key : Nat) : Nat :=
  let p := key / 2 ^ 41
  let ia := key % 2 ^ 41 * 128
  match hme s p ia with
  | some h => homeSlice s p h ia
  | none => 128

/-- Lines pinned in a slice by every matrix engine (R289). -/
def pinnedIn (s : State) (slice : Nat) : Nat :=
  (s.cores.map fun (_, c) =>
    match c.grp.bind fun g => g.mx.mma with
    | some r => (r.pins.filter fun (sl, _) => sl == slice).length
    | none => 0).foldl (· + ·) 0

/-- The new pins of a fetch, where the slices have room for them: 12288 lines each (R289). -/
def takePins (s : State) (r : MmaRun) (keys : List Nat) : Option (List (Nat × Nat)) :=
  let new := (dedup keys).filterMap fun k =>
    if r.pins.any fun (_, x) => x == k then none else some (sliceOfKey s k, k)
  if new.all fun (sl, _) => decide (pinnedIn s sl + (new.filter fun (x, _) => x == sl).length ≤ 12288) then some new
  else none

/-- An operand's slot for the group in progress is taken, in the order of all that wait for the ring, and behind what the
pipes do in the same cycle (R210, R266, R270, R290). -/
def takeSlot (due : Bool) (since : Nat) (g : Group) (x : Side) (have_ : Option Nat) : Group × Option Nat :=
  if !x.stg || have_.isSome then (g, have_)
  else
    match g.ring? x.sid with
    | some r =>
      if r.has true && !due && g.stgFirst x.sid true (mxStgKey since) then (g.setRing x.sid r.take, some r.takec)
      else (g, none)
    | none => (g, none)

/-- The MMA of a core in progress, with its place in the queue and its block; one that has started goes on when the engine
is frozen, which starts no entry (R410). -/
def mmaNow (g : Group) : Option (Nat × MqItem × List W64 × MmaRun) :=
  match runningItem g.mx.q MqCmd.isMma, g.mx.mma with
  | some (i, m), some r =>
    match m.cmd with
    | .mma b => if r.faultWait.isNone then some (i, m, b, r) else none
    | _ => none
  | _, _ => none

def setMmaRun (s : State) (core : Nat) (f : MmaRun → MmaRun) : State :=
  modMx s core fun m => { m with mma := m.mma.map f }

/-- A page of another partition ends the command and freezes the engine (R289, R410). -/
def mxFreeze (s : State) (core : Nat) (g : Group) (va : W64) (f : Matrix → Matrix) : State :=
  reportFreeze (modMx s core fun m => { f m with frozen := true }) g 0x020B va

/-- The code of an unservable fetch fault (R289). -/
def fetchCode (cause : Nat) : Nat :=
  if cause = cPoison then 0x0207 else if cause = cTagMismatch then 0x020A else 0x0202

/-- The bytes of a micro-tile are fetched; `pin` where the lines are pinned. -/
def fetchTile (s : State) (core tile : Nat) (g : Group) (i : Nat) (m : MqItem) (b : List W64) (pins : List (Nat × Nat)) :
    State :=
  match g.mx.mma with
  | none => s
  | some r =>
    let x := sideOf g b 0
    let y := sideOf g b 1
    let t := g.mx.kgroup
    let stop (s : State) (va : W64) (c : Nat) (v : Bool) : State :=
      engFault s g m.wins va c v
        (fun s page => setMmaRun s core fun r => { r with faultWait := some page })
        (fun s => modMx s core fun k => endMma k i (fetchCode c) none none)
    match sideRows s core g m.wins x g.mx.collA r.slotA t (tileSpan (tileRow tile) (mM b)) with
    | (s, .held, _) => s
    | (s, .fault c v _, va) => stop s va c v
    | (s, .iso, va) => mxFreeze s core g va fun k => endMma k i 0x020B none none
    | (s, .ok la, _) =>
      match sideRows s core g m.wins y g.mx.collB r.slotB t (tileSpan (tileCol tile) (mN b)) with
      | (s, .held, _) => s
      | (s, .fault c v _, va) => stop s va c v
      | (s, .iso, va) => mxFreeze s core g va fun k => endMma k i 0x020B none none
      | (s, .ok lb, _) =>
        setMmaRun s core fun r =>
          { r with fetched := r.fetched ++ [⟨tile, la, lb⟩], pins := r.pins ++ pins,
                   pinWait := if r.pinWait.map (·.1) = some tile then none else r.pinWait }

/-- A micro-tile whose bytes are still to be fetched for the group in progress. -/
def needsFetch (m : Matrix) (b : List W64) (r : MmaRun) (tile : Nat) : Bool :=
  decide (tile < 16) && tileActive (mM b) (mN b) tile && !bit m.done tile && !(r.fetched.any fun x => x.tile == tile)

/-- Stage slots of the group in progress are taken, as far as they are filled (R290). -/
def takeSlots (s : State) (core : Nat) (g : Group) (b : List W64) (r : MmaRun) : State :=
  let due := pipeDue s core g 0 || pipeDue s core g 1
  let (g1, sa) := takeSlot due r.since g (sideOf g b 0) r.slotA
  let (g2, sb) := takeSlot due r.since g1 (sideOf g b 1) r.slotB
  s.setGrp core (g2.modMx fun m => { m with mma := m.mma.map fun r => { r with slotA := sa, slotB := sb } })

/-- The tile fetch unit reads, and pins, the operand lines of a micro-tile (R288-R291). -/
def execOperandFetch (core tile : Nat) (s : State) : Out :=
  .next (match s.grp? core with
  | none => s
  | some g =>
    match mmaNow g with
    | none => s
    | some (i, m, b, r) =>
      if !needsFetch g.mx b r tile || r.pinWait.isSome then s
      else
        let s := takeSlots s core g b r
        match s.grp? core with
        | none => s
        | some g =>
          let keys := sideLines g m.wins (sideOf g b 0) g.mx.kgroup (tileSpan (tileRow tile) (mM b)) ++
            sideLines g m.wins (sideOf g b 1) g.mx.kgroup (tileSpan (tileCol tile) (mN b))
          match takePins s r keys with
          | none => setMmaRun s core fun r => { r with pinWait := some (tile, s.now) }
          | some pins => fetchTile s core tile g i m b pins)

/-- A fetch that waits for pins: once they have room, or after 1024 cycles unpinned (R289). -/
def execPinWaitTimeout (core : Nat) (s : State) : Out :=
  .next (match s.grp? core with
  | none => s
  | some g =>
    match mmaNow g with
    | none => s
    | some (i, m, b, r) =>
      match r.pinWait with
      | none => s
      | some (tile, since) =>
        let keys := sideLines g m.wins (sideOf g b 0) g.mx.kgroup (tileSpan (tileRow tile) (mM b)) ++
          sideLines g m.wins (sideOf g b 1) g.mx.kgroup (tileSpan (tileCol tile) (mN b))
        match takePins s r keys with
        | some pins => fetchTile s core tile g i m b pins
        | none => if since + 1024 ≤ s.now then fetchTile s core tile g i m b [] else s)

/-! ## The governor (R293) -/

/-- The window of a reading of CLOCK. -/
def winOf (s : State) (core : Nat) (g : Group) : Nat := s.clock core g.clockOff / 256

/-- A new window begins with nothing charged. -/
def Matrix.newWindow (m : Matrix) (w : Nat) : Matrix :=
  if m.winNo = w then m
  else { m with winNo := w, winCharge := 0, winAny := false, mma := m.mma.map fun r => { r with held := false } }

/-- A new budget window begins, and held group steps may start (R293). -/
def execGovernorWindow (core : Nat) (s : State) : Out :=
  .next (match s.grp? core with
  | none => s
  | some g => s.setGrp core (g.modMx fun m => m.newWindow (winOf s core g)))

/-- The charge of the group step in progress. -/
def stepCharge (m : Matrix) (r : MmaRun) (g : Nat) : Nat :=
  ((List.range 16).filter fun u => !bit m.done u).length * 1024 * g * r.wa * r.wb

/-- The group step starts, or is held to the next window (R293). -/
def admitted (s : State) (core : Nat) (g : Group) (gs : Nat) : Matrix :=
  let m := g.mx.newWindow (winOf s core g)
  match m.mma with
  | none => m
  | some r =>
    if r.admitted || r.held then m
    else
      let c := stepCharge m r gs
      if !m.winAny || decide (m.winCharge + c ≤ s.mbudget g.part) then
        { m with winCharge := m.winCharge + c, winAny := true, bpused := m.bpused + BitVec.ofNat 64 c,
                 mma := some { r with admitted := true } }
      else { m with gstall := m.gstall + 1, mma := some { r with held := true } }

/-! ## A micro-tile's update (R299) -/

/-- The operands of a fetched micro-tile. -/
def tileOps (x y : Side) (wa wb : Nat) (d : TileData) : TileOps :=
  ⟨(d.a.zipIdx).map fun (bs, i) => (tileRow d.tile + i, x.group wa bs),
   (d.b.zipIdx).map fun (bs, j) => (tileCol d.tile + j, y.group wb bs)⟩

/-- The rows of a group as the tiles fetched them, for the collector (R291). -/
def groupRows (r : MmaRun) (count : Nat) (isA : Bool) : List (List Byte) :=
  (List.range count).map fun i =>
    match r.fetched.find? fun d => if isA then tileRow d.tile == i / 32 * 32 else tileCol d.tile == i / 32 * 32 with
    | some d => (if isA then d.a else d.b).getD (i % 32) []
    | none => []

/-- The slots of a group step are freed (R290). -/
def freeSlot (g : Group) (x : Side) (n : Option Nat) : Group :=
  match n, g.ring? x.sid with
  | some n, some r => if x.stg then g.setRing x.sid (r.release n) else g
  | _, _ => g

/-- Every active micro-tile has taken the group: the next group, or the end (R299). -/
def nextGroup (now : Nat) (g : Group) (i : Nat) (b : List W64) (r : MmaRun) : Group :=
  let x := sideOf g b 0
  let y := sideOf g b 1
  let ka := r.keepA.map fun l => l ++ groupRows r x.count true
  let kb := r.keepB.map fun l => l ++ groupRows r y.count false
  let t := g.mx.kgroup + 1
  let g := freeSlot (freeSlot g x r.slotA) y r.slotB
  g.modMx fun m =>
    let m := { m with kgroup := t, done := inactiveMask (mM b) (mN b) }
    if t < mK b / x.g then
      { m with mma := some { r with fetched := [], admitted := false, slotA := none, slotB := none, pins := [],
                                    pinWait := none, keepA := ka, keepB := kb, since := now } }
    else
      endMma m i 0 (ka.map fun l => ⟨x.fmt, r.wa, mK b, x.count, l⟩) (kb.map fun l => ⟨y.fmt, r.wb, mK b, y.count, l⟩)

/-- A fetched micro-tile's step is checked, and its cells and DONE bit updated together (R285, R286, R299). -/
def updateTile (now : Nat) (g : Group) (i : Nat) (b : List W64) (r : MmaRun) (d : TileData) : Group :=
  let x := sideOf g b 0
  let y := sideOf g b 1
  let o := tileOps x y r.wa r.wb d
  let fs := g.mx.faults.filter (faultOfTile d.tile)
  let g := g.modMx fun m => { m with faults := m.faults.filter fun f => !faultOfTile d.tile f }
  let ps := tilePartials o fs
  let go (fix : Option (Nat × Nat × Int)) (f : Matrix → Matrix) : Group :=
    let g := g.modMx fun m =>
      let (bk, n) := tileUpdate o ps fix (bankOf' m (mBank b))
      f { m.setBank (mBank b) bk with nonfin := m.nonfin + BitVec.ofNat 64 n, done := m.done ||| (1 <<< d.tile) }
    if g.mx.done = 0xFFFF then nextGroup now g i b r else g
  match tileCheck o fs d.tile x.g ps with
  | .ok => go none id
  | .fix fi fj e => go (some (fi, fj, e)) fun m => { m with corr := m.corr + 1 }
  | .lane => go none fun m => { m with cserr := m.cserr + 1 }
  | .fail => g.modMx fun m => endMma m i 0x0201 none none

/-- The step of a micro-tile for the group in progress (R299). -/
def execMmaTileUpdate (core tile : Nat) (s : State) : Out :=
  .next (match s.grp? core with
  | none => s
  | some g =>
    match mmaNow g with
    | none => s
    | some (i, _, b, _) =>
      let g := { g with mx := admitted s core g (sideOf g b 0).g }
      match g.mx.mma with
      | none => s
      | some r =>
        match r.fetched.find? fun d => d.tile == tile with
        | none => s
        | some d =>
          if r.admitted && !bit g.mx.done tile then s.setGrp core (updateTile s.now g i b r d) else s.setGrp core g)

/-! ## MPREC and MZERO (R294, R304) -/

/-- An entry leaves the queue. -/
def Matrix.dropAt (m : Matrix) (i : Nat) : Matrix := { m with q := m.q.take i ++ m.q.drop (i + 1) }

/-- MPREC takes effect (R294, R304). -/
def execMprecEffect (core : Nat) (s : State) : Out :=
  .next (match s.grp? core with
  | none => s
  | some g =>
    if g.mx.frozen then s
    else
      match startable g.mx.q MqCmd.isMprec with
      | some (i, .mprec wa wb) => s.setGrp core (g.modMx fun m => { m.dropAt i with wa := wa, wb := wb })
      | _ => s)

/-- MZERO takes effect (R294, R304). -/
def execMzeroEffect (core : Nat) (s : State) : Out :=
  .next (match s.grp? core with
  | none => s
  | some g =>
    if g.mx.frozen then s
    else
      match startable g.mx.q fun c => match c with | .mzero _ => true | _ => false with
      | some (i, .mzero b) => s.setGrp core (g.modMx fun m => (m.dropAt i).setBank b [])
      | _ => s)

/-! ## MDRAIN (R300-R302) -/

def dStride (b : List W64) : Nat := (bits (recDw b 1) 0 32).toNat
def dM (b : List W64) : Nat := (bits (recDw b 1) 32 8).toNat
def dN (b : List W64) : Nat := (bits (recDw b 1) 40 8).toNat
def dBank (b : List W64) : Bool := bit (recDw b 1) 48
def dB16 (b : List W64) : Bool := bit (recDw b 1) 49
def dRed (b : List W64) : Bool := bit (recDw b 1) 50
def dScope (b : List W64) : BitVec 3 := bits (recDw b 1) 51 3
def dClear (b : List W64) : Bool := bit (recDw b 1) 54
def dElem (b : List W64) : Nat := if dB16 b then 2 else 4

/-- The address of a cell (R301). -/
def dAddr (b : List W64) (i j : Nat) : W64 := recDw b 0 + BitVec.ofNat 64 (i * dStride b + j * dElem b)

/-- Fields of a drain block against R300; `own` says whether DST lies in the own core's scratchpad place. -/
def drainMalformed (b : List W64) (own place spadPlace : Bool) : Bool :=
  bits (recDw b 1) 55 9 != 0 || ((List.range 4).any fun i => recDw b (4 + i) != 0) ||
  !(decide (1 ≤ dM b) && decide (dM b ≤ 128) && decide (1 ≤ dN b) && decide (dN b ≤ 128)) ||
  decide ((recDw b 0).toNat % dElem b ≠ 0) || decide (dStride b % 4 ≠ 0) ||
  (!dRed b && !own) || (dRed b && place && !spadPlace) || (dRed b && dB16 b) ||
  (if dRed b then !(decide (1 ≤ (dScope b).toNat) && decide ((dScope b).toNat ≤ 5)) else dScope b != 0)

/-- The location of a cell's write: a scratchpad place, or memory with RD and WR (R79, R91). -/
def drainLoc (s : State) (core : Nat) (g : Group) (wins : List W64) (b : List W64) (va : W64) : Except Bad Acc :=
  if !ptrOk va then .error (cWindow, va)
  else if isPlace va then (placeLoc s core g true va).map fun l => ⟨va, l, dElem b, .u, false, 0⟩
  else engAcc wins .rdwr va (dElem b)

/-- DST names the own core's scratchpad place. -/
def ownPlace (s : State) (core : Nat) (g : Group) (va : W64) : Bool :=
  ptrOk va && isPlace va && bits va 48 4 == 0 && bits va 24 14 == 0 &&
  (match placeCore s core g.part va with
   | .ok c => c == core
   | .error _ => false)

/-- The first check of R300 that fails (DEDUCED, log 63). -/
def drainCheck (s : State) (core : Nat) (g : Group) (b : List W64) : Option Nat :=
  let dst := recDw b 0
  if drainMalformed b (ownPlace s core g dst) (isPlace dst) (bits dst 48 4 == 0) then some 0x0203
  else
    let bad := (List.range (dM b)).any fun i => (List.range (dN b)).any fun j =>
      match drainLoc s core g (s.core core).wins b (dAddr b i j) with
      | .ok _ => false
      | .error (c, _) => c != cIsolation
    if bad then some 0x0209 else none

/-- Micro-tiles of a drain still to be issued, ascending. -/
def drainLeft (m : Matrix) (b : List W64) (issued : List Nat) : List Nat :=
  (List.range 16).filter fun u => tileActive (dM b) (dN b) u && !bit m.drained u && !issued.contains u

/-- Tiles are issued, two at most at a time (R302). -/
def issueTiles (m : Matrix) (b : List W64) (d : DrainRun) : DrainRun :=
  { d with issued := d.issued ++ (drainLeft m b d.issued).take (2 - d.issued.length) }

/-- Tiles are issued unless pre-emption is asked for (R302). -/
def mayIssueTiles (s : State) (core : Nat) (m : Matrix) (b : List W64) (d : DrainRun) : DrainRun :=
  if (s.core core).preq || (s.core core).testDue then d else issueTiles m b d

/-- An MDRAIN ends. -/
def endDrain (m : Matrix) (i code : Nat) : Matrix :=
  { m.modItem i (fun x => { x with st := .ended code }) with drain := none, drun := false }

/-- A drain entry starts (R300). -/
def execMdrainStart (core : Nat) (s : State) : Out :=
  .next (match s.grp? core with
  | none => s
  | some g =>
    if g.mx.frozen || g.mx.drain.isSome then s
    else
      match startable g.mx.q MqCmd.isDrain with
      | some (i, .mdrain b) =>
        match drainCheck s core g b with
        | some c => modMx s core fun m => endDrain (m.startItem i (s.core core).wins) i c
        | none =>
          modMx s core fun m =>
            let m := { m.startItem i (s.core core).wins with drained := 0, drun := true }
            { m with drain := some (mayIssueTiles s core m b ⟨[], [], none⟩) }
      | _ => s)

/-- The value of a cell as it is written (R301). -/
def drainVal (b : List W64) (c : W32 × W32) : List Byte :=
  let t : FTy := if dB16 b then .b16 else .f32
  bytesOf (dElem b) (fvAdd t .rn (unpack .f32 c.1.toNat) (unpack .f32 c.2.toNat)).1

def scopeOfCode (v : BitVec 3) : Scope :=
  match v.toNat with
  | 1 => .core | 2 => .slice | 3 => .stack | 4 => .ring | _ => .sys

/-- One cell's write (R301). -/
def drainCell (s : State) (core : Nat) (g : Group) (wins b : List W64) (va : W64) (c : W32 × W32) : State × HAns Unit :=
  match drainLoc s core g wins b va with
  | .error (k, _) => if k = cIsolation then (s, .iso) else (s, .fault k false false)
  | .ok a =>
    let bs := drainVal b c
    match a.loc with
    | .spad t off =>
      if dRed b then
        (spadWrite s t off (bytesOf 4 (fAdd .f32 .rn (natOfBytes (spadRead s t off 4)) (natOfBytes bs)).1), .ok ())
      else (spadWrite s t off bs, .ok ())
    | .ia ia =>
      if !atomAllowed s g.part a .fadd true (scopeOfCode (dScope b)) then (s, .fault cIllegalOperand false false)
      else
        match unlessLate s core g.part ia fun _ => engineAtom s g.part (segOf core) core a ia .fadd (natOfBytes bs) 0 with
        | (s, .ok _) => (s, .ok ())
        | (s, .held) => (s, .held)
        | (s, .fault k v f) => (s, .fault k v f)
        | (s, .iso) => (s, .iso)
    | _ => (s, .ok ())

/-- The cells of a micro-tile that a drain writes, in order. -/
def drainCells (b : List W64) (u : Nat) : List (Nat × Nat) :=
  (tileSpan (tileRow u) (dM b)).flatMap fun i => (tileSpan (tileCol u) (dN b)).map fun j => (i, j)

def setDrain (s : State) (core : Nat) (f : DrainRun → DrainRun) : State :=
  modMx s core fun m => { m with drain := m.drain.map f }

/-- The cells of an issued micro-tile that are still to be written. -/
def cellsLeft (d : DrainRun) (b : List W64) (u : Nat) : List (Nat × Nat) :=
  (drainCells b u).filter fun (r, c) => !d.cells.contains (128 * r + c)

/-- Writes one cell of a micro-tile. -/
def drainOne (s : State) (core : Nat) (g : Group) (i : Nat) (wins b : List W64) (r c : Nat) : State :=
  let va := dAddr b r c
  match drainCell s core g wins b va (bankCell (bankOf' g.mx (dBank b)) (128 * r + c)) with
  | (s, .ok ()) => setDrain s core fun d => { d with cells := (128 * r + c) :: d.cells }
  | (s, .held) => s
  | (s, .iso) => mxFreeze s core g va fun m => endDrain m i 0x020B
  | (s, .fault k v _) =>
    engFault s g wins va k v
      (fun s page => setDrain s core fun d => { d with faultWait := some page })
      (fun s => modMx s core fun m => endDrain m i 0x0208)

/-- Which of a list comes next, where nothing orders them: a free value says so (R303) (DESIGN CHOICE, log 1). -/
def State.pick (s : State) (n : Nat) : Nat × State :=
  if n ≤ 1 then (0, s) else ((Config.freeWord s.fresh).toNat % n, { s with fresh := s.fresh + 1 })

/-- A micro-tile is marked, and zeroed under CLEAR; the next one is issued unless pre-emption is asked for
(R302). -/
def markTile (s : State) (core i u : Nat) (b : List W64) : State :=
  modMx s core fun m =>
    let bk := bankOf' m (dBank b)
    let bk := if dClear b then (drainCells b u).foldl (fun l (r, c) => alDel (128 * r + c) l) bk else bk
    let m := { m.setBank (dBank b) bk with drained := m.drained ||| (1 <<< u) }
    match m.drain with
    | none => m
    | some d =>
      let d := mayIssueTiles s core m b
        { d with issued := d.issued.filter (· != u),
                 cells := d.cells.filter fun k => !(drainCells b u).contains (k / 128, k % 128) }
      if d.issued.isEmpty && (drainLeft m b []).isEmpty then endDrain m i 0 else { m with drain := some d }

/-- A cell of an issued micro-tile is written, in no order that the spec gives; the tile is marked in DPX once all of its
writes have been performed (R301-R303). -/
def execDrainTileAck (core tile : Nat) (s : State) : Out :=
  .next (match s.grp? core with
  | none => s
  | some g =>
    match runningItem g.mx.q MqCmd.isDrain, g.mx.drain with
    | some (i, m), some d =>
      match m.cmd with
      | .mdrain b =>
        if !d.issued.contains tile || d.faultWait.isSome then s
        else
          let left := cellsLeft d b tile
          let (k, s) := s.pick left.length
          let s := match left[k]? with | some (r, c) => drainOne s core g i m.wins b r c | none => s
          match (s.grp? core).bind (·.mx.drain) with
          | some d => if (cellsLeft d b tile).isEmpty && engineQuiet s core then markTile s core i tile b else s
          | none => s
      | _ => s
    | _, _ => s)

/-! ## Completion -/

/-- The completion object, weight and CSEQ of an entry. -/
def MqCmd.comp : MqCmd → W64 × W32 × W32
  | .mma b => (mComp b, mWeight b, mCseq b)
  | .mdrain b => (recDw b 2, bits (recDw b 3) 0 32, bits (recDw b 3) 32 32)
  | _ => (0, 0, 0)

/-- The head entry's completion is added (R258, R294). -/
def completeMatrix (s : State) (core : Nat) : State :=
  match s.grp? core with
  | none => s
  | some g =>
    match g.mx.q with
    | ⟨cmd, .ended code, wins⟩ :: _ =>
      if !engineQuiet s core then s
      else
        let (va, weight, cseq) := cmd.comp
        let wins := if wins.isEmpty then (s.core core).wins else wins
        match complete s g.part (segOf core) core wins va weight code (engineId s g.part core 0x2000) cseq
            (groupFn s g) with
        | .held => s
        | .wait s page => startService s g.part g.ctxid page
        | .iso s va => mxFreeze s core g va fun m => m.dropAt 0
        | .done s => modMx s core fun m => m.dropAt 0
    | _ => s

end Sys2Proof.Machine
end

