-- ==== Sys2Proof/Machine/Coll.lean ====
section
/-! DEFINITION. Collectives on the ring engines (R369-R384): the block and its checks, matching, triggers,
couches, commits, aborts, the closing token, agreement after a fold. Members on other packages take part
with free data (DESIGN CHOICE, log 15). -/

namespace Sys2Proof.Machine

/-! ## The block (R373, R374) -/

def cOper (b : List W64) : Nat := (bits (recDw b 0) 0 3).toNat
def cRedop (b : List W64) : Nat := (bits (recDw b 0) 4 2).toNat
def cDtype (b : List W64) : Nat := (bits (recDw b 0) 8 3).toNat
def cBidir (b : List W64) : Bool := bit (recDw b 0) 12
def cRoot (b : List W64) : Nat := (bits (recDw b 0) 24 4).toNat
def cSend (b : List W64) : W64 := recDw b 1
def cRecv (b : List W64) : W64 := recDw b 2
def cScratch (b : List W64) : W64 := recDw b 3
def cCount (b : List W64) : Nat := (bits (recDw b 4) 0 32).toNat
def cChunk (b : List W64) : Nat := (bits (recDw b 4) 32 32).toNat
def cTrigVa (b : List W64) : W64 := recDw b 5
def cTrigVal (b : List W64) : W64 := recDw b 6
def cChunkComp (b : List W64) : W64 := recDw b 7
def cComp (b : List W64) : W64 := recDw b 8
def cWeight (b : List W64) : W32 := bits (recDw b 9) 0 32

/-- The element size (R374). -/
def cElem (b : List W64) : Nat :=
  match cDtype b with
  | 1 | 2 => 2
  | 4 => 8
  | _ => 4

/-- The OPER divides its data into one block for each rank. -/
def cSplit (b : List W64) : Bool := decide (cOper b ≤ 2)

/-- Elements of a block. -/
def cBlock (b : List W64) (r : Nat) : Nat := if cSplit b then cCount b / r else cCount b

/-- NP (R374). -/
def cPieces (b : List W64) (r : Nat) : Nat := (cBlock b r + cChunk b - 1) / cChunk b

/-- Which buffers a rank uses (R374); of a broadcast, only a member uses one. -/
def usesSend (b : List W64) (rank : Option Nat) : Bool := cOper b != 3 || rank == some (cRoot b)
def usesRecv (b : List W64) (rank : Option Nat) : Bool := cOper b != 3 || (rank.isSome && rank != some (cRoot b))
def usesScratch (b : List W64) : Bool := cOper b == 1 || cOper b == 2

/-- Bytes of SENDBUF and of RECVBUF (R374). -/
def sendBytes (b : List W64) (r : Nat) : Nat := cElem b * (if cOper b = 0 then cBlock b r else cCount b)
def recvBytes (b : List W64) (r : Nat) : Nat := cElem b * (if cOper b = 1 then cBlock b r else cCount b)

/-- Item 1 of R376, but for what depends on the group. -/
def collMalformed (b : List W64) : Bool :=
  let d := recDw b 0
  bit d 3 || bits d 6 2 != 0 || bit d 11 || bits d 13 3 != 0 || bits d 18 2 != 0 || bits d 28 36 != 0 ||
  ((List.range 6).any fun i => recDw b (10 + i) != 0) ||
  decide (4 < cOper b) || decide (2 < cRedop b) || decide (4 < cDtype b) ||
  decide (cCount b = 0) || decide (cChunk b = 0) || decide (65536 / cElem b < cChunk b) ||
  decide ((cTrigVa b).toNat % 8 ≠ 0) || decide ((cChunkComp b).toNat % 8 ≠ 0) || decide ((cComp b).toNat % 8 ≠ 0) ||
  (!usesScratch b && decide (cRedop b ≠ 0)) || (decide (cDtype b = 4) && decide (cRedop b ≠ 0)) ||
  (decide (cOper b ≠ 3) && decide (cRoot b ≠ 0))

/-- Item 1 of R376 for a group of `r` members, at a rank; without a valid group or rank, what does not depend on it
(DEDUCED, log 23). -/
def collShapeBad (b : List W64) (r rank : Option Nat) : Bool :=
  let e := cElem b
  let buf (used : Bool) (va : W64) : Bool := used && (va == 0 || decide (va.toNat % e ≠ 0))
  (match r with
   | some r => (cSplit b && decide (cCount b % r ≠ 0)) || decide (4096 < cPieces b r) || decide (r ≤ cRoot b)
   | none => !cSplit b && decide (4096 < cPieces b 1)) ||
  buf (usesSend b rank) (cSend b) || buf (usesRecv b rank) (cRecv b) || buf (usesScratch b) (cScratch b)

/-- Every byte of a memory range passes R79. -/
def memRangeOk (wins : List W64) (right : Right) : Nat → W64 → Nat → Bool
  | 0, _, n => n == 0
  | f + 1, va, n =>
    if n = 0 then true
    else
      let k := min n (65536 - vaOf va % 65536)
      (match engAcc wins right va k with
       | .ok _ => true
       | .error _ => false) && memRangeOk wins right f (va + BitVec.ofNat 64 k) (n - k)

def memRange (wins : List W64) (right : Right) (va : W64) (n : Nat) : Bool :=
  memRangeOk wins right (n / 65536 + 2) va n

/-- Item 3 of R376. -/
def collWindowsOk (wins b : List W64) (r rank : Nat) : Bool :=
  (!usesSend b (some rank) || memRange wins .rd (cSend b) (sendBytes b r)) &&
  (!usesRecv b (some rank) || memRange wins .rdwr (cRecv b) (recvBytes b r)) &&
  (!usesScratch b || memRange wins .rdwr (cScratch b) (2 * cCount b * cElem b)) &&
  (cTrigVa b == 0 || memRange wins .rd (cTrigVa b) 8) &&
  (cChunkComp b == 0 || memRange wins .rdwr (cChunkComp b) (16 * cPieces b r)) &&
  (cComp b == 0 || memRange wins .rdwr (cComp b) 16)

/-- An entry with the same GROUP and CSEQ that was placed earlier stands in a queue of the segment (R372)
(DEDUCED, log 23) (DEDUCED, log 25). -/
def collQueued (s : State) (core : Nat) (g : Group) (b : List W64) : Bool :=
  s.cores.any fun (n, c) =>
    n != core && segOf n == segOf core &&
    match c.grp with
    | some h =>
      h.part == g.part && h.rq.any fun e =>
        match e with
        | .coll o => collGroup o == collGroup b && collCseq o == collCseq b && decide (recDw o 17 < recDw b 17)
        | .fence _ => false
    | none => false

/-- A command with the same GROUP and CSEQ that was placed no later runs on the segment (R372). -/
def collRuns (s : State) (core : Nat) (g : Group) (b : List W64) : Bool :=
  s.ranks.any fun x =>
    !x.remote && x.key == ⟨g.part, collGroup b, collCseq b⟩ && segOf x.core == segOf core && decide (recDw x.blk 17 ≤ recDw b 17)

/-- The rank that an entry names: an entry placed back on another segment names none (R370, R372). -/
def entryRank (s : State) (core : Nat) (g : Group) (b : List W64) : Option Nat :=
  let lseg := (s.logSeg g.part (segOf core)).getD 15
  if (recDw b 16).toNat = lseg then collRankOf s g.part (collGroup b) lseg else none

/-- The first check of R376 and R372 that fails. -/
def collCheck (s : State) (core : Nat) (g : Group) (b : List W64) : Option Nat :=
  let size := collSize s g.part (collGroup b)
  let rank := entryRank s core g b
  if collMalformed b || collShapeBad b size rank then some 0x0401
  else
    match size, rank with
    | some r, some k =>
      if !collWindowsOk (s.core core).wins b r k then some 0x0403
      else if collRuns s core g b || collQueued s core g b then some 0x0407
      else none
    | _, _ => some 0x0402

/-! ## Ranks -/

def State.modRank (s : State) (p : CollRank → Bool) (f : CollRank → CollRank) : State :=
  { s with ranks := s.ranks.map fun r => if p r then f r else r }

/-- A rank takes part in its collective: a command that has failed before it matched does not (R372, R376). -/
def CollRank.takesPart (r : CollRank) : Bool := r.matched || r.failed.isNone

def CollRank.is (k : CollKey) (n : Nat) (r : CollRank) : Bool := r.key == k && r.rank == n && r.takesPart

def CollRank.memberOf (k : CollKey) (r : CollRank) : Bool := r.key == k && r.takesPart

def ranksOf (s : State) (k : CollKey) : List CollRank := s.ranks.filter (CollRank.memberOf k)

/-- A rank of an entry, as it starts. -/
def newRank (s : State) (core : Nat) (g : Group) (b : List W64) (code : Option Nat) : CollRank :=
  let lseg := (s.logSeg g.part (segOf core)).getD 15
  let r := (collSize s g.part (collGroup b)).getD 2
  let np := if code.isSome then 0 else cPieces b r
  { key := ⟨g.part, collGroup b, collCseq b⟩, core := core, remote := false, lid := g.lid, linear := g.linear,
    ctx := g.ctxid, seq := recSeq g.lrec, lseg := lseg,
    rank := (collRankOf s g.part (collGroup b) lseg).getD 0, blk := b, wins := (s.core core).wins,
    trig := cTrigVa b == 0, copied := false, trigPoll := s.now, matched := false,
    pvA := List.replicate np 0, pvB := if cBidir b then List.replicate np 0 else [], hw := List.replicate np 0,
    inflight := [], landed := [], folds := 0, agreeing := false, closed := false, token := false, abort := false, faultWait := none, failed := code }

/-- A collective entry reaches the head of its queue and is checked (R376). -/
def execCollStart (core : Nat) (s : State) : Out :=
  .next (match s.grp? core with
  | none => s
  | some g =>
    let used := (s.ranks.filter fun r => !r.remote && segOf r.core == segOf core).length
    if (s.runningAt core).isSome || s.ringFrozen (segOf core) g.part || decide (64 ≤ used) then s
    else
      match g.rq with
      | .coll b :: _ => { s with ranks := s.ranks ++ [newRank s core g b (collCheck s core g b)] }
      | _ => s)

/-! ## Matching (R372) -/

/-- The members of a group on other packages. -/
def remoteRanks (s : State) (p grp r : Nat) : List Nat :=
  (List.range r).filter fun n => bit (s.collDw p grp (1 + n)) 1

/-- A fabric port works and a segment reaches it: it is ready in the map, or in the segment's own piece (R14, R18). -/
def portUp (pk : Pkg) (seg port : Nat) : Bool :=
  (bit pk.fabrdy port || pk.cut.contains (.fabric port)) && reachable pk seg (fabricSeg port)

/-- The route from a segment to a member on another package works (R382). -/
def routeUp (s : State) (seg p grp n : Nat) : Bool := portUp s.pkg seg (bits (s.collDw p grp (1 + n)) 11 6).toNat

/-- What every member must state alike (R372). -/
def collTerms (b : List W64) : List Nat :=
  [cOper b, cRedop b, cDtype b, if cBidir b then 1 else 0, cCount b, cChunk b, cRoot b]

/-- Every member's engine has its entry: they match, or every one fails (R372). -/
def execCollMatch (k : CollKey) (s : State) : Out :=
  .next (
    match collSize s k.part k.group with
    | none => s
    | some r =>
      let here := (ranksOf s k).filter fun x => !x.remote && x.failed.isNone
      let far := remoteRanks s k.part k.group r
      let all := (List.range r).all fun n => far.contains n || here.any fun x => x.rank == n
      match here with
      | [] => s
      | x :: _ =>
        if !all || x.matched then s
        else if here.any fun y => collTerms y.blk != collTerms x.blk then
          s.modRank (CollRank.memberOf k) fun y => { y with failed := some 0x0407 }
        else if far.any fun n => !routeUp s (segOf x.core) k.part k.group n then
          s.modRank (CollRank.memberOf k) fun y => { y with failed := some 0x0406 }
        else
          let s := s.modRank (CollRank.memberOf k) fun y => { y with matched := true }
          { s with ranks := s.ranks ++ far.map fun n =>
              { x with core := 0, remote := true, rank := n, trig := true, copied := true, matched := true, wins := [] } })

/-! ## Steps (R377, R378) -/

/-- One rank onwards on ring A, or backwards on ring B. -/
def nextRank (r n : Nat) (ringB : Bool) : Nat := if ringB then (n + r - 1) % r else (n + 1) % r
def prevRank (r n : Nat) (ringB : Bool) : Nat := nextRank r n (!ringB)

/-- How far a rank is from the root, in the direction of a ring. -/
def fromRoot (b : List W64) (r n : Nat) (ringB : Bool) : Nat :=
  if ringB then (cRoot b + r - n) % r else (n + r - cRoot b) % r

/-- The last step in which a rank receives; 0 where it receives in none. -/
def lastStep (b : List W64) (r n : Nat) (ringB : Bool) : Nat :=
  match cOper b with
  | 2 => 2 * (r - 1)
  | 3 => fromRoot b r n ringB
  | 4 => 1
  | _ => r - 1

/-- The step that a rank commits next, after `pv`. -/
def nextStep (b : List W64) (r n pv : Nat) (ringB : Bool) : Nat :=
  if cOper b = 3 then fromRoot b r n ringB else pv + 1

/-- A step combines partials. -/
def reduces (b : List W64) (r k : Nat) : Bool := usesScratch b && decide (k ≤ r - 1)

/-- The block that rank `q` sends at step k (R377, R378). -/
def sentBlock (b : List W64) (r q k : Nat) (ringB : Bool) : Nat :=
  let back (d : Nat) : Nat := if ringB then (q + d) % r else (q + 2 * r - d % r) % r
  match cOper b with
  | 0 => back (k - 1)
  | 1 => back k
  | 2 => if k ≤ r - 1 then back k else back (k - r)
  | _ => 0

/-- Elements of piece j of a block: first, and how many, in the half of a ring (R374, R378). -/
def pieceSpan (b : List W64) (r j : Nat) (ringB : Bool) : Nat × Nat :=
  let len := cBlock b r
  let first := j * cChunk b
  let n := min (cChunk b) (len - first)
  if cBidir b then
    let h := (n + 1) / 2
    if ringB then (first + h, n - h) else (first, h)
  else (first, n)

/-- The address of an element of a block in a buffer laid out with all blocks. -/
def blockVa (base : W64) (b : List W64) (r blk el : Nat) : W64 :=
  base + BitVec.ofNat 64 (cElem b * ((if cSplit b then blk * cBlock b r else 0) + el))

/-- SENDBUF of a block: ALLGATHER holds the own block only. -/
def sendVa (b : List W64) (r blk el : Nat) : W64 :=
  if cOper b = 0 then cSend b + BitVec.ofNat 64 (cElem b * el) else blockVa (cSend b) b r blk el

/-- RECVBUF of a block: REDUCESCATTER holds the own block only. -/
def recvVa (b : List W64) (r blk el : Nat) : W64 :=
  if cOper b = 1 then cRecv b + BitVec.ofNat 64 (cElem b * el) else blockVa (cRecv b) b r blk el

def partialVa (b : List W64) (r blk el : Nat) : W64 := blockVa (cScratch b) b r blk el

def landingVa (b : List W64) (r blk el : Nat) : W64 :=
  blockVa (cScratch b + BitVec.ofNat 64 (cElem b * cCount b)) b r blk el

/-- Where a sender reads a block at step k (R377). -/
def sourceVa (b : List W64) (r q k blk el : Nat) : W64 :=
  match cOper b with
  | 0 => if k = 1 then sendVa b r blk el else recvVa b r blk el
  | 3 => if q = cRoot b then sendVa b r blk el else recvVa b r blk el
  | 4 => sendVa b r blk el
  | _ =>
    if k = 1 then sendVa b r blk el
    else if reduces b r k then partialVa b r blk el
    else recvVa b r blk el

/-! ## Combination (R379) -/

def fminOp (redop : Nat) : FMinMaxOp := if redop = 1 then .min else .max

/-- One element. -/
def combine1 (dtype redop a b : Nat) : Nat :=
  let flt (t : FTy) : Nat := if redop = 0 then (fAdd t .rn a b).1 else (fMinMax t (fminOp redop) a b).1
  match dtype with
  | 0 => flt .f32
  | 1 => flt .f16
  | 2 => flt .b16
  | 3 =>
    if redop = 0 then (a + b) % 2 ^ 32
    else if redop = 1 then (if sltN 32 b a then b else a) else (if sltN 32 a b then b else a)
  | _ =>
    let (s, e) := (twoSum (a % 2 ^ 32) (b % 2 ^ 32)).1
    let c := (fAdd .f32 .rn (fAdd .f32 .rn (a / 2 ^ 32) (b / 2 ^ 32)).1 e).1
    s + 2 ^ 32 * c

/-- acc := op(received, own), element by element. -/
def combine (b : List W64) : Nat → List Byte → List Byte → List Byte
  | 0, _, _ => []
  | n + 1, x, y =>
    let e := cElem b
    bytesOf e (combine1 (cDtype b) (cRedop b) (natOfBytes (x.take e)) (natOfBytes (y.take e))) ++
      combine b n (x.drop e) (y.drop e)

/-! ## Accesses of a rank -/

/-- Reads a span through a rank's windows, piece by piece. -/
def spanRead (s : State) (p seg core : Nat) (wins : List W64) : Nat → W64 → Nat → State × HAns (List Byte) × W64
  | 0, va, _ => (s, .ok [], va)
  | f + 1, va, n =>
    if n = 0 then (s, .ok [], va)
    else
      let k := min n (128 - va.toNat % 128)
      match vaRead s p seg core wins va k with
      | (s, .ok bs) =>
        match spanRead s p seg core wins f (va + BitVec.ofNat 64 k) (n - k) with
        | (s, .ok r, v) => (s, .ok (bs ++ r), v)
        | r => r
      | (s, a) => (s, a, va)

/-- Writes a span through a rank's windows, piece by piece. -/
def spanWrite (s : State) (p seg core : Nat) (wins : List W64) : Nat → W64 → List Byte → State × HAns Unit × W64
  | 0, va, _ => (s, .ok (), va)
  | f + 1, va, bs =>
    if bs.isEmpty then (s, .ok (), va)
    else
      let k := min bs.length (128 - va.toNat % 128)
      match vaWrite s p seg core wins va (bs.take k) with
      | (s, .ok ()) => spanWrite s p seg core wins f (va + BitVec.ofNat 64 k) (bs.drop k)
      | (s, a) => (s, a, va)

/-- A rank's read of bytes; a member on another package gives free bytes (DESIGN CHOICE, log 15). -/
def CollRank.read (s : State) (x : CollRank) (va : W64) (n : Nat) : State × HAns (List Byte) × W64 :=
  if x.remote then
    ({ s with fresh := s.fresh + n }, .ok ((List.range n).map fun i => bits (Config.freeWord (s.fresh + i)) 0 8), va)
  else spanRead s x.key.part (segOf x.core) x.core x.wins (n / 128 + 2) va n

/-- A rank's write of bytes; a member on another package writes its own memory. -/
def CollRank.write (s : State) (x : CollRank) (va : W64) (bs : List Byte) : State × HAns Unit × W64 :=
  if x.remote then (s, .ok (), va)
  else spanWrite s x.key.part (segOf x.core) x.core x.wins (bs.length / 128 + 2) va bs

/-- The code of an unservable fault met by a rank: poison read from a buffer, or another fault (R382). -/
def rankCode (rd : Bool) (cause : Nat) : Nat := if rd && cause == cPoison then 0x0405 else 0x0404

/-- The ring engine is frozen and reported (R382, R410). -/
def ringFreeze (s : State) (x : CollRank) (va : W64) : State :=
  let s := { s with rfrozen := s.rfrozen ++ [(segOf x.core, x.key.part, x.lid)] }
  let s := noteStop s x.key.part x.lid 0x0325
  post (post s pfn 4 0x0408 x.seq va x.lid) (ctxOwner s x.key.part x.ctx) 4 0x0408 x.seq va x.lid

/-- What a rank does with an answer other than success, of a read or of a write (R382). -/
def rankFault (s : State) (x : CollRank) (rd : Bool) (va : W64) (a : HAns Unit) : State :=
  let me := CollRank.is x.key x.rank
  match a with
  | .ok _ => s
  | .held => s
  | .iso =>
    ringFreeze (s.modRank me fun r => { r with failed := some 0x0408 }) x va
  | .fault c v _ =>
    let f := priFilter s x.key.part x.ctx ⟨c, va, v, engPage x.wins va, false, false⟩
    if f.servable then
      (startService s x.key.part x.ctx f.page).modRank me fun r => { r with faultWait := some f.page }
    else s.modRank me fun r => { r with failed := some (rankCode rd c) }

/-! ## Triggers (R383) -/

/-- A look at a rank's trigger word; at the home it changes nothing while the word is below its value. -/
def lookTrigger (s0 : State) (x : CollRank) (home : Bool) : State :=
  match x.read s0 (cTrigVa x.blk) 8 with
  | (s, .ok bs, _) =>
    let seen := decide ((cTrigVal x.blk).toNat ≤ natOfBytes bs)
    if home && !seen then s0
    else s.modRank (CollRank.is x.key x.rank) fun r => { r with trig := seen, trigPoll := s.now }
  | (s, .held, _) => s
  | (s, .fault c v f, va) => rankFault s x false va (.fault c v f)
  | (s, .iso, va) => rankFault s x false va .iso

/-- The ranks of a core that wait for their triggers, the one read longest ago first; `dev` where the word lies in
device memory. A started command of a saved gang is among them (R405). -/
def waitingTriggers (s : State) (core : Nat) (dev : Bool) : List CollRank :=
  sortBy (·.trigPoll) (s.ranks.filter fun x =>
    !x.remote && x.core == core && !x.trig && x.failed.isNone && x.faultWait.isNone &&
    (match winTranslate x.wins .none (cTrigVa x.blk) with
     | .ok (ia, _) => (kindOf s x.key.part (ia / 65536) == 0) == dev
     | .error _ => dev))

/-- The first look at a trigger that does something. -/
def lookTriggers (s : State) (core : Nat) (dev : Bool) : State :=
  ((waitingTriggers s core dev).findSome? fun x =>
    let s' := lookTrigger s x dev
    if s' = s then none else some s').getD s

/-- A rank sees its trigger word at its value, woken by the home (R383). -/
def execTriggerSeen (core : Nat) (s : State) : Out := .next (lookTriggers s core true)

/-- A trigger outside device memory is read again (R383). -/
def execTriggerPoll (core : Nat) (s : State) : Out := .next (lookTriggers s core false)

/-! ## Couches (R380, R381) -/

def CollRank.pv (x : CollRank) (j : Nat) (ringB : Bool) : Nat := (if ringB then x.pvB else x.pvA).getD j 0

/-- PV of a piece: both halves have committed (R381). -/
def CollRank.pvMin (x : CollRank) (j : Nat) : Nat :=
  if cBidir x.blk then min (x.pv j false) (x.pv j true) else x.pv j false

/-- A piece of the next step, whose writes are made, waits to commit. -/
def CollRank.holdPiece (x : CollRank) (j : Nat) (ringB : Bool) : CollRank :=
  if x.inflight.contains (j, ringB) then x else { x with inflight := x.inflight ++ [(j, ringB)] }

/-- PV rises, and the piece's count with its high-water mark (R381). While the page of the count's object is served the
piece waits; a page that is declined is reported as R258 says, and fails no command. -/
def commitPiece (s : State) (x : CollRank) (j k : Nat) (ringB : Bool) : State :=
  let y := if ringB then { x with pvB := setNth j k x.pvB } else { x with pvA := setNth j k x.pvA }
  let y := { y with inflight := y.inflight.filter (· != (j, ringB)), landed := y.landed.filter (· != (j, ringB)) }
  let up := decide (y.hw.getD j 0 < y.pvMin j)
  let y := if up then { y with hw := setNth j (y.pvMin j) y.hw } else y
  let put (s : State) : State := s.modRank (CollRank.is x.key x.rank) fun _ => y
  if !up || x.remote || cChunkComp x.blk = 0 then put s
  else
    match complete s x.key.part (segOf x.core) x.core x.wins (cChunkComp x.blk + BitVec.ofNat 64 (16 * j)) 1 0
        (0x3000 + x.lseg) x.key.cseq (ctxOwner s x.key.part x.ctx) with
    | .done s => put s
    | .held => s.modRank (CollRank.is x.key x.rank) (·.holdPiece j ringB)
    | .wait s page => (startService s x.key.part x.ctx page).modRank (CollRank.is x.key x.rank) (·.holdPiece j ringB)
    | .iso s va => rankFault s x false va .iso

/-- The copy of ALLGATHER (R377). -/
def gatherCopy (s : State) (x : CollRank) (r : Nat) : State :=
  let b := x.blk
  match x.read s (cSend b) (sendBytes b r) with
  | (s, .ok bs, _) =>
    match x.write s (recvVa b r x.rank 0) bs with
    | (s, .ok (), _) => s.modRank (CollRank.is x.key x.rank) fun y => { y with copied := true }
    | (s, a, va) => rankFault s x false va a
  | (s, .held, _) => s
  | (s, .fault c v f, va) => rankFault s x true va (.fault c v f)
  | (s, .iso, va) => rankFault s x true va .iso

/-- Where a combined block is written: the partial, or the result in RECVBUF (R377). -/
def foldedVa (b : List W64) (r k blk el : Nat) : W64 := if k = r - 1 then recvVa b r blk el else partialVa b r blk el

/-- Received bytes land: a partial in the landing area, a final block in RECVBUF (R380). -/
def landPiece (s : State) (x : CollRank) (r k blk el : Nat) (bs : List Byte) : State × HAns Unit × W64 :=
  x.write s (if reduces x.blk r k then landingVa x.blk r blk el else recvVa x.blk r blk el) bs

/-- A couch may be made between ranks: matched, none failed, waiting for a page or agreeing, and no fold under way
(R380, R384) (DEDUCED, log 65). -/
def couchOpen (s : State) (k : CollKey) : Bool :=
  !s.pkg.folding && (ranksOf s k).all fun x => x.matched && x.failed.isNone && x.faultWait.isNone && !x.agreeing && !x.closed

/-- Every write of a step of a piece is made: it commits, once they have been performed (R380). -/
def madePiece (s : State) (x : CollRank) (k j : Nat) (ringB : Bool) : State :=
  if x.remote || engineQuiet s x.core then commitPiece s x j k ringB
  else s.modRank (CollRank.is x.key x.rank) (·.holdPiece j ringB)

/-- A landed piece is combined with the own SENDBUF block and written, once the receiver has seen its trigger; else it
stays in the landing area (R377, R379, R380, R383). -/
def foldPiece (s : State) (x : CollRank) (r k blk el j : Nat) (ringB : Bool) (bs : List Byte) : State :=
  if x.trig then
    match x.read s (sendVa x.blk r blk el) bs.length with
    | (s, .held, _) => s
    | (s, .fault c v f, va) => rankFault s x true va (.fault c v f)
    | (s, .iso, va) => rankFault s x true va .iso
    | (s, .ok own, _) =>
      match x.write s (foldedVa x.blk r k blk el) (combine x.blk (bs.length / cElem x.blk) bs own) with
      | (s, .ok (), _) => madePiece s x k j ringB
      | (s, a, va) => rankFault s x false va a
  else s.modRank (CollRank.is x.key x.rank) fun y => { y with landed := y.landed ++ [(j, ringB)] }

/-- A couch of one piece of the receiver's next step, on a half. -/
def couchPiece (s : State) (q x : CollRank) (r k j : Nat) (ringB : Bool) : State :=
  let b := x.blk
  let blk := sentBlock b r q.rank k ringB
  let (el, n) := pieceSpan b r j ringB
  match q.read s (sourceVa q.blk r q.rank k blk el) (n * cElem b) with
  | (s, .held, _) => s
  | (s, .fault c v f, va) => rankFault s q true va (.fault c v f)
  | (s, .iso, va) => rankFault s q true va .iso
  | (s, .ok bs, _) =>
    match landPiece s x r k blk el bs with
    | (s, .ok (), _) => if reduces b r k then foldPiece s x r k blk el j ringB bs else madePiece s x k j ringB
    | (s, a, va) => rankFault s x false va a

/-- A piece that has landed before the receiver's trigger is combined after it (R383). -/
def landedPiece (s : State) (q x : CollRank) (r k j : Nat) (ringB : Bool) : State :=
  let b := x.blk
  let blk := sentBlock b r q.rank k ringB
  let (el, n) := pieceSpan b r j ringB
  match x.read s (landingVa b r blk el) (n * cElem b) with
  | (s, .held, _) => s
  | (s, .fault c v f, va) => rankFault s x true va (.fault c v f)
  | (s, .iso, va) => rankFault s x true va .iso
  | (s, .ok bs, _) => foldPiece s x r k blk el j ringB bs

/-- A piece of a step is handed to rank `rank`, combined and committed (R380). -/
def execCouch (k : CollKey) (rank piece : Nat) (ringB : Bool) (s : State) : Out :=
  .next (
    match collSize s k.part k.group with
    | none => s
    | some r =>
      match s.ranks.find? (CollRank.is k rank), s.ranks.find? (CollRank.is k (prevRank r rank ringB)) with
      | some x, some q =>
        let pv := x.pv piece ringB
        let st := nextStep x.blk r rank pv ringB
        if !couchOpen s k || (ringB && !cBidir x.blk) || decide (cPieces x.blk r ≤ piece) ||
            decide (lastStep x.blk r rank ringB ≤ pv) then s
        else if x.inflight.contains (piece, ringB) then
          if x.remote || engineQuiet s x.core then commitPiece s x piece st ringB else s
        else if x.landed.contains (piece, ringB) then (if x.trig then landedPiece s q x r st piece ringB else s)
        else if !q.trig || decide (q.pv piece ringB + 1 < st) then s
        else if cOper x.blk = 0 ∧ !q.copied then gatherCopy s q r
        else couchPiece s q x r st piece ringB
      | _, _ => s)

/-! ## Ends (R382) -/

/-- Every rank has committed every step in which it receives, and so every rank has reached its local end. -/
def allEnded (s : State) (k : CollKey) (r : Nat) : Bool :=
  let xs := ranksOf s k
  decide (xs.length = r) && couchOpen s k && xs.all fun x =>
    (List.range (cPieces x.blk r)).all fun j =>
      decide (lastStep x.blk r x.rank false ≤ x.pv j false) &&
      (!cBidir x.blk || decide (lastStep x.blk r x.rank true ≤ x.pv j true))

/-- The closing token reaches a rank (R382). A member on another package completes on its own. -/
def execClosingToken (k : CollKey) (rank : Nat) (s : State) : Out :=
  .next (
    match collSize s k.part k.group, s.ranks.find? (CollRank.is k rank) with
    | some r, some x =>
      let s := if x.closed then s else if allEnded s k r then s.modRank (CollRank.memberOf k) fun y => { y with closed := true }
        else s
      if (s.ranks.find? (CollRank.is k rank)).any (·.closed) then
        if x.remote then { s with ranks := s.ranks.filter fun y => !CollRank.is k rank y }
        else s.modRank (CollRank.is k rank) fun y => { y with token := true }
      else s
    | _, _ => s)

/-- The abort of a failed member reaches a rank (R382). -/
def execCollAbort (k : CollKey) (rank : Nat) (s : State) : Out :=
  .next (
    let bad := (ranksOf s k).any fun x => x.failed.isSome && x.matched && x.rank != rank
    match s.ranks.find? (CollRank.is k rank) with
    | some x =>
      if (bad || x.abort) && x.matched && x.failed.isNone then
        if x.remote then { s with ranks := s.ranks.filter fun y => !CollRank.is k rank y }
        else s.modRank (CollRank.is k rank) fun y => { y with failed := some 0x0409, faultWait := none }
      else s
    | none => s)

/-! ## After a fold (R384) -/

/-- The minimum of a piece's progress over the ranks of a command. -/
def agreedPv (xs : List CollRank) (j : Nat) (ringB : Bool) : Nat :=
  match xs.map fun x => x.pv j ringB with
  | [] => 0
  | v :: l => minNat v (v :: l)

/-- The engines agree on the last step that every rank has committed, and redo the later ones (R384). -/
def execPvAgreement (k : CollKey) (s : State) : Out :=
  .next (
    let xs := ranksOf s k
    if s.pkg.folding || !(xs.any (·.agreeing)) then s
    else
      s.modRank (CollRank.memberOf k) fun y =>
        if y.closed then { y with agreeing := false }
        else
          { y with
            pvA := (List.range y.pvA.length).map fun j => agreedPv xs j false,
            pvB := (List.range y.pvB.length).map fun j => agreedPv xs j true,
            inflight := [], landed := [], agreeing := false, folds := y.folds + (if y.agreeing then 1 else 0) })

/-! ## Completion -/

/-- A completed command is noted by the queue that ran it, among its last 16 (R387). -/
def noteDone (s : State) (x : CollRank) : State :=
  let st := if x.failed.isSome then 7 else 6
  let d : RDone := ⟨x.key.part, x.key.group, x.key.cseq, progWord st x.rank x.minPv x.folds⟩
  s.modCore x.core fun c => { c with rdone := (d :: c.rdone).take 16 }

/-- The entry of a core's own running command leaves its queue. -/
def popEntry (s : State) (core : Nat) : State :=
  if (s.rankAt core).isSome then s.modGrp core fun g => { g with rq := g.rq.drop 1 } else s

/-- A core's queue runs nothing more of a core group that has left, once nothing runs there. -/
def fixBusy (s : State) : State :=
  { s with cores := s.cores.map fun (n, c) =>
      (n, { c with grp := c.grp.map fun g => { g with rqBusy := g.rqBusy && (s.runningAt n).isSome } }) }

/-- A change to every copy of a core group: on its core, in a shadow pool, in memory. -/
def State.mapGroups (s : State) (f : Group → Group) : State :=
  { s with
    cores := s.cores.map fun (n, c) => (n, { c with grp := c.grp.map f, shadow := c.shadow.map f }),
    parts := s.parts.map fun (n, p) => (n, { p with csa := p.csa.map f }) }

/-- The completion of the command that a core's queue runs (R258, R382). -/
def completeRing (s : State) (core : Nat) : State :=
  match s.ranks.find? fun x => !x.remote && x.core == core && (x.token || x.failed.isSome) with
  | none => s
  | some x =>
    if !engineQuiet s core then s
    else
      let ends (s : State) : State :=
        let s := fixBusy { noteDone (popEntry s core) x with ranks := s.ranks.filter fun y => y != x }
        if x.failed.isSome && x.matched then s.modRank (fun y => y.key == x.key && y.matched) fun y => { y with abort := true }
        else s
      match complete s x.key.part (segOf core) core x.wins (cComp x.blk) (cWeight x.blk) (x.failed.getD 0)
          (0x3000 + x.lseg) x.key.cseq (ctxOwner s x.key.part x.ctx) with
      | .held => s
      | .wait s page => startService s x.key.part x.ctx page
      | .iso s va => ends (ringFreeze s x va)
      | .done s => ends s

/-- COMMAND_COMPLETION: the engine writes the error word if needed and adds WEIGHT to COUNT (R258). -/
def execCommandCompletion (core : Nat) (e : Engine) (s : State) : Out :=
  .next (match e with
  | .copy q => completeCopy s core q
  | .matrix => completeMatrix s core
  | .ring => completeRing s core)

end Sys2Proof.Machine
end

