-- ==== Sys2Proof/Machine/Answers.lean ====
section
/-! DEFINITION. The events of issue, wait store and region buffer: choices (R129), results that land (R132),
ends of waits (R124, R127, R341-R346), answers to probes and completion of regions (R225-R232), service of
pages (R230). -/

namespace Sys2Proof.Machine

/-- PIPE_CHOOSE (R129). -/
def execPipeChoose (core pipe : Nat) (s : State) : Out := .next (if pipe < 2 then choose s core pipe else s)

/-! ## Results -/

/-- The registers of a result that no later word has written (R133). -/
def landRegs : List (Option Nat) → List W32 → Thread → Thread
  | some n :: ds, v :: vs, t => landRegs ds vs (t.setR n v)
  | none :: ds, _ :: vs, t => landRegs ds vs t
  | _, _, t => t

def Group.dropPend (g : Group) (id : Nat) : Group := { g with pend := g.pend.filter fun p => p.id != id }

/-- A result reaches what it is for: registers; the element of a GATHER, which commits with it (R216); or the oldest entry
of the return stack (R137). -/
def landResult (s : State) (core : Nat) (g : Group) (p : Pend) (v : List W32) : State :=
  match p.use with
  | .word => s.setGrp core ((g.modThread p.tid (landRegs p.dsts v)).dropPend p.id)
  | .elem => longOn (commitElem (s.setGrp core ((g.modThread p.tid (landRegs p.dsts v)).dropPend p.id)) core p.tid) core p.tid
  | .spill =>
    let entry : W64 := (v.getD 1 0 ++ v.getD 0 0) &&& ~~~7
    s.setGrp core ((g.modThread p.tid fun y =>
      { y with ret := y.ret ++ [entry], spilln := y.spilln - 1, undo := none }).dropPend p.id)

/-- A RED is not performed yet: an invalidation that it caused has not been acknowledged (R332, R337). -/
def Pend.waitsAck (s : State) (core : Nat) (p : Pend) : Bool :=
  p.kind.isRed &&
  match p.kind.acc? with
  | some a => (match a.loc with | .ia ia => s.invs.any fun i => i.src == core && i.line == ia / 128 | _ => false)
  | none => false

/-- RESULT_LANDING (R132): the value reaches its registers, or a fault the thread (R230, R232). -/
def execResultLanding (core id : Nat) (s : State) : Out :=
  .next (match s.grp? core with
  | none => s
  | some g =>
    match g.pend.find? fun p => p.id == id with
    | none => s
    | some p =>
      match p.st with
      | .sent => s
      | .ready v => if p.waitsAck s core then s else landResult s core g p v
      | .fault _ => settle s core p.tid)

/-! ## Ends of waits -/

/-- Threads leave the wait store and arrive at the pairs they hold (R124). -/
def wakeAll (s : State) (core : Nat) (tids : List Nat) : State := leaveWaits s core tids id

def wake (s : State) (core tid : Nat) : State := wakeAll s core [tid]

/-- A thread's PC moves on to the next word, as fall-through does (R125). -/
def Group.stepOver (g : Group) (t : Nat) : Group :=
  g.modThread t fun y => { y with pc := nextPc y.pc, prio := fallPrio g.blocks (nextPc y.pc) y.prio }

/-- The wait of a thread for a stage slot ends when it is the first and the ring has one (R270). -/
def wakeStg (s : State) (core tid : Nat) (g : Group) (sid : Nat) (take : Bool) (dst : Option Nat)
    (since : Nat) : State :=
  match g.ring? sid with
  | none => s
  | some r =>
    if r.has take && g.stgFirst sid take (stgKey since tid) then
      wake (s.setGrp core (stgGive g sid r take tid (g.thread tid).rsPc dst)) core tid
    else s

/-- WAIT_STORE_RELEASE (R124): the event for which a thread waits has come. -/
def execWaitStoreRelease (core tid : Nat) (s : State) : Out :=
  .next (match s.grp? core with
  | none => s
  | some g =>
    match g.waiting tid with
    | none => s
    | some w =>
      match w.why with
      | .bar lv n k =>
        if barDone s g lv n k then
          match acquireAt s g.part core (levelScope lv) with
          | (s, true) => wake (bumpGen s core tid) core tid
          | (s, false) => s
        else s
      | .phase l n _ =>
        if decide (n.toNat ≤ (phaseCount s g.part g.lid l).toNat) then
          match acquireAt s g.part core .ring with
          | (s, true) => wake s core tid
          | (s, false) => s
        else s
      | .phaseAdv =>
        if decide (g.phasecur.toNat < (g.thread tid).phase.toNat) then s
        else
          match release s g.part core false with
          | (s, true) =>
            settlePhases (wake ((bumpPhase s core tid).modGrp core fun g => g.stepOver tid) core tid) core
          | (s, false) => s
      | .stg sid take dst since => wakeStg s core tid g sid take dst since
      | _ => s)

/-- LANE_CONVERGENCE (R127): once every live thread of a gang stands at one pair, in its entry or in the wait store, those
that wait arrive together. -/
def execLaneConvergence (core gang : Nat) (s : State) : Out :=
  .next (match s.grp? core with
  | none => s
  | some g =>
    let live := g.gangLive gang
    let wait := live.filter fun t => match g.waiting t with | some w => w.why == .lane | none => false
    match wait with
    | [] => s
    | t :: _ =>
      let run := (s.core core).runningTids
      let there (u : Nat) : Bool :=
        wait.contains u ||
          (!run.contains u && g.frontier.any fun e =>
            pairEq (g.thread t).pc (g.thread t).prio e.pc e.prio && e.tids.contains u)
      let same := wait.all fun u => pairEq (g.thread t).pc (g.thread t).prio (g.thread u).pc (g.thread u).prio
      if same && live.all there then wakeAll s core wait else s)

/-! ## Answers to probes (R225-R232) -/

def Group.modEntry (g : Group) (id : Nat) (f : RbEntry → RbEntry) : Group :=
  { g with rb := g.rb.map fun e => if e.id = id then f e else e }

/-- The home accepts an element's data: it is performed and committed, once earlier stores to its bytes have been (R216,
R350). -/
def acceptElem (s : State) (core : Nat) (e : RbEntry) : State :=
  let s := startDrain s core e
  match s.grp? core with
  | none => s
  | some g =>
    match g.rb.find? fun x => x.id == e.id with
    | some e => if g.drainOk e then commitStore s core g e else s
    | none => s

/-- An acknowledged probe registers its words as intended (R310), what it has been acknowledged for, and its page's
generation (R238). -/
def ackProbe (s : State) (core id : Nat) (g : Group) (e : RbEntry) (ia : Nat) (t : Tgt) : State :=
  let s := noteWalk s g.part e.acc.pasid ia
  let s := match t.leaf, e.tag with
    | some l, none =>
      match s.tail? l with
      | some r => s.setTail l { r with intended := dedup (r.intended ++ pageWords l t.addr e.acc.n) }
      | none => s
    | _, _ => s
  let e := { e with st := .acked (match t.leaf with | some l => l.gen | none => 0), tgt := some t }
  let s := s.modGrp core fun g => g.modEntry id fun _ => e
  if e.use = .elem then acceptElem s core e else s

/-- A fault that a store's probe meets; it is late where the thread's region has closed (R232). -/
def probeFault (s : State) (core : Nat) (e : RbEntry) (c : Nat) (v f : Bool) : State :=
  settle (s.modGrp core fun g => g.modEntry e.id fun e =>
    { e with st := .fault { mfault e.acc c v f with late := (g.thread e.tid).rclosed } }) core e.tid

/-- A probe asks for a store, or for the tags of a TAGSET (R220, R311). -/
def RbEntry.asks (e : RbEntry) : Use := if e.tag.isSome then .tag else .store

/-- PROBE_ANSWER (R226): the home acknowledges a probe, or finds a fault (R230, R232, R410); of a store, a poisoned granule
is one (R209). -/
def execProbeAnswer (core id : Nat) (s : State) : Out :=
  .next (match s.grp? core with
  | none => s
  | some g =>
    match g.rb.find? fun e => e.id == id with
    | none => s
    | some e =>
      match e.st, e.acc.loc with
      | .probing, .ia ia =>
        match askHome s g.part (segOf core) e.acc ia e.asks with
        | .ok t =>
          if t.kind == 0 && e.tag.isNone && poisoned s t.addr e.acc.n then probeFault s core e cPoison false false
          else ackProbe s core id g e ia t
        | .held => s
        | .fault c v f => probeFault s core e c v f
        | .iso => freezeGroup s core e.acc.va
      | .fault _, _ => settle s core e.tid
      | _, _ => s)

/-- REGION_COMPLETE (R225): a closed region all of whose accesses are answered is complete, its stores
drain, once no FENCE.AR holds them, and a trap that waited for it, which closes it, is taken (R233, R334). -/
def execRegionComplete (core tid : Nat) (s : State) : Out :=
  .next (match s.grp? core with
  | none => s
  | some g =>
    if ((g.thread tid).rclosed || (g.thread tid).ptrap.isSome) && !g.unanswered tid then
      trapNow (drainHeld (s.setGrp core (g.modThread tid Thread.closeRegion)) core tid) core tid
    else s)

/-- STORE_ENTRY_RETRY (R229): a store, or an element, that waits for entries finds them, or a younger region is aborted. -/
def execStoreEntryRetry (core tid : Nat) (s : State) : Out :=
  .next (match s.grp? core with
  | none => s
  | some g =>
    let k := (g.thread tid).rbwait
    if k = 0 then s
    else if g.rbUsed + k ≤ 2048 then
      let s := s.setGrp core (g.modThread tid fun y => { y with rbwait := 0 })
      if (g.thread tid).long.isSome then longOn s core tid else s
    else
      match g.victim tid with
      | some u => abortRegion s core u
      | none => s)

/-! ## Service of pages (R230) -/

/-- The stack that holds a frame. -/
def stackOf (addr : Nat) : Nat := addr / 2 ^ 53 * 2 + (if addr % 2 ^ 53 < 0x1000000000 then 0 else 1)

/-- A byte address of device memory lies on a stack, not on a CXL port (R86). -/
def onStack (a : Nat) : Bool := decide (a % 2 ^ 53 < 0x2000000000)

/-- 64 KiB frames of the second tier that a partition uses (R66). -/
def cxlUsed (s : State) (p : Nat) : Nat := (s.frames.filter fun f => f.2 == p && !onStack (f.1 * 65536)).length

/-- 64 KiB frames of stacks that a partition uses: those granted, and the tag table of its second-tier frames, of 1/64
of them (R66, R208, R322) (DEDUCED, log 100). -/
def framesUsed (s : State) (p : Nat) : Nat :=
  (s.frames.filter fun f => f.2 == p && onStack (f.1 * 65536)).length + (cxlUsed s p + 63) / 64

/-- A partition's quotas of frames on stacks and on CXL ports, in 64 KiB steps (R66). -/
def frameQuota (s : State) (p : Nat) : Nat := 32 * (bits (s.partRec p 0x10) 0 32).toNat

def cxlQuota (s : State) (p : Nat) : Nat := 32 * (bits (s.partRec p 0x10) 32 32).toNat

/-- A dword of a stack's error block (R413). -/
def errReg (stack off : Nat) : Nat := 0xD000 + 64 * stack + off

/-- The banks of a stack that run under the stronger code: each has given up 2048 frames of 64 KiB, 1/16 of its own
(R413). -/
def strongBanks (s : State) (stack : Nat) : Nat :=
  ((List.range 32).filter fun b => bit (s.reg (errReg stack 8)) b).length

/-- Frames in use on a stack. -/
def usedOn (s : State) (stack : Nat) : Nat :=
  (s.frames.filter fun f => onStack (f.1 * 65536) && stackOf (f.1 * 65536) == stack).length

/-- The frames in use on every stack fit beside those that its banks have given up (R413). -/
def stacksFit (s : State) : Bool :=
  (List.range 16).all fun k => decide (usedOn s k + 2048 * strongBanks s k ≤ 0x100000)

/-- A partition stands within its quotas (R66). -/
def quotaOk (s : State) (p : Nat) : Bool :=
  decide (framesUsed s p ≤ frameQuota s p) && decide (cxlUsed s p ≤ cxlQuota s p)

/-- The tail record that the firmware writes for a page: zeroed with WMAP set, or that of a page installed already
sealed, every word below its tail written (R308). -/
def newTail (t : TailInit) : TailRec :=
  let n := if t.big then 131072 else 4096
  match t.sealed with
  | none => ⟨0, 0, 0, false, 0, t.wmap, n, [], []⟩
  | some (tail, bcast, repl) => ⟨tail, tail, 2, bcast, repl % 32, t.wmap, n, [], List.range (4 * tail)⟩

/-- Copies a 64 KiB frame: bytes, tags and poison. -/
def copyFrame (s : State) (src dst : Nat) : State :=
  let moved : List Host.Cell := (s.mem.filter fun c => decide (src ≤ c.1) && decide (c.1 < src + 65536)).map
    fun c => (dst + (c.1 - src), c.2)
  let below := s.mem.filter fun c => decide (c.1 < dst)
  let above := s.mem.filter fun c => decide (dst + 65536 ≤ c.1)
  let inFrame (gr base : Nat) : Bool := decide (base / 32 ≤ gr) && decide (gr < base / 32 + 2048)
  let tags := s.tags.filter fun t => !inFrame t.1 dst
  let tags := (s.tags.filter fun t => inFrame t.1 src).foldl (fun m t => alSet (t.1 - src / 32 + dst / 32) t.2 m) tags
  let poison := (s.poison.filter fun gr => !inFrame gr dst) ++
    (s.poison.filter fun gr => inFrame gr src).map fun gr => gr - src / 32 + dst / 32
  { s with mem := below ++ moved ++ above, tags := tags, poison := poison }

/-- The firmware prepares memory for a page (R87, R230, R308): frames, dwords below the host's memory, copies of
frames, tail records and the bases of their tables; a walk cache drops an entry that is written (R89), and the
home-map caches drop those of the partition, but for a region that is held (R83, R94) (DESIGN CHOICE, log 8) (DEDUCED,
log 40). -/
def applyFw (s : State) (p : Nat) (fw : FwWrites) : State :=
  let frames := (fw.frames.filter fun f => !s.frames.any fun x => x.1 == f).map fun f => (f, p)
  let s := { s with frames := s.frames ++ frames }
  let s := fw.copies.foldl (fun s c => copyFrame s (c.1 * 65536) (c.2 * 65536)) s
  let s := fw.dwords.foldl (fun s d =>
    if d.1 + 8 ≤ 2 ^ 56 then { s with mem := memWrite64 d.1 d.2 s.mem, wcache := alDel (d.1 / 16 * 16) s.wcache } else s) s
  let s := if fw.dwords.isEmpty then s else { s with hmc := s.hmc.filter fun x => x.1 / 2 ^ 27 != p || bit x.2 20 }
  let s := fw.bases.foldl (fun s b => { s with tailBase := alSet b.1 b.2 s.tailBase }) s
  fw.tails.foldl (fun s t => { s with tails := alSet t.frame (newTail t) s.tails }) s

/-- What the firmware prepares, where it leaves the partition within its quotas of frames, and the frames on the stacks; else
none (R66, R413). -/
def grantFw (s : State) (p : Nat) (fw : FwWrites) : Option State :=
  let s' := applyFw s p fw
  if quotaOk s' p && stacksFit s' || fw.frames.isEmpty then some s' else none

/-- The page can be used: one of host memory, by some context of the partition (R83-R87, R235). -/
def pageThere (s : State) (p seg page : Nat) : Bool :=
  match resolve s p seg 0 (page * 65536) with
  | .dev _ _ _ => true
  | _ =>
    (kindOf s p page == 1 || kindOf s p page == 2) &&
      (List.range (ctxCount s p)).any fun c => (atsAccess s p (ctxPasid s p c) page).isSome

/-- Threads of a group that wait for a page (R230). -/
def Group.faultWaiters (g : Group) (page : Nat) : List Wait :=
  g.waits.filter fun w => match w.why with | .fault n _ _ _ _ => n == page | _ => false

def clearWait (page : Nat) (o : Option Nat) : Option Nat := if o = some page then none else o

/-- The engines of a group that wait at a page go on (R256, R289). -/
def Group.enginesOn (g : Group) (page : Nat) : Group :=
  { g with
    cqs := g.cqs.map fun c => { c with run := c.run.map fun r => { r with faultWait := clearWait page r.faultWait } },
    mx := { g.mx with
      mma := g.mx.mma.map fun m => { m with faultWait := clearWait page m.faultWait },
      drain := g.mx.drain.map fun d => { d with faultWait := clearWait page d.faultWait } } }

/-- The threads of a core that wait for a page arrive at their region starts; they read afresh (R230, R361) (DEDUCED, log
107). -/
def serveCore (part page : Nat) (s : State) (core : Nat) : State :=
  match s.grp? core with
  | none => s
  | some g =>
    match (if g.part = part then (g.faultWaiters page).map (·.tid) else []) with
    | [] => s
    | ts => wakeAll (dropSi s core true) core ts

/-- A page can be used: every thread that waits for it arrives at its region start, and every engine goes on
(R230). Saved groups are served as they stand (R240). -/
def servePage (s : State) (part page : Nat) : State :=
  let s := (s.cores.map (·.1)).foldl (serveCore part page) s
  let s := s.mapGroups fun g =>
    if g.part == part then (g.move none ((g.faultWaiters page).map (·.tid))).enginesOn page else g
  let s := s.modRank (fun x => x.key.part == part) fun x => { x with faultWait := clearWait page x.faultWait }
  { s with
    serving := s.serving.filter (· != (part, page)),
    asks := s.asks.filter fun a => !(a.part == part && a.page == page) }

/-- PAGE_SERVED (R230): the firmware makes the page resident, with frames that the quotas allow (R66). -/
def execPageServed (part page : Nat) (fw : FwWrites) (s : State) : Out :=
  .next (
    if !s.serving.contains (part, page) then s
    else
      match grantFw s part fw with
      | none => s
      | some s' =>
        if !pageThere s' part ((hme s' part (page * 65536)).map (·.seg) |>.getD 0) page then s
        else servePage s' part page)

/-! ## A declined fault (R230, R232) -/

/-- A thread whose page is declined traps at its region start (R232); one that waits for the page of a word traps at that
word, once its region is complete (R96, R233). -/
def Group.declineThread (g : Group) (tvec : W64) (prifail : Bool) (w : Wait) : Group :=
  match w.why with
  | .fault _ pc va akind late =>
    let th := g.thread w.tid
    let rec_ := trecOf th.rsPc pc akind prifail late
    if akind = 4 then
      (g.modThread w.tid fun y => { y with ptrap := some ⟨cPageAbsent, va, rec_, th.pc, th.prio⟩ }).takeTrap tvec w.tid
    else g.trapThread tvec w.tid cPageAbsent va th.pc th.prio rec_
  | _ => g

/-- A copy command that waits at a page fails by the side on which it waits (R256). -/
def failCopy (g : Group) (page : Nat) (c : CopyRun) : CopyRun :=
  if c.faultWait = some page then
    let code := if c.over then c.code
      else
        let src := (blockOf g c).1
        some (pieceCode cPageAbsent (!isPlace src && engPage c.wins src == page))
    { c with faultWait := none, code := code }
  else c

/-- A drain or an MMA that waits at a page fails (R256, R289, R302). -/
def failMatrix (m : Matrix) (page : Nat) : Matrix :=
  let m := match m.mma, runningItem m.q MqCmd.isMma with
    | some r, some (i, _) => if r.faultWait = some page then endMma m i 0x0202 none none else m
    | _, _ => m
  match m.drain, runningItem m.q MqCmd.isDrain with
  | some d, some (i, _) => if d.faultWait = some page then endDrain m i 0x0208 else m
  | _, _ => m

/-- The engines of a group that wait at a page fail. -/
def Group.enginesOff (g : Group) (page : Nat) : Group :=
  { g with
    cqs := g.cqs.map fun c => { c with run := c.run.map (failCopy g page) },
    mx := failMatrix g.mx page }

/-- Every thread of a group that waits for a page traps. -/
def Group.declineAll (g : Group) (tvec : W64) (prifail : Bool) (page : Nat) : Group :=
  (g.faultWaiters page).foldl (fun g w => g.declineThread tvec prifail w) g

/-- The threads of a core that wait for a declined page trap, and leave the wait store together (R122, R230). -/
def declineCore (part page : Nat) (prifail : Bool) (s : State) (core : Nat) : State :=
  match s.grp? core with
  | none => s
  | some g =>
    if g.part = part then
      leaveWaits s core ((g.faultWaiters page).map (·.tid)) fun g => g.declineAll (s.tvec part) prifail page
    else s

/-- A page that the firmware declines (R230): waiting threads trap, those of saved groups as they stand (R240), and waiting
engine commands fail. -/
def declinePage (s : State) (part page : Nat) (prifail : Bool) : State :=
  let s := (s.cores.map (·.1)).foldl (declineCore part page prifail) s
  let tvec := s.tvec part
  let s := s.mapGroups fun g =>
    if g.part == part then
      ((g.declineAll tvec prifail page).move none ((g.faultWaiters page).map (·.tid))).enginesOff page
    else g
  let s := s.modRank (fun x => x.key.part == part && x.faultWait == some page) fun x =>
    { x with faultWait := none, failed := some (x.failed.getD 0x0404) }
  { s with
    serving := s.serving.filter (· != (part, page)),
    priWait := s.priWait.filter fun x => !(x.part == part && x.page == page),
    asks := s.asks.map fun a => if a.part = part ∧ a.page = page then { a with denied := true } else a }

/-- FAULT_DECLINED (R230). -/
def execFaultDeclined (part page : Nat) (s : State) : Out :=
  .next (if s.serving.contains (part, page) then declinePage s part page false else s)

/-! ## WAITGE, BACKOFF, NOPRE -/

/-- A thread traps at the word in which it waits, and leaves the wait store (R122). -/
def waitTrap (s : State) (core tid cause : Nat) (val trec : W64) : State :=
  moveOut s core tid fun g => g.trapThread (s.tvec g.part) tid cause val (g.thread tid).pc (g.thread tid).prio trec

/-- A waiting WAITGE looks at its count again (R345). -/
def lookAgain (s : State) (core tid : Nat) (g : Group) (a : Acc) (target : W64) (err sys : Bool) : State :=
  match lookCount s core tid g a target err sys with
  | .below _ => s
  | .later s => s
  | .done s => wake (s.modGrp core fun g => g.stepOver tid) core tid
  | .fault s f ac =>
    let f := priFilter s g.part g.ctxid f
    if f.servable then
      let s := startService s g.part g.ctxid f.page
      s.modGrp core fun g => g.park tid (.fault f.page (g.thread tid).pc ac.va 0 false)
    else
      waitTrap s core tid f.cause ac.va (trecOf (g.thread tid).pc (g.thread tid).pc 0 f.prifail false)
  | .bad b => if b.1 = cIsolation then freezeGroup s core b.2 else waitTrap s core tid b.1 b.2 0
  | .err s v => waitTrap s core tid cSoftware v 0

/-- The count lies in device memory (R345). -/
def countInDevice (s : State) (p : Nat) (a : Acc) : Bool := kindOf s p (a.ia / 65536) == 0

/-- WAITGE_WAKE (R345): the home slice wakes a thread that waits for a count in device memory. -/
def execWaitgeWake (core tid : Nat) (s : State) : Out :=
  .next (match s.grp? core with
  | none => s
  | some g =>
    match g.waiting tid with
    | some w =>
      match w.why with
      | .waitge a target err sys _ => if countInDevice s g.part a then lookAgain s core tid g a target err sys else s
      | _ => s
    | none => s)

/-- WAITGE_POLL (R345): the core re-reads a count that lies elsewhere. -/
def execWaitgePoll (core tid : Nat) (s : State) : Out :=
  .next (match s.grp? core with
  | none => s
  | some g =>
    match g.waiting tid with
    | some w =>
      match w.why with
      | .waitge a target err sys _ =>
        if countInDevice s g.part a then s
        else
          let s := s.modGrp core fun g =>
            { g with waits := g.waits.map fun x => if x.tid == tid then ⟨tid, .waitge a target err sys s.now⟩ else x }
          match s.grp? core with
          | some g => lookAgain s core tid g a target err sys
          | none => s
      | _ => s
    | none => s)

/-- BACKOFF_EXPIRY (R346). -/
def execBackoffExpiry (core tid : Nat) (s : State) : Out :=
  .next (match s.grp? core with
  | none => s
  | some g =>
    let e := (g.thread tid).backoff
    if e ≠ 0 ∧ e ≤ s.now then s.setGrp core (g.modThread tid fun y => { y with backoff := 0 }) else s)

/-- NOPRE_DEADLINE (R171): the window shuts by itself. -/
def execNopreDeadline (core : Nat) (s : State) : Out :=
  .next (match s.grp? core with
  | none => s
  | some g =>
    match g.nopre with
    | some d => if d ≤ s.clock core g.clockOff then s.setGrp core { g with nopre := none } else s
    | none => s)

end Sys2Proof.Machine
end

