-- ==== Sys2Proof/Machine/Homes.lean ====
section
/-! DEFINITION. The events of homes and L1s: loads and fills (R203, R206), writes (R205), atomics (R337, R338),
invalidations, recalls and write-backs (R203-R206), host snoops and host accesses (R207, R363), time-outs
(R405). -/

namespace Sys2Proof.Machine

/-- What becomes of an outstanding result. -/
def setPend (s : State) (core id : Nat) (f : Pend → Pend) : State :=
  s.modGrp core fun g => { g with pend := g.pend.map fun p => if p.id = id then f p else p }

/-- A fault found for a result; it is late where the thread's region has closed (R232). -/
def pendFault (s : State) (core id : Nat) (f : MFault) : State :=
  s.modGrp core fun g => { g with pend := g.pend.map fun p =>
    if p.id = id then { p with st := .fault { f with late := (g.thread p.tid).rclosed } } else p }

def pendReady (s : State) (core id : Nat) (v : List W32) : State := setPend s core id fun p => { p with st := .ready v }

/-! ## Fills (R202, R203, R206, R312, R320) -/

/-- The words of a line that other cores own. -/
def othersMask (h : HomeLine) (core : Nat) : BitVec 32 :=
  h.owners.foldl (fun m (w, c) => if c = core then m else m ||| wbit w) 0

/-- The home serves a miss: owned words are recalled, the line is read once every write of it is performed, and the
requester joins the holders (R203, R205, R332). -/
def readFill (s : State) (core : Nat) (g : Group) (m : Miss) (t : Tgt) : State :=
  let p := g.part
  let ia := m.line * 128
  let s := if t.kind = 0 then recallMask s p ia (othersMask (s.homeLine p ia) core) else flushBefore s p t ia
  if lineBusy s p ia then s
  else
    let s := noteHot (noteWalk s p (winPasid (s.core core).wins) ia) p (segOf core) t.hseg ia
    let s := match t.leaf with | some l => learnReps s p l ia core | none => s
    let s := dropPoisoned s p (segOf core) t ia 128 (some core)
    let f := fillOf s core p m t
    let s := if f.tracked then joinSharers s p ia core else s
    let s := if f.sealed then (sealSlices s p core ia).foldl (fun s x => keepL2 s p f x) s else s
    s.modCore core fun c => { c with fills := c.fills ++ [f] }

/-- The outstanding loads that wait for a line. -/
def Group.missWaiters (g : Group) (line : Nat) : List (Pend × Acc × Nat) :=
  g.pend.filterMap fun p =>
    match p.kind, p.st with
    | .load a _ _ false, .sent =>
      match a.loc with
      | .ia ia => if ia / 128 = line then some (p, a, ia) else none
      | _ => none
    | _, _ => none

/-- The loads that wait for a line now ask the home themselves. -/
def Pend.toHome (p : Pend) : Pend :=
  match p.kind with
  | .load a sx own _ => { p with kind := .load a sx own true }
  | _ => p

def dropMiss (s : State) (core id : Nat) : State :=
  s.modCore core fun c => { c with misses := c.misses.filter fun m => m.id != id }

/-- The faults that the home finds for the loads of a miss; none while it holds one of them. -/
def missFaults (s : State) (p seg : Nat) : List (Pend × Acc × Nat) → Option (List (Nat × Nat × Nat × Bool × Bool × Acc))
  | [] => some []
  | (x, a, ia) :: r =>
    match askHome s p seg a ia .load, missFaults s p seg r with
    | .held, _ | _, none => none
    | .fault c v f, some l => some ((x.id, x.tid, c, v, f, a) :: l)
    | _, some l => some l

/-- A violation among the loads of a miss. -/
def missIso (s : State) (p seg : Nat) (l : List (Pend × Acc × Nat)) : Option W64 :=
  (l.find? fun (_, a, ia) => askHome s p seg a ia .load == .iso).map fun (_, a, _) => a.va

/-- A miss of a line that no L1 holds (R87): the loads ask the home themselves. -/
def missToHome (s : State) (core : Nat) (m : Miss) (ws : List (Pend × Acc × Nat)) : State :=
  (dropMiss s core m.id).modGrp core fun g =>
    { g with pend := g.pend.map fun x => if ws.any fun w => w.1.id == x.id then x.toHome else x }

/-- HOME_LOAD of a miss. -/
def serveMiss (s : State) (core : Nat) (g : Group) (m : Miss) : State :=
  let p := g.part
  let seg := segOf core
  let ws := g.missWaiters m.line
  match freeingFill s core p m with
  | some f => s.modCore core fun c => { c with fills := c.fills ++ [f] }
  | none =>
  if (freeingLeaf s p (m.line * 128)).any fun x => !x.2.cache then missToHome s core m ws else
  match missIso s p seg ws with
  | some va => freezeGroup (dropMiss s core m.id) core va
  | none =>
    match missFaults s p seg ws with
    | none => s
    | some fs =>
      match target s p seg (winPasid (s.core core).wins) (m.line * 128) with
      | .held => s
      | r =>
        let s := fs.foldl (fun s (id, _, c, v, f, a) => pendFault s core id (mfault a c v f)) s
        let s := match r with
          | .ok t =>
            if !t.rd then dropMiss s core m.id
            else if t.cacheable then readFill s core g m t
            else missToHome s core m ws
          | _ => dropMiss s core m.id
        (dedup (fs.map fun f => f.2.1)).foldl (fun s t => settle s core t) s

/-- HOME_LOAD of a load that asks the home itself: it waits for its thread's earlier loads of the same bytes, and
for pending words (R201, R350). -/
def serveLoad (s : State) (core : Nat) (g : Group) (x : Pend) (a : Acc) (sx : Bool) (own : List (Option Byte)) : State :=
  if g.earlierLoad x.tid x.id a || pendingAt s core a.ia a.n then s
  else
  match loadHome s g.part (segOf core) a a.ia (some core) with
  | (s, .ok bs) => pendReady (dropStale s g.part core a.ia a.n) core x.id (loadWords a.n sx (mergeOwn own bs))
  | (s, .held) => s
  | (s, .fault c v f) => settle (pendFault s core x.id (mfault a c v f)) core x.tid
  | (s, .iso) => freezeGroup s core a.va

/-- What an append word meets at its page's home: the target with its tail record, where it has one (R314). -/
def askPage (s : State) (p seg : Nat) (a : Acc) (right : Right) : HAns (Tgt × Option TailRec) :=
  match target s p seg a.pasid a.ia with
  | .ok t =>
    if (right == .wr && !t.wr) || (right == .rd && !t.rd) then .fault cPageDenied false false
    else .ok (t, t.leaf.bind fun l => s.tail? l)
  | .held => .held
  | .fault c v f => .fault c v f
  | .iso => .iso

/-- The result of APPEND.QUERY (R314, R316). -/
def queryWords : Option TailRec → List W32
  | none => [0xFFFFFFFF, 3]
  | some r => [BitVec.ofNat 32 (16 * r.rt), r.state.setWidth 32]

/-- The result of TAILQ (R314, R317). -/
def tailqWords : Option TailRec → List W32
  | none => [0xFFFFFFFF]
  | some r => [BitVec.ofNat 32 (16 * r.ct)]

/-- Two addresses lie on one page. -/
def samePage (s : State) (p a b : Nat) : Bool :=
  a / 65536 == b / 65536 ||
  match hme s p a, hme s p b with
  | some h, some k =>
    (match leafAt s p h a, leafAt s p k b with
     | .leaf l, .leaf m => l.frame == m.frame
     | _, _ => false)
  | _, _ => false

/-- A reservation, or a query of a page's tail, with the number of its sheet (R313). -/
def PKind.sheet? : PKind → Option (Acc × Nat)
  | .appendRes a _ sh | .appendQuery a sh | .tailq a sh => some (a, sh)
  | _ => none

/-- An earlier act on the same page, of a lower lane of the same sheet, has not been performed yet (R313, R315). -/
def resBefore (s : State) (g : Group) (x : Pend) (a : Acc) (sheet : Nat) : Bool :=
  g.pend.any fun y => decide (y.id < x.id) && (match y.kind.sheet?, y.st with
    | some (b, sh), .sent => sh == sheet && samePage s g.part a.ia b.ia
    | _, _ => false)

/-- HOME_LOAD of APPEND.QUERY and TAILQ. -/
def serveQuery (s : State) (core : Nat) (g : Group) (x : Pend) (a : Acc) (f : Option TailRec → List W32) : State :=
  match askPage s g.part (segOf core) a .rd with
  | .ok (t, r) => pendReady (noteHot (noteWalk s g.part a.pasid a.ia) g.part (segOf core) t.hseg a.ia) core x.id (f r)
  | .held => s
  | .fault c v pf => settle (pendFault s core x.id (mfault a c v pf)) core x.tid
  | .iso => freezeGroup s core a.va

/-- HOME_LOAD of a PGINFO whose region was held (R94, R219). -/
def servePginfo (s : State) (core : Nat) (g : Group) (x : Pend) (a : Acc) : State :=
  if pginfoHeld s g.part a.ia then s
  else
    let (v, s) := pginfoAt s g.part (segOf core) a.ia
    pendReady s core x.id (words64 v)

/-- HOME_LOAD (R203): the home serves a miss, a load, a query of a page's tail, or a PGINFO that it held; or a FENCE is
performed. -/
def execHomeLoad (core id : Nat) (s : State) : Out :=
  .next (match s.grp? core with
  | none => s
  | some g =>
    match (s.core core).misses.find? fun m => m.id == id with
    | some m => if (s.core core).fills.any fun f => f.line == m.line then s else serveMiss s core g m
    | none =>
      match g.pend.find? fun p => p.id == id with
      | none => s
      | some x =>
        match x.kind, x.st with
        | .load a sx own true, .sent => serveLoad s core g x a sx own
        | .appendQuery a sh, .sent => if resBefore s g x a sh then s else serveQuery s core g x a queryWords
        | .tailq a sh, .sent => if resBefore s g x a sh then s else serveQuery s core g x a tailqWords
        | .pginfo a, .sent => servePginfo s core g x a
        | .fence k sc, .sent => serveFence s core g x k sc
        | _, _ => s)

/-- A draining store's bytes go into the words of a line that are valid and not owned (R349). -/
def patchPending (l : L1Line) (e : RbEntry) : L1Line :=
  match e.acc.loc with
  | .ia ia => l.patch (l.v &&& ~~~l.own) ia e.data
  | _ => l

/-- A line as a fill leaves it: words that the L1 owns stand, and stores of the core group that the home has not performed
yet go over the others (R203, R349) (DEDUCED, log 44). -/
def mergedLine (g : Group) (old : Option L1Line) (f : Fill) : L1Line :=
  let l : L1Line := old.getD ⟨f.line, 0, 0, 0, [], [], false, false, 0⟩
  let k := l.v &&& l.own
  let l := { l with
    v := f.v ||| k, data := pickWords k f.data l.data, tags := f.tags, si := f.si, sealed := f.sealed, stamp := f.stamp }
  ((g.pendingEntries f.line).filter g.drainOk).foldl patchPending l

/-- A draining store that a fill has brought into its line is read early (R349). -/
def markEarly (g : Group) (l : L1Line) (e : RbEntry) : RbEntry :=
  if ((g.pendingEntries l.line).filter g.drainOk).any (fun x => x.id == e.id) && (e.mask &&& l.v &&& ~~~l.own) != 0 then
    { e with early := true }
  else e

/-- A waiting load is answered from the line as filled, or goes to the home for words that it lacks. -/
def answerLoad (s : State) (core : Nat) (l : L1Line) (x : Pend) (a : Acc) (ia : Nat) : State :=
  match x.kind with
  | .load _ sx own _ =>
    let later := match s.grp? core with | some g => g.earlierLoad x.tid x.id a | none => false
    match if later then none else l.bytes? ia a.n with
    | some bs =>
      if l.tagOk a ia then pendReady s core x.id (loadWords a.n sx (mergeOwn own bs))
      else settle (pendFault s core x.id (mfault a cTagMismatch false false)) core x.tid
    | none => setPend s core x.id Pend.toHome
  | _ => s

def dropFill (s : State) (core id : Nat) : State :=
  s.modCore core fun c => { c with fills := c.fills.filter fun f => f.id != id }

/-- FILL_ARRIVAL (R206). -/
def execFillArrival (core line : Nat) (s : State) : Out :=
  .next (
    match (s.core core).fills.find? fun f => f.line == line, s.grp? core with
    | some f, some g =>
      match (s.core core).misses.find? fun m => m.line == line with
      | none => dropFill s core f.id
      | some m =>
        if (match m.floor with | some fl => older f.stamp fl | none => false) && !f.sealed then dropFill s core f.id
        else
          let s := makeRoom s core line
          let c := s.core core
          if l1Lines g ≤ c.l1.length && (c.line? line).isNone then s
          else
            let l := mergedLine g (c.line? line) f
            let s := dropMiss (dropFill (s.modCore core fun c => c.useLine l) core f.id) core m.id
            let s := s.modGrp core fun h => { h with rb := h.rb.map (markEarly g l) }
            (g.missWaiters line).foldl (fun s (x, a, ia) => answerLoad s core l x a ia) s
    | _, _ => s)

/-! ## Writes -/

/-- A store merges into a poisoned granule that it does not cover (R209, R227) (DEDUCED, log 34). -/
def mergesPoison (s : State) (addr n : Nat) : Bool :=
  (granules addr n).any fun gr => s.poison.contains gr && !(decide (addr ≤ 32 * gr) && decide (32 * gr + 32 ≤ addr + n))

/-- An entry is discarded. -/
def freeEntry (s : State) (core id : Nat) : State :=
  s.modGrp core fun g => { g with rb := g.rb.filter fun e => e.id != id }

/-- An error of a drained store is reported to the partition's management queue (R227, R412). -/
def reportStore (s : State) (g : Group) (va : W64) : State :=
  post s (groupFn s g) 3 0x000B (recSeq g.lrec) va g.lid

/-- The unit that a store was acknowledged for takes it, has been lost, or is not ready yet (R13, R18). -/
def sinkUp (s : State) (p seg ia : Nat) (t : Tgt) : Option Bool :=
  if t.kind = 0 then (unitReady s.pkg t.hseg (t.addr % 2 ^ 53)).map (· && reachable s.pkg seg t.hseg)
  else
    match hme s p ia with
    | none => some true
    | some h =>
      some (!(if t.kind = 3 then portLost s.pkg seg (fabricSeg h.fport) (.fabric h.fport)
        else portLost s.pkg seg (hostSeg h.hport) (.host h.hport)))

/-- A store whose home is lost is given up and reported (R227, R412) (DEDUCED, log 36). -/
def loseStore (s : State) (core : Nat) (g : Group) (e : RbEntry) : State :=
  let s := reportStore (freeEntry s core e.id) g e.acc.va
  if e.use = .elem then longOn (commitElem s core e.tid) core e.tid else s

/-- An entry's store is performed, an element's with its commit (R216, R226). -/
def landStore (s : State) (core : Nat) (g : Group) (e : RbEntry) : State :=
  if e.use = .elem then commitStore s core g e else storeEntry s core g e

/-- A draining store reaches what it was acknowledged for, whatever becomes of its page (R238, R310, R324); one that merges
into a poisoned granule is reported (R227). -/
def drainStore (s : State) (core : Nat) (g : Group) (e : RbEntry) : State :=
  match e.acc.loc with
  | .ia ia =>
    match entryTgt s core g e ia with
    | none => loseStore s core g e
    | some t =>
      match sinkUp s g.part (segOf core) ia t with
      | none => s
      | some false => loseStore s core g e
      | some true =>
        let bad := t.kind == 0 && e.tag.isNone && storeKind s core g e ia t != .o && mergesPoison s t.addr e.acc.n
        let s := landStore s core g e
        if bad then reportStore s g e.acc.va else s
  | _ => landStore s core g e

/-- A store posted before another to a byte of it is not performed yet (R201). -/
def postedBefore (s : State) (x : Posted) : Bool :=
  (s.posted.takeWhile fun y => y.id != x.id).any fun y =>
    decide (y.addr < x.addr + x.data.length) && decide (x.addr < y.addr + y.data.length)

/-- HOME_WRITE (R205, R227, R332): a draining store is performed, and its entry freed (DEDUCED, log 36); or a store posted
to the host is performed there (R362). -/
def execHomeWrite (core id : Nat) (s : State) : Out :=
  .next (match s.posted.find? fun x => x.id == id with
  | some x => if postedBefore s x then s else performPosted s x
  | none =>
    match s.grp? core with
    | none => s
    | some g =>
      match g.rb.find? fun e => e.id == id with
      | none => s
      | some e => if e.drains && g.drainOk e then showBehind (drainStore s core g e) core e else s)

/-! ## Atomics -/

/-- The registers of an old value of `n` bytes. -/
def oldWords (n old : Nat) : List W32 := wordsOfBytes (bytesOf n old)

/-- An atomic result arrives; a RED is done, once its invalidations are acknowledged (R225, R332, R337). -/
def atomDone (s : State) (core : Nat) (x : Pend) (n old : Nat) : State :=
  pendReady s core x.id (if x.kind.isRed then [] else oldWords n old)

/-- ATOM and RED at their performer; the kind of an address whose region had no entry at issue is checked here
(R338) (DEDUCED, log 109). -/
def serveAtom (s : State) (core : Nat) (g : Group) (x : Pend) (op : AtomOp) (a : Acc) (b d : Nat) (sc : Scope)
    (raw : W64) : State :=
  match a.loc with
  | .spad c off =>
    let old := natOfBytes (spadRead s c off a.n)
    atomDone (spadWrite s c off (bytesOf a.n (atomNew op (8 * a.n) old b d))) core x a.n old
  | .ia ia =>
    match askHome s g.part (segOf core) a ia .atomic with
    | .ok t =>
      if pendingAt s core ia a.n then s
      else if !atomAllowed s g.part a op x.kind.isRed sc then
        settle (pendFault s core x.id { mfault a cIllegalOperand false false with tval := raw }) core x.tid
      else
        let s := noteHot (noteWalk s g.part a.pasid ia) g.part (segOf core) t.hseg ia
        match atomAt s g.part core t ia a.n op b d (!x.kind.isRed) with
        | (s, .ok old) => atomDone (dropStale s g.part core ia a.n) core x a.n old
        | (s, .fault c v f) => settle (pendFault s core x.id (mfault a c v f)) core x.tid
        | (s, _) => s
    | .held => s
    | .fault c v f => settle (pendFault s core x.id (mfault a c v f)) core x.tid
    | .iso => freezeGroup s core a.va
  | _ => s

/-- A reservation at the home (R315). -/
def serveRes (s : State) (core : Nat) (g : Group) (x : Pend) (a : Acc) (n : W32) : State :=
  let bad (c : Nat) (v : W64) : State :=
    settle (pendFault s core x.id { mfault a c false false with tval := v }) core x.tid
  match askPage s g.part (segOf core) a .wr with
  | .held => s
  | .fault c v f => settle (pendFault s core x.id (mfault a c v f)) core x.tid
  | .iso => freezeGroup s core a.va
  | .ok (t, some r) =>
    if r.state = 2 then bad cSealedWrite a.va
    else if r.granules < n.toNat then bad cIllegalOperand (n.setWidth 64)
    else
      let s := noteHot (noteWalk s g.part a.pasid a.ia) g.part (segOf core) t.hseg a.ia
      if r.state = 1 ∨ r.granules < r.rt + n.toNat then pendReady s core x.id [0xFFFFFFFF]
      else
        match t.leaf with
        | some l => pendReady (s.setTail l { r with rt := r.rt + n.toNat }) core x.id [BitVec.ofNat 32 (16 * r.rt)]
        | none => s
  | .ok (_, none) => bad cAppendOrder a.va

/-- HOME_ATOMIC (R337, R338): ATOM, RED and APPEND.RES are performed. -/
def execHomeAtomic (core id : Nat) (s : State) : Out :=
  .next (match s.grp? core with
  | none => s
  | some g =>
    match g.pend.find? fun p => p.id == id with
    | none => s
    | some x =>
      match x.kind, x.st with
      | .atom op a b d sc raw, .sent => serveAtom s core g x op a b d sc raw
      | .red op a b sc raw, .sent => serveAtom s core g x (redToAtom op) a b 0 sc raw
      | .appendRes a n sh, .sent => if resBefore s g x a sh then s else serveRes s core g x a n
      | _, _ => s)

/-! ## Invalidations, recalls, write-backs -/

/-- An invalidation clears V in every word of the line that is neither owned nor pending (R205, R349). -/
def invalidateLine (c : Core) (line : Nat) (pending : BitVec 32) : Core :=
  match c.line? line with
  | none => c
  | some l =>
    let v := l.v &&& (l.own ||| pending)
    if v = 0 then c.dropLine line else c.setLine { l with v := v }

/-- Removes the first element that satisfies a test. -/
def dropFirst {α : Type} (f : α → Bool) : List α → List α
  | [] => []
  | x :: r => if f x then r else x :: dropFirst f r

/-- The receipt of an invalidation acknowledges it: entries whose stores are performed by it are freed (R226, R332). -/
def ackInv (s : State) (i : Inv) : State := if i.src < 512 then freeApplied s i.src else s

/-- INVALIDATION (R205, R206). -/
def execInvalidation (core line : Nat) (s : State) : Out :=
  .next (
    let mine (i : Inv) : Bool := i.core == core && i.line == line
    match s.invs.find? mine with
    | none => s
    | some i =>
      let s := { s with invs := dropFirst mine s.invs }
      ackInv (match s.grp? core with
        | none => s
        | some g =>
          if g.part ≠ i.part then s
          else s.modCore core fun c => raiseFloor (invalidateLine c line (g.pendingWhole line)) line i.stamp) i)

/-- The owned words of an L1's line that a mask selects go back to the home. -/
def backLine (s : State) (core line : Nat) (m : L1Line → BitVec 32) : State :=
  match s.grp? core, (s.core core).line? line with
  | some g, some l =>
    match lineAddr s g.part line with
    | some a => writeBackWords s g.part core line a (m l)
    | none => s
  | _, _ => s

/-- RECALL (R203): the home takes back every owned word of a line (DEDUCED, log 66). -/
def execRecall (core line : Nat) (s : State) : Out := .next (backLine s core line (·.own))

/-- WRITE_BACK (R203): the dirty words of a line leave together. -/
def execWriteBack (core line : Nat) (s : State) : Out := .next (backLine s core line (·.dty))

/-- HOST_SNOOP (R207): the claim on a host line is gone; every copy of it in the package is invalidated. -/
def execHostSnoop (part line : Nat) (s : State) : Out :=
  .next (
    if kindOf s part (line / 512) ≠ 1 then s
    else
      { s with cores := s.cores.map fun (n, c) =>
          match c.grp with
          | none => (n, c)
          | some g =>
            if g.part ≠ part then (n, c)
            else
              let c := invalidateLine c line (g.pendingWhole line)
              (n, { c with fills := c.fills.filter fun f => f.line != line }) })

/-! ## The host's accesses to device memory (R51, R363) -/

/-- Lines of IA space whose bytes lie on a line of device memory, as the homes keep them. -/
def linesAt (s : State) (addr : Nat) : List (Nat × Nat) :=
  s.homes.filterMap fun (k, _) =>
    let p := k / 2 ^ 41
    let line := k % 2 ^ 41
    if lineAddr s p line = some (addr / 128 * 128) then some (p, line) else none

/-- A byte of device memory lies in a frame of a sealed page, its home's or a replica's (R320, R321). -/
def sealedAt (s : State) (addr : Nat) : Bool :=
  (s.tails.any fun (f, r) => r.state.toNat != 0 && r.state != 1 && decide (f ≤ addr) && decide (addr < f + 16 * r.granules)) ||
  s.replicas.any fun r =>
    let size := match (hme s r.part (r.page * 65536)).map fun h => leafAt s r.part h (r.page * 65536) with
      | some (.leaf l) => l.size
      | _ => 65536
    decide (r.frame ≤ addr) && decide (addr < r.frame + size)

/-- One request of the host, whole at the home: owned words are recalled first; a sealed page accepts no write (R320)
(DEDUCED, log 67). -/
def hostAccess (s : State) (addr : Nat) (data : Option (List Byte)) : State :=
  let ls := linesAt s addr
  let s := ls.foldl (fun s (p, l) => recallMask s p (l * 128) (~~~0)) s
  match data with
  | none => s
  | some bs =>
    if sealedAt s addr then s else
    let s := clearPoison { s with mem := memWriteN addr bs s.mem } addr bs.length
    ls.foldl (fun s (p, l) => bumpLine s p (l * 128) byHost) s

/-- HOST_CXL_MEM_ACCESS (R51, R363): a read or a write of bytes of device HBM within one 64-byte line (DESIGN CHOICE, log
93); the second tier is not reached. -/
def execHostCxlMemAccess (addr len : Nat) (data : Option (List Byte)) (s : State) : Out :=
  match decide (addr < 2 ^ 56), unitAt (addr / 2 ^ 53) (addr % 2 ^ 53) with
  | true, some (.inr _) => .next s
  | true, some (.inl _) =>
    .next (
      if len = 0 ∨ 64 < addr % 64 + len ∨ (data.map (·.length)).getD len ≠ len ∨
          unitReady s.pkg (addr / 2 ^ 53) (addr % 2 ^ 53) ≠ some true then s
      else hostAccess s addr data)
  | _, _ => .fault .noSuchAddress

/-! ## Time-outs (R405) -/

/-- The address of an access lies in memory of KIND 1 to 3. -/
def outside (s : State) (p : Nat) (a : Acc) : Bool :=
  match a.loc with
  | .ia ia => kindOf s p (ia / 65536) != 0
  | _ => false

/-- The outstanding loads of a line of outside memory end in POISON. -/
def timeOutMiss (s : State) (core : Nat) (g : Group) (m : Miss) : State :=
  let ws := g.missWaiters m.line
  if kindOf s g.part (m.line / 512) = 0 ∨ (s.core core).fills.any (fun f => f.line == m.line) then s
  else
    let s := ws.foldl (fun s (x, a, _) => pendFault s core x.id (mfault a cPoison false false)) s
    (dedup (ws.map fun w => w.1.tid)).foldl (fun s t => settle s core t) (dropMiss s core m.id)

/-- The number by which an access of a core's engines, and a fetch of it, is named. -/
def engineAccess : Nat := 2 ^ 41
def fetchAccess : Nat := 2 ^ 41 + 1

/-- ACCESS_TIMEOUT (R405): an access to memory of KIND 1 to 3 that times out completes with POISON: one of a thread, by its
number; or the next one of the core's engines, or the next fetch (DEDUCED, log 69). -/
def execAccessTimeout (core id : Nat) (s : State) : Out :=
  .next (
  if id = engineAccess then { s with expired := s.expired ++ [(core, 0)] }
  else if id = fetchAccess then { s with expired := s.expired ++ [(core, 1)] }
  else match s.grp? core with
  | none => s
  | some g =>
    match (s.core core).misses.find? fun m => m.id == id with
    | some m => timeOutMiss s core g m
    | none =>
      match g.pend.find? fun p => p.id == id with
      | some x =>
        match x.kind.acc?, x.st with
        | some a, .sent =>
          if outside s g.part a && (x.kind matches .load _ _ _ true | .atom .. | .red ..) then
            settle (pendFault s core id (mfault a cPoison false false)) core x.tid
          else s
        | _, _ => s
      | none =>
        match g.rb.find? fun e => e.id == id with
        | some e =>
          if e.st == .probing && outside s g.part e.acc then
            probeFault s core e cPoison false false
          else s
        | none => s)

end Sys2Proof.Machine
end

