-- ==== Sys2Proof/Machine/Pages.lean ====
section
/-! DEFINITION. The events of pages: seals and replicas (R318-R323), walks (R83-R88), shootdowns (R89, R335),
ATS invalidations and page responses (R235-R237), migration (R94), hotness (R93). -/

namespace Sys2Proof.Machine

/-! ## Frames -/

/-- The first frame of a stack. -/
def stackBase (stack : Nat) : Nat := dpa (stack / 2) (stack % 2 * 0x1000000000)

/-- The pages of a size on a stack that hold a granted frame or a listed byte, by number. -/
def takenPages (s : State) (base size : Nat) : List Nat :=
  let addrs : List Nat := (s.frames.map fun f => f.1 * 65536) ++ s.mem.map fun c => c.1
  dedup (addrs.filterMap fun a => if base ≤ a ∧ a < base + 0x1000000000 then some ((a - base) / size) else none)

/-- The lowest free page of a size on a stack (DESIGN CHOICE, log 8). -/
def freePage (s : State) (stack size : Nat) : Option Nat :=
  let base := stackBase stack
  let taken := takenPages s base size
  ((List.range (taken.length + 1)).find? fun i => !taken.contains i && decide (i < 0x1000000000 / size)).map
    fun i => base + size * i

/-- The frames of a page, in 64 KiB steps. -/
def frameList (addr size : Nat) : List Nat := (List.range (size / 65536)).map (addr / 65536 + ·)

/-- The leaf of an IA page of device memory, with its home. -/
def leafOf (s : State) (p ia : Nat) : Option (Hme × Leaf) :=
  match hme s p ia with
  | none => none
  | some h =>
    if h.kind ≠ 0 then none
    else
      match leafAt s p h ia with
      | .leaf l => some (h, l)
      | _ => none

/-- The page that an IA page lies in, with its leaf and tail record (R308). -/
def tailOf (s : State) (p page : Nat) : Option (Hme × Leaf × TailRec) :=
  match leafOf s p (page * 65536) with
  | some (h, l) => (s.tail? l).map fun r => (h, l, r)
  | none => none

/-- The page's number: that of its first 64 KiB. -/
def Leaf.pageNo (l : Leaf) (page : Nat) : Nat := l.pageIa (page * 65536) / 65536

/-! ## Replicas (R321, R322) -/

def Replica.of (p page stack : Nat) (r : Replica) : Bool := r.part == p && r.page == page && r.stack == stack

/-- A stack is ready (R18). -/
def stackReady (s : State) (stack : Nat) : Bool := s.pkg.unitUp (.stack stack) (bit s.pkg.stkrdy stack) == some true

/-- A replica starts to be placed on a ready stack, where quota and memory allow it (R18, R322). -/
def placeReplica (s : State) (p page stack size : Nat) (frame : Option Nat) : State :=
  match frame with
  | none => s
  | some f =>
    if !stackReady s stack ∨ s.replicas.any (Replica.of p page stack) ∨
        frameQuota s p < framesUsed s p + size / 65536 then s
    else
      { s with
        frames := s.frames ++ (frameList f size).map fun x => (x, p),
        replicas := s.replicas ++ [⟨p, page, stack, f, .placing⟩] }

/-- SEAL.BCAST places a replica on every other stack on which the partition owns slices (R322). -/
def placeAll (s : State) (p page : Nat) (h : Hme) (l : Leaf) : State :=
  ((List.range 16).filter fun k => k != 2 * h.seg + h.stk && !(slicesOn s p (k / 2) (k % 2)).isEmpty).foldl
    (fun s k => placeReplica s p page k l.size (freePage s k l.size)) s

/-- A replica of the page is being placed. -/
def placingAny (s : State) (p page : Nat) : Bool :=
  s.replicas.any fun r => r.part == p && r.page == page && r.st == .placing

/-- A SEAL of the page that its home holds (R318) (DEDUCED, log 75). -/
def heldSeal (s : State) (p page : Nat) (x : Pend) : Bool :=
  match x.kind, x.st with
  | .seal a _ true, .sent =>
    match leafOf s p a.ia with
    | some (_, l) => l.pageNo (a.ia / 65536) == page
    | none => false
  | _, _ => false

/-- Every held SEAL of a page is answered (R318). -/
def answerSeals (s : State) (p page : Nat) (r : TailRec) : State :=
  let v : List W32 := [BitVec.ofNat 32 (16 * r.rt), BitVec.ofNat 32 r.repl]
  s.mapGroups fun g =>
    if g.part ≠ p then g
    else { g with pend := g.pend.map fun x => if heldSeal s p page x then { x with st := .ready v } else x }

/-- A sealed page with nothing left to place answers its SEALs. -/
def answerIfPlaced (s : State) (p page : Nat) : State :=
  match tailOf s p page with
  | some (_, _, r) => if r.state = 2 ∧ !placingAny s p page then answerSeals s p page r else s
  | none => s

/-- A SEAL arrives at its page's home (R314, R318). -/
def serveSeal (s : State) (core : Nat) (g : Group) (x : Pend) (a : Acc) (bcast : Bool) : State :=
  match askPage s g.part (segOf core) a .wr with
  | .held => s
  | .fault c v f => settle (pendFault s core x.id (mfault a c v f)) core x.tid
  | .iso => freezeGroup s core a.va
  | .ok (_, none) => settle (pendFault s core x.id (mfault a cAppendOrder false false)) core x.tid
  | .ok (t, some r) =>
    match t.leaf, hme s g.part a.ia with
    | some l, some h =>
      let s := noteHot (noteWalk s g.part a.pasid a.ia) g.part (segOf core) t.hseg a.ia
      let r := { r with state := if r.state = 0 then 1 else r.state, bcast := r.bcast || bcast }
      let s := setPend (s.setTail l r) core x.id fun y => { y with kind := .seal a bcast true }
      let page := l.pageNo (a.ia / 65536)
      if r.state = 2 then answerIfPlaced (if r.bcast then placeAll s g.part page h l else s) g.part page else s
    | _, _ => s

/-- SEAL_AT_HOME (R318). -/
def execSealAtHome (core id : Nat) (s : State) : Out :=
  .next (match s.grp? core with
  | none => s
  | some g =>
    match g.pend.find? fun p => p.id == id with
    | none => s
    | some x =>
      match x.kind, x.st with
      | .seal a b false, .sent => serveSeal s core g x a b
      | _, _ => s)

/-- Forgets the cached leaf of every 64 KiB of a page (R89). -/
def dropXlat (s : State) (p page size : Nat) : State :=
  { s with xlat := s.xlat.filter fun e =>
      !(decide (p * 2 ^ 32 + page ≤ e.1) && decide (e.1 < p * 2 ^ 32 + page + size / 65536)) }

/-- A leaf entry is replaced, and leaves the walk cache (R89). -/
def writeLeaf (s : State) (l : Leaf) (d0 d1 : W64) : State :=
  { s with mem := memWrite64 (l.at_ + 8) d1 (memWrite64 l.at_ d0 s.mem), wcache := alDel l.at_ s.wcache }

/-- Dword 1 with GEN incremented. -/
def nextGen (d1 : W64) : W64 := bits d1 32 32 ++ (bits d1 0 32 + 1)

/-- SEAL_COMPLETE (R318): closing, and every reserved granule written. -/
def execSealComplete (part page : Nat) (s : State) : Out :=
  .next (match tailOf s part page with
  | none => s
  | some (h, l, r) =>
    let page := l.pageNo page
    if r.state = 1 ∧ r.ct = r.rt then
      let d0 := memRead64 s.mem l.at_
      let s := writeLeaf s l ((d0 &&& ~~~0x60) ||| 0x40) (nextGen (memRead64 s.mem (l.at_ + 8)))
      let s := dropXlat s part page l.size
      let s := { s with tails := alSet l.frame { r with state := 2 } s.tails }
      answerIfPlaced (if r.bcast then placeAll s part page h l else s) part page
    else s)

/-- The frames of a page copied, one after another. -/
def copyPage (s : State) (src dst size : Nat) : State :=
  (List.range (size / 65536)).foldl (fun s i => copyFrame s (src + 65536 * i) (dst + 65536 * i)) s

/-- REPLICA_PLACED (R321): the copy is complete, REPL counts it, reads may go to it. -/
def execReplicaPlaced (part page stack : Nat) (s : State) : Out :=
  .next (match tailOf s part page, s.replicas.find? (Replica.of part page stack) with
  | some (_, l, r), some x =>
    if x.st ≠ .placing then s
    else
      let s := copyPage s l.frame x.frame l.size
      let s := { s with replicas := s.replicas.map fun y => if Replica.of part page stack y then { y with st := .live } else y }
      answerIfPlaced (s.setTail l { r with repl := r.repl + 1 }) part page
  | _, _ => s)

/-- REPLICA_DROP (R321, R322): the firmware drops a live replica. -/
def execReplicaDrop (part page stack : Nat) (s : State) : Out :=
  .next (match tailOf s part page, s.replicas.find? (Replica.of part page stack) with
  | some (_, l, _), some x =>
    if x.st ≠ .live then s
    else
      startDraining s part page l fun y => y.stack == stack
  | _, _ => s)

/-- REPLICA_DRAINED (R321): the frame returns to the partition. -/
def execReplicaDrained (part page stack : Nat) (s : State) : Out :=
  .next (match s.replicas.find? (Replica.of part page stack) with
  | some x =>
    if x.st ≠ .draining then s
    else
      let size := match leafOf s part (page * 65536) with | some (_, l) => l.size | none => 65536
      let fs := frameList x.frame size
      { s with
        replicas := s.replicas.filter fun y => !Replica.of part page stack y,
        frames := s.frames.filter fun f => !(f.2 == part && fs.contains f.1) }
  | none => s)

/-- REPLICATION_BY_HOTNESS (R94, R322): a proposal for a sealed page adds a replica on the proposing side; for
another page it is dropped. -/
def execReplicationByHotness (part page stack frame : Nat) (s : State) : Out :=
  .next (
    match s.proposals.find? fun x => x.part == part && x.page == page && !x.fallback && x.src == stack / 2 with
    | none => s
    | some x =>
      let s := { s with proposals := dropFirst (· == x) s.proposals }
      match tailOf s part page with
      | some (h, l, r) =>
        let a := frame * 65536
        if r.state ≠ 2 ∨ stack = 2 * h.seg + h.stk ∨ 16 ≤ stack ∨ slicesOn s part (stack / 2) (stack % 2) = [] ∨
            a % l.size ≠ 0 ∨ stackOf a ≠ stack ∨ !onStack a ∨ (frameList a l.size).any (fun f => s.frames.any fun x => x.1 == f)
        then s
        else placeReplica s part (l.pageNo page) stack l.size (some a)
      | none => s)

/-! ## Translations -/

/-- PAGE_WALK (R83-R88). -/
def execPageWalk (part ia : Nat) (s : State) : Out :=
  .next (if kindOf s part (ia / 65536) = 0 then noteWalk s part 0 ia else s)

/-- Every core group of a partition that has not retired. -/
def partGroups (s : State) (p : Nat) : List Group :=
  ((s.cores.flatMap fun (_, c) => c.grp.toList ++ c.shadow.toList) ++ (s.part p).csa).filter fun g => g.part == p

/-- A store has been acknowledged by its home and is not yet performed. -/
def RbEntry.open (e : RbEntry) : Bool :=
  match e.st with
  | .acked _ | .draining _ | .applied | .posted _ => true
  | _ => false

/-- Stores to an extent of IA space that have been acknowledged and are not yet performed (R89, R238): LAUNCHID, linear
index and number of each. -/
def openStores (s : State) (p ia size : Nat) : List (Nat × Nat × Nat) :=
  (partGroups s p).flatMap fun g =>
    (g.rb.filter fun e => e.open && (match e.acc.loc with | .ia a => decide (ia ≤ a) && decide (a < ia + size) | _ => false)).map
      fun e => (g.lid, g.linear, e.id)

/-- A store of a list still stands in its region buffer. -/
def stillOpen (s : State) (p : Nat) (l : List (Nat × Nat × Nat)) : Bool :=
  (partGroups s p).any fun g => g.rb.any fun e => l.contains (g.lid, g.linear, e.id)

/-- A store to an extent of IA space is open (R94) (DEDUCED, log 68). -/
def storesOpen (s : State) (p ia size : Nat) : Bool := !(openStores s p ia size).isEmpty

/-- Owned words of an extent's lines are recalled (R89, R203). -/
def recallRange (s : State) (p ia size : Nat) : State :=
  let lo := p * 2 ^ 41 + ia / 128
  ((s.homes.filter fun h => decide (lo ≤ h.1) && decide (h.1 < lo + size / 128) && !h.2.owners.isEmpty).map (·.1)).foldl
    (fun s k => recallMask s p (k % 2 ^ 41 * 128) (~~~0)) s

/-- Lines of an extent leave every L1, instruction cache and L2 slice of the partition, with the fills on their way (R89,
R324). -/
def dropLines (s : State) (p ia size : Nat) : State :=
  let inR (l : Nat) : Bool := decide (ia / 128 ≤ l) && decide (l < ia / 128 + size / 128)
  { s with
    l2 := s.l2.filter fun l => !(l.part == p && inR l.line),
    cores := s.cores.map fun (n, c) =>
      match c.grp with
      | none => (n, c)
      | some g =>
        if g.part ≠ p then (n, c)
        else
          (n, { c with
            l1 := c.l1.filter fun l => !inR l.line, fills := c.fills.filter fun f => !inR f.line,
            icache := c.icache.filter fun w => !inR (w.1 / 128) }) }

/-! ## Shootdowns (R89, R237, R238) -/

/-- The shootdown in progress of the page that a 64 KiB page lies in. -/
def State.shootOf (s : State) (p page : Nat) : Option Shoot :=
  s.shoots.find? fun x => x.part == p && decide (x.page ≤ page) && decide (page < x.page + x.pages)

/-- The third step of a shootdown begins: it waits for the stores acknowledged under the old translation, if there are
any (R89, R238). -/
def waitStores (s : State) (p page pages : Nat) (l : List (Nat × Nat × Nat)) (posted : List Nat) : State :=
  if l.isEmpty && posted.isEmpty then s else { s with shoots := s.shoots ++ [⟨p, page, pages, l, posted⟩] }

/-- A shootdown ends once each of those stores has been performed or discarded, and those posted to the host have been
performed there (R237, R238). -/
def endShoot (s : State) (x : Shoot) : State :=
  if stillOpen s x.part x.stores || s.posted.any (fun y => x.posted.contains y.id) then s
  else { s with shoots := s.shoots.filter (· != x) }

/-- SHOOTDOWN (R89): the firmware replaces a leaf, at the home before anything else; the lines of its frame are recalled or
dropped; the event comes again to end it, once every store acknowledged under the old one is done (R238) (DEDUCED, log
68). -/
def execShootdown (part ia : Nat) (d0 d1 : W64) (s : State) : Out :=
  .next (match s.shootOf part (ia / 65536) with
  | some x => if kindOf s part (ia / 65536) = 0 then endShoot s x else s
  | none =>
    match leafOf s part ia with
    | none => s
    | some (_, l) =>
      let base := l.pageIa ia
      let open_ := openStores s part base l.size
      let old := memRead64 s.mem l.at_
      let s := recallRange s part base l.size
      let gen := nextGen (memRead64 s.mem (l.at_ + 8))
      let s := writeLeaf s l d0 (bits d1 32 32 ++ bits gen 0 32)
      let s := dropXlat s part (base / 65536) l.size
      waitStores (if d0 = old then s else dropLines s part base l.size) part (base / 65536) (l.size / 65536) open_ [])

/-- The stores on their way to the host pages to which the host port's translations of a page name, under any PASID, by
number (R237). -/
def postedTo (s : State) (p page : Nat) : List Nat :=
  let old := (s.ats.filter fun a => a.part == p && a.page == page).map fun a =>
    hostAddr (Config.atsPage p a.pasid page a.epoch * 65536) / 65536
  (s.posted.filter fun x => x.part == p && old.contains (x.addr / 65536)).map (·.id)

/-- The host changes the translation of a page, under every PASID (R235, R237). -/
def bumpAts (s : State) (p page : Nat) : State :=
  { s with
    atsEpoch := alSet (p * 2 ^ 32 + page) (s.atsNow p page + 1) s.atsEpoch,
    ats := s.ats.filter fun x => !(x.part == p && x.page == page) }

/-- ATS_INVALIDATION (R237): the host changes a translation and invalidates it; it acts as a shootdown of the page, and
completes, as the event comes again, once the stores under the old translation have been performed at the host. -/
def execAtsInvalidation (part page : Nat) (s : State) : Out :=
  .next (match s.shootOf part page with
  | some x => if kindOf s part page = 0 then s else endShoot s x
  | none =>
    if kindOf s part page ≠ 1 ∧ kindOf s part page ≠ 2 then s
    else
      let open_ := openStores s part (page * 65536) 65536
      let out := postedTo s part page
      let s := dropLines (bumpAts s part page) part (page * 65536) 65536
      waitStores s part page 1 open_ out)

/-! ## Page requests (R235, R236) -/

/-- Page requests that wait are sent as there is room. -/
def sendPris (s : State) : State := sendWaiting (s.priWait.length + 1) s

/-- The host has made a page present under a PASID: the port retranslates (R51, R235). -/
def hostPageThere (s : State) (p pasid page : Nat) : State :=
  let n := s.atsNow p page + 1
  { s with
    atsEpoch := alSet (p * 2 ^ 32 + page) n s.atsEpoch,
    ats := (s.ats.filter fun x => !(x.part == p && x.pasid == pasid && x.page == page)) ++ [⟨p, pasid, page, n⟩] }

/-- Page requests of a function are stopped: those that wait to be sent fail at once (R235). -/
def stopPris (s : State) (fn : Nat) : State :=
  let s := if s.priStopped.contains fn then s else { s with priStopped := s.priStopped ++ [fn] }
  (s.priWait.filter fun x => x.fn s == fn).foldl (fun s x => declinePage s x.part x.page true) s

/-- PRI_RESPONSE (R235, R236): 0 is Success, 1 Invalid Request, 15 Response Failure; one of an old context
generation is dropped (PRESUMED, log 91). -/
def execPriResponse (idx code : Nat) (s : State) : Out :=
  .next (match s.pris.find? fun x => x.idx == idx with
  | none => s
  | some x =>
    let s := { s with pris := s.pris.filter fun y => y.idx != idx }
    sendPris (
      if x.stale s then s
      else if code = 0 then servePage (hostPageThere s x.part x.pasid x.page) x.part x.page
      else
        let s := if code = 15 then stopPris s (x.fn s) else s
        declinePage s x.part x.page true))

/-- System software enables a function's page requests again (R235). -/
def enablePris (s : State) (fn : Nat) : State := { s with priStopped := s.priStopped.filter (· != fn) }

/-! ## Migration (R94) -/

/-- The tail records of copied frames go with them (R94, R308). -/
def moveTails (s : State) (copies : List (Nat × Nat)) : State :=
  copies.foldl (fun s (a, b) =>
    match alFind s.tails (a * 65536) with
    | some r => { s with tails := alSet (b * 65536) r (alDel (a * 65536) s.tails) }
    | none => s) s

/-- An entry of KIND 0 on a stack (R83). -/
def hmeWord (seg stk : Nat) : W32 := BitVec.ofNat 32 (1 + 8 * (seg % 8) + 64 * (stk % 2))

/-- MIGRATE_REGION (R94): the region is held, its owned words recalled, its frames copied, its new entry
written; the old home holds its requests until each slice has dropped the old entry. The frames copied from return
(DEDUCED, log 40). -/
def execMigrateRegion (part ia seg stk : Nat) (fw : FwWrites) (s : State) : Out :=
  .next (
    let base := ia / 2 ^ 21 * 2 ^ 21
    match hme s part ia, hmeAddr s part ia with
    | some h, some a =>
      if h.kind ≠ 0 ∨ h.hold ∨ storesOpen s part base (2 ^ 21) then s
      else
        let key := part * 2 ^ 27 + ia / 2 ^ 21
        let e := (hmeRaw s part ia).getD 0
        let s := recallRange s part base (2 ^ 21)
        let s1 := moveTails (applyFw s part fw) fw.copies
        let s1 := { s1 with frames := s1.frames.filter fun f => !(f.2 == part && fw.copies.any fun c => c.1 == f.1) }
        if !quotaOk s1 part then s
        else
          let s1 := dropLines (dropXlat s1 part (base / 65536) (2 ^ 21)) part base (2 ^ 21)
          { s1 with
            mem := memWriteN a (bytesOf 4 (hmeWord seg stk).toNat) s1.mem,
            hmc := alSet key (e ||| 0x100000) s1.hmc }
    | _, _ => s)

/-- HELD_REQUEST_MOVED (R94): the slices have the new entry; held requests go to the new home. -/
def execHeldRequestMoved (part ia : Nat) (s : State) : Out :=
  .next (
    let key := part * 2 ^ 27 + ia / 2 ^ 21
    match alFind s.hmc key with
    | some e => if bit e 20 then retryHeld { s with hmc := alDel key s.hmc } else s
    | none => s)

/-! ## Tail records in memory (R308) (DESIGN CHOICE, log 39) -/

/-- The bytes of a tail record. -/
def TailRec.bytes (r : TailRec) : List Byte :=
  bytesOf 8 (r.rt + 2 ^ 18 * r.ct + 2 ^ 36 * r.state.toNat + if r.bcast then 2 ^ 38 else 0) ++
    bytesOf 8 (r.repl + r.wmap / 65536 % 2 ^ 37 * 65536)

/-- The bytes of a page's word map: 2 bits for each word, 0 free, 1 intended, 2 written. -/
def TailRec.mapBytes (r : TailRec) : List Byte :=
  let two (w : Nat) : Nat := if r.written.contains w then 2 else if r.intended.contains w then 1 else 0
  (List.range r.granules).map fun i =>
    BitVec.ofNat 8 (two (4 * i) + 4 * two (4 * i + 1) + 16 * two (4 * i + 2) + 64 * two (4 * i + 3))

/-- The address of a page's record, once the firmware has set the base of its segment's table. -/
def recAddr (s : State) (frame : Nat) : Option Nat :=
  (alFind s.tailBase (frame / 2 ^ 53)).map fun b => dpa (frame / 2 ^ 53) (b + 16 * (frame % 2 ^ 53 / 65536))

/-- A record stands in its segment's memory, with its word map. -/
def writeTail (s : State) (frame : Nat) (r : TailRec) : State :=
  match recAddr s frame with
  | none => s
  | some a =>
    let m := memWriteN a r.bytes s.mem
    { s with mem := if r.wmap = 0 then m else memWriteN (dpa (frame / 2 ^ 53) r.wmap) r.mapBytes m }

/-- A cleared record reads zero. -/
def clearTail (s : State) (frame : Nat) : State :=
  match recAddr s frame with
  | none => s
  | some a => { s with mem := memWriteN a (List.replicate 16 0) s.mem }

/-- The records that an act has changed or cleared, or whose table it has placed, stand in memory as they are. -/
def syncTails (old s : State) : State :=
  let s := (old.tails.filter fun t => (alFind s.tails t.1).isNone).foldl (fun s t => clearTail s t.1) s
  (s.tails.filter fun t => alFind old.tails t.1 != some t.2 || recAddr old t.1 != recAddr s t.1).foldl
    (fun s t => writeTail s t.1 t.2) s

/-! ## Hotness (R93) -/

/-- HOTNESS_HALVING (R93): every 2^20 cycles, all counts are halved, once for each such period; a count that comes
before the event of its period is halved with it. -/
def execHotnessHalving (s : State) : Out := .next (halveDue s)

end Sys2Proof.Machine
end

