-- ==== Sys2Proof/Machine/Stop.lean ====
section
/-! DEFINITION. Stopping core groups: what ends a region or a store buffer early (R240), the L1 between launches
(R76), retirement (R416, R417), halts (R403), saving and restoring (R404-R406), the end of a launch (R414) and
of a partition (R415). -/

namespace Sys2Proof.Machine

/-! ## Pieces -/

/-- Issue stops: both runs of a core end. -/
def endRuns (s : State) (core : Nat) : State := endRun (endRun s core 0 none) core 1 none

/-- A buffered store is discarded, its words free again if they were intended (R240, R310). -/
def discardEntry (s : State) (core : Nat) (g : Group) (e : RbEntry) : State :=
  match e.st with
  | .applied | .posted _ => s
  | .draining n => withdraw s core g { e with st := .acked n }
  | _ => withdraw s core g e

/-- Every buffered store of a core group is discarded (R414, R415). -/
def discardStores (s : State) (core : Nat) (g : Group) : State :=
  (g.rb.foldl (fun s e => discardEntry s core g e) s).modGrp core fun g => { g with rb := [], pend := [] }

/-- The L1 between launches: dirty words go home, and it is invalidated (R76). -/
def flushL1 (s : State) (p core : Nat) : State :=
  (flushOwned s p core).modCore core fun c => { c with l1 := [], misses := [], fills := [] }

/-- The homes forget the words that a core owned (R415). -/
def disownCore (s : State) (core : Nat) : State :=
  { s with homes := s.homes.map fun (k, h) => (k, { h with owners := h.owners.filter fun o => o.2 != core }) }

/-- A core without a core group: what the slot table and the shadow pool hold stays. CUR, which R72 lets hold a core group
that has retired, becomes the empty record (DESIGN CHOICE, log 117). -/
def Core.vacate (c : Core) : Core :=
  { c with
    cur := BindRec.empty, curempty := true, stopped := false, grp := none, icache := [], l1 := [], misses := [],
    fills := [], run0 := none, run1 := none, wins := List.replicate 32 0, ctxperm := 0, preq := false }

/-- The ring-engine commands of an ended core group send their abort and are gone (R382, R414). -/
def abortRanks (s : State) (g : Group) : State :=
  let keys := (s.ranks.filter fun x => x.ofGroup g && x.matched && x.failed.isNone).map (·.key)
  let s := fixBusy { s with ranks := s.ranks.filter fun x => !x.ofGroup g }
  s.modRank (fun x => keys.contains x.key && x.matched) fun x => { x with abort := true }

/-! ## The end of a launch -/

/-- The core group on a core ends: buffered stores are discarded; owned dirty words are written back, or discarded
with a kill (R414, R415). -/
def endGroupAt (s : State) (back : Bool) (core : Nat) : State :=
  match s.grp? core with
  | none => s
  | some g =>
    let s := discardStores (endRuns s core) core g
    let s := if back then flushL1 s g.part core else disownCore s core
    (abortRanks s g).modCore core Core.vacate

/-- The NEXT entry of a launch that ends is cancelled, and a gang that waits for it is let go. -/
def Core.cancelNext (p : Nat) (lid : Nat → Bool) (c : Core) : Core :=
  if c.nxt.valid && c.nxt.part == p && lid c.nxt.lid then { c with nxt := BindRec.empty, gangwait := false } else c

/-- A core whose CUR holds a halted group that has been saved is released with it (R403). -/
def Core.release (c : Core) (p : Nat) (lid : Nat → Bool) : Core :=
  if c.grp.isNone && c.stopped && c.cur.part == p && lid c.cur.lid then c.vacate else c

/-- A saved context that passes a test leaves the shadow pool. -/
def Core.dropShadow (c : Core) (mine : Group → Bool) : Core := { c with shadow := c.shadow.filter fun g => !mine g }

/-- A killed partition's completed commands are forgotten. -/
def Core.dropDone (p : Nat) (c : Core) : Core := { c with rdone := c.rdone.filter (·.part != p) }

/-- Every core group of a partition whose LAUNCHID passes a test ends, wherever it stands (R414, R415). -/
def endGroups (s : State) (p : Nat) (lid : Nat → Bool) (back : Bool) : State :=
  let mine (g : Group) : Bool := g.part == p && lid g.lid
  let on := (s.cores.filter fun (_, c) => match c.grp with | some g => mine g | none => false).map (·.1)
  let saved := (s.cores.filterMap fun (_, c) => c.shadow) ++ (s.part p).csa
  let s := on.foldl (fun s c => endGroupAt s back c) s
  let s := (saved.filter mine).foldl abortRanks s
  let s := { s with cores := s.cores.map fun (x : Nat × Core) => (x.1, ((x.2.dropShadow mine).cancelNext p lid).release p lid) }
  s.modPart p fun x => { x with csa := x.csa.filter fun g => !mine g }

/-- A launch is gone: its LAUNCHID is free, its barriers and counters with it (R417). -/
def dropLaunch (s : State) (p : Nat) (lid : Nat → Bool) : State :=
  let keyed (k : Nat) : Bool := k / 8 / 65536 == p && lid (k / 8 % 65536)
  let s := { s with
    rfrozen := s.rfrozen.filter fun f => !(f.2.1 == p && lid f.2.2),
    bars := s.bars.filter fun b => !(b.part == p && lid b.lid), phases := s.phases.filter fun x => !keyed x.1 }
  s.modPart p fun x => { x with launches := x.launches.filter fun l => !lid l.lid }

/-- The launch of a LAUNCHID. -/
def State.launch? (s : State) (p lid : Nat) : Option Launch := (s.part p).launches.find? fun l => l.lid == lid

/-- The completion of a launch at DONEVA (R63, R74, R414). -/
def launchDone (s : State) (p fn : Nat) (r : List W64) (code : Nat) : Comp :=
  completeAt s p (fwSeg s p) byHost (ctxWins s p (recCtxid r)) (recDw r 8) 1 code 0x00FF (recSeq r) fn

/-- How an operation of the firmware fares: done, refused with a code, or to be tried again later. -/
inductive FwRes where
  | done (s : State)
  | fail (code : Nat)
  /-- Refused with a code, with what has been done so far (R57). -/
  | partly (s : State) (code : Nat)
  | wait (s : State)

/-- What a completion that cannot be added yet leaves: the page of its object is served. -/
def waitComp (s : State) (p ctx : Nat) : Comp → FwRes
  | .done s => .done s
  | .held => .wait s
  | .wait s page => .wait (startService s p ctx page)
  | .iso s va => .done (reportFn s (ctxOwner s p ctx) va)

/-- The core groups of a launch. -/
def launchGroups (r : List W64) : Nat := recRgCount r * recKgPerRg r * recSgPerKg r * recCgPerSg r

/-- No further gang of a launch is bound. -/
def closeLaunch (s : State) (p lid : Nat) : State :=
  s.modPart p fun x => { x with launches := x.launches.map fun l =>
    if l.lid == lid then { l with gangs := launchGroups l.lrec } else l }

/-- The end of a launch (R414): its groups end, DONEVA is written, a KIND 2 entry is posted. -/
def endLaunch (s : State) (p lid : Nat) : FwRes :=
  match s.launch? p lid with
  | none => .fail 0x032A
  | some l =>
    let code := (l.firstStop.map (·.1)).getD 0x0326
    let s := closeLaunch (endGroups s p (· == lid) true) p lid
    match waitComp s p (recCtxid l.lrec) (launchDone s p l.fn l.lrec code) with
    | .done s => .done (dropLaunch (post s l.fn 2 code (recSeq l.lrec) 0 lid) p (· == lid))
    | r => r

/-! ## The end of a partition (R415) -/

/-- A leaf entry found in a table: its address, its page's class, frame and size (R86). -/
structure LeafAt where
  at_ : Nat
  cls : Nat
  frame : Nat
  size : Nat

/-- The leaf entries of a table and of the tables below it (R85, R86). -/
def leavesGo (m : List Host.Cell) (seg : Nat) : Nat → Nat → Nat → List LeafAt
  | 0, _, _ => []
  | f + 1, lv, tbl =>
    (List.range (if lv = 4 then 32 else 512)).flatMap fun i =>
      let a := dpa seg (tbl + 16 * i)
      let d0 := memRead64 m a
      if !bit d0 0 then []
      else if bit d0 1 then
        if lv < 3 then []
        else [⟨a, (bits d0 5 2).toNat, dpa seg ((bits d0 16 37).toNat * 65536), if lv = 3 then 2 ^ 21 else 65536⟩]
      else if lv = 4 then [] else leavesGo m seg f (lv + 1) ((bits d0 9 44).toNat * 512)

/-- The append and sealed pages of a partition. -/
def appendLeaves (s : State) (p : Nat) : List LeafAt :=
  ((List.range 8).flatMap fun seg =>
    leavesGo s.mem seg 4 1 (bits (s.trans p (0x10 + 8 * seg)) 0 53).toNat).filter fun l => l.cls == 1 || l.cls == 2

/-- An append or sealed page of a killed partition is freed, and its frames return (R325). -/
def freeLeaf (p : Nat) (s : State) (x : LeafAt) : State :=
  let d0 := memRead64 s.mem x.at_
  let d1 := memRead64 s.mem (x.at_ + 8)
  let fs := frameList x.frame x.size
  { s with
    mem := memWrite64 (x.at_ + 8) (nextGen d1) (memWrite64 x.at_ (d0 &&& ~~~1) s.mem),
    tails := alDel x.frame s.tails,
    frames := s.frames.filter fun f => !(f.2 == p && fs.contains f.1) }

/-- Every generation of a partition's contexts rises (R236, R415). -/
def raiseGens (s : State) (p : Nat) : State :=
  (List.range (ctxCount s p)).foldl (fun s c =>
    let d := ctxDw s p c 0
    if bit d 0 then { s with mem := memWrite64 (ctxAddr s p c) ((bits d 32 32 + 1) ++ bits d 0 32) s.mem } else s) s

/-- The partition keeps no page of append class, no replica, no free in progress, no cached line of a sealed page; the
walk caches start anew. -/
def freePages (s : State) (p : Nat) : State :=
  let reps := (s.replicas.filter fun r => r.part == p).flatMap fun r =>
    frameList r.frame (match leafOf s p (r.page * 65536) with | some (_, l) => l.size | none => 65536)
  let s := (appendLeaves s p).foldl (freeLeaf p) s
  { s with
    wcache := [],
    repSets := s.repSets.filter fun r => r.part != p,
    l2 := s.l2.filter fun l => l.part != p,
    replicas := s.replicas.filter fun r => r.part != p,
    frames := s.frames.filter fun f => !(f.2 == p && reps.contains f.1),
    freeing := s.freeing.filter fun f => f.part != p,
    xlat := s.xlat.filter fun e => e.1 / 2 ^ 32 != p }

/-- What the homes keep of a killed partition's caches is gone. -/
def clearHomes (s : State) (p : Nat) : State :=
  { s with
    homes := s.homes.map fun (k, h) => if k / 2 ^ 41 = p then (k, { h with owners := [], sharers := [], all := false }) else (k, h),
    serving := s.serving.filter fun x => x.1 != p,
    asks := s.asks.filter fun a => a.part != p,
    priWait := s.priWait.filter fun x => x.part != p,
    shoots := s.shoots.filter fun x => x.part != p,
    hot := s.hot.filter fun h => h.part != p,
    proposals := s.proposals.filter fun x => x.part != p }

/-- A partition is killed (R415): groups stop, stores and dirty words are discarded, generations rise, pages are
freed, and its functions and the PF are told (DEDUCED, log 71) (DEDUCED, log 72). Stores that have left for the host are
performed before that (R240). -/
def killPart (s : State) (p : Nat) : State :=
  let s := flushPosted s fun x => x.part == p
  let s := dropLaunch (endGroups s p (fun _ => true) false) p (fun _ => true)
  let s := clearHomes (freePages (raiseGens s p) p) p
  let s := { s with cores := s.cores.map fun (x : Nat × Core) => (x.1, x.2.dropDone p) }
  let s := s.setReg (0x1000 + 64 * p + 0x30) (s.partRec p 0x30 &&& ~~~0x100000000)
  let s := fixBusy { s with ranks := s.ranks.filter fun x => x.key.part != p }
  let s := s.modPart p fun x => { x with enabled := false }
  (pfn :: vfsOf s p).foldl (fun s f => post s f 6 0 0 0 0xFFFF) s

/-! ## Retirement (R416, R417) -/

/-- The group's engines have nothing left to do (R416). -/
def enginesDone (s : State) (g : Group) : Bool :=
  (g.cqs.all fun c => c.q.isEmpty && c.run.isNone && c.walk.isNone) && g.mx.q.isEmpty && g.rq.isEmpty &&
    g.fences.isEmpty && !(s.ranks.any (CollRank.ofGroup g))

/-- CORE_GROUP_RETIRE (R416): the group leaves barriers and counters, and its core applies R76. -/
def execCoreGroupRetire (core : Nat) (s : State) : Out :=
  .next (match s.grp? core with
  | none => s
  | some g =>
    if g.st != .running || !g.live.isEmpty || !enginesDone s g || !g.rb.isEmpty || !g.pend.isEmpty then s
    else
      let s := (endRuns s core).modGrp core fun g => { g with st := .retired, nopre := none }
      let s := publish (settleBars s g.part g.lid) g.part g.lid
      let s := (flushL1 s g.part core).modCore core Core.vacate
      s.modPart g.part fun x => { x with launches := x.launches.map fun l =>
        if l.lid == g.lid then { l with retired := l.retired + 1 } else l })

/-- LAUNCH_RETIRE (R74, R417): every store is visible, the count at DONEVA rises, NOTIFY posts an entry. -/
def execLaunchRetire (part lid : Nat) (s : State) : Out :=
  .next (match s.launch? part lid with
  | none => s
  | some l =>
    if l.retired < launchGroups l.lrec ∨ s.invs.any (fun i => i.part == part) ∨ s.posted.any (fun x => x.part == part) then s
    else
      match waitComp s part (recCtxid l.lrec) (launchDone s part l.fn l.lrec 0) with
      | .done s =>
        let s := if bit (recDw l.lrec 9) 19 then post s l.fn 2 0 (recSeq l.lrec) 0 lid else s
        dropLaunch s part (· == lid)
      | .wait s => s
      | _ => s)

/-! ## Quiet, for a halt or a save (R240, R404) -/

/-- A thread's region is settled: an incomplete one is aborted, a complete one closes and drains (DEDUCED, log 90). -/
def quietThread (core : Nat) (s : State) (t : Nat) : State :=
  match s.grp? core with
  | none => s
  | some g =>
    if g.unanswered t then abortRegion s core t
    else if g.rb.any fun e => e.tid == t && e.held then
      trapNow (drainHeld (s.setGrp core (g.modThread t fun y => { y with rclosed := true })) core t) core t
    else trapNow s core t

/-- A result that a save awaits: one that has arrived, or one of a word outside any region that can be aborted
(R404). -/
def Pend.awaited (x : Pend) : Bool :=
  match x.st, x.kind with
  | .ready _, _ => true
  | .fault _, _ => false
  | .sent, .load _ _ _ _ | .sent, .pginfo _ | .sent, .seal _ _ _ => false
  | .sent, _ => true

/-- The regions of a core group are settled, once no result is awaited. -/
def quietGroup (s : State) (core : Nat) : State :=
  match s.grp? core with
  | none => s
  | some g => if g.pend.any Pend.awaited then s else g.live.foldl (quietThread core) s

/-- Nothing of a group is on its way: no store, no result. -/
def Group.quiet (g : Group) : Bool := g.rb.isEmpty && g.pend.isEmpty

/-- The matrix engine stands between two micro-tile updates, with no issued tile unacknowledged (R286, R302). -/
def Matrix.between (m : Matrix) : Bool := match m.drain with | some d => d.issued.isEmpty | none => true

/-- Runs an MMA of a saved matrix engine from its progress: fetched bytes and pins are dropped, a command that
reused the collector cannot go on, and one that goes on leaves nothing in it (R286, R291) (DEDUCED, log 61). -/
def Matrix.saved (m : Matrix) : Matrix :=
  let m := { m with collA := none, collB := none }
  match m.mma, runningItem m.q MqCmd.isMma with
  | some r, some (i, x) =>
    let reuse := match x.cmd with | .mma b => bit (recDw b 4) 7 || bit (recDw b 4) 15 | _ => false
    if reuse then endMma m i 0x0206 none none
    else
      { m with mma := some { r with
          fetched := [], admitted := false, held := false, pins := [], pinWait := none, keepA := none, keepB := none } }
  | _, _ => m

/-- A core group as it is saved (R118, R404, R405): results of fixed latency have landed. -/
def Group.saved (g : Group) : Group :=
  let far := g.threads.foldl (fun m t => t.lands.foldl (fun m x => max m x.2) m) 0
  let far := g.fpxLand.foldl (fun m x => max m x.1) (g.kset.foldl (fun m x => max m x.1) far)
  let g := landKset (landFlags g (far + 1)) (far + 1)
  { g with
    mx := g.mx.saved, threads := g.threads.map fun t => { t with lands := [], qblk := none },
    frontier := g.frontier.map fun e => { e with age := 0 } }

/-- Results that have arrived reach their threads (R239, R404). -/
def landReady (s : State) (core : Nat) : State :=
  match s.grp? core with
  | none => s
  | some g =>
    g.pend.foldl (fun s p =>
      match p.st, s.grp? core with
      | .ready v, some g => landResult s core g p v
      | _, _ => s) s

/-! ## Halts (R403) -/

/-- A storage address lies in the core's shadow pool, not in its pool of 96 granules (R75) (DESIGN CHOICE, log 70). -/
def inShadow (a : Nat) : Bool := decide (96 * 16384 ≤ a)

/-- A halt is noted and reported (R403, R414). -/
def reportHalt (s : State) (g : Group) (code : Nat) (detail : W64) : State :=
  post (noteStop s g.part g.lid 0x0324) (groupFn s g) 5 code (recSeq g.lrec) detail g.lid

/-- An error of the shadow pool halts the context that is saved there. -/
def haltSaved (s : State) (core a : Nat) : State :=
  match (s.core core).shadow with
  | none => s
  | some g =>
    if g.st == .running then
      reportHalt (s.modCore core fun c => { c with shadow := some { g with st := .halted } }) g cPoison (BitVec.ofNat 64 a)
    else s

/-- CORE_GROUP_HALT (R403): a second error, or an error of core storage at an address, halts the group; it is
reported, its engines run on (DEDUCED, log 70). -/
def execCoreGroupHalt (core : Nat) (storage : Option Nat) (s : State) : Out :=
  .next (if storage.any inShadow then haltSaved s core (storage.getD 0) else
  match s.grp? core with
  | none => s
  | some g =>
    let stop : Option (Nat × W64) := match g.st, storage with
      | .halting c d, _ => some (c, d)
      | .running, some a => some (cPoison, BitVec.ofNat 64 a)
      | _, _ => none
    match stop with
    | none => s
    | some (code, detail) =>
      let s := landReady (endRuns s core) core
      let s := g.live.foldl (fun s t =>
        match s.grp? core with
        | some g => if g.unanswered t then abortRegion s core t else quietThread core s t
        | none => s) s
      let s := s.modGrp core fun g => { g with st := .halted }
      reportHalt (s.modCore core fun c => { c with stopped := true }) g code detail)

end Sys2Proof.Machine
end

