-- ==== Sys2Proof/Machine/Queues.lean ====
section
/-! DEFINITION. The queues of the functions: doorbells and status (R52-R56), and the commands of the command
queue (R56-R58, R81, R324, R414), each performed as one event by the firmware. -/

namespace Sys2Proof.Machine

/-! ## Doorbells (R53, R56) -/

/-- A queue is enabled and has a size that R52 allows. -/
def qOk (en : Bool) (log : BitVec 4) : Bool := en && decide (4 ≤ log.toNat) && decide (log.toNat ≤ 12)

/-- A doorbell error (R53). -/
def doorbellBad (log : BitVec 4) (head tail v : W32) : Bool :=
  decide (2 ^ log.toNat < (v - head).toNat) ||
    (decide (1 ≤ (tail - v).toNat) && decide ((tail - v).toNat ≤ 2 ^ 31))

/-- A number that names a function: 0-1023 a VF, 1024 the PF (R51, R82). -/
def isFn (fn : Nat) : Bool := decide (fn ≤ 1024)

/-- SUBMISSION_DOORBELL (R53). -/
def execSubmissionDoorbell (fn : Nat) (v : W32) (s : State) : Out :=
  .next (
    let f := s.fn fn
    if !isFn fn then s
    else if !qOk f.sqen f.sqlog || !doorbellBad f.sqlog f.sqhead f.sqtail v then s.setFn fn { f with sqtail := v }
    else post (s.setFn fn { f with sqerr := true }) fn 3 0x0320 0 0 0xFFFF)

/-- SQERR_CLEAR (R52, R53): a write of 1; consumption resumes. -/
def execSqerrClear (fn : Nat) (s : State) : Out :=
  .next (if isFn fn then s.modFn fn fun f => { f with sqerr := false } else s)

/-- MQHEAD_WRITE (R55): ignored where it would pass MQTAIL; held entries go out into the room it makes
(DEDUCED, log 76). -/
def execMqheadWrite (fn : Nat) (v : W32) (s : State) : Out :=
  .next (
    let f := s.fn fn
    if !isFn fn || decide ((f.mqtail - f.mqhead).toNat < (v - f.mqhead).toNat) then s
    else flushHeld 17 (s.setFn fn { f with mqhead := v }) fn)

/-- MQLOST_CLEAR (R52): LOSTCNT is cleared with MQLOST. -/
def execMqlostClear (fn : Nat) (s : State) : Out :=
  .next (if isFn fn then s.modFn fn fun f => { f with mqlost := false, lostcnt := 0 } else s)

/-! ## Commands (R56) -/

def cmdId (r : List W64) : Nat := (bits (recDw r 0) 0 8).toNat
def cmdSeq (r : List W64) : W32 := bits (recDw r 0) 32 32
def cmdCtx (r : List W64) : Nat := (bits (recDw r 1) 0 32).toNat
def cmdArg (r : List W64) (i : Nat) : W64 := recDw r (2 + i)
def cmdComp (r : List W64) : W64 := recDw r 6
def cmdWeight (r : List W64) : W32 := bits (recDw r 7) 0 32

/-- The partition that a command acts on (R56). -/
def cmdPart (s : State) (fn : Nat) (r : List W64) : Option Nat :=
  if fn = pfn then some (bits (recDw r 1) 32 6).toNat else partOfVf s fn

/-- What fails any command with 0x032B before its context is looked at (R56, R58) (DEDUCED, log 77). -/
def cmdBad (s : State) (fn : Nat) (r : List W64) : Bool :=
  !(decide (1 ≤ cmdId r) && decide (cmdId r ≤ 8)) || bits (recDw r 0) 8 24 != 0 || bits (recDw r 1) 38 26 != 0 ||
    bits (recDw r 7) 32 32 != 0 || decide ((cmdComp r).toNat % 8 ≠ 0) || (cmdComp r != 0 && (queueCtx s fn).isNone)

/-- The firmware copies submitted commands, and CQHEAD advances past each (R56). -/
def takeCmds : Nat → State → Nat → State
  | 0, s, _ => s
  | n + 1, s, fn =>
    let f := s.fn fn
    if !qOk f.cqen f.cqlog || f.cqerr || f.cqhead == f.cqtail then s
    else
      let a := hostAddr (f.cqbase.toNat + f.cqhead.toNat % 2 ^ f.cqlog.toNat * 64)
      let r := dwordsOf (memReadN s.mem a 64)
      takeCmds n (s.setFn fn { f with cqhead := f.cqhead + 1, cmds := f.cmds ++ [r] }) fn

/-- A command's completion, in the queue context that its function had as it started, through the windows that
context has now (R56, R58). -/
def cmdComplete (s0 s : State) (fn : Nat) (r : List W64) (code : Nat) : FwRes :=
  match queueCtx s0 fn with
  | none => .done s
  | some (p, c) =>
    if (cmdComp r).toNat % 8 ≠ 0 then .done s
    else
      match complete s p (fwSeg s p) byHost (ctxWins s p c) (cmdComp r) (cmdWeight r) code 0x00FE (cmdSeq r) fn with
      | .done s => .done s
      | .wait s1 page => .wait (startService { s0 with asks := s1.asks } p c page)
      | .held => .wait s0
      | .iso s va => .done (reportFn s fn va)

def popCmd (s : State) (fn : Nat) : State := s.modFn fn fun f => { f with cmds := f.cmds.drop 1 }

/-- A failed command posts its code (R58). -/
def cmdFail (s0 s : State) (fn : Nat) (r : List W64) (code : Nat) : State :=
  match cmdComplete s0 s fn r code with
  | .done s => popCmd (post s fn 3 code (cmdSeq r) 0 0xFFFF) fn
  | .wait s => s
  | _ => s0

/-- The end of the command at the head (R58): one that must wait stays, and its event comes again. -/
def endCmd (s0 : State) (fn : Nat) (r : List W64) : FwRes → State
  | .wait s => s
  | .fail code => cmdFail s0 s0 fn r code
  | .partly s code => cmdFail s0 s fn r code
  | .done s =>
    match cmdComplete s0 s fn r 0 with
    | .done s => popCmd s fn
    | .wait s => s
    | _ => s0

/-- Unknown commands at the head fail (R57). -/
def failUnknown : Nat → State → Nat → State
  | 0, s, _ => s
  | n + 1, s, fn =>
    match (s.fn fn).cmds with
    | [] => s
    | r :: _ =>
      if 1 ≤ cmdId r ∧ cmdId r ≤ 8 then s
      else
        let s' := cmdFail s s fn r 0x032B
        if (s'.fn fn).cmds.length = (s.fn fn).cmds.length then s' else failUnknown n s' fn

/-- Commands are copied, and unknown ones fail. -/
def runCq (s : State) (fn : Nat) : State := failUnknown 4096 (takeCmds 4096 s fn) fn

/-- COMMAND_DOORBELL (R56). -/
def execCommandDoorbell (fn : Nat) (v : W32) (s : State) : Out :=
  .next (
    let f := s.fn fn
    if !isFn fn then s
    else if !qOk f.cqen f.cqlog || !doorbellBad f.cqlog f.cqhead f.cqtail v then
      runCq (s.setFn fn { f with cqtail := v }) fn
    else post (s.setFn fn { f with cqerr := true }) fn 3 0x032D 0 0 0xFFFF)

/-- CQERR_CLEAR (R52, R56). -/
def execCqerrClear (fn : Nat) (s : State) : Out :=
  .next (if isFn fn then runCq (s.modFn fn fun f => { f with cqerr := false }) fn else s)

/-- A context that a command may act on (R58). -/
def ctxOwned (s : State) (p fn ctx : Nat) : Bool := ctxValid s p ctx && ctxOwner s p ctx == fn

/-- The command at the head of a function's queue is performed, if it is the one named. One from a VF that belongs to no
enabled partition fails with 0x032A (DESIGN CHOICE, log 114). -/
def runCmd (id fn : Nat) (needCtx : Bool) (body : State → Nat → List W64 → FwRes) (s : State) : Out :=
  .next (match (s.fn fn).cmds with
  | [] => s
  | r :: _ =>
    if cmdId r ≠ id then s
    else
      let res :=
        if cmdBad s fn r then .fail 0x032B
        else
          match cmdPart s fn r with
          | none => .fail 0x032A
          | some p => if needCtx && !ctxOwned s p fn (cmdCtx r) then .fail 0x032A else body s p r
      failUnknown 4096 (endCmd s fn r res) fn)

/-! ## Contexts (R57, R81, R82) -/

/-- Bytes, tags and poison of an extent of device memory are zeroed. -/
def zeroRange (s : State) (a n : Nat) : State :=
  let out (x : Nat) : Bool := !(decide (a ≤ x) && decide (x < a + n))
  { s with
    mem := s.mem.filter fun c => out c.1,
    tags := s.tags.filter fun t => out (32 * t.1),
    poison := s.poison.filter fun g => out (32 * g) }

/-- The frames that hold a layout-handle table, in 64 KiB steps. -/
def tableFrames (n : Nat) : Nat := (32 * n + 65535) / 65536

/-- The frames are free, and lie on a stack on which the partition owns slices. -/
def framesFree (s : State) (p a k : Nat) : Bool :=
  a % 65536 == 0 && onStack a && !(slicesOn s p (stackOf a / 2) (stackOf a % 2)).isEmpty &&
    decide (usedOn s (stackOf a) + k + 2048 * strongBanks s (stackOf a) ≤ 0x100000) &&
    !((frameList a (k * 65536)).any fun f => s.frames.any fun x => x.1 == f)

/-- A run of `k` free frames lies between two frames, past the taken ones in ascending order. -/
def runFree (k hi : Nat) : Nat → List Nat → Bool
  | lo, [] => decide (lo + k ≤ hi)
  | lo, f :: r => decide (lo + k ≤ f) || runFree k hi (max lo (f + 1)) r

/-- Some stack on which the partition owns slices has `k` free frames in a row, beside those that its banks have given up
(R413). -/
def runExists (s : State) (p k : Nat) : Bool :=
  (List.range 16).any fun st =>
    let lo := stackBase st / 65536
    let hi := lo + 0x100000
    let taken := sortBy id ((s.frames.map (·.1)).filter fun f => decide (lo ≤ f) && decide (f < hi))
    stackReady s st && !(slicesOn s p (st / 2) (st % 2)).isEmpty &&
      decide (taken.length + k + 2048 * strongBanks s st ≤ 0x100000) && runFree k hi lo taken

/-- A context-table entry is cleared but for the fields given (R57) (DEDUCED, log 73). -/
def writeCtx (s : State) (p ctx : Nat) (d0 d1 d2 d3 : W64) : State :=
  let a := ctxAddr s p ctx
  let s := zeroRange s a 512
  { s with mem := memWrite64 (a + 24) d3 (memWrite64 (a + 16) d2 (memWrite64 (a + 8) d1 (memWrite64 a d0 s.mem))) }

/-- A function's queue context loses QUEUE. -/
def dropQueue (s : State) (fn : Nat) : State :=
  match queueCtx s fn with
  | some (p, c) => { s with mem := memWrite64 (ctxAddr s p c) (ctxDw s p c 0 &&& ~~~2) s.mem }
  | none => s

/-- System software installs RINGSHARE's first value with the partition's contexts: any value, with the first of them
(R385) (DESIGN CHOICE, log 113). -/
def installShare (s : State) (p : Nat) : State :=
  if (s.part p).ringIn then s
  else ({ s with fresh := s.fresh + 1 }).modPart p fun x =>
    { x with ringshare := Config.freeWord s.fresh &&& 0xFFFFFFFF, ringIn := true }

/-- The effect of CTXCREATE (R57); the firmware names the table's place, and waits to name one that is free; it fails
where no free frames can hold the table (R58). -/
def ctxCreate (fn lhbase : Nat) (s : State) (p : Nat) (r : List W64) : FwRes :=
  let ctx := cmdCtx r
  let n := (bits (cmdArg r 1) 0 16).toNat
  let k := tableFrames n
  let queue := bit (cmdArg r 0) 20
  if ctxCount s p ≤ ctx then .fail 0x032A
  else if bits (cmdArg r 0) 21 43 ≠ 0 ∨ bits (cmdArg r 1) 16 48 ≠ 0 then .fail 0x032B
  else if ctxValid s p ctx ∨ frameQuota s p < framesUsed s p + k then .fail 0x032C
  else if !runExists s p k then .fail 0x032C
  else if !framesFree s p lhbase k then .wait s
  else
    let s := if queue then dropQueue s fn else s
    let s := { zeroRange s lhbase (k * 65536) with frames := s.frames ++ (frameList lhbase (k * 65536)).map fun f => (f, p) }
    .done (writeCtx (installShare s p) p ctx (BitVec.ofNat 64 (1 + (if queue then 2 else 0) + 4 * fn)) ((cmdArg r 0) &&& 0xFFFFF)
      (BitVec.ofNat 64 lhbase) (BitVec.ofNat 64 n))

/-- CTXCREATE (R57). -/
def execCtxcreate (fn lhbase : Nat) (s : State) : Out := runCmd 1 fn false (ctxCreate fn lhbase) s

/-- A launch of the context has not retired (R57). A record that is submitted and not yet consumed does not count as
queued (DESIGN CHOICE, log 101). -/
def ctxInUse (s : State) (p ctx : Nat) : Bool := (s.part p).launches.any fun l => recCtxid l.lrec == ctx

/-- The effect of CTXDESTROY (R57, R236). -/
def ctxDestroy (s : State) (p : Nat) (r : List W64) : FwRes :=
  let ctx := cmdCtx r
  if ctxInUse s p ctx then .fail 0x032C
  else
    let d := ctxDw s p ctx 0
    let lh := (bits (ctxDw s p ctx 16) 0 56).toNat
    let fs := frameList lh (tableFrames (bits (ctxDw s p ctx 24) 0 16).toNat * 65536)
    .done { s with
      mem := memWrite64 (ctxAddr s p ctx) ((bits d 32 32 + 1) ++ (bits d 0 32 &&& ~~~1)) s.mem,
      frames := s.frames.filter fun f => !(f.2 == p && fs.contains f.1) }

/-- CTXDESTROY (R57). -/
def execCtxdestroy (fn : Nat) (s : State) : Out := runCmd 2 fn true ctxDestroy s

/-- Every core that runs a context changes its copy (R81, R221). -/
def changeCopies (s : State) (p ctx : Nat) (f : Core → Core) : State :=
  { s with cores := s.cores.map fun (n, c) =>
      match c.grp with
      | some g => if g.part == p && g.ctxid == ctx then (n, f c) else (n, c)
      | none => (n, c) }

/-- A window that R78 refuses. -/
def windowBad (d0 d1 : W64) : Bool :=
  bits d0 7 9 != 0 || bits d0 57 7 != 0 || bits d1 60 4 != 0 || decide (2 ^ 48 < winIa d1 + winSize d1) ||
    decide (31 * 2 ^ 52 < winBase d0 + winSize d1)

/-- The effect of WINSET (R57, R81). -/
def winSet (s : State) (p : Nat) (r : List W64) : FwRes :=
  let n := (bits (cmdArg r 0) 0 4).toNat
  let d0 := cmdArg r 1
  let d1 := cmdArg r 2
  if bits (cmdArg r 0) 4 60 ≠ 0 then .fail 0x032B
  else if windowBad d0 d1 then .fail 0x0322
  else
    let a := ctxAddr s p (cmdCtx r) + 0x80 + 16 * n
    let s := { s with mem := memWrite64 (a + 8) d1 (memWrite64 a d0 s.mem) }
    .done (changeCopies s p (cmdCtx r) fun c => { c with wins := setNth (2 * n + 1) d1 (setNth (2 * n) d0 c.wins) })

/-- WINSET (R81). -/
def execWinset (fn : Nat) (s : State) : Out := runCmd 3 fn true winSet s

/-- The effect of PERMSET (R57, R221). -/
def permSet (s : State) (p : Nat) (r : List W64) : FwRes :=
  let v := cmdArg r 0
  if bits v 1 63 ≠ 0 then .fail 0x032B
  else
    let s := { s with mem := memWrite64 (ctxAddr s p (cmdCtx r) + 0x20) v s.mem }
    .done (changeCopies s p (cmdCtx r) fun c => { c with ctxperm := v })

/-- PERMSET (R57). -/
def execPermset (fn : Nat) (s : State) : Out := runCmd 4 fn true permSet s

/-- The effect of LHSET (R57, R255). -/
def lhSet (s : State) (p : Nat) (r : List W64) : FwRes :=
  let ctx := cmdCtx r
  let h := (bits (cmdArg r 0) 0 16).toNat
  if bits (cmdArg r 0) 17 47 ≠ 0 ∨ bits (cmdArg r 1) 32 32 ≠ 0 ∨ h = 0 ∨ (bits (ctxDw s p ctx 24) 0 16).toNat ≤ h then .fail 0x032B
  else
    let a := (bits (ctxDw s p ctx 16) 0 56).toNat + 32 * h
    let d0 := BitVec.ofNat 64 (ctx + if bit (cmdArg r 0) 16 then 2 ^ 32 else 0)
    .done { s with mem := memWrite64 (a + 24) (cmdArg r 3) (memWrite64 (a + 16) (cmdArg r 2)
      (memWrite64 (a + 8) (cmdArg r 1) (memWrite64 a d0 s.mem))) }

/-- LHSET (R57). -/
def execLhset (fn : Nat) (s : State) : Out := runCmd 5 fn true lhSet s

/-! ## PAGEFREE (R324) -/

/-- A page that is neither intended to be written nor pinned may be swept. -/
def pinned (s : State) (p ia size : Nat) : Bool :=
  let lo := p * 2 ^ 41 + ia / 128
  s.cores.any fun (_, c) => match c.grp with
    | some g => match g.mx.mma with
      | some m => m.pins.any fun x => decide (lo ≤ x.2) && decide (x.2 < lo + size / 128)
      | none => false
    | none => false

/-- The held SEALs of one core group are answered with a fault (R324) (DEDUCED, log 35). -/
def refuseSeals (p page : Nat) (s : State) (core : Nat) : State :=
  match s.grp? core with
  | none => s
  | some g =>
    if g.part ≠ p then s
    else
      (g.pend.filter (heldSeal s p page)).foldl (fun s x =>
        match x.kind with
        | .seal a _ _ => settle (pendFault s core x.id (mfault a cAppendOrder false false)) core x.tid
        | _ => s) s

/-- The replicas of a page start to drain, and leave every replica cache (R321, R324). -/
def drainReplicas (s : State) (p page : Nat) (l : Leaf) : State :=
  startDraining { s with repSets := s.repSets.filter fun r => !(r.part == p && r.page == page) } p page l fun _ => true

/-- Steps 2 to 6 of a free, as far as they can go now; `none` where it must wait (R324). -/
def advanceFree (s : State) (p page : Nat) : Bool × State :=
  match tailOf s p page with
  | none => (true, s)
  | some (_, l, r) =>
    if !r.intended.isEmpty then (false, s)
    else
      let s := (s.cores.map (·.1)).foldl (refuseSeals p page) s
      let s := drainReplicas s p page l
      let ia := page * 65536
      if (s.replicas.any fun x => x.part == p && x.page == page) || pinned s p ia l.size then (false, s)
      else
        let s := dropLines s p ia l.size
        let s := writeLeaf s l (memRead64 s.mem l.at_ &&& ~~~1) (nextGen (memRead64 s.mem (l.at_ + 8)))
        let s := dropXlat s p page l.size
        let fs := frameList l.frame l.size
        (true, { s with
          tails := alDel l.frame s.tails,
          frames := s.frames.filter fun f => !(f.2 == p && fs.contains f.1) })

/-- A function's command leaves a free that has ended. -/
def leaveFree (s : State) (fn : Nat) : State :=
  { s with freeing := (s.freeing.map fun f => { f with fns := f.fns.filter (· != fn) }).filter fun f =>
      !(f.done && f.fns.isEmpty) }

/-- Goes on with a free that a function's command waits for. -/
def goFree (s : State) (p fn : Nat) (f : Freeing) : FwRes :=
  if f.done then .done (leaveFree s fn)
  else
    match advanceFree s p f.page with
    | (false, s) => .wait s
    | (true, s) =>
      .done (leaveFree { s with freeing := s.freeing.map fun x =>
        if x.part == p && x.page == f.page then { x with done := true } else x } fn)

/-- The IA of an address that a command names (R58, R79). -/
def cmdIa (s : State) (p ctx : Nat) (va : W64) : Option Nat :=
  if !ptrOk va || isPlace va then none
  else (winFind (ctxWins s p ctx) (vaOf va)).map fun (d0, d1) => winIa d1 + (vaOf va - winBase d0)

/-- A free starts with its first step, or joins one in progress (R324); the further steps are later events
(R325). -/
def startFree (s : State) (p fn : Nat) (page : Nat) (l : Leaf) : FwRes :=
  match s.freeing.find? fun f => f.part == p && f.page == page && !f.done with
  | some f =>
    .wait { s with freeing := s.freeing.map fun x => if x == f then { x with fns := x.fns ++ [fn] } else x }
  | none =>
    let r := (alFind s.tails l.frame).getD (newTail ⟨l.frame, l.big, 0, none⟩)
    let f : Freeing := ⟨p, page, [fn], false⟩
    .wait { s with tails := alSet l.frame { r with state := 3 } s.tails, freeing := s.freeing ++ [f] }

/-- The effect of PAGEFREE (R57, R324). -/
def pageFree (fn : Nat) (s : State) (p : Nat) (r : List W64) : FwRes :=
  match s.freeing.find? fun f => f.part == p && f.fns.contains fn with
  | some f => goFree s p fn f
  | none =>
    match cmdIa s p (cmdCtx r) (cmdArg r 0) with
    | none => .fail 0x032B
    | some ia =>
      match leafOf s p ia with
      | none => .fail 0x0323
      | some (_, l) => if l.cls = 0 then .fail 0x0323 else startFree s p fn (l.pageNo (ia / 65536)) l

/-- PAGEFREE (R324). -/
def execPagefree (fn : Nat) (s : State) : Out := runCmd 6 fn true (pageFree fn) s

/-! ## LAUNCHEND (R414) and GROUPREAD (R57) -/

/-- The effect of LAUNCHEND (R57, R414). -/
def launchEnd (s : State) (p : Nat) (r : List W64) : FwRes :=
  if bits (cmdArg r 0) 16 48 ≠ 0 then .fail 0x032B else endLaunch s p (bits (cmdArg r 0) 0 16).toNat

/-- LAUNCHEND (R414). -/
def execLaunchend (fn : Nat) (s : State) : Out := runCmd 7 fn false launchEnd s

def quadBytes (v : W64) : List Byte := bytesOf 8 v.toNat

/-- Bytes padded with zeros to whole granules. -/
def granuleBytes (n : Nat) (bs : List Byte) : List Byte := bs ++ List.replicate (n * 16384 - bs.length) 0

/-- A thread record (R135): return entries, the newest first and zeros for those unused (DESIGN CHOICE, log 78), then 64
bytes in a packing that the spec does not give. -/
def recordBytes (t : Thread) (base : Nat) : List Byte :=
  let entries := t.ret.flatMap fun e => quadBytes e ++ quadBytes 0
  entries ++ List.replicate (64 - entries.length) 0 ++ (List.range 8).flatMap fun i => quadBytes (Config.freeWord (base + i))

/-- A bank in the layout of R274. -/
def bankBytes (b : List (Nat × (W32 × W32))) : List Byte :=
  (List.range 16384).flatMap fun i =>
    let c := bankCell b i
    bytesOf 4 c.1.toNat ++ bytesOf 4 c.2.toNat

/-- The image of a halted core group, but for its header (R57): the registers thread after thread, ascending, and MPR with
WA in bits [7:0] and WB in bits [15:8] (DESIGN CHOICE, log 78). -/
def imageBytes (g : Group) (base : Nat) : List Byte :=
  let r := g.lrec
  granuleBytes (recRegG r) (g.threads.flatMap fun t => t.w.flatMap fun v => bytesOf 4 v.toNat) ++
  granuleBytes (recCallG r) ((g.threads.zipIdx).flatMap fun (t, i) => recordBytes t (base + 8 * i)) ++
  memReadN g.spad 0 (recSpadG r * 16384) ++
  bankBytes g.mx.bank0 ++ bankBytes g.mx.bank1 ++
  ((List.range 48).flatMap fun i => quadBytes (g.k.getD (16 + i) 0)) ++
  quadBytes (g.fpx.setWidth 64) ++ quadBytes ((BitVec.ofNat 64 (g.mx.wa.toNat + 256 * g.mx.wb.toNat))) ++ quadBytes g.mx.mpx ++ quadBytes g.mx.dpx

/-- The 64-byte header (R57). -/
def imageHeader (g : Group) (total : Nat) : List Byte :=
  let r := g.lrec
  quadBytes (BitVec.ofNat 64 total) ++
  quadBytes (BitVec.ofNat 64 (recThreads r + recRegs r * 2 ^ 16 + recRegG r * 2 ^ 32 + recCallG r * 2 ^ 40 +
    recSpadG r * 2 ^ 48 + recL1G r * 2 ^ 56)) ++ List.replicate 48 0

/-- A core group is the halted one of a launch with a linear index. -/
def Group.haltedAs (g : Group) (p lid linear : Nat) : Bool :=
  g.part == p && g.lid == lid && g.linear == linear && g.st == .halted

/-- The saved context of a halted core group, in a shadow pool or in memory (R403, R406). -/
def haltedAt (s : State) (p lid linear : Nat) : Option Group :=
  ((s.cores.filterMap fun (_, c) => c.shadow) ++ (s.part p).csa).find? fun g => g.haltedAs p lid linear

/-- A halted core group is still on its core: its engines run on, or its shadow pool is taken. -/
def haltedOn (s : State) (p lid linear : Nat) : Bool :=
  s.cores.any fun (_, c) => c.grp.any fun g => g.haltedAs p lid linear

/-- A piece of a group's image, as it asks for its page. -/
def pieceAsker (va : W64) : Asker := ⟨0xFE, va, 0⟩

/-- Writes bytes in pieces of 64 through a context's windows (R57). -/
def writePieces (s0 : State) (p ctx : Nat) (wins : List W64) : Nat → State → W64 → List Byte → FwRes
  | 0, s, _, _ => .done s
  | n + 1, s, va, bs =>
    if bs.isEmpty then .done s
    else
      let page := match engAcc wins .wr va 64 with | .ok a => a.ia / 65536 | .error _ => 0
      match vaWrite s p (fwSeg s p) byHost wins va (bs.take 64) with
      | (s', .ok ()) => writePieces s0 p ctx wins n s' (va + 64) (bs.drop 64)
      | (_, .held) => .wait s0
      | (s', .fault _ v _) =>
        if v && canServe s0 p (ctxOwner s0 p ctx) page (pieceAsker va) then .wait (startService (s0.noteAsk p page (pieceAsker va)) p ctx page)
        else .partly (s'.settle p (pieceAsker va)) 0x0403
      | (s', .iso) => .partly s' 0x0403

/-- The effect of GROUPREAD (R57): it waits until the halted group has been saved (R403)
(DEDUCED, log 78). -/
def groupRead (s : State) (p : Nat) (r : List W64) : FwRes :=
  let lid := (bits (cmdArg r 0) 0 16).toNat
  let limit := (bits (cmdArg r 2) 0 32).toNat
  if bits (cmdArg r 0) 48 16 ≠ 0 ∨ bits (cmdArg r 2) 32 32 ≠ 0 ∨ (cmdArg r 1).toNat % 64 ≠ 0 ∨ limit % 64 ≠ 0 then
    .fail 0x032B
  else if (s.launch? p lid).isNone then .fail 0x032A
  else if (s.launch? p lid).any fun l => decide (launchGroups l.lrec ≤ (bits (cmdArg r 0) 16 32).toNat) then .fail 0x032B
  else
    match haltedAt s p lid (bits (cmdArg r 0) 16 32).toNat with
    | none => if haltedOn s p lid (bits (cmdArg r 0) 16 32).toNat then .wait s else .fail 0x032C
    | some g =>
      let body := imageBytes g s.fresh
      let image := imageHeader g (64 + body.length) ++ body
      let s1 := { s with fresh := s.fresh + 8 * g.threads.length }
      writePieces s p (cmdCtx r) (ctxWins s p (cmdCtx r)) (limit / 64 + 1) s1 (cmdArg r 1) (image.take limit)

/-- GROUPREAD (R57, R403). -/
def execGroupread (fn : Nat) (s : State) : Out := runCmd 8 fn true groupRead s

end Sys2Proof.Machine
end

