-- ==== Sys2Proof/Machine/Launches.lean ====
section
/-! DEFINITION. Launches: consumption and admission of a record (R59-R64), charges (R67), choosing and placing
gangs (R68-R70), the slot table and promotion (R71-R75), partitions enabled and killed (R65, R66, R415). -/

namespace Sys2Proof.Machine

/-! ## Reading through windows -/

/-- Why bytes could not be read: the page is absent, the home holds the request, or a check fails. -/
inductive RdErr where
  | absent (page : Nat)
  | held
  | bad

/-- Reads bytes in pieces that cross no line. -/
def readVa (p : Nat) (wins : List W64) : Nat → State → W64 → Nat → State × Except RdErr (List Byte)
  | 0, s, _, n => if n = 0 then (s, .ok []) else (s, .error .bad)
  | f + 1, s, va, n =>
    if n = 0 then (s, .ok [])
    else
      let k := min n (64 - va.toNat % 64)
      let page := match engAcc wins .rd va k with | .ok a => a.ia / 65536 | .error _ => 0
      match vaRead s p (fwSeg s p) byHost wins va k with
      | (s, .ok bs) =>
        match readVa p wins f s (va + BitVec.ofNat 64 k) (n - k) with
        | (s, .ok r) => (s, .ok (bs ++ r))
        | r => r
      | (s, .held) => (s, .error .held)
      | (s, .fault _ v _) => (s, .error (if v then .absent page else .bad))
      | (s, .iso) => (s, .error .bad)

/-- Reads through a context's windows. -/
def readCtx (s : State) (p ctx : Nat) (va : W64) (n : Nat) : State × Except RdErr (List Byte) :=
  readVa p (ctxWins s p ctx) (n + 1) s va n

/-- One read after another. -/
def thenRead {α β : Type} (x : State × Except RdErr α) (f : State → α → State × Except RdErr β) :
    State × Except RdErr β :=
  match x with
  | (s, .ok a) => f s a
  | (s, .error e) => (s, .error e)

/-- A little-endian number within bytes. -/
def leAt (bs : List Byte) (off n : Nat) : Nat := natOfBytes ((bs.drop off).take n)

/-! ## The kernel's image (R27-R30, R125; ELF-64 as its generic layout has it, PRESUMED, log 16) -/

/-- A section: type, file offset, size. -/
structure Sect where
  ty : Nat
  off : Nat
  size : Nat

/-- The section table of the image at a VA. Of the header's values that R26 gives, the magic alone is checked (DESIGN
CHOICE, log 16). -/
def readSections (s : State) (p ctx : Nat) (base : W64) : State × Except RdErr (List Sect) :=
  thenRead (readCtx s p ctx base 64) fun s h =>
    if leAt h 0 4 ≠ 0x464C457F then (s, .error .bad)
    else
      thenRead (readCtx s p ctx (base + BitVec.ofNat 64 (leAt h 0x28 8)) (64 * leAt h 0x3C 2)) fun s t =>
        (s, .ok ((List.range (leAt h 0x3C 2)).map fun i =>
          ⟨leAt t (64 * i + 4) 4, leAt t (64 * i + 0x18) 8, leAt t (64 * i + 0x20) 8⟩))

/-- The bytes of the first section of a type; none where the image has no such section. -/
def readSect (s : State) (p ctx : Nat) (base : W64) (ss : List Sect) (ty : Nat) : State × Except RdErr (Option (List Byte)) :=
  match ss.find? fun x => x.ty == ty with
  | none => (s, .ok none)
  | some x => thenRead (readCtx s p ctx (base + BitVec.ofNat 64 x.off) x.size) fun s b => (s, .ok (some b))

/-- Priority entries: word index and priority (R29). -/
def prioEntries (bs : List Byte) : List (Nat × BitVec 8) :=
  (List.range (bs.length / 8)).map fun i => (leAt bs (8 * i) 4, BitVec.ofNat 8 (leAt bs (8 * i + 4) 1))

/-- Splits entries into runs, each of which starts with word index 0. -/
def prioRuns : List (Nat × BitVec 8) → List (List (Nat × BitVec 8))
  | [] => []
  | e :: r =>
    match prioRuns r with
    | [] => [[e]]
    | x :: xs => if (x.headD (0, 0)).1 = 0 then [e] :: x :: xs else (e :: x) :: xs

/-- The values of an image's FUNC symbols, ascending (R30). -/
def funcValues (bs : List Byte) : List Nat :=
  sortBy id (dedup ((List.range (bs.length / 24)).filterMap fun i =>
    if leAt bs (24 * i + 4) 1 % 16 = 2 then some (leAt bs (24 * i + 8) 8) else none))

/-- Block starts of a run at an address. -/
def blocksAt (a : W64) (es : List (Nat × BitVec 8)) : List (Nat × BitVec 8) :=
  es.map fun (i, q) => ((bits (a + BitVec.ofNat 64 (8 * i)) 0 57).toNat, q)

/-- The ranges of priority entries that an image's kernel descriptors name. -/
def kernelRanges (bs : List Byte) : List (Nat × Nat) :=
  (List.range (bs.length / 128)).map fun i => (leAt bs (128 * i + 0x48) 4, leAt bs (128 * i + 0x4C) 4)

/-- A stage declaration or a priority entry with a non-zero res0 field (R3, R29). -/
def stageRes0 (bs : List Byte) (i : Nat) : Bool :=
  let d := leAt bs (16 * i) 8
  nbits d 27 5 != 0 || nbits d 57 7 != 0 || leAt bs (16 * i + 8) 8 != 0

def prioRes0 (bs : List Byte) : Bool := (List.range (bs.length / 8)).any fun i => nbits (leAt bs (8 * i) 8) 41 23 != 0

/-- A stage declaration whose fields lie outside what R29 gives them. -/
def stageRange (d : Nat) : Bool :=
  nbits d 0 24 % 128 != 0 || decide (nbits d 32 16 < 16) || decide (32768 < nbits d 32 16) || nbits d 32 16 % 16 != 0 ||
    decide (nbits d 48 9 < 2) || decide (256 < nbits d 48 9)

/-- What admission reads of the image: the block-start list and the stage declarations (R29, R125). That it reads
`.hof.stage` here, and rejects with 0x0302 sections too short for what the descriptor names, non-zero res0 fields and
fields out of range, is a DESIGN CHOICE (log 102). -/
def readImage (s : State) (p ctx : Nat) (entry : W64) (kd : List W64) :
    State × Except RdErr (List (Nat × BitVec 8) × List W64) :=
  let base := entry - recDw kd 0
  let first := (bits (recDw kd 9) 0 32).toNat
  let count := (bits (recDw kd 9) 32 32).toNat
  let nst := (bits (recDw kd 1) 44 4).toNat
  let st0 := (bits (recDw kd 8) 0 32).toNat
  thenRead (readSections s p ctx base) fun s ss =>
  thenRead (readSect s p ctx base ss 0x70000004) fun s prio =>
  thenRead (readSect s p ctx base ss 0x70000003) fun s stg =>
  thenRead (readSect s p ctx base ss 0x70000001) fun s kern =>
  thenRead (readSect s p ctx base ss 2) fun s sym =>
    match prio with
    | none => (s, .error .bad)
    | some pb =>
      let es := prioEntries pb
      let sb := stg.getD []
      let stages := (List.range nst).map fun i => BitVec.ofNat 64 (leAt sb (16 * (st0 + i)) 8)
      let ranges := (first, count) :: kernelRanges (kern.getD [])
      let rest := ((es.zipIdx).filter fun (_, i) => !(ranges.any fun (a, n) => decide (a ≤ i) && decide (i < a + n))).map (·.1)
      let fns := (prioRuns rest).zip (funcValues (sym.getD []))
      if es.length < first + count ∨ (sb.length < 16 * (st0 + nst) ∧ nst ≠ 0) ∨ prioRes0 pb ∨
          (List.range nst).any (fun i => stageRes0 sb (st0 + i) || stageRange (leAt sb (16 * (st0 + i)) 8)) then
        (s, .error .bad)
      else
        (s, .ok (blocksAt entry ((es.drop first).take count) ++
          fns.flatMap (fun (es, v) => blocksAt (base + BitVec.ofNat 64 v) es), stages))

/-! ## Admission (R64) -/

/-- A non-zero res0 field of a record (R59). -/
def recordRes0 (r : List W64) : Bool :=
  let z (d lo n : Nat) : Bool := nbits (recDw r d).toNat lo n != 0
  z 2 12 4 || z 2 19 1 || z 2 29 3 || z 2 36 4 || z 2 56 8 ||
  z 3 7 1 || z 3 15 1 || z 3 23 1 || z 3 31 1 || z 3 39 1 || z 3 47 17 ||
  z 4 9 7 || z 4 48 16 || z 9 20 12 || z 14 32 32 || z 15 32 32

/-- A kernel descriptor that R28 rejects. -/
def descBad (k : List W64) : Bool :=
  let f (d lo n : Nat) : Nat := nbits (recDw k d).toNat lo n
  let z (d lo n : Nat) : Bool := f d lo n != 0
  z 1 56 8 || z 2 12 4 || z 2 19 1 || z 2 29 35 ||
  z 3 7 1 || z 3 15 1 || z 3 23 1 || z 3 31 1 || z 3 39 1 || z 3 47 17 ||
  z 4 9 7 || z 4 48 16 || z 8 32 32 || z 12 16 48 || z 13 0 64 || z 14 0 64 || z 15 0 64 ||
  f 0 0 3 != 0 || decide (3 < f 1 40 4) || decide (8 < f 1 44 4) ||
  !(decide (32 ≤ f 2 0 12) && decide (f 2 0 12 ≤ 2048) && f 2 0 5 == 0) ||
  !(decide (1 ≤ f 2 16 3) && decide (f 2 16 3 ≤ 4)) || !(decide (1 ≤ f 2 20 4) && decide (f 2 20 4 ≤ 8)) ||
  !(decide (1 ≤ f 2 24 5) && decide (f 2 24 5 ≤ 16)) ||
  !(decide (8 ≤ f 4 0 9) && decide (f 4 0 9 ≤ 256) && f 4 0 3 == 0) || decide (f 4 40 8 < 4) || f 12 0 4 != 0

/-- Every byte of an extent lies under windows that grant a right, the lowest window over each byte deciding
(R79). -/
def covered (wins : List W64) (r : Right) : Nat → Nat → Nat → Bool
  | 0, _, n => n == 0
  | f + 1, va, n =>
    n == 0 || match winFind wins va with
    | none => false
    | some (d0, _) =>
      let edges := (List.range 16).flatMap fun i =>
        let b := winBase (wins.getD (2 * i) 0)
        [b, b + winSize (wins.getD (2 * i + 1) 0)]
      let k := (edges.filter fun e => decide (va < e)).foldl (fun m e => min m (e - va)) n
      r.ok d0 && covered wins r f (va + k) (n - k)

/-- An extent passes the window check. -/
def extentOk (wins : List W64) (r : Right) (va : W64) (n align : Nat) : Bool :=
  n == 0 || (ptrOk va && va.toNat % align == 0 && decide (vaOf va + n ≤ 31 * 2 ^ 52) && covered wins r 64 (vaOf va) n)

/-- The roles of a record cover its gangs exactly once (R64). -/
def rolesOk (r : List W64) : Bool :=
  let f (lo : Nat) : Nat := nbits (recDw r 3).toNat lo 7
  let roles := [(f 0, f 8), (f 16, f 24), (f 32, f 40)]
  let gangs := recThreads r / 32
  (roles.all fun (a, n) => n == 0 || decide (a + n ≤ gangs)) &&
  (List.range gangs).all fun g => (roles.filter fun (a, n) => decide (a ≤ g) && decide (g < a + n)).length == 1

/-- The deckle of a record against the descriptor (R40, R64). -/
def deckleOk (r k : List W64) : Bool :=
  decide (recRegs k ≤ recRegs r) && decide (recRegs r ≤ 256) && recRegs r % 8 == 0 &&
  recRegG r == (recThreads r * recRegs r * 4 + 16383) / 16384 && recCallG r == (recThreads r * 128 + 16383) / 16384 &&
  decide (recSpadG k ≤ recSpadG r) && decide (recL1G k ≤ recL1G r) && decide (4 ≤ recL1G r) &&
  decide (recRegG r + recCallG r + recSpadG r + recL1G r ≤ 96)

/-- The widest operand of a format code (R42). -/
def formatWidth (code : Nat) : Nat := if code = 4 ∨ code = 5 then 8 else if code = 6 ∨ code = 7 then 4 else 16

/-- A format slot of a record (R64, R177). -/
def slotOk (r k : List W64) (n : Nat) : Bool :=
  let d := (recDw r (16 + 2 * n)).toNat
  let code := nbits d 0 8
  if code = 0 then nbits (recDw k 1).toNat (48 + n) 1 == 0 && nbits d 24 40 == 0 && recDw r (17 + 2 * n) == 0
  else
    decide (code ≤ 7) && decide (5 ≤ nbits d 8 8) && decide (nbits d 8 8 ≤ 7) &&
    decide (1 ≤ nbits d 16 8) && decide (nbits d 16 8 ≤ formatWidth code) &&
    nbits d 25 39 == 0 && recDw r (17 + 2 * n) == 0 && (nbits d 24 1 == 0 || code == 5 || code == 6)

/-- The spill area of a launch, in bytes (R61). -/
def spillBytes (r : List W64) : Nat := launchGroups r * recThreads r * recSpillStride r

/-- Check 0x030A (R64). -/
def addressesOk (wins r : List W64) : Bool :=
  extentOk wins .rd (recDw r 0) 8 8 && (recDw r 6 == 0 || extentOk wins .rd (recDw r 6) 8 8) &&
  extentOk wins .rdwr (recDw r 8) 16 8 && extentOk wins .rdwr (recDw r 7) (spillBytes r) 16

/-! ## Placing (R15, R68, R92) -/

/-- Core groups of a gang (R68). -/
def gangSize (r : List W64) : Nat :=
  match recResid r with
  | 0 => 1
  | 1 => recCgPerSg r
  | 2 => recSgPerKg r * recCgPerSg r
  | _ => recKgPerRg r * recSgPerKg r * recCgPerSg r

/-- Gangs of a launch. -/
def gangCount (r : List W64) : Nat := launchGroups r / gangSize r

/-- Indices (rgx, kgx, sgx, cgx) of a linear index (R61). -/
def indicesOf (r : List W64) (l : Nat) : Nat × Nat × Nat × Nat :=
  let c := recCgPerSg r
  let g := recSgPerKg r
  let k := recKgPerRg r
  (l / (c * g * k), l / (c * g) % k, l / c % g, l % c)

/-- A core that the partition may use (R92). -/
def usable (s : State) (p c : Nat) : Bool :=
  s.owns p (c / 4) && (s.logCore p c).isSome && !(s.core c).outOfUse

/-- A usable core on a ready segment that holds nothing (R18, R73). -/
def freeCore (s : State) (p c : Nat) : Bool :=
  let x := s.core c
  usable s p c && segReady s.pkg (segOf c) && x.grp.isNone && x.curempty && !x.nxt.valid && !x.testDue && !x.testing

/-- Indices and cores of the places of a launch's core groups. -/
def launchPlaces (l : Launch) : List ((Nat × Nat × Nat) × Nat) :=
  l.places.map fun (i, c) =>
    let (a, b, g, _) := indicesOf l.lrec i
    ((a, b, g), c)

/-- Where the core groups of a launch stand or have stood: their indices and the cores of their last binding, running,
saved and retired ones alike (R68) (DEDUCED, log 82). -/
def standingAt (s : State) (p lid : Nat) : List ((Nat × Nat × Nat) × Nat) :=
  ((s.launch? p lid).map launchPlaces).getD []

/-- Cores at given places keep slice groups on one slice and stack groups on one stack group (R68). -/
def togetherOk (l : List ((Nat × Nat × Nat) × Nat)) : Bool :=
  l.all fun (a, c) => l.all fun (b, d) =>
    if a = b then c / 4 == d / 4
    else if a.1 = b.1 ∧ a.2.1 = b.2.1 then c / 32 == d / 32
    else true

/-- Members of one gang take distinct slices for distinct slice groups, distinct stack groups for distinct stack
groups (R68). -/
def apartOk (l : List ((Nat × Nat × Nat) × Nat)) : Bool :=
  l.all fun (a, c) => l.all fun (b, d) =>
    if a = b then true
    else if a.1 = b.1 ∧ a.2.1 = b.2.1 then c / 4 != d / 4
    else if a.1 = b.1 then c / 32 != d / 32
    else true

/-- A gang's members with the cores given to them, in ascending linear index. -/
def gangPlaces (r : List W64) (gang : Nat) (cores : List Nat) : List ((Nat × Nat × Nat) × Nat) :=
  (cores.zipIdx).map fun (c, i) =>
    let (a, b, g, _) := indicesOf r (gang * gangSize r + i)
    ((a, b, g), c)

/-- A placement of a gang (R68). -/
def placementOk (s : State) (p : Nat) (free : Nat → Bool) (l : Launch) (cores : List Nat) : Bool :=
  let new := gangPlaces l.lrec l.gangs cores
  cores.length == gangSize l.lrec && (dedup cores).length == cores.length && cores.all free && apartOk new &&
    togetherOk (new ++ standingAt s p l.lid)

/-- Free cores of a slice. -/
def coresOfSlice (free : Nat → Bool) (slice : Nat) : List Nat := ((List.range 4).map (4 * slice + ·)).filter free

/-- The cores of whole slice groups on one stack group, where it has room. -/
def stackCores (free : Nat → Bool) (r : List W64) (stack : Nat) : Option (List Nat) :=
  let ok := ((List.range 8).map fun j => coresOfSlice free (8 * stack + j)).filter fun l => decide (recCgPerSg r ≤ l.length)
  if recSgPerKg r ≤ ok.length then some ((ok.take (recSgPerKg r)).flatMap fun l => l.take (recCgPerSg r)) else none

/-- The sets of cores on which a gang might stand, in ascending order. -/
def candidates (free : Nat → Bool) (r : List W64) : List (List Nat) :=
  match recResid r with
  | 0 => ((List.range 512).filter free).map fun c => [c]
  | 1 => (List.range 128).filterMap fun j =>
      let l := coresOfSlice free j
      if recCgPerSg r ≤ l.length then some (l.take (recCgPerSg r)) else none
  | 2 => (List.range 16).filterMap (stackCores free r)
  | _ =>
    let ok := (List.range 16).filterMap (stackCores free r)
    if recKgPerRg r ≤ ok.length then [(ok.take (recKgPerRg r)).flatMap id] else []

/-- The first placement of a launch's next gang. -/
def firstPlacement (s : State) (p : Nat) (free : Nat → Bool) (l : Launch) : Option (List Nat) :=
  (candidates free l.lrec).find? fun c => placementOk s p free l c

/-! ## The checks in order (R64) -/

/-- What admission finds: rejected with a code, to be tried again, or admitted. -/
inductive Verdict where
  | reject (code : Nat)
  | wait (s : State)
  | accepted (kd : List W64) (blocks : List (Nat × BitVec 8)) (stages : List W64)

/-- The checks after those that read memory. -/
def checkFields (s : State) (p : Nat) (r k : List W64) : Option Nat :=
  let t := recThreads r
  if !(decide (32 ≤ t) && t % 32 == 0 && decide (t ≤ recThreads k) && decide (t ≤ 2048) &&
      decide (1 ≤ recCgPerSg r) && decide (recCgPerSg r ≤ min 4 (recCgPerSg k)) &&
      decide (1 ≤ recSgPerKg r) && decide (recSgPerKg r ≤ min 8 (recSgPerKg k)) &&
      decide (1 ≤ recKgPerRg r) && decide (recKgPerRg r ≤ min 16 (recKgPerRg k)) && decide (1 ≤ recRgCount r)) then some 0x0303
  else if 3 < recResid r ∨ recResid r < nbits (recDw k 1).toNat 40 4 then some 0x0304
  else if !rolesOk r then some 0x0305
  else if !deckleOk r k then some 0x0306
  else if !((List.range 8).all (slotOk r k)) then some 0x0307
  else if recSpillStride r % 16 ≠ 0 ∨ recSpillStride r < nbits (recDw k 12).toNat 0 16 then some 0x0308
  else if recQos r < (bits (s.partRec p 0x18) 16 2).toNat then some 0x0309
  else if !addressesOk (ctxWins s p (recCtxid r)) r then some 0x030A
  else if (candidates (usable s p) r).isEmpty then some 0x030B
  else if !s.enabled p then some 0x030C
  else none

/-- A read that admission makes for a record's address, and what its failure means. -/
def admitRead {α : Type} (p ctx : Nat) (w : Asker) (x : State × Except RdErr α) (f : State → α → State × Verdict) :
    State × Verdict :=
  match x with
  | (s, .ok a) => f s a
  | (s, .error (.absent page)) =>
    if !canServe s p (ctxOwner s p ctx) page w then (s.settle p w, .reject 0x0302)
    else (s, .wait (startService (s.noteAsk p page w) p ctx page))
  | (s, .error .held) => (s, .wait s)
  | (s, .error .bad) => (s, .reject 0x0302)

/-- The admission checks of a record, in the order of R64's table. -/
def admission (s : State) (p fn : Nat) (r : List W64) : State × Verdict :=
  let ctx := recCtxid r
  if recordRes0 r then (s, .reject 0x0301)
  else if !ctxOwned s p fn ctx then (s, .reject 0x030D)
  else if (recDw r 1).toNat % 8 ≠ 0 then (s, .reject 0x0302)
  else
    admitRead p ctx ⟨0xFF, recDw r 1, recSeq r⟩ (readCtx s p ctx (recDw r 1) 128) fun s kb =>
      let k := dwordsOf kb
      if descBad k then (s, .reject 0x0302)
      else
        admitRead p ctx ⟨0xFF, recDw r 0, recSeq r⟩ (readImage s p ctx (recDw r 0) k) fun s (blocks, stages) =>
          match checkFields s p r k with
          | some c => (s, .reject c)
          | none => (s, .accepted k blocks stages)

/-- The lowest free LAUNCHID (R62). -/
def freeLid (s : State) (p : Nat) : Option Nat :=
  let ls := (s.part p).launches
  (List.range (min 65535 (ls.length + 1))).find? fun i => ls.all fun l => l.lid != i

/-- A rejected launch (R63): its completion, where DONEVA passes the window check, and a KIND 1 entry. -/
def rejectLaunch (s : State) (p fn lid : Nat) (r : List W64) (code : Nat) : FwRes :=
  let ctx := recCtxid r
  let ok := ctxOwned s p fn ctx && extentOk (ctxWins s p ctx) .rdwr (recDw r 8) 16 8
  match (if ok then waitComp s p ctx (launchDone s p fn r code) else .done s) with
  | .done s => .done (post s fn 1 code (recSeq r) 0 lid)
  | x => x

/-- Cost of a launch (R67). -/
def launchCost (s : State) (p : Nat) (r k : List W64) : Nat :=
  let c := if recDw r 5 ≠ 0 then recDw r 5 else if recDw k 5 ≠ 0 then recDw k 5 else s.partRec p 0x28
  c.toNat * launchGroups r

/-- The credits that are due: BPBUDGET for each 1 ms, 2,500,000 cycles, since the partition was enabled, capped at twice
it (R67). -/
def creditDue (s : State) (p : Nat) : State :=
  let k := (s.now - (s.part p).creditAt) / 2500000
  let b : Int := (s.partRec p 0x20).toNat
  if k = 0 then s
  else s.modPart p fun x => { x with account := min (x.account + k * b) (2 * b), creditAt := x.creditAt + 2500000 * k }

/-- A waiting launch is admitted and charged where its class and the account allow it (R67) (DEDUCED, log 80). -/
def chargeLaunch (s : State) (p : Nat) (l : Launch) : State :=
  let unlimited := s.partRec p 0x20 == 0
  if l.charged || !(unlimited || recQos l.lrec == 0 || decide (0 ≤ (s.part p).account)) then s
  else
    s.modPart p fun x =>
      { x with
        account := if unlimited then x.account else x.account - l.cost,
        launches := x.launches.map fun y => if y.lid == l.lid then { y with charged := true, waitSince := s.now } else y }

/-- An admitted launch joins those of its partition. -/
def addLaunch (s : State) (p fn lid : Nat) (r k : List W64) (blocks : List (Nat × BitVec 8)) (stages : List W64) : State :=
  let l : Launch := {
    lid := lid, fn := fn, lrec := r, entprio := bits (recDw k 1) 32 8, blocks := blocks, stages := stages,
    cost := launchCost s p r k, charged := false, order := (s.part p).consumed, gangs := 0, retired := 0,
    waitSince := s.now, firstStop := none, places := [], waved := false }
  chargeLaunch ((creditDue s p).modPart p fun x => { x with launches := x.launches ++ [l], consumed := x.consumed + 1 }) p l

/-- LAUNCH_CONSUME (R53, R54, R62-R64, R67) (DEDUCED, log 79). -/
def execLaunchConsume (fn : Nat) (s : State) : Out :=
  .next (
    let f := s.fn fn
    if !qOk f.sqen f.sqlog || f.sqerr || f.sqhead == f.sqtail then s
    else
      match queueCtx s fn with
      | none => s
      | some (p, qc) =>
        match freeLid s p, readCtx s p qc (f.sqbase + BitVec.ofNat 64 (f.sqhead.toNat % 2 ^ f.sqlog.toNat * 256)) 256 with
        | some lid, (s1, .ok bs) =>
          let r := dwordsOf bs
          let taken (s : State) : State := s.modFn fn fun f => { f with sqhead := f.sqhead + 1 }
          match admission s1 p fn r with
          | (_, .wait s) => s
          | (s2, .reject c) =>
            match rejectLaunch s2 p fn lid r c with
            | .done s => taken s
            | .wait s => s
            | _ => s
          | (s2, .accepted k blocks stages) => taken (addLaunch s2 p fn lid r k blocks stages)
        | some _, (s1, .error (.absent page)) => if priOpen s1 p fn page then startService s1 p qc page else s1
        | _, _ => s)

/-- BUDGET_CREDIT (R67): every 1 ms the account rises by BPBUDGET, at most to twice it; waiting launches are charged in
the order of their consumption. -/
def execBudgetCredit (part : Nat) (s : State) : Out :=
  .next (
    if !s.enabled part then s
    else
      let s := creditDue s part
      (s.part part).launches.foldl (fun s l => chargeLaunch s part l) s)

/-! ## Gangs (R68-R70) -/

/-- A launch's next gang can be placed now. -/
def placeable (s : State) (p : Nat) (l : Launch) : Bool := (firstPlacement s p (freeCore s p) l).isSome

/-- An earlier launch of a queue lets a later one go: its gangs are bound, or its first wave is and its next gang does
not wait for cores (R69). -/
def letsLater (s : State) (p : Nat) (x : Launch) : Bool :=
  decide (gangCount x.lrec ≤ x.gangs) || (x.waved && placeable s p x)

/-- A launch whose next gang may be bound (R67, R69): admitted, its AFTER met, not kept back by an earlier launch of its
queue (DEDUCED, log 81). -/
def bindable (s : State) (p : Nat) (l : Launch) : Bool :=
  let before := (s.part p).launches.filter fun x => x.fn == l.fn && decide (x.order < l.order)
  l.charged && decide (l.gangs < gangCount l.lrec) && before.all (letsLater s p) &&
    !(bit (recDw l.lrec 9) 18 && !before.isEmpty)

/-- Launches whose next gang may be bound, in the order in which the firmware chooses (R69). -/
def bindOrder (s : State) (p : Nat) : List Launch :=
  sortBy (fun l => recQos l.lrec) (sortBy Launch.order ((s.part p).launches.filter (bindable s p)))

/-- The first wave of a launch with a gang bound is over once its next gang cannot be placed (R69). -/
def markWaves (s : State) (p : Nat) : State :=
  s.modPart p fun x => { x with launches := x.launches.map fun l =>
    { l with waved := l.waved || (l.gangs != 0 && !placeable s p l) } }

/-- The core of a group's last binding, among a launch's places (R68). -/
def Launch.placeAt (l : Launch) (i core : Nat) : Launch := { l with places := alSet i core l.places }

/-- Core groups of a partition that stand saved and will run again. -/
def savedGroups (s : State) (p : Nat) : List Group :=
  ((s.cores.filterMap fun (_, c) => c.shadow) ++ (s.part p).csa).filter fun g => g.part == p && g.st == .running

/-- The launch that the firmware binds a gang of next: the first that can be placed (R69). Pre-empted groups of its
class come first (R70). -/
def nextBind (s : State) (p : Nat) : Option Launch :=
  (bindOrder s p).find? fun l =>
    !((savedGroups s p).any fun g => g.bind.qos == recQos l.lrec) && (firstPlacement s p (freeCore s p) l).isSome

/-- The bind record of a gang's member (R71). -/
def bindRec (p : Nat) (l : Launch) (lrec : W64) (gangid i : Nat) : BindRec :=
  let (a, b, g, c) := indicesOf l.lrec (l.gangs * gangSize l.lrec + i)
  ⟨lrec,
   BitVec.ofNat 64 (c + 4 * g + 32 * b + 512 * a + 2 ^ 25 * l.lid + 2 ^ 41 * p + 2 ^ 47 * recQos l.lrec),
   BitVec.ofNat 64 (recCtxid l.lrec + 2 ^ 32 * gangSize l.lrec + 2 ^ 48 * (gangid % 65536)), 1⟩

/-- GANG_BIND (R18, R68-R71, R92): bind records for a gang, on cores that the firmware names. -/
def execGangBind (part : Nat) (lrec : W64) (cores : List Nat) (s : State) : Out :=
  .next (match nextBind s part with
  | none => s
  | some l =>
    if !placementOk s part (freeCore s part) l cores then s
    else
      let id := (s.part part).gangSeq
      let no := (s.part part).bindSeq
      let s := (cores.zipIdx).foldl (fun s (c, i) => s.modCore c fun x => { x with nxt := bindRec part l lrec id i, nxtNo := no }) s
      let at_ := (cores.zipIdx).map fun (c, i) => (l.gangs * gangSize l.lrec + i, c)
      markWaves (s.modPart part fun x =>
        { x with
          gangSeq := x.gangSeq + 1,
          bindSeq := x.bindSeq + 1,
          launches := x.launches.map fun y =>
            if y.lid == l.lid then
              at_.foldl (fun y x => y.placeAt x.1 x.2) { y with gangs := y.gangs + 1, waitSince := s.now }
            else y }) part)

/-! ## The slot table (R72, R73) -/

/-- A bind record as a register holds it: its res0 fields read zero (R3, R71). -/
def heldRec (r : BindRec) : BindRec :=
  ⟨r.d0, r.d1 &&& 0x1FFFFFFFFFFFF, r.d2 &&& 0xFFFF03FFFFFFFFFF, r.d3 &&& 3⟩

/-- A write of NEXT. A cancel in the cycle of a promotion loses to it, and sets BUSY. -/
def Core.writeNext (now : Nat) (c : Core) (r : BindRec) : Core :=
  if !r.valid then
    (if c.promAt = now + 1 then { c with busy := true } else { c with nxt := BindRec.empty, gangwait := false })
  else if c.nxt.valid then { c with busy := true }
  else { c with nxt := heldRec r }

/-- The linear index that a bind record names in a launch (R61, R71). -/
def bindLinear (lrec : List W64) (r : BindRec) : Nat :=
  ((r.rgx * recKgPerRg lrec + r.kgx) * recSgPerKg lrec + r.sgx) * recCgPerSg lrec + r.cgx

/-- A write of NEXT of a core, by its segment controller; a record that it takes is a binding (R68, R70, R72). -/
def writeNext (s : State) (core : Nat) (r : BindRec) : State :=
  let takes := r.valid && !(s.core core).nxt.valid
  let no := (s.part r.part).bindSeq
  let s := s.modCore core fun c => c.writeNext s.now r
  if takes then
    (s.modCore core fun c => { c with nxtNo := no }).modPart r.part fun x =>
      { x with
        bindSeq := x.bindSeq + 1,
        launches := x.launches.map fun l => if l.lid == r.lid then l.placeAt (bindLinear l.lrec r) core else l }
  else s

/-- NEXT_WRITE (R72): accepted only while NEXT is empty. -/
def execNextWrite (core : Nat) (r : BindRec) (s : State) : Out :=
  .next (if core < 512 then writeNext s core r else s)

/-- NEXT_CANCEL (R72): a write with VALID 0. -/
def execNextCancel (core : Nat) (s : State) : Out :=
  .next (if core < 512 then writeNext s core BindRec.empty else s)

/-- A dword of a bind record. -/
def bindDw (r : BindRec) (i : Nat) : W64 :=
  match i with | 0 => r.d0 | 1 => r.d1 | 2 => r.d2 | _ => r.d3

def setRecDw (r : BindRec) (i : Nat) (v : W64) : BindRec :=
  match i with | 0 => { r with d0 := v } | 1 => { r with d1 := v } | 2 => { r with d2 := v } | _ => { r with d3 := v }

/-- SLOTST (R72). -/
def Core.slotst (c : Core) : W64 :=
  (0 : BitVec 60) ++ b1 c.stopped ++ b1 c.gangwait ++ b1 c.curempty ++ b1 c.busy

/-- A read of a core's slot table at an offset of its 128 bytes (R72). -/
def Core.readSlot (c : Core) (off : Nat) : W64 :=
  if off < 0x20 then bindDw c.cur (off / 8)
  else if off < 0x40 then bindDw c.nxt ((off - 0x20) / 8)
  else if off = 0x40 then c.slotst
  else 0

/-- A write of one dword of a core's slot table (R72): CUR and what the table does not name ignore it; a 1 clears BUSY; a
dword of NEXT is held while NEXT is empty, and its last dword makes the record valid, or cancels it (DEDUCED, log
103). -/
def writeSlot (s : State) (core off : Nat) (v : W64) : State :=
  let c := s.core core
  if off = 0x40 then (if bit v 0 then s.modCore core fun c => { c with busy := false } else s)
  else if 0x20 ≤ off ∧ off < 0x40 then
    let i := (off - 0x20) / 8
    if i = 3 then writeNext s core (if bit v 0 then setRecDw c.nxt 3 v else BindRec.empty)
    else if c.nxt.valid then s.modCore core fun c => { c with busy := true }
    else s.modCore core fun c => { c with nxt := heldRec (setRecDw c.nxt i v) }
  else s

/-- The cores on which a gang of a core group stands: all of it above core residency, else its own core (R406). -/
def gangCores (s : State) (core : Nat) (g : Group) : List Nat :=
  if recResid g.lrec = 0 then [core]
  else (s.cores.filter fun (_, c) => match c.grp with | some h => sameGang g h | none => false).map (·.1)

/-- GANG_READY (R73): a core with NEXT and an empty CUR registers readiness; DISPLACE first pre-empts CUR, with its gang
(R406). -/
def execGangReady (core : Nat) (s : State) : Out :=
  .next (
    let c := s.core core
    if !c.nxt.valid || c.gangwait || c.testing || c.outOfUse then s
    else
      match c.grp with
      | none => if c.curempty then s.modCore core fun c => { c with gangwait := true } else s
      | some g =>
        if c.nxt.displace then (gangCores s core g).foldl (fun s c => s.modCore c fun x => { x with preq := true }) s else s)

/-! ## Promotion (R60, R73, R75) -/

/-- A thread as promotion leaves it: its registers read zero (R76). -/
def Thread.start (regs : Nat) (pc : Va) (prio : BitVec 8) : Thread :=
  { Thread.blank with
    w := List.replicate regs 0, pc := pc, prio := prio, done := false, rsPc := pc, rsPrio := prio, rclosed := true }

/-- A stage ring as declared (R29, R265). Declarations are taken as they stand: rings that overlap, that lie beyond the
launch's scratchpad or that name one SID twice, of which the first counts (R43 makes these errors of assembly alone)
(DESIGN CHOICE, log 102). -/
def ringOf (d : W64) : Ring :=
  ⟨d, (bits d 0 24).toNat, (bits d 32 16).toNat, (bits d 48 9).toNat, 0, 0, 0, 0, 0, 0⟩

/-- k0-k63 of a core group (R60). -/
def kOf (l : Launch) (rgx : Nat) : List W64 :=
  let r := l.lrec
  [recDw r 6, recDw r 7, recDw r 8, (bits (recDw r 9) 32 32 : W32) ++ BitVec.ofNat 32 l.lid,
   recDw r 10, recDw r 11, recDw r 12, recDw r 13, BitVec.ofNat 64 rgx] ++ List.replicate 55 0

/-- A core group that starts (R60, R73, R75, R181, R265, R274, R276, R305). -/
def newGroup (s : State) (core : Nat) (b : BindRec) (l : Launch) : Group :=
  let pc : Va := bits (recDw l.lrec 0) 0 56 |>.setWidth 57
  let n := recThreads l.lrec
  { part := b.part, lid := b.lid, ctxid := b.ctxid, lseg := (s.logSeg b.part (segOf core)).getD 0, bind := b,
    lrec := l.lrec, blocks := l.blocks, k := kOf l b.rgx, kset := [],
    frontier := [⟨0, pc, l.entprio, List.range n, 0, 0⟩], parking := [], waits := [],
    threads := List.replicate n (Thread.start (recRegs l.lrec) pc l.entprio),
    rb := [], pend := [], nextId := 0, fpx := 0, fpxLand := [], phasecur := 0, nopre := none, spad := [],
    rings := l.stages.map ringOf, cqs := List.replicate 4 ⟨[], none, none⟩, cfrozen := false, mx := Matrix.reset,
    rq := [], rqBusy := (s.runningAt core).isSome, fences := [], st := .running, clockOff := (s.part b.part).clockOff, bindNo := (s.core core).nxtNo }

/-- NEXT becomes CUR (R73). -/
def promoteCore (s : State) (core : Nat) : State :=
  let b := (s.core core).nxt
  match s.launch? b.part b.lid with
  | none => s
  | some l =>
    let g := newGroup s core b l
    s.modCore core fun c =>
      { c with
        cur := b, nxt := BindRec.empty, curempty := false, gangwait := false, stopped := false, grp := some g,
        icache := [], l1 := [], misses := [], fills := [], run0 := none, run1 := none, preq := false, promAt := s.now + 1,
        wins := ctxWins s b.part b.ctxid, ctxperm := ctxDw s b.part b.ctxid 0x20 }

/-- The cores whose NEXT belongs to a gang and that have registered readiness. -/
def readyCores (s : State) (part gang : Nat) : List Nat :=
  (s.cores.filter fun (_, c) => c.nxt.valid && c.gangwait && c.grp.isNone && c.nxt.part == part && c.nxt.gangid == gang).map (·.1)

/-- PROMOTION (R73): the whole gang starts. -/
def execPromotion (part gang : Nat) (s : State) : Out :=
  .next (
    let cs := readyCores s part gang
    let n := match cs with | c :: _ => (s.core c).nxt.gangn | [] => 0
    if n = 0 ∨ cs.length ≠ n then s else cs.foldl promoteCore s)

/-! ## Q0 pre-emption (R70) -/

/-- Core groups of a partition that a Q0 gang may pre-empt, Q3 first, then the youngest binding (R70) (DEDUCED, log
83). -/
def victims (s : State) (p : Nat) : List (Nat × Group) :=
  let l := s.cores.filterMap fun (n, c) =>
    match c.grp with
    | some g => if g.part == p && g.bind.qos != 0 && g.st == .running && !c.preq then some (n, g) else none
    | none => none
  sortBy (fun (_, g) => 3 - g.bind.qos) (sortBy (fun (_, g) => (s.part p).bindSeq - g.bindNo) l)

/-- Pre-emption is asked of victims, one after another, until the gang could be placed. -/
def takeVictims (s : State) (p : Nat) (l : Launch) : List (Nat × Group) → List Nat → Option (List Nat)
  | vs, took =>
    let free (c : Nat) : Bool := freeCore s p c || (usable s p c && (took.contains c || (s.core c).preq))
    if (firstPlacement s p free l).isSome then some took
    else
      match vs with
      | [] => none
      | (c, g) :: r => takeVictims s p l r (if took.contains c then took else took ++ gangCores s c g)

/-- A Q0 gang that has waited 20 µs, 50,000 cycles (R70). -/
def lateQ0 (s : State) (p : Nat) : Option Launch :=
  (bindOrder s p).find? fun l =>
    recQos l.lrec == 0 && decide (l.waitSince + 50000 ≤ s.now) && (firstPlacement s p (freeCore s p) l).isNone

/-- Q0_PREEMPT_TIMEOUT (R70). -/
def execQ0PreemptTimeout (part : Nat) (s : State) : Out :=
  .next (match lateQ0 s part with
  | none => s
  | some l =>
    match takeVictims s part l (victims s part) [] with
    | none => s
    | some cs => cs.foldl (fun s c => s.modCore c fun x => { x with preq := true }) s)

/-! ## Partitions (R65-R67, R415) -/

/-- The enabled partitions other than one. -/
def otherEnabled (s : State) (p : Nat) : List Nat := (List.range 64).filter fun q => q != p && s.enabled q

/-- Units of 2 MiB of the stacks, but for the 64 of each bank under the stronger code, and of the CXL ports, that have not
failed (R17, R86, R413) (DEDUCED, log 85). -/
def memoryUnits (s : State) (cxl : Bool) : Nat :=
  if cxl then ((List.range 8).filter fun n => !s.pkg.failed.contains (.cxl n)).length * 131072
  else (((List.range 16).filter fun n => !s.pkg.failed.contains (.stack n)).map fun n =>
    32768 - 64 * strongBanks s n).foldl (· + ·) 0

/-- A write that sets ENABLE is refused (R66). -/
def enableRefused (s : State) (p : Nat) : Bool :=
  let qs := otherEnabled s p
  let quota (lo : Nat) : Nat := ((p :: qs).map fun q => (bits (s.partRec q 0x10) lo 32).toNat).foldl (· + ·) 0
  decide ((ownedSlices s p).length < 2) || (qs.any fun q => (ownedSlices s p).any (s.owns q)) ||
    (qs.any fun q => (vfsOf s p).any fun v => (vfsOf s q).contains v) ||
    decide (memoryUnits s false < quota 0) || decide (memoryUnits s true < quota 32)

/-- PARTITION_ENABLE (R66, R67, R385). -/
def execPartitionEnable (part : Nat) (s : State) : Out :=
  .next (
    if 64 ≤ part ∨ s.enabled part then s
    else if enableRefused s part then post s pfn 3 0x0321 0 0 0xFFFF
    else
      (s.setReg (0x1000 + 64 * part + 0x30) (s.partRec part 0x30 ||| 0x100000000)).modPart part fun x =>
        { x with
          account := (s.partRec part 0x20).toNat, enabled := true, creditAt := s.now, clockOff := 0, copying := false,
          ringshare := Part.reset.ringshare, ringIn := false })

/-- PARTITION_KILL (R65, R415). -/
def execPartitionKill (part : Nat) (s : State) : Out := .next (if s.enabled part then killPart s part else s)

end Sys2Proof.Machine
end

