-- ==== Sys2Proof/Machine/Package.lean ====
section
/-! DEFINITION. The package: resets and boot (R22-R24), readiness, folds and splits (R11-R20), pre-emption,
restoration, tests and migration (R404-R408), errors of memory (R209, R413), writes of registers (R3, R21). -/

namespace Sys2Proof.Machine

/-! ## The readiness map (R19, R20) -/

/-- The words of the readiness map. -/
def Pkg.word0 (pk : Pkg) : W64 :=
  (0 : BitVec 20) ++ b1 pk.split ++ b1 pk.folded ++ pk.cxlrdy ++ pk.hostrdy ++ pk.brgrdy ++ pk.stkrdy ++ pk.segrdy

def Pkg.word1 (pk : Pkg) : W64 := (0 : BitVec 28) ++ pk.fabrdy

/-- A change of the package; an update of the map raises RDYSEQ, once for all changes of one cycle (R20). -/
def modPkg (s : State) (f : Pkg → Pkg) : State :=
  let pk := f s.pkg
  let changed := pk.word0 != s.pkg.word0 || pk.word1 != s.pkg.word1
  if changed && s.pkg.rdyAt != s.now + 1 then { s with pkg := { pk with rdyseq := pk.rdyseq + 1, rdyAt := s.now + 1 } }
  else { s with pkg := pk }

def putBit {w : Nat} (x : BitVec w) (n : Nat) (v : Bool) : BitVec w :=
  let m : BitVec w := (1 : BitVec w) <<< n
  if v then x ||| m else x &&& ~~~m

/-- The readiness bit of a function (R19). -/
def Pkg.setReady (pk : Pkg) (f : Func) (v : Bool) : Pkg :=
  match f with
  | .segment n => { pk with segrdy := putBit pk.segrdy n v }
  | .stack n => { pk with stkrdy := putBit pk.stkrdy n v }
  | .bridge n => { pk with brgrdy := putBit pk.brgrdy n v }
  | .host n => { pk with hostrdy := putBit pk.hostrdy n v }
  | .cxl n => { pk with cxlrdy := putBit pk.cxlrdy n v }
  | .fabric n => { pk with fabrdy := putBit pk.fabrdy n v }

/-- The segment that a function belongs to, or that a bridge starts from (R9, R15, R17). -/
def funcSeg : Func → Nat
  | .segment n => n
  | .stack n => n / 2
  | .bridge n => n
  | .host n => hostSeg n
  | .cxl n => match n / 2 with | 0 => 0 | 1 => 3 | 2 => 4 | _ => 7
  | .fabric n => fabricSeg n

/-- How many functions there are of its kind (R15-R19). -/
def funcThere : Func → Bool
  | .segment n => decide (n < 8)
  | .stack n => decide (n < 16)
  | .bridge n => decide (n < 8)
  | .host n => decide (n < 2)
  | .cxl n => decide (n < 8)
  | .fabric n => decide (n < 36)

/-- The functions of the package. -/
def allFuncs : List Func :=
  (List.range 8).map .segment ++ (List.range 16).map .stack ++ (List.range 8).map .bridge ++ (List.range 2).map .host ++
    (List.range 8).map .cxl ++ (List.range 36).map .fabric

/-- A function cannot be ready: it has failed, its segment is dead, a bridge joins a dead segment, or the firmware was
rejected (R11, R24). -/
def Pkg.down (pk : Pkg) (f : Func) : Bool :=
  pk.failed.contains f || pk.bootState == 3 || bit pk.deadSeg (funcSeg f) ||
    (match f with
     | .bridge n => !bridgeUp pk n
     | _ => false)

/-- A function's bit of the map reads zero whatever its unit does: it is down, or the package controller cannot reach it
(R11, R14, R24). -/
def Pkg.outOfReach (pk : Pkg) (f : Func) : Bool := pk.down f || !reachable pk (controlSeg pk) (funcSeg f)

/-- The bit of a function in the map (R19). -/
def Pkg.isReady (pk : Pkg) (f : Func) : Bool :=
  match f with
  | .segment n => bit pk.segrdy n
  | .stack n => bit pk.stkrdy n
  | .bridge n => bit pk.brgrdy n
  | .host n => bit pk.hostrdy n
  | .cxl n => bit pk.cxlrdy n
  | .fabric n => bit pk.fabrdy n

/-- FUNCTION_READY (R18, R19): one in a piece that the package controller does not reach is ready there alone (R14)
(DEDUCED, log 86). -/
def execFunctionReady (f : Func) (s : State) : Out :=
  .next (
    if !funcThere f || s.pkg.down f then s
    else if s.pkg.outOfReach f then
      (if s.pkg.cut.contains f then s else retryHeld { s with pkg := { s.pkg with cut := s.pkg.cut ++ [f] } })
    else retryHeld (modPkg s fun pk => pk.setReady f true))

/-! ## Failures (R11-R14, R18) -/

/-- Live segments that a segment can reach, itself among them. -/
def pieceOf (pk : Pkg) (a : Nat) : List Nat := (List.range 8).filter (reachable pk a)

/-- The live segments stand in more than one piece (R14). -/
def isSplit (pk : Pkg) : Bool :=
  match (List.range 8).filter fun x => !bit pk.deadSeg x with
  | [] => false
  | a :: r => r.any fun b => !reachable pk a b

/-- A partition cannot go on: it has a core or a home on a dead segment, or in more than one piece (R13, R14). -/
def partLost (s : State) (p : Nat) : Bool :=
  let segs := partSegs s p
  s.enabled p && segs.any fun a => segs.any fun b => !reachable s.pkg a b

/-- Ranks with a member behind a fabric port that no longer works fail (R382, R384). -/
def failRoutes (s : State) : State :=
  s.modRank (fun x => !x.remote && x.matched && x.failed.isNone && !x.closed &&
    match collSize s x.key.part x.key.group with
    | some r => (remoteRanks s x.key.part x.key.group r).any fun n => !routeUp s (segOf x.core) x.key.part x.key.group n
    | none => false) fun x => { x with failed := some 0x0406 }

/-- SPLIT is set where the line is split; every function that is down or out of the controller's reach has its bit
cleared, and one that is ready in another piece stays ready there (R11, R14). -/
def Pkg.settle (pk : Pkg) : Pkg :=
  let pk := { pk with split := pk.split || isSplit pk }
  let away := allFuncs.filter fun f => pk.isReady f && pk.outOfReach f && !pk.down f
  let pk := { pk with cut := (pk.cut ++ away).filter fun f => !pk.down f }
  (allFuncs.filter pk.outOfReach).foldl (fun q f => q.setReady f false) pk

/-- A bridge or segment fails: readiness, SPLIT, partitions that end, collectives that stop until they agree, and the
fold that begins (R11-R14, R384) (DEDUCED, log 86). -/
def failAndFold (s : State) (f : Pkg → Pkg) : State :=
  let s := modPkg s fun pk => (f { pk with folding := true }).settle
  let s := ((List.range 64).filter (partLost s)).foldl killPart s
  failRoutes (s.modRank (fun x => x.takesPart && !x.closed) fun x => { x with agreeing := true })

/-- BRIDGE_FAILURE (R11, R14). A bridge that already joins a dead segment carries no traffic: that it fails is recorded,
with no fold and no change of SPLIT (DESIGN CHOICE, log 86). -/
def execBridgeFailure (b : Nat) (s : State) : Out :=
  .next (
    if 8 ≤ b ∨ bit s.pkg.deadBr b then s
    else if !bridgeUp s.pkg b then { s with pkg := { s.pkg with deadBr := putBit s.pkg.deadBr b true } }
    else failAndFold s fun pk => { pk with deadBr := putBit pk.deadBr b true })

/-- SEGMENT_FAILURE (R11, R13, R14). -/
def execSegmentFailure (y : Nat) (s : State) : Out :=
  .next (
    if 8 ≤ y ∨ bit s.pkg.deadSeg y then s
    else failAndFold s fun pk => { pk with deadSeg := putBit pk.deadSeg y true })

/-- A stack or a port has failed. -/
def Pkg.fails (pk : Pkg) (f : Func) : Pkg :=
  ({ pk with failed := pk.failed ++ [f], cut := pk.cut.filter (· != f) }).setReady f false

/-- FUNCTION_FAILURE (R18, R322, R382): of a stack or a port; bridges and segments have steps of their own. -/
def execFunctionFailure (f : Func) (s : State) : Out :=
  .next (
    if !funcThere f || s.pkg.failed.contains f then s
    else
      match f with
      | .segment _ | .bridge _ => s
      | .stack n =>
        let s := modPkg s fun pk => pk.fails f
        let hit := s.replicas.filter fun r => r.stack == n && r.st != .draining
        hit.foldl (fun s r =>
          let s' := match leafOf s r.part (r.page * 65536) with
            | some (_, l) => startDraining s r.part r.page l fun x => x.stack == n
            | none => { s with replicas := s.replicas.map fun x => if x == r then { x with st := .draining } else x }
          answerIfPlaced s' r.part r.page) s
      | _ => failRoutes (modPkg s fun pk => pk.fails f))

/-! ## Resets and boot (R22-R24) -/

/-- Every enabled partition is killed, its append and sealed pages freed, at a reset as well (R415) (DEDUCED, log 20). -/
def killAll (s : State) : State := ((List.range 64).filter s.enabled).foldl killPart s

/-- A line of an L1 as a warm reset keeps it: the words that its core owned are gone with the kill (R23, R415)
(DEDUCED, log 20). -/
def L1Line.kept (l : L1Line) : L1Line := { l with v := l.v &&& ~~~l.own, dty := 0, own := 0 }

/-- What a warm reset clears and keeps (R23) (DEDUCED, log 20). -/
def warmReset (s : State) : State :=
  let l1 (n : Nat) : List L1Line := (s.core n).l1.map L1Line.kept
  let s := killAll s
  { s with
    pkg := { s.pkg with warmWaits := false },
    fns := [], parts := [], invs := [], posted := [], priWait := [], shoots := [], serving := [], asks := [], freeing := [], bars := [], phases := [], ranks := [], expired := [], rfrozen := [],
    cores := s.cores.map fun (n, c) => (n, { Core.reset with outOfUse := c.outOfUse, l1 := l1 n }) }

/-- WARM (R22, R23): during a fold it waits for the fold's end. -/
def execWarm (s : State) : Out :=
  .next (if s.pkg.folding then { s with pkg := { s.pkg with warmWaits := true } } else warmReset s)

/-- COLD (R22, R23): everything as after a cold reset but for the contents of memory. -/
def execCold (s : State) : Out :=
  .next (
    let s := killAll s
    { State.reset with agenda := s.agenda, fresh := s.fresh, mem := s.mem, tags := s.tags, poison := s.poison })

/-- FIRMWARE_VERIFY (R24): the outcome of both signatures and of the version (DESIGN CHOICE, log 95). Where a signature
fails and the version is below the counter as well, REASON names the signature (DESIGN CHOICE, log 95). -/
def execFirmwareVerify (ed ml version : Bool) (s : State) : Out :=
  .next (
    if 2 ≤ s.pkg.bootState.toNat then s
    else if ed && ml && version then { s with pkg := { s.pkg with bootState := 2, bootReason := 0 } }
    else
      let reason : BitVec 4 := if !ed && !ml then 3 else if !ed then 1 else if !ml then 2 else 4
      modPkg s fun pk => ({ pk with bootState := 3, bootReason := reason }).settle)

/-- FOLD_COMPLETE (R11, R12, R14, R23). -/
def execFoldComplete (s : State) : Out :=
  .next (
    if !s.pkg.folding then s
    else
      let s := modPkg s fun pk => { pk with folding := false, folded := true }
      if s.pkg.warmWaits then warmReset s else s)

/-! ## Pre-emption (R172, R404-R406) -/

/-- PREEMPT_REQUEST (R172, R404): of a core group with its gang. -/
def execPreemptRequest (core : Nat) (s : State) : Out :=
  .next (match s.grp? core with
  | none => s
  | some g =>
    if g.st != .running then s
    else (gangCores s core g).foldl (fun s c => s.modCore c fun x => { x with preq := true }) s)

/-- No group of a core group's gang has an open window of NOPRE: a gang is pre-empted as a whole, so the request waits
for all of them (R172, R406). -/
def gangWindowsShut (s : State) (core : Nat) (g : Group) : Bool :=
  (gangCores s core g).all fun c => match s.grp? c with
    | some h => !h.nopreOpen (s.clock c h.clockOff)
    | none => true

/-- Every write of a core, and of its engines, has been performed (R251, R332). -/
def writesDone (s : State) (core : Nat) : Bool := acked s core && hostDone s core && engineQuiet s core

/-- A core group as its shadow pool takes it: the ring-engine entry that has started stays with the engine (R370, R405). -/
def Group.toShadow (g : Group) (started : Bool) : Group :=
  { g.saved with nopre := none, rq := if started then g.rq.drop 1 else g.rq, rqBusy := false }

/-- A halted group is saved to its shadow pool once its engines are done; its entry stays in CUR (R72, R403) (DEDUCED, log
70). -/
def saveHalted (s : State) (core : Nat) (g : Group) : State :=
  if !enginesDone s g then s
  else if !g.quiet then quietGroup s core
  else
    let s := flushL1 s g.part core
    if !writesDone s core || (s.core core).shadow.isSome then s
    else s.modCore core fun c => { c.vacate with
      cur := c.cur, curempty := false, stopped := true, shadow := some (g.toShadow false) }

/-- A core group moves to its core's shadow pool, once everything of it has stopped and all it wrote is performed (R332,
R404, R405). -/
def saveGroup (s : State) (core : Nat) : State :=
  let s := quietGroup (endRuns s core) core
  match s.grp? core with
  | none => s
  | some g =>
    if !g.quiet || !g.mx.between || (s.core core).shadow.isSome then s
    else
      let s := flushL1 s g.part core
      if !writesDone s core then s
      else
        let started := (s.rankAt core).isSome
        s.modCore core fun c => { c.vacate with shadow := some (g.toShadow started), testDue := false, testing := c.testDue }

/-- PREEMPT_SAVE (R404, R405). -/
def execPreemptSave (core : Nat) (s : State) : Out :=
  .next (match s.grp? core with
  | none => s
  | some g =>
    let c := s.core core
    match g.st with
    | .halted => saveHalted s core g
    | .running =>
      if !(c.preq || c.testDue) || !gangWindowsShut s core g then s else saveGroup s core
    | _ => s)

/-- SHADOW_POOL_EVICT (R406): the saved context moves to the context-save area. -/
def execShadowPoolEvict (core : Nat) (s : State) : Out :=
  .next (match (s.core core).shadow with
  | none => s
  | some g =>
    (s.modCore core fun c => { c with shadow := none }).modPart g.part fun x => { x with csa := x.csa ++ [g] })

/-- A saved drain goes on with its next micro-tiles (R302). -/
def Matrix.resumed (m : Matrix) : Matrix :=
  match m.drain, runningItem m.q MqCmd.isDrain with
  | some d, some (_, x) => match x.cmd with
    | .mdrain b => { m with drain := some (issueTiles m b d) }
    | _ => m
  | _, _ => m

/-- A saved core group comes back to a core (R406): its context's windows as they now are, its L1 empty. -/
def putBack (s : State) (core : Nat) (g : Group) : State :=
  let no := (s.part g.part).bindSeq
  let g := { g with
    lseg := (s.logSeg g.part (segOf core)).getD g.lseg, mx := g.mx.resumed, bindNo := no,
    rqBusy := (s.runningAt core).isSome }
  let s := s.modPart g.part fun x =>
    { x with
      bindSeq := no + 1,
      launches := x.launches.map fun l => if l.lid == g.lid then l.placeAt g.linear core else l }
  s.modCore core fun c =>
    { c with
      cur := g.bind, curempty := false, stopped := false, grp := some g, shadow := none, icache := [], l1 := [],
      misses := [], fills := [], run0 := none, run1 := none, preq := false,
      wins := ctxWins s g.part g.ctxid, ctxperm := ctxDw s g.part g.ctxid 0x20 }

/-- A place of a core group: its indices and a core. -/
def Group.placedAt (g : Group) (core : Nat) : (Nat × Nat × Nat) × Nat :=
  let (a, b, c, _) := indicesOf g.lrec g.linear
  ((a, b, c), core)

/-- Where the members of a group's gang stand that are on cores. -/
def gangStanding (s : State) (g : Group) : List ((Nat × Nat × Nat) × Nat) :=
  s.cores.filterMap fun (n, c) =>
    match c.grp with
    | some h => if sameGang g h then some (h.placedAt n) else none
    | none => none

/-- A core may take a saved group of a partition that is not halted (R403), beside where the other groups of its launch have been placed, and apart
from the members of its gang that are back (R18, R68, R73, R92). -/
def takesSaved (s : State) (core : Nat) (g : Group) : Bool :=
  let at_ := (s.launch? g.part g.lid).map fun l => l.placeAt g.linear core
  g.st == .running && freeCore s g.part core && togetherOk ((at_.map launchPlaces).getD []) &&
    apartOk (g.placedAt core :: gangStanding s g)

/-- A gang of a better class waits and could be placed (R69). -/
def betterWaits (s : State) (g : Group) : Bool :=
  (bindOrder s g.part).any fun l => decide (recQos l.lrec < g.bind.qos) && (firstPlacement s g.part (freeCore s g.part) l).isSome

/-- RESTORE (R70, R406): from the core's own shadow pool, or the group at a position of a partition's context-save
area, named as partition + 64 × position. -/
def execRestore (core : Nat) (fromArea : Option Nat) (s : State) : Out :=
  .next (match fromArea with
  | none =>
    match (s.core core).shadow with
    | none => s
    | some g => if takesSaved s core g && !betterWaits s g then putBack s core g else s
  | some n =>
    let p := n % 64
    let i := n / 64
    match (s.part p).csa[i]? with
    | none => s
    | some g =>
      if takesSaved s core g && (s.core core).shadow.isNone && !betterWaits s g then
        putBack (s.modPart p fun x => { x with csa := x.csa.take i ++ x.csa.drop (i + 1) }) core g
      else s)

/-! ## In-field tests (R407) -/

/-- A Q0 gang of a partition waits for cores. -/
def q0Waits (s : State) (p : Nat) : Bool :=
  (bindOrder s p).any fun l => recQos l.lrec == 0 && (firstPlacement s p (freeCore s p) l).isNone

/-- The partition that owns the core's slice has a Q0 gang that waits: no test starts on the core. -/
def testBarred (s : State) (core : Nat) : Bool :=
  (List.range 64).any fun p => s.enabled p && s.owns p (core / 4) && q0Waits s p

/-- INFIELD_TEST_DUE (R407). -/
def execInfieldTestDue (core : Nat) (s : State) : Out :=
  .next (
    let c := s.core core
    if c.testing || c.testDue || c.outOfUse || c.nxt.valid || decide (512 ≤ core) then s
    else
      match c.grp with
      | none => if testBarred s core then s else s.modCore core fun c => { c with testing := true }
      | some g =>
        if g.st != .running || q0Waits s g.part then s
        else
          let s := (gangCores s core g).foldl (fun s k => s.modCore k fun x => { x with preq := true }) s
          s.modCore core fun c => { c with preq := false, testDue := true })

/-- INFIELD_TEST_END (R407): the group comes back, or the core is taken out of use and the group waits elsewhere. -/
def execInfieldTestEnd (core : Nat) (pass : Bool) (s : State) : Out :=
  .next (
    if !(s.core core).testing then s
    else if pass then
      let s := s.modCore core fun c => { c with testing := false }
      match (s.core core).shadow with
      | some g => if takesSaved s core g then putBack s core g else s
      | none => s
    else
      let s := match (s.core core).shadow with
        | some g => (s.modCore core fun c => { c with shadow := none }).modPart g.part fun x => { x with csa := x.csa ++ [g] }
        | none => s
      post (s.modCore core fun c => { c with testing := false, outOfUse := true }) pfn 3 0x0327 0 0 0xFFFF)

/-! ## Live migration (R236, R408) -/

/-- DIRTY is cleared in every leaf of the partition (R86, R408). -/
def clearDirty (s : State) (p : Nat) : State :=
  let ls := (List.range 8).flatMap fun seg => leavesGo s.mem seg 4 1 (bits (s.trans p (0x10 + 8 * seg)) 0 53).toNat
  { s with mem := ls.foldl (fun m l => memWrite64 (l.at_ + 8) (memRead64 m (l.at_ + 8) &&& ~~~0x200000000) m) s.mem }

/-- Page requests of a context that has migrated are dropped (R236): what waits for their pages starts again, and asks
anew. -/
def restartHost (s : State) (p : Nat) : State :=
  (s.serving.filter fun x => x.1 == p && (kindOf s p x.2 == 1 || kindOf s p x.2 == 2)).foldl (fun s x => servePage s p x.2) s

/-- The groups of a partition stand in memory, and resume elsewhere (R408). The move takes a number of cycles that is not
fixed; the package that the partition resumes on counts on from this one's, so that an offset of zero keeps every CLOCK
from decreasing and the same on all cores of a segment (R156) (DEDUCED, log 84). -/
def migrateNow (s : State) (p : Nat) : State :=
  let mine (g : Group) : Bool := g.part == p
  let moved := (s.cores.filterMap fun (_, c) => c.shadow).filter mine
  let all := (s.part p).csa ++ moved
  let gone := s.replicas.filter fun r => r.part == p
  let frames := gone.flatMap fun r =>
    frameList r.frame (match leafOf s p (r.page * 65536) with | some (_, l) => l.size | none => 65536)
  let s := gone.foldl (fun s r =>
    match r.st, leafOf s p (r.page * 65536) with
    | .live, some (_, l) => lowerRepl s l 1
    | _, _ => s) s
  let s := clearDirty (raiseGens s p) p
  let by_ := (bits (Config.freeWord s.fresh) 0 32).toNat
  let s := { s with
    fresh := s.fresh + 1,
    repSets := s.repSets.filter fun r => r.part != p,
    l2 := s.l2.filter fun l => l.part != p,
    cores := s.cores.map fun (n, c) => (n, Core.dropShadow c mine),
    replicas := s.replicas.filter fun r => r.part != p,
    frames := s.frames.filter fun f => !(f.2 == p && frames.contains f.1),
    hot := s.hot.filter fun h => h.part != p,
    priWait := s.priWait.filter fun x => x.part != p,
    ats := s.ats.filter fun a => a.part != p }
  restartHost ((s.passTo (s.now + by_)).modPart p fun x => { x with csa := all, copying := false }) p

/-- LIVE_MIGRATION (R408): DIRTY is cleared and the frames are copied while the partition runs; as the event comes again
every group is pre-empted; and once running collectives have ended the partition moves (DEDUCED, log 84). -/
def execLiveMigration (part : Nat) (s : State) : Out :=
  .next (
    let on := s.cores.filter fun (_, c) => match c.grp with | some g => g.part == part && g.st == .running | none => false
    if !s.enabled part then s
    else if !(s.part part).copying then (clearDirty s part).modPart part fun x => { x with copying := true }
    else if on.any fun (_, c) => !c.preq then
      on.foldl (fun s (n, _) => s.modCore n fun x => { x with preq := true }) s
    else if !on.isEmpty || (s.ranks.any fun x => x.key.part == part) then s
    else migrateNow s part)

/-! ## Errors of device memory (R209, R413) -/

/-- Adds to a count of 32 bits that saturates. -/
def bump32 (n : Nat) : Nat := min (2 ^ 32 - 1) (n + 1)

/-- CECNT or UECNT rises. -/
def countError (s : State) (stack : Nat) (ue : Bool) : State :=
  let v := (s.reg (errReg stack 0x10)).toNat
  let lo := v % 2 ^ 32
  let hi := v / 2 ^ 32
  s.setReg (errReg stack 0x10) (BitVec.ofNat 64 (if ue then lo + 2 ^ 32 * bump32 hi else bump32 lo + 2 ^ 32 * hi))

/-- The bank of a granule (DESIGN CHOICE, log 17). -/
def bankOf (stack gr : Nat) : Nat := 32 * stack + Config.bankOf gr % 32

/-- An error of a granule of a stack: corrected and counted, or marked poisoned (R209, R413). One that an expander of the
second tier, the host or a peer returns as poisoned is uncorrectable, and counted by no stack. -/
def upset (s : State) (addr : Nat) (ue : Bool) : State :=
  let stack := stackOf addr
  let gr := addr / 32
  if !onStack addr || decide (2 ^ 56 ≤ addr) then
    (if ue && !s.poison.contains gr then { s with poison := s.poison ++ [gr] } else s)
  else if !ue then
    let s := countError s stack false
    { s with banks := (s.banks.filter fun b => decide (512 ≤ b.1) || decide (s.now < b.2 + 2 ^ 30)) ++ [(bankOf stack gr, s.now)] }
  else
    let s := (countError s stack true).setReg (errReg stack 0x20) (BitVec.ofNat 64 (gr * 32 % 2 ^ 53))
    if s.poison.contains gr then s
    else
      let n := bump32 (s.reg (errReg stack 0x18)).toNat
      { s.setReg (errReg stack 0x18) (BitVec.ofNat 64 n) with poison := s.poison ++ [gr] }

/-- Corrected errors of a bank within 2^30 cycles. -/
def bankErrors (s : State) (k : Nat) : Nat := (s.banks.filter fun b => b.1 == k && decide (s.now < b.2 + 2 ^ 30)).length

/-- CE_THRESHOLD (R413): re-encoding begins; the frames that it needs are moved by migrations. -/
def execCeThreshold (stack bank : Nat) (s : State) : Out :=
  .next (
    let k := 32 * stack + bank
    let thr := (bits (s.reg (errReg stack 0)) 0 16).toNat
    if 16 ≤ stack ∨ 32 ≤ bank ∨ thr = 0 ∨ bankErrors s k < thr ∨ bit (s.reg (errReg stack 8)) bank ∨
        s.banks.any (fun b => b.1 == 512 + k) then s
    else { s with banks := s.banks ++ [(512 + k, s.now)] })

/-- One more bank of the stack can give up 1/16 of its frames: those in use, moved where they must be, leave room on the
stack, and the quotas of the enabled partitions stay within the memory that is left (DEDUCED, log 17). -/
def reencodeFits (s : State) (stack : Nat) : Bool :=
  decide (usedOn s stack + 2048 * (strongBanks s stack + 1) ≤ 0x100000) &&
    decide ((((List.range 64).filter s.enabled).map fun q => (bits (s.partRec q 0x10) 0 32).toNat).foldl (· + ·) 0 + 64 ≤
      memoryUnits s false)

/-- REENCODE_DONE (R413): the bank runs under the stronger code, 1/16 of its frames freed, or is deferred where they cannot
be. -/
def execReencodeDone (stack bank : Nat) (freed : Bool) (s : State) : Out :=
  .next (
    let k := 512 + 32 * stack + bank
    if !(s.banks.any fun b => b.1 == k) || decide (16 ≤ stack) || decide (32 ≤ bank) then s
    else if freed != reencodeFits s stack then s
    else if freed then
      let s := { s with banks := s.banks.filter fun b => b.1 != k }
      post (s.setReg (errReg stack 8) (putBit (s.reg (errReg stack 8)) bank true)) pfn 3 0x0328 0 0 0xFFFF
    else post s pfn 3 0x0329 0 0 0xFFFF)

/-- CLRCNT (R413). -/
def execClrcnt (stack : Nat) (s : State) : Out :=
  .next (if stack < 16 then (s.setReg (errReg stack 0x10) 0).setReg (errReg stack 0x18) 0 else s)

/-! ## Register writes (R3, R21, R52, R92, R130, R292, R371, R398) -/

/-- A VF's write of what only the PF may write is dropped and reported (R22, R130, R292, R398, R410) (DEDUCED,
log 87). -/
def reportVf (s : State) (vf off : Nat) : State :=
  let a := BitVec.ofNat 64 off
  post (post s pfn 4 0x0012 0 a 0xFFFF) vf 4 0x0012 0 a 0xFFFF

/-- A write of a partition's block by a function. -/
def writeBlock (s : State) (fn part off : Nat) (v : W64) : State :=
  if 64 ≤ part ∨ !isFn fn then s
  else if fn = pfn then s.setReg off v
  else reportVf s fn off

/-- AGETHR_WRITE (R130). -/
def execAgethrWrite (fn part : Nat) (v : W64) (s : State) : Out :=
  .next (writeBlock s fn part (0xE400 + 16 * part) (v &&& 0xFFFF))

/-- MBUDGET_WRITE (R292). -/
def execMbudgetWrite (fn part : Nat) (v : W64) (s : State) : Out :=
  .next (writeBlock s fn part (0xE800 + 16 * part) (v &&& 0xFFFFFFFF))

/-- TVEC_WRITE (R398). -/
def execTvecWrite (fn part : Nat) (v : W64) (s : State) : Out :=
  .next (writeBlock s fn part (0xE000 + 16 * part) (v &&& ~~~6))

/-- RESET_WRITE_FROM_VF (R22). -/
def execResetWriteFromVf (vf : Nat) (v : W64) (s : State) : Out :=
  .next (let _ := v; if vf < 1024 then reportVf s vf 0x18 else s)

/-- The state of a step that never stops. -/
def nextOf (d : State) : Out → State
  | .next s => s
  | _ => d

/-- A write of a queue register (R52); a queue context is needed to set SQEN and MQEN (R82). -/
def writeQueueReg (s : State) (fn off : Nat) (v : W64) : State :=
  let ctx := (queueCtx s fn).isSome
  let w : W32 := bits v 0 32
  match off with
  | 0x00 => s.modFn fn fun f => { f with sqbase := v }
  | 0x08 => s.modFn fn fun f => { f with sqlog := bits v 0 4, sqen := bit v 4 && ctx }
  | 0x10 => nextOf s (execSubmissionDoorbell fn w s)
  | 0x20 => s.modFn fn fun f => { f with mqbase := v }
  | 0x28 => flushHeld 17 (s.modFn fn fun f => { f with mqlog := bits v 0 4, mqen := bit v 4 && ctx }) fn
  | 0x30 => nextOf s (execMqheadWrite fn w s)
  | 0x40 =>
    let s := if bit v 0 then nextOf s (execSqerrClear fn s) else s
    let s := if bit v 1 then nextOf s (execMqlostClear fn s) else s
    if bit v 2 then nextOf s (execCqerrClear fn s) else s
  | 0x48 => s.modFn fn fun f => { f with cqbase := v }
  | 0x50 => runCq (s.modFn fn fun f => { f with cqlog := bits v 0 4, cqen := bit v 4 }) fn
  | 0x58 => nextOf s (execCommandDoorbell fn w s)
  | _ => s

/-- Writable bits of a dword of a partition record (R66). -/
def partMask (o : Nat) : W64 :=
  match o with
  | 0x18 => 0x3FFFF | 0x30 => 0x1FFFFF | 0x38 => 0 | _ => 0xFFFFFFFFFFFFFFFF

/-- Writable bits of a dword of a translation block (R92). -/
def transMask (o : Nat) : W64 :=
  match o with
  | 0x00 | 0x58 | 0x68 => 0xFFFFFFFFFFFFFF
  | 0x08 | 0x50 => 0xFFFFFFFF
  | 0x60 => 0xFFFF
  | 0x70 | 0x78 => 0
  | _ => 0x1FFFFFFFFFFFFF

/-- A write of a partition record (R65, R66). -/
def writePartReg (s : State) (off : Nat) (v : W64) : State :=
  let p := (off - 0x1000) / 64
  let o := off % 64
  if s.enabled p then (if o = 0x30 ∧ !bit v 32 then nextOf s (execPartitionKill p s) else s)
  else
    let s := s.setReg off (v &&& partMask o)
    if o = 0x30 ∧ bit v 32 then nextOf s (execPartitionEnable p s) else s

/-- A write of the management block by the PF (R21). -/
def writePmb (s : State) (off : Nat) (v : W64) : State :=
  if off = 0x18 then (if bit v 1 then nextOf s (execCold s) else if bit v 0 then nextOf s (execWarm s) else s)
  else if 0x1000 ≤ off ∧ off < 0x2000 then writePartReg s off v
  else if 0x3000 ≤ off ∧ off < 0x5000 then
    (if s.enabled ((off - 0x3000) / 128) ∧ off % 128 ≠ 8 then s else s.setReg off (v &&& transMask (off % 128)))
  else if 0x5000 ≤ off ∧ off < 0xD000 then
    (if s.enabled ((off - 0x5000) / 512) then s else s.setReg off (v &&& 0xBFBFBFBFBFBFBFBF))
  else if 0xD000 ≤ off ∧ off < 0xD400 then
    (if off % 64 = 0 then s.setReg off (v &&& 0xFFFF)
     else if off % 64 = 0x28 ∧ bit v 0 then nextOf s (execClrcnt ((off - 0xD000) / 64) s) else s)
  else if 0xE000 ≤ off ∧ off < 0xE400 then
    (if off % 16 = 0 then nextOf s (execTvecWrite pfn ((off - 0xE000) / 16) v s) else s)
  else if 0xE400 ≤ off ∧ off < 0xE800 then
    (if off % 16 = 0 then nextOf s (execAgethrWrite pfn ((off - 0xE400) / 16) v s) else s)
  else if 0xE800 ≤ off ∧ off < 0xEC00 then
    (if off % 16 = 0 then nextOf s (execMbudgetWrite pfn ((off - 0xE800) / 16) v s) else s)
  else if 0x10000 ≤ off ∧ off < 0x10100 then writeQueueReg s pfn (off - 0x10000) v
  else if 0x20000 ≤ off ∧ off < 0x40000 then
    (if s.enabled ((off - 0x20000) / 0x800) then s
     else s.setReg off (v &&& (if off % 128 = 0 then 0x1F else 0x1FFFF)))
  else s

/-- REGISTER_WRITE (R3, R21, R52, R72): a dword written by a function at an offset of its BAR 0, or by the controller of
segment `fn - 1025` in its local register space. A register with a step of its own takes that step (DEDUCED, log
88) (DEDUCED, log 103). -/
def execRegisterWrite (fn off : Nat) (v : W64) (s : State) : Out :=
  .next (
    if off % 8 ≠ 0 ∨ 1025 + 8 ≤ fn then s
    else if pfn < fn then
      (if 0x40000 ≤ off ∧ off < 0x42000 then writeSlot s (64 * (fn - 1025) + (off - 0x40000) / 128) (off % 128) v else s)
    else if fn = pfn then writePmb s off v
    else writeQueueReg s fn off v)

/-! ## Register reads (R3, R21, R52, R72) -/

/-- A read of a queue register (R52). -/
def Fn.readReg (f : Fn) (off : Nat) : W64 :=
  let cfg (log : BitVec 4) (en : Bool) : W64 := (0 : BitVec 59) ++ b1 en ++ log
  match off with
  | 0x00 => f.sqbase
  | 0x08 => cfg f.sqlog f.sqen
  | 0x10 => f.sqtail.setWidth 64
  | 0x18 => f.sqhead.setWidth 64
  | 0x20 => f.mqbase
  | 0x28 => cfg f.mqlog f.mqen
  | 0x30 => f.mqhead.setWidth 64
  | 0x38 => f.mqtail.setWidth 64
  | 0x40 => (0 : BitVec 48) ++ f.lostcnt ++ (0 : BitVec 5) ++ b1 f.cqerr ++ b1 f.mqlost ++ b1 f.sqerr
  | 0x48 => f.cqbase
  | 0x50 => cfg f.cqlog f.cqen
  | 0x58 => f.cqtail.setWidth 64
  | 0x60 => f.cqhead.setWidth 64
  | _ => 0

/-- An offset of the management block whose dword stands as it was written last (R21); of a stack error block those below
CLRCNT, which is write-only (R413). -/
def pmbListed (off : Nat) : Bool :=
  (decide (0x1000 ≤ off) && decide (off < 0x2000)) || (decide (0x3000 ≤ off) && decide (off < 0xD000)) ||
    (decide (0xD000 ≤ off) && decide (off < 0xD400) && decide (off % 64 < 0x28)) ||
    (decide (0xE000 ≤ off) && decide (off < 0xEC00)) || (decide (0x20000 ≤ off) && decide (off < 0x40000))

/-- A read of the management block (R19, R21, R22, R24, R52): what the block does not list, and what is write-only, reads
zero. -/
def readPmb (s : State) (off : Nat) : W64 :=
  if off = 0 then s.pkg.word0
  else if off = 8 then s.pkg.word1
  else if off = 0x10 then s.pkg.rdyseq.setWidth 64
  else if off = 0x20 then (0 : BitVec 56) ++ s.pkg.bootReason ++ s.pkg.bootState
  else if 0x10000 ≤ off ∧ off < 0x10100 then (s.fn pfn).readReg (off - 0x10000)
  else if pmbListed off then s.reg off
  else 0

/-- A read of a dword by a function at an offset of its BAR 0, or by a segment controller in its local register space
(R21, R52, R72). -/
def readRegister (s : State) (fn off : Nat) : W64 :=
  if pfn < fn then
    (if 0x40000 ≤ off ∧ off < 0x42000 ∧ fn < 1025 + 8 then (s.core (64 * (fn - 1025) + (off - 0x40000) / 128)).readSlot (off % 128) else 0)
  else if fn = pfn then readPmb s off
  else (s.fn fn).readReg off

end Sys2Proof.Machine
end

