-- ==== Sys2Proof/Machine/Dispatch.lean ====
section
/-! DEFINITION. One arm for each row of the opcode table. -/

namespace Sys2Proof.Machine

def exec (i : Instr) (s : State) : Host.Outcome State Fault Refusal :=
  match i with
  | .nop h => Sys2Proof.Machine.execNop h s
  | .iadd o => Sys2Proof.Machine.execIadd o s
  | .isub o => Sys2Proof.Machine.execIsub o s
  | .imul o => Sys2Proof.Machine.execImul o s
  | .imulhi o => Sys2Proof.Machine.execImulhi o s
  | .imad o => Sys2Proof.Machine.execImad o s
  | .imin o => Sys2Proof.Machine.execImin o s
  | .imax o => Sys2Proof.Machine.execImax o s
  | .iunary h op d ty sat a => Sys2Proof.Machine.execIunary h op d ty sat a s
  | .logic h op d ty a b => Sys2Proof.Machine.execLogic h op d ty a b s
  | .shift h op d ty a b => Sys2Proof.Machine.execShift h op d ty a b s
  | .bfx h d ty a b => Sys2Proof.Machine.execBfx h d ty a b s
  | .bfi h d ty a b c => Sys2Proof.Machine.execBfi h d ty a b c s
  | .perm h d a b c => Sys2Proof.Machine.execPerm h d a b c s
  | .sel h d ty a b c => Sys2Proof.Machine.execSel h d ty a b c s
  | .icmp h op d ty a b => Sys2Proof.Machine.execIcmp h op d ty a b s
  | .plogic h op d a b => Sys2Proof.Machine.execPlogic h op d a b s
  | .lea h d signed sh a b => Sys2Proof.Machine.execLea h d signed sh a b s
  | .mov h d w64 a => Sys2Proof.Machine.execMov h d w64 a s
  | .kset h d a => Sys2Proof.Machine.execKset h d a s
  | .sreg h d r => Sys2Proof.Machine.execSreg h d r s
  | .fmtq h d f => Sys2Proof.Machine.execFmtq h d f s
  | .ballot h op d a => Sys2Proof.Machine.execBallot h op d a s
  | .shuf h op d ty a b => Sys2Proof.Machine.execShuf h op d ty a b s
  | .redux h op d ty rnd a => Sys2Proof.Machine.execRedux h op d ty rnd a s
  | .scan h op d ty rnd a => Sys2Proof.Machine.execScan h op d ty rnd a s
  | .bra h t close => Sys2Proof.Machine.execBra h t close s
  | .brx h aux => Sys2Proof.Machine.execBrx h aux s
  | .call h t => Sys2Proof.Machine.execCall h t s
  | .callx h aux => Sys2Proof.Machine.execCallx h aux s
  | .ret h => Sys2Proof.Machine.execRet h s
  | .exit h => Sys2Proof.Machine.execExit h s
  | .yield h => Sys2Proof.Machine.execYield h s
  | .trap h aux => Sys2Proof.Machine.execTrap h aux s
  | .brk h aux => Sys2Proof.Machine.execBrk h aux s
  | .region y => Sys2Proof.Machine.execRegion y s
  | .nopreOpen h aux => Sys2Proof.Machine.execNopreOpen h aux s
  | .nopreShut h => Sys2Proof.Machine.execNopreShut h s
  | .eret h => Sys2Proof.Machine.execEret h s
  | .csrr h d c => Sys2Proof.Machine.execCsrr h d c s
  | .csrw h c a => Sys2Proof.Machine.execCsrw h c a s
  | .fadd o => Sys2Proof.Machine.execFadd o s
  | .fmul o => Sys2Proof.Machine.execFmul o s
  | .ffma o => Sys2Proof.Machine.execFfma o s
  | .fminmax h op d ty a b => Sys2Proof.Machine.execFminmax h op d ty a b s
  | .fcmp h op d ty a b => Sys2Proof.Machine.execFcmp h op d ty a b s
  | .funary h op d ty rnd a => Sys2Proof.Machine.execFunary h op d ty rnd a s
  | .fspec h op d ty a => Sys2Proof.Machine.execFspec h op d ty a s
  | .twosum h d a b => Sys2Proof.Machine.execTwosum h d a b s
  | .hadd2 o => Sys2Proof.Machine.execHadd2 o s
  | .hmul2 o => Sys2Proof.Machine.execHmul2 o s
  | .hfma2 o => Sys2Proof.Machine.execHfma2 o s
  | .cvt h d dst src rnd sat a => Sys2Proof.Machine.execCvt h d dst src rnd sat a s
  | .qpack h d a f => Sys2Proof.Machine.execQpack h d a f s
  | .qunpack h d q4 zp0 a b c => Sys2Proof.Machine.execQunpack h d q4 zp0 a b c s
  | .fclass h d ty a => Sys2Proof.Machine.execFclass h d ty a s
  | .pairWord y x z => Sys2Proof.Machine.execPairWord y x z s
  | .movi h d imm => Sys2Proof.Machine.execMovi h d imm s
  | .iaddi o => Sys2Proof.Machine.execIaddi o s
  | .andi o => Sys2Proof.Machine.execAndi o s
  | .ori o => Sys2Proof.Machine.execOri o s
  | .xori o => Sys2Proof.Machine.execXori o s
  | .ld h d m sz sx rt => Sys2Proof.Machine.execLd h d m sz sx rt s
  | .st h m b sz rt => Sys2Proof.Machine.execSt h m b sz rt s
  | .atom h op d m b sz sc => Sys2Proof.Machine.execAtom h op d m b sz sc s
  | .red h op m b sz sc => Sys2Proof.Machine.execRed h op m b sz sc s
  | .gather h d m b sz sx rt => Sys2Proof.Machine.execGather h d m b sz sx rt s
  | .scatter h m b sz rt => Sys2Proof.Machine.execScatter h m b sz rt s
  | .cst h m b sz rt => Sys2Proof.Machine.execCst h m b sz rt s
  | .pref h m sz rt => Sys2Proof.Machine.execPref h m sz rt s
  | .pginfo h d m => Sys2Proof.Machine.execPginfo h d m s
  | .tagset h m b sz => Sys2Proof.Machine.execTagset h m b sz s
  | .appendRes h d a b => Sys2Proof.Machine.execAppendRes h d a b s
  | .appendQuery h d a => Sys2Proof.Machine.execAppendQuery h d a s
  | .sealPlain h d a => Sys2Proof.Machine.execSealPlain h d a s
  | .sealBcast h d a => Sys2Proof.Machine.execSealBcast h d a s
  | .tailq h d a => Sys2Proof.Machine.execTailq h d a s
  | .fence h kind sc => Sys2Proof.Machine.execFence h kind sc s
  | .barSync h lv n => Sys2Proof.Machine.execBarSync h lv n s
  | .barArrive h d lv n => Sys2Proof.Machine.execBarArrive h d lv n s
  | .barWait h lv n b => Sys2Proof.Machine.execBarWait h lv n b s
  | .phaseAdv h => Sys2Proof.Machine.execPhaseAdv h s
  | .phaseWait h a b => Sys2Proof.Machine.execPhaseWait h a b s
  | .phaseRead h d a => Sys2Proof.Machine.execPhaseRead h d a s
  | .waitge h err sys a b => Sys2Proof.Machine.execWaitge h err sys a b s
  | .backoff h a => Sys2Proof.Machine.execBackoff h a s
  | .copy h q a => Sys2Proof.Machine.execCopy h q a s
  | .chain h q a => Sys2Proof.Machine.execChain h q a s
  | .qfence h mask b => Sys2Proof.Machine.execQfence h mask b s
  | .stgClaim h d ring => Sys2Proof.Machine.execStgClaim h d ring s
  | .stgFill h ring b => Sys2Proof.Machine.execStgFill h ring b s
  | .stgTake h d ring => Sys2Proof.Machine.execStgTake h d ring s
  | .stgFree h ring b => Sys2Proof.Machine.execStgFree h ring b s
  | .stgQuery h d ring => Sys2Proof.Machine.execStgQuery h d ring s
  | .mma h a => Sys2Proof.Machine.execMma h a s
  | .mdrain h a => Sys2Proof.Machine.execMdrain h a s
  | .mprec h wa wb => Sys2Proof.Machine.execMprec h wa wb s
  | .mstat h d r => Sys2Proof.Machine.execMstat h d r s
  | .mzero h bank => Sys2Proof.Machine.execMzero h bank s
  | .coll h a => Sys2Proof.Machine.execColl h a s
  | .cprog h d group b => Sys2Proof.Machine.execCprog h d group b s
  | .pipeChoose core pipe => Sys2Proof.Machine.execPipeChoose core pipe s
  | .resultLanding core id => Sys2Proof.Machine.execResultLanding core id s
  | .waitStoreRelease core tid => Sys2Proof.Machine.execWaitStoreRelease core tid s
  | .laneConvergence core gang => Sys2Proof.Machine.execLaneConvergence core gang s
  | .probeAnswer core id => Sys2Proof.Machine.execProbeAnswer core id s
  | .regionComplete core tid => Sys2Proof.Machine.execRegionComplete core tid s
  | .storeEntryRetry core tid => Sys2Proof.Machine.execStoreEntryRetry core tid s
  | .pageServed part page fw => Sys2Proof.Machine.execPageServed part page fw s
  | .faultDeclined part page => Sys2Proof.Machine.execFaultDeclined part page s
  | .pageWalk part ia => Sys2Proof.Machine.execPageWalk part ia s
  | .homeLoad core id => Sys2Proof.Machine.execHomeLoad core id s
  | .homeWrite core id => Sys2Proof.Machine.execHomeWrite core id s
  | .homeAtomic core id => Sys2Proof.Machine.execHomeAtomic core id s
  | .invalidation core line => Sys2Proof.Machine.execInvalidation core line s
  | .fillArrival core line => Sys2Proof.Machine.execFillArrival core line s
  | .recall core line => Sys2Proof.Machine.execRecall core line s
  | .writeBack core line => Sys2Proof.Machine.execWriteBack core line s
  | .hostSnoop part line => Sys2Proof.Machine.execHostSnoop part line s
  | .hostCxlMemAccess addr len data => Sys2Proof.Machine.execHostCxlMemAccess addr len data s
  | .atsInvalidation part page => Sys2Proof.Machine.execAtsInvalidation part page s
  | .priResponse idx code => Sys2Proof.Machine.execPriResponse idx code s
  | .accessTimeout core id => Sys2Proof.Machine.execAccessTimeout core id s
  | .shootdown part ia d0 d1 => Sys2Proof.Machine.execShootdown part ia d0 d1 s
  | .migrateRegion part ia seg stk fw => Sys2Proof.Machine.execMigrateRegion part ia seg stk fw s
  | .heldRequestMoved part ia => Sys2Proof.Machine.execHeldRequestMoved part ia s
  | .hotnessHalving => Sys2Proof.Machine.execHotnessHalving s
  | .sealAtHome core id => Sys2Proof.Machine.execSealAtHome core id s
  | .sealComplete part page => Sys2Proof.Machine.execSealComplete part page s
  | .replicaPlaced part page stack => Sys2Proof.Machine.execReplicaPlaced part page stack s
  | .replicaDrop part page stack => Sys2Proof.Machine.execReplicaDrop part page stack s
  | .replicaDrained part page stack => Sys2Proof.Machine.execReplicaDrained part page stack s
  | .copyEntryStart core q => Sys2Proof.Machine.execCopyEntryStart core q s
  | .copyBlock core q => Sys2Proof.Machine.execCopyBlock core q s
  | .copyStageClaim core q => Sys2Proof.Machine.execCopyStageClaim core q s
  | .chainRecordRead core q => Sys2Proof.Machine.execChainRecordRead core q s
  | .chainRereadTimer core q => Sys2Proof.Machine.execChainRereadTimer core q s
  | .commandCompletion core e => Sys2Proof.Machine.execCommandCompletion core e s
  | .qfencePerformed core => Sys2Proof.Machine.execQfencePerformed core s
  | .mmaStart core => Sys2Proof.Machine.execMmaStart core s
  | .mmaTileUpdate core tile => Sys2Proof.Machine.execMmaTileUpdate core tile s
  | .operandFetch core tile => Sys2Proof.Machine.execOperandFetch core tile s
  | .pinWaitTimeout core => Sys2Proof.Machine.execPinWaitTimeout core s
  | .governorWindow core => Sys2Proof.Machine.execGovernorWindow core s
  | .mprecEffect core => Sys2Proof.Machine.execMprecEffect core s
  | .mzeroEffect core => Sys2Proof.Machine.execMzeroEffect core s
  | .mdrainStart core => Sys2Proof.Machine.execMdrainStart core s
  | .drainTileAck core tile => Sys2Proof.Machine.execDrainTileAck core tile s
  | .collStart core => Sys2Proof.Machine.execCollStart core s
  | .collMatch k => Sys2Proof.Machine.execCollMatch k s
  | .triggerSeen core => Sys2Proof.Machine.execTriggerSeen core s
  | .triggerPoll core => Sys2Proof.Machine.execTriggerPoll core s
  | .couch k rank piece ringB => Sys2Proof.Machine.execCouch k rank piece ringB s
  | .closingToken k rank => Sys2Proof.Machine.execClosingToken k rank s
  | .collAbort k rank => Sys2Proof.Machine.execCollAbort k rank s
  | .pvAgreement k => Sys2Proof.Machine.execPvAgreement k s
  | .waitgeWake core tid => Sys2Proof.Machine.execWaitgeWake core tid s
  | .waitgePoll core tid => Sys2Proof.Machine.execWaitgePoll core tid s
  | .backoffExpiry core tid => Sys2Proof.Machine.execBackoffExpiry core tid s
  | .nopreDeadline core => Sys2Proof.Machine.execNopreDeadline core s
  | .submissionDoorbell fn v => Sys2Proof.Machine.execSubmissionDoorbell fn v s
  | .sqerrClear fn => Sys2Proof.Machine.execSqerrClear fn s
  | .mqheadWrite fn v => Sys2Proof.Machine.execMqheadWrite fn v s
  | .mqlostClear fn => Sys2Proof.Machine.execMqlostClear fn s
  | .commandDoorbell fn v => Sys2Proof.Machine.execCommandDoorbell fn v s
  | .cqerrClear fn => Sys2Proof.Machine.execCqerrClear fn s
  | .ctxcreate fn lhbase => Sys2Proof.Machine.execCtxcreate fn lhbase s
  | .ctxdestroy fn => Sys2Proof.Machine.execCtxdestroy fn s
  | .winset fn => Sys2Proof.Machine.execWinset fn s
  | .permset fn => Sys2Proof.Machine.execPermset fn s
  | .lhset fn => Sys2Proof.Machine.execLhset fn s
  | .pagefree fn => Sys2Proof.Machine.execPagefree fn s
  | .launchend fn => Sys2Proof.Machine.execLaunchend fn s
  | .groupread fn => Sys2Proof.Machine.execGroupread fn s
  | .launchConsume fn => Sys2Proof.Machine.execLaunchConsume fn s
  | .budgetCredit part => Sys2Proof.Machine.execBudgetCredit part s
  | .gangBind part lrec cores => Sys2Proof.Machine.execGangBind part lrec cores s
  | .nextWrite core r => Sys2Proof.Machine.execNextWrite core r s
  | .nextCancel core => Sys2Proof.Machine.execNextCancel core s
  | .gangReady core => Sys2Proof.Machine.execGangReady core s
  | .promotion part gang => Sys2Proof.Machine.execPromotion part gang s
  | .q0PreemptTimeout part => Sys2Proof.Machine.execQ0PreemptTimeout part s
  | .coreGroupRetire core => Sys2Proof.Machine.execCoreGroupRetire core s
  | .launchRetire part lid => Sys2Proof.Machine.execLaunchRetire part lid s
  | .partitionEnable part => Sys2Proof.Machine.execPartitionEnable part s
  | .partitionKill part => Sys2Proof.Machine.execPartitionKill part s
  | .warm => Sys2Proof.Machine.execWarm s
  | .cold => Sys2Proof.Machine.execCold s
  | .firmwareVerify ed ml version => Sys2Proof.Machine.execFirmwareVerify ed ml version s
  | .functionReady f => Sys2Proof.Machine.execFunctionReady f s
  | .bridgeFailure b => Sys2Proof.Machine.execBridgeFailure b s
  | .segmentFailure y => Sys2Proof.Machine.execSegmentFailure y s
  | .foldComplete => Sys2Proof.Machine.execFoldComplete s
  | .coreGroupHalt core storage => Sys2Proof.Machine.execCoreGroupHalt core storage s
  | .preemptRequest core => Sys2Proof.Machine.execPreemptRequest core s
  | .preemptSave core => Sys2Proof.Machine.execPreemptSave core s
  | .shadowPoolEvict core => Sys2Proof.Machine.execShadowPoolEvict core s
  | .restore core fromArea => Sys2Proof.Machine.execRestore core fromArea s
  | .infieldTestDue core => Sys2Proof.Machine.execInfieldTestDue core s
  | .infieldTestEnd core pass => Sys2Proof.Machine.execInfieldTestEnd core pass s
  | .liveMigration part => Sys2Proof.Machine.execLiveMigration part s
  | .ceThreshold stack bank => Sys2Proof.Machine.execCeThreshold stack bank s
  | .reencodeDone stack bank freed => Sys2Proof.Machine.execReencodeDone stack bank freed s
  | .clrcnt stack => Sys2Proof.Machine.execClrcnt stack s
  | .agethrWrite fn part v => Sys2Proof.Machine.execAgethrWrite fn part v s
  | .mbudgetWrite fn part v => Sys2Proof.Machine.execMbudgetWrite fn part v s
  | .tvecWrite fn part v => Sys2Proof.Machine.execTvecWrite fn part v s
  | .resetWriteFromVf vf v => Sys2Proof.Machine.execResetWriteFromVf vf v s
  | .registerWrite fn off v => Sys2Proof.Machine.execRegisterWrite fn off v s
  | .functionFailure f => Sys2Proof.Machine.execFunctionFailure f s
  | .replicationByHotness part page stack frame => Sys2Proof.Machine.execReplicationByHotness part page stack frame s

end Sys2Proof.Machine
end

