-- ==== Sys2Proof/Machine/Schedule.lean ====
section
/-! DEFINITION. A pipe's turn, the acts of the schedule, and the step that the machine takes where its schedule names
none (DESIGN CHOICE, log 2): the first event that changes something, else the next pipe's turn, else a cycle passes. -/

namespace Sys2Proof.Machine

/-! ## Acts -/

/-- The turn of a core's pipe, or of the other one where that is due first: it fetches the word at its run's PC, and
issues it; without a run it chooses (R96, R113, R128, R129). -/
def turnOf (core pipe : Nat) (s : State) : Out :=
  let pipe := firstPipe s core pipe
  let s := { s with sel := (core, pipe) }
  match nextWord s core pipe with
  | none => if (s.run core pipe).isSome then .next s else execPipeChoose core pipe s
  | some (s', .word w) =>
    match decode w with
    | .ok i => exec i s'
    | .rej r => .next (issueBad w r s')
  | some (s', f) => .next (issueUnfetched f s')

/-- An event of the part: an instruction word happens only at a pipe's turn. -/
def eventOf (i : Instr) (s : State) : Out := if (infoOf i).isSome then .next s else exec i s

/-- The function whose management queue takes what concerns a core: that of its core group, else the partition's first
VF. -/
def coreFn (s : State) (core part : Nat) : Nat :=
  match s.grp? core with
  | some g => if g.part = part then groupFn s g else (vfsOf s part).headD pfn
  | none => (vfsOf s part).headD pfn

/-- A poisoned granule that a write-back met is reported (R227, R335) (DEDUCED, log 34). -/
def postReport (s : State) (r : PoisonRep) : State :=
  let (seq, lid) := match s.grp? r.core with
    | some g => if g.part = r.part then (recSeq g.lrec, g.lid) else (0, 0xFFFF)
    | none => (0, 0xFFFF)
  post s (coreFn s r.core r.part) 3 0x000B seq (BitVec.ofNat 64 r.ia) lid

/-- What write-backs met in an act is reported after it. -/
def postReports (s : State) : State := s.reports.foldl postReport { s with reports := [] }

/-- An act's end: what its write-backs met is reported, and the tail records that it changed stand in memory (R227, R308,
R335). -/
def settled (old : State) : Out → Out
  | .next s => .next (syncTails old (postReports s))
  | o => o

/-- Performs an act, but for its end. -/
def act (a : Act) (s : State) : Out :=
  match a with
  | .turn core pipe => turnOf core pipe s
  | .ev i => eventOf i s
  | .hostStore addr bytes => .next { s with mem := memWriteN (hostAddr addr) bytes s.mem }
  | .upset addr ue => .next (upset s addr ue)
  | .arrayError core f => .next (modMx s core fun m => { m with faults := m.faults ++ [f] })
  | .priEnable fn => .next (enablePris s fn)

/-- Performs an act. -/
def perform (a : Act) (s : State) : Out := settled s (act a s)

/-! ## Where the schedule names nothing (DESIGN CHOICE, log 2) -/

/-- What an outstanding result waits for. -/
def pendEvent (core : Nat) (p : Pend) : Instr :=
  match p.st, p.kind with
  | .sent, .load _ _ _ _ | .sent, .appendQuery _ _ | .sent, .pginfo _ | .sent, .tailq _ _ | .sent, .fence _ _ => .homeLoad core p.id
  | .sent, .seal _ _ _ => .sealAtHome core p.id
  | .sent, .value _ => .resultLanding core p.id
  | .sent, _ => .homeAtomic core p.id
  | _, _ => .resultLanding core p.id

/-- What an entry of the region buffer waits for. -/
def entryEvent (core : Nat) (e : RbEntry) : Instr :=
  match e.st with
  | .draining _ => .homeWrite core e.id
  | .acked _ => .regionComplete core e.tid
  | _ => .probeAnswer core e.id

/-- What a waiting thread waits for. -/
def waitEvent (core : Nat) (w : Wait) : List Instr :=
  match w.why with
  | .waitge .. => [.waitgeWake core w.tid, .waitgePoll core w.tid]
  | .lane => [.laneConvergence core (w.tid / 32)]
  | .fault .. => []
  | _ => [.waitStoreRelease core w.tid]

/-- Events of a core and its engines. -/
def coreEvents (core : Nat) (c : Core) : List Instr :=
  (c.misses.map fun m => .homeLoad core m.id) ++ (c.fills.map fun f => .fillArrival core f.line) ++
  (if c.nxt.valid then [.gangReady core, .promotion c.nxt.part c.nxt.gangid] else []) ++
  match c.grp with
  | none => if c.shadow.isSome then [.restore core none] else []
  | some g =>
    g.rb.map (entryEvent core) ++ g.pend.map (pendEvent core) ++ g.waits.flatMap (waitEvent core) ++
    ((g.live.filter fun t => (g.thread t).backoff != 0).map (.backoffExpiry core)) ++
    ((g.live.filter fun t => (g.thread t).rbwait != 0).map (.storeEntryRetry core)) ++
    ((g.live.filter fun t => (g.thread t).ptrap.isSome || (g.thread t).arHold.isSome).map (.regionComplete core)) ++
    [.nopreDeadline core, .coreGroupHalt core none, .preemptSave core, .coreGroupRetire core] ++
    ((List.range 4).flatMap fun q =>
      [.commandCompletion core (.copy q), .chainRecordRead core q, .chainRereadTimer core q, .copyEntryStart core q,
       .copyStageClaim core q, .copyBlock core q]) ++
    [.qfencePerformed core, .commandCompletion core .matrix, .mprecEffect core, .mzeroEffect core, .mmaStart core,
     .governorWindow core, .pinWaitTimeout core, .mdrainStart core, .collStart core] ++
    ((List.range 16).flatMap fun u => [.operandFetch core u, .mmaTileUpdate core u, .drainTileAck core u])

/-- Events of the ring engines. -/
def rankEvents (x : CollRank) : List Instr :=
  (if x.remote then [] else [.triggerSeen x.core, .triggerPoll x.core, .commandCompletion x.core .ring]) ++
    [.collMatch x.key, .pvAgreement x.key, .closingToken x.key x.rank, .collAbort x.key x.rank] ++
    (List.range x.hw.length).flatMap fun j => [.couch x.key x.rank j false, .couch x.key x.rank j true]

/-- Events of a function's queues: its command, and its next launch. -/
def fnEvents (fn : Nat) (f : Fn) : List Instr :=
  (match f.cmds with
   | [] => []
   | r :: _ =>
     match cmdId r with
     | 2 => [.ctxdestroy fn] | 3 => [.winset fn] | 4 => [.permset fn] | 5 => [.lhset fn] | 6 => [.pagefree fn]
     | 7 => [.launchend fn] | 8 => [.groupread fn] | _ => []) ++
  (if f.sqhead == f.sqtail then [] else [.launchConsume fn])

/-- Events of a partition's launches. -/
def partEvents (s : State) (p : Nat) (x : Part) : List Instr :=
  (match nextBind s p with
   | some l =>
     match firstPlacement s p (freeCore s p) l with
     | some cs => [.gangBind p 0 cs]
     | none => []
   | none => []) ++ (if x.launches.all (·.charged) then [] else [.budgetCredit p]) ++
    x.launches.map fun l => .launchRetire p l.lid

/-- Events of pages. -/
def pageEvents (s : State) : List Instr :=
  (s.xlat.map fun e => .sealComplete (e.1 / 2 ^ 32) (e.1 % 2 ^ 32)) ++
    (s.replicas.flatMap fun r => [.replicaPlaced r.part r.page r.stack, .replicaDrained r.part r.page r.stack]) ++
    s.shoots.flatMap fun x => [.shootdown x.part (x.page * 65536) 0 0, .atsInvalidation x.part x.page]

/-- Every event that the state itself calls for. -/
def events (s : State) : List Instr :=
  (s.invs.map fun i => .invalidation i.core i.line) ++ (s.posted.map fun x => .homeWrite x.writer x.id) ++ (s.cores.flatMap fun (n, c) => coreEvents n c) ++
    s.ranks.flatMap rankEvents ++ pageEvents s ++ (s.fns.flatMap fun (n, f) => fnEvents n f) ++
    s.parts.flatMap fun (p, x) => partEvents s p x

/-- The turns of the cores' pipes, from the one after the last. -/
def turns (s : State) : List (Nat × Nat) :=
  let all := (s.cores.filter fun (_, c) => c.grp.isSome).flatMap fun (n, _) => [(n, 0), (n, 1)]
  let later := all.filter fun t => decide (s.sel.1 < t.1) || (s.sel.1 == t.1 && decide (s.sel.2 < t.2))
  later ++ all.filter fun t => !later.contains t

/-- The act changes something besides the selected pipe. -/
def changes (s : State) (a : Act) : Bool :=
  match perform a s with
  | .next s' => { s' with sel := s.sel } != s
  | _ => true

/-- The act of a step for which the schedule names none. -/
def defaultAct (s : State) : Option Act :=
  ((events s).map Act.ev ++ (turns s).map fun t => Act.turn t.1 t.2).find? (changes s)

end Sys2Proof.Machine
end

