-- ==== Sys2Proof/Machine/Step.lean ====
section
/-! DEFINITION. The step: the head of the schedule is performed, at its cycle. And the state in which the next step
runs a given word (DESIGN CHOICE, log 2). -/

namespace Sys2Proof.Machine

/-- One step of the package. -/
def step (s : State) : Host.Outcome State Fault Refusal :=
  match s.agenda with
  | (c, a) :: r => perform a (State.passTo { s with agenda := r } c)
  | [] =>
    match defaultAct s with
    | some a => perform a s
    | none => .next (s.passTo (s.now + 1))

/-! ## Running one word -/

/-- The launch record of the group that runs one word: 32 threads of 256 registers. -/
def probeRecord : List W64 := [0, 0, 0x0000010001110020, 0x100, 0x0000040401020100] ++ List.replicate 27 0

/-- A core group of one gang at VA 0, that is its frontier's one entry. -/
def probeGroup : Group where
  part := 0
  lid := 0
  ctxid := 0
  lseg := 0
  bind := ⟨0, 0, 0x100000000, 1⟩
  lrec := probeRecord
  blocks := []
  k := List.replicate 64 0
  kset := []
  frontier := [⟨0, 0, 0, List.range 32, 0, 0⟩]
  parking := []
  waits := []
  threads := List.replicate 32 (Thread.start 256 0 0)
  rb := []
  pend := []
  nextId := 0
  fpx := 0
  fpxLand := []
  phasecur := 0
  nopre := none
  spad := []
  rings := []
  cqs := List.replicate 4 ⟨[], none, none⟩
  cfrozen := false
  mx := Matrix.reset
  rq := []
  rqBusy := false
  fences := []
  st := .running
  clockOff := 0
  bindNo := 0

/-- `s` with an instruction word where the next step fetches: the turn of pipe 0 of core 0, whose sheet stands at VA 0
of a readable, writable and executable window onto IA 0, homed on the first frame of segment 0. -/
def State.withFetchWord (s : State) (nbits w : Nat) : State :=
  { s with
    agenda := [(s.now, .turn 0 0)],
    sel := (0, 0),
    pkg := { s.pkg with stkrdy := s.pkg.stkrdy ||| 1, segrdy := s.pkg.segrdy ||| 1, deadSeg := 0, deadBr := 0 },
    hmc := alSet 0 1 s.hmc,
    pmb := alSet 0x1000 1 s.pmb,
    frames := (0, 0) :: s.frames,
    xlat := alSet 0 (0x10000, 0x1F) s.xlat,
    mem := memWriteN 0 (bytesOf 8 (w % 2 ^ nbits)) s.mem,
    poison := s.poison.filter fun g => g != 0,
    cores := alSet 0 { Core.reset with
      cur := ⟨0, 0, 0x100000000, 1⟩, curempty := false, grp := some probeGroup,
      run0 := some ⟨List.range 32, []⟩,
      wins := [0xF, 0] ++ List.replicate 30 0 } s.cores }

end Sys2Proof.Machine
end

