-- ==== Sys2Proof/Safety.lean ====
section
/-! DEFINITION. What counts as a safe run, and the terms in which statements speak of one word that issues and of what
a step leaves alone. -/

namespace Sys2Proof.Safety

/-- The machine takes `n` steps from a state without a fault or a refusal. -/
def RunsOn (n : Nat) (s : Machine.State) : Prop := ∃ t, Host.Core.run Sys2Proof.core n s = .next t

/-- An invariant holds after every step from a state that has it. -/
def Kept (inv : Machine.State → Prop) : Prop := ∀ s t, inv s → Machine.step s = .next t → inv t

end Sys2Proof.Safety

namespace Sys2Proof.Claims
open Machine

/-! ## A word that issues -/

/-- Every thread of a group has its REGS registers (R41). -/
def shaped (g : Group) : Bool := g.threads.all fun t => decide (g.regs ≤ t.w.length)

/-- The threads of a sheet are threads of the group, each once (R126). -/
def sheetOk (g : Group) (r : Run) : Bool := r.tids.all (fun t => decide (t < g.threads.length)) && decide r.tids.Nodup

/-- What the word of an instruction finds as it issues in the turn of the selected pipe. There is none unless a sheet
stands there whose group may issue, nothing stops the run before the word (R128, R225), every thread has its registers
and none fails checks 1 to 4 of R113. -/
def issueAt (i : Instr) (s : State) : Option Ctx :=
  match s.grp? s.sel.1, s.run s.sel.1 s.sel.2, infoOf i with
  | some g, some r, some w =>
    if mayIssue s s.sel.1 g && !r.tids.isEmpty && !stopsBefore s s.sel.1 g r w && shaped g && sheetOk g r then
      match issueCtx w (rawOf i) none s g r with
      | (x, []) => some x
      | _ => none
    else none
  | _, _, _ => none

/-! ## What stays -/

/-- A thread without what every word may change: registers, predicates, PC, PRIO, scoreboard, region. -/
def Thread.rest (t : Thread) : Thread :=
  { t with w := [], p := 0, pc := 0, prio := 0, lands := [], rclosed := false, rsPc := 0, rsPrio := 0, rage := 0 }

/-- A group without what a register word may change: its threads, where they stand, results on their way, flags on
their way. -/
def Group.rest (g : Group) : Group :=
  { g with threads := [], frontier := [], parking := [], pend := [], fpxLand := [] }

/-- A core without its group and its runs. -/
def Core.rest (c : Core) : Core := { c with grp := none, run0 := none, run1 := none }

/-- A state without its cores. -/
def State.rest (s : State) : State := { s with cores := [] }

/-- Outside one core's group and runs nothing has changed: no other core, no memory, no other state. -/
structure OnlyGroup (core : Nat) (s t : State) : Prop where
  state : State.rest t = State.rest s
  others : ∀ c, c ≠ core → t.core c = s.core c
  own : Core.rest (t.core core) = Core.rest (s.core core)
  memory : ∀ a, memRead t.mem a = memRead s.mem a

/-- A word has changed nothing but the registers `regs` and the predicates `preds` of the threads that execute it, and
the PC of its sheet, which stands at the next word. -/
structure RegFrame (x : Ctx) (t : State) (g : Group) (regs : List Nat) (preds : List (BitVec 3)) : Prop where
  outside : OnlyGroup x.core x.s t
  group : Group.rest g = Group.rest x.g
  regs : ∀ u n, (u ∈ x.on → n ∉ regs) → (g.thread u).r n = (x.g.thread u).r n
  preds : ∀ u q, (u ∈ x.on → q ∉ preds) → (g.thread u).pred q = (x.g.thread u).pred q
  rest : ∀ u, Thread.rest (g.thread u) = Thread.rest (x.g.thread u)
  pc : ∀ u, u ∈ x.r.tids → (g.thread u).pc = nextPc x.pc
  idle : ∀ u, u ∉ x.r.tids → g.thread u = x.g.thread u

/-- The registers of a w destination (R100). -/
def dests (h : Hdr) (d : BitVec 8) (is64 : Bool) : List Nat :=
  if h.nw then [] else if is64 then [d.toNat, d.toNat + 1] else [d.toNat]

/-- A word that issues gives register D, or the pair at D, of each thread that executes it the value `v` of the
operands as they were, sets the flags `fl` in FPX when its result lands, and changes nothing else. -/
def Gives (i : Instr) (h : Hdr) (d : BitVec 8) (is64 : Bool) (v : Ctx → Rd → W64) (fl : Ctx → Rd → Flags) : Prop :=
  ∀ s x, issueAt i s = some x →
    ∃ t g, exec i s = .next t ∧ t.grp? x.core = some g ∧
      (∀ u ∈ x.on, h.nw = false →
        (g.thread u).r d.toNat = bits (v x (x.rd u)) 0 32 ∧
        (is64 = true → (g.thread u).r (d.toNat + 1) = bits (v x (x.rd u)) 32 32)) ∧
      g.fpxLand = (addFlags x.g (x.s.now + x.info.lat) ((x.on.map fun u => fl x (x.rd u)).foldl (· ||| ·) 0)).fpxLand ∧
      RegFrame x t g (dests h d is64) []

/-- A word that sets no flag. -/
def noFlags : Ctx → Rd → Flags := fun _ _ => 0

/-- A word that issues gives predicate D of each thread that executes it the value `v`, where D is not p7, and changes
nothing else. -/
def GivesPred (i : Instr) (d : BitVec 3) (v : Rd → Bool) (fl : Rd → Flags) : Prop :=
  ∀ s x, issueAt i s = some x →
    ∃ t g, exec i s = .next t ∧ t.grp? x.core = some g ∧
      (∀ u ∈ x.on, d ≠ 7 → (g.thread u).pred d = v (x.rd u)) ∧
      g.fpxLand = (addFlags x.g (x.s.now + x.info.lat) ((x.on.map fun u => fl (x.rd u)).foldl (· ||| ·) 0)).fpxLand ∧
      RegFrame x t g [] (if d = 7 then [] else [d])

end Sys2Proof.Claims
end

