-- ==== Sys2Proof/Certificates/Slice0/Obligations.lean ====
section
/-! DEFINITION. The statements for the provers, each named after what it says; the definitions before them are the words
in which they say it. -/

namespace Sys2Proof.Claims
open Machine

/-! ## Register words: values -/

/-- The lowest and the highest integer of a type (R142). -/
def lo (ty : ITy) : Int := if ty.signed then -(2 ^ (wOf ty.is64 - 1)) else 0
def hi (ty : ITy) : Int := if ty.signed then 2 ^ (wOf ty.is64 - 1) - 1 else 2 ^ wOf ty.is64 - 1

/-- An exact integer as a result: saturated under SAT, else wrapped (R142). -/
def fit (ty : ITy) (sat : Bool) (x : Int) : W64 := BitVec.ofInt 64 (if sat then min (max x (lo ty)) (hi ty) else x)

/-- A w-bit value of a thread's operand. -/
def val (y : Rd) (ty : ITy) (a : Sel) : BitVec (wOf ty.is64) := BitVec.ofNat _ (y.sW ty.is64 a)

/-- A w-bit result. -/
def res {w : Nat} (v : BitVec w) : W64 := v.setWidth 64

/-- SHIFT's table (R145). -/
def shifted {w : Nat} (op : ShiftOp) (a : BitVec w) (k : Nat) : BitVec w :=
  match op with
  | .shl => a <<< k
  | .shr => a >>> k
  | .sar => a.sshiftRight k
  | .rol => a.rotateLeft k
  | .ror => a.rotateRight k

/-- LOGIC's table (R144). -/
def combined {w : Nat} (op : LogicOp) (a b : BitVec w) : BitVec w :=
  match op with
  | .and => a &&& b
  | .or => a ||| b
  | .xor => a ^^^ b
  | .andn => a &&& ~~~b
  | .orn => a ||| ~~~b
  | .xnor => ~~~(a ^^^ b)

/-- One bits of a value (R143). -/
def oneBits {w : Nat} (a : BitVec w) : Nat := ((List.range w).filter a.getLsbD).length

/-- IUNARY's table (R143). -/
def unary (op : IUnaryOp) (ty : ITy) (sat : Bool) (y : Rd) (a : Sel) : W64 :=
  match op with
  | .abs => fit ty sat (y.sI ty a).natAbs
  | .neg => fit ty sat (-(y.sI ty a))
  | .not => res (~~~(val y ty a))
  | .popc => BitVec.ofNat 64 (oneBits (val y ty a))
  | .clz => BitVec.ofNat 64 (val y ty a).clz.toNat
  | .brev => res (val y ty a).reverse

/-- BFX (R146): the field named by the control operand, extended as the type says. -/
def extracted (y : Rd) (ty : ITy) (a : Sel) (c : W32) : W64 :=
  let pos := (bits c 0 8).toNat
  let len := (bits c 8 8).toNat
  let w := wOf ty.is64
  if len = 0 ∨ w ≤ pos then 0
  else
    let n := min len (w - pos)
    let f : BitVec n := bits (val y ty a) pos n
    if ty.signed then f.signExtend 64 else f.setWidth 64

/-- BFI, bit by bit (R146). -/
def inserted {w : Nat} (a b : BitVec w) (c : W32) (i : Nat) : Bool :=
  let pos := (bits c 0 8).toNat
  let len := (bits c 8 8).toNat
  if len ≠ 0 ∧ pos ≤ i ∧ i < pos + len then b.getLsbD (i - pos) else a.getLsbD i

/-- Byte i of PERM (R147). -/
def permuted (a b c : W32) (i : Nat) : Byte :=
  let v : Byte := bits (b ++ a) (8 * (bits c (4 * i) 3).toNat) 8
  if bit c (4 * i + 3) then (if v.msb then 0xFF else 0) else v

end Sys2Proof.Claims

open Sys2Proof Sys2Proof.Machine Sys2Proof.Claims

/-- R142, R143: the seven words of integer arithmetic compute exactly, then saturate or wrap; IUNARY gives the result of its
sub-op's row, POPC and CLZ in one register whatever the type; in every form they complete, and they change D alone. -/
def Obligations.IntegerWords : Prop :=
  ((∀ o : IBin, Gives (.iadd o) o.h o.d o.ty.is64 (fun _ y => fit o.ty o.sat (y.sI o.ty o.a + y.sI o.ty o.b)) noFlags) ∧
    (∀ o : IBin, Gives (.isub o) o.h o.d o.ty.is64 (fun _ y => fit o.ty o.sat (y.sI o.ty o.a - y.sI o.ty o.b)) noFlags) ∧
    (∀ o : IBin, Gives (.imul o) o.h o.d o.ty.is64 (fun _ y => fit o.ty o.sat (y.sI o.ty o.a * y.sI o.ty o.b)) noFlags) ∧
    (∀ o : IBin0, Gives (.imulhi o) o.h o.d o.ty.is64
      (fun _ y => fit o.ty false ((y.sI o.ty o.a * y.sI o.ty o.b) >>> wOf o.ty.is64)) noFlags) ∧
    (∀ o : ITern, Gives (.imad o) o.h o.d o.ty.is64
      (fun _ y => fit o.ty o.sat (y.sI o.ty o.a * y.sI o.ty o.b + y.sI o.ty o.c)) noFlags) ∧
    (∀ o : IBin0, Gives (.imin o) o.h o.d o.ty.is64 (fun _ y => fit o.ty false (min (y.sI o.ty o.a) (y.sI o.ty o.b))) noFlags) ∧
    (∀ o : IBin0, Gives (.imax o) o.h o.d o.ty.is64 (fun _ y => fit o.ty false (max (y.sI o.ty o.a) (y.sI o.ty o.b))) noFlags)) ∧
  (∀ h op d ty sat a, Gives (.iunary h op d ty sat a) h d
      (match op with | .popc | .clz => false | _ => ty.is64) (fun _ y => unary op ty sat y a) noFlags)

/-- R144, R153: LOGIC and the long-immediate words act bit by bit, MOVI and IADDI modulo 2^32. -/
def Obligations.LogicAndImmediates : Prop :=
  (∀ h op d ty a b, Gives (.logic h op d ty a b) h d ty.is64
    (fun _ y => res (combined op (val y ty a) (val y ty b))) noFlags) ∧
  (∀ h d imm, Gives (.movi h d imm) h d false (fun _ _ => res imm) noFlags) ∧
  (∀ o : FLOp, Gives (.iaddi o) o.h o.d false (fun _ y => res (y.s32 o.a + o.imm)) noFlags) ∧
  (∀ o : FLOp, Gives (.andi o) o.h o.d false (fun _ y => res (y.s32 o.a &&& o.imm)) noFlags) ∧
  (∀ o : FLOp, Gives (.ori o) o.h o.d false (fun _ y => res (y.s32 o.a ||| o.imm)) noFlags) ∧
  (∀ o : FLOp, Gives (.xori o) o.h o.d false (fun _ y => res (y.s32 o.a ^^^ o.imm)) noFlags)

/-- R145: SHIFT gives the result of its table for every count, also those of the width or more. -/
def Obligations.Shifts : Prop :=
  ∀ h op d ty a b, Gives (.shift h op d ty a b) h d ty.is64
    (fun _ y => res (shifted op (val y ty a) (y.s32 b).toNat)) noFlags

/-- R146, R147, R148, R151, R152: BFX extracts a field, BFI replaces the bits of one and leaves every other, PERM sets each
byte of D from its selector nibble; SEL chooses under a predicate, MOV copies 32 or 64 bits, LEA adds a scaled index
modulo 2^64. -/
def Obligations.FieldsBytesAndMoves : Prop :=
  ((∀ h d ty a b, Gives (.bfx h d ty a b) h d ty.is64 (fun _ y => extracted y ty a (y.s32 b)) noFlags) ∧
    (∀ h d ty a b c, ∃ v : Rd → BitVec (wOf ty.is64),
      (∀ y i, i < wOf ty.is64 → (v y).getLsbD i = inserted (val y ty a) (val y ty b) (y.s32 c) i) ∧
      Gives (.bfi h d ty a b c) h d ty.is64 (fun _ y => res (v y)) noFlags) ∧
    (∀ h d a b c, ∃ v : Rd → W32,
      (∀ y i, i < 4 → bits (v y) (8 * i) 8 = permuted (y.s32 a) (y.s32 b) (y.s32 c) i) ∧
      Gives (.perm h d a b c) h d false (fun _ y => res (v y)) noFlags)) ∧
  ((∀ h d ty a b c, Gives (.sel h d ty a b c) h d ty.is64
      (fun _ y => BitVec.ofNat 64 (if y.th.pred c.p != c.neg then y.sA ty a else y.sA ty b)) noFlags) ∧
    (∀ h d a, Gives (.mov h d false a) h d false (fun _ y => res (y.s32 a)) noFlags) ∧
    (∀ h d a, Gives (.mov h d true a) h d true (fun _ y => y.s64 a) noFlags) ∧
    (∀ h d signed sh a b, Gives (.lea h d signed sh a b) h d true
      (fun _ y => y.s64 a + BitVec.ofInt 64 ((if signed then (y.s32 b).toInt else (y.s32 b).toNat) * 2 ^ sh.toNat)) noFlags))

/-- R149, R150: ICMP and PLOGIC write one predicate, never p7. -/
def Obligations.Predicates : Prop :=
  (∀ h op d ty a b, GivesPred (.icmp h op d ty a b) d (fun y =>
    match op with
    | .eq => decide (y.sI ty a = y.sI ty b)
    | .ne => decide (y.sI ty a ≠ y.sI ty b)
    | .lt => decide (y.sI ty a < y.sI ty b)
    | .le => decide (y.sI ty a ≤ y.sI ty b)
    | .gt => decide (y.sI ty a > y.sI ty b)
    | .ge => decide (y.sI ty a ≥ y.sI ty b)) (fun _ => 0)) ∧
  (∀ h op d a b, GivesPred (.plogic h op d a b) d (fun y =>
    let p := y.th.pred a.p != a.neg
    let q := y.th.pred b.p != b.neg
    match op with
    | .and => p && q
    | .or => p || q
    | .xor => p != q
    | .not => !p
    | .mov => p) (fun _ => 0))

namespace Sys2Proof.Claims
open Machine

/-! ## Register words: lanes, floating point, pair words -/

/-- `Gives` for a word in the cases that `P` names. -/
def GivesWhen (i : Instr) (P : Ctx → Prop) (h : Hdr) (d : BitVec 8) (is64 : Bool) (v : Ctx → Rd → W64)
    (fl : Ctx → Rd → Flags) : Prop :=
  ∀ s x, issueAt i s = some x → P x →
    ∃ t g, exec i s = .next t ∧ t.grp? x.core = some g ∧
      (∀ u ∈ x.on, h.nw = false →
        (g.thread u).r d.toNat = bits (v x (x.rd u)) 0 32 ∧
        (is64 = true → (g.thread u).r (d.toNat + 1) = bits (v x (x.rd u)) 32 32)) ∧
      g.fpxLand = (addFlags x.g (x.s.now + x.info.lat) ((x.on.map fun u => fl x (x.rd u)).foldl (· ||| ·) 0)).fpxLand ∧
      RegFrame x t g (dests h d is64) []

/-- A word that issues and changes nothing but the PC of its sheet. -/
def OnlyAdvances (i : Instr) : Prop :=
  ∀ s x, issueAt i s = some x →
    ∃ t g, exec i s = .next t ∧ t.grp? x.core = some g ∧ g.fpxLand = x.g.fpxLand ∧ RegFrame x t g [] []

/-- The lane from which SHUF takes its value, if it names one (R161). -/
def shufSource (op : ShufOp) (l j : Nat) : Option Nat :=
  match op with
  | .idx => some j
  | .up => if j ≤ l then some (l - j) else none
  | .down => if l + j ≤ 31 then some (l + j) else none
  | .xor => some (l ^^^ j)

/-- One combination of REDUX and SCAN with its flags (R162, R163): integers at the width of the type, F32 with the
word's rounding mode. -/
def combine (op : ReduxOp) (ty : RTy) (rnd : Rnd) (a b : Nat) : Nat × Flags :=
  match ty with
  | .f32 =>
    match op with
    | .add => fAdd .f32 rnd a b
    | .min => fMinMax .f32 .min a b
    | .max => fMinMax .f32 .max a b
    | _ => (a, 0)
  | .int t =>
    let x := BitVec.ofNat (wOf t.is64) a
    let y := BitVec.ofNat (wOf t.is64) b
    let less (p q : BitVec (wOf t.is64)) : Bool := if t.signed then p.slt q else decide (p < q)
    let r := match op with
      | .add => (x + y).toNat
      | .min => if less y x then b else a
      | .max => if less x y then b else a
      | .and => a &&& b
      | .or => a ||| b
      | .xor => a ^^^ b
    (r, 0)

/-- Values combined in order from the first, with the flags of every combination; none combine to zero. -/
def folded (f : Nat → Nat → Nat × Flags) : List Nat → Nat × Flags
  | [] => (0, 0)
  | v :: vs => vs.foldl (fun a b => ((f a.1 b).1, a.2 ||| (f a.1 b).2)) (v, 0)

/-- The operands of the lanes of a sheet up to a thread, in ascending lane order, that thread's own with them or not. -/
def upTo (x : Ctx) (ty : RTy) (a : Sel) (t : Nat) (own : Bool) : List Nat :=
  (x.on.takeWhile (· != t) ++ if own then [t] else []).map fun u => (x.rd u).sR ty a

/-- The result and flags of one half of a pair word (R109, R158). -/
def half (y : Rd) : Half → W32 × Flags
  | .nop => (0, 0)
  | .iadd d s => (y.s32 (.w d) + y.s32 s, 0)
  | .isub d s => (y.s32 (.w d) - y.s32 s, 0)
  | .and d s => (y.s32 (.w d) &&& y.s32 s, 0)
  | .or d s => (y.s32 (.w d) ||| y.s32 s, 0)
  | .xor d s => (y.s32 (.w d) ^^^ y.s32 s, 0)
  | .shli _ s n => (y.s32 s <<< n.toNat, 0)
  | .shri _ s n => (y.s32 s >>> n.toNat, 0)
  | .sari _ s n => ((y.s32 s).sshiftRight n.toNat, 0)
  | .imin d s => (if (y.s32 s).slt (y.s32 (.w d)) then y.s32 s else y.s32 (.w d), 0)
  | .imax d s => (if (y.s32 (.w d)).slt (y.s32 s) then y.s32 s else y.s32 (.w d), 0)
  | .mov _ s => (y.s32 s, 0)
  | .movi8 _ i => (i.signExtend 32, 0)
  | .iaddi8 _ s i => (y.s32 s + i.signExtend 32, 0)
  | .fadd d s => let r := fAdd .f32 .rn (y.sF .f32 (.w d)) (y.sF .f32 s); (BitVec.ofNat 32 r.1, r.2)
  | .fmul d s => let r := fMul .f32 .rn (y.sF .f32 (.w d)) (y.sF .f32 s); (BitVec.ofNat 32 r.1, r.2)
  | .fmin d s => let r := fMinMax .f32 .min (y.sF .f32 (.w d)) (y.sF .f32 s); (BitVec.ofNat 32 r.1, r.2)
  | .fmax d s => let r := fMinMax .f32 .max (y.sF .f32 (.w d)) (y.sF .f32 s); (BitVec.ofNat 32 r.1, r.2)
  | .hadd2 d s =>
    let p := fAdd .f16 .rn (y.sH .f16 0 (.w d)) (y.sH .f16 0 s)
    let q := fAdd .f16 .rn (y.sH .f16 1 (.w d)) (y.sH .f16 1 s)
    (BitVec.ofNat 32 (q.1 * 2 ^ 16 + p.1), p.2 ||| q.2)
  | .hmul2 d s =>
    let p := fMul .f16 .rn (y.sH .f16 0 (.w d)) (y.sH .f16 0 s)
    let q := fMul .f16 .rn (y.sH .f16 1 (.w d)) (y.sH .f16 1 s)
    (BitVec.ofNat 32 (q.1 * 2 ^ 16 + p.1), p.2 ||| q.2)

/-- A float result under SAT (R179): an infinity becomes the largest finite value of its sign, a NaN +0. -/
def saturated (t : FTy) (sat : Bool) (v : Nat) : Nat :=
  if sat then
    match unpack t v with
    | .inf neg => maxBits t neg
    | .nan _ => 0
    | _ => v
  else v

/-- The results of both halves of a packed word (R192). -/
def bothHalves (f : Nat → Nat) : W64 := BitVec.ofNat 64 (f 1 * 2 ^ 16 + f 0)

/-- The value of CVT with its flags (R194). -/
def converted (dst src : ATy) (rnd : Rnd) (sat : Bool) (y : Rd) (a : Sel) : W64 × Flags :=
  match src, dst with
  | .int s, .int d => (fit d (sat && s != d) (y.sI s a), 0)
  | .int s, .flt d => let r := roundInt d rnd (y.sI s a) 0 false; (BitVec.ofNat 64 (saturated d sat r.1), r.2)
  | .flt s, .int d => let r := cvtToInt s d rnd (y.sF s a); (BitVec.ofInt 64 r.1, r.2)
  | .flt s, .flt d => let r := cvtFloat s d rnd (y.sF s a); (BitVec.ofNat 64 (saturated d sat r.1), r.2)

/-- QUNPACK's integer (R197): the element that C selects, less the zero point. -/
def qInt (q4 zp0 : Bool) (y : Rd) (a b c : Sel) : Int :=
  let i := (y.s32 c).toNat
  let q : Nat := if q4 then (bits (y.s32 a) (4 * (i % 8)) 4).toNat else (bits (y.s32 a) (8 * (i % 4)) 8).toNat
  let z : Nat := if zp0 then 0 else if q4 then (bits (y.s32 b) 16 4).toNat else (bits (y.s32 b) 16 8).toNat
  (q : Int) - z

/-! QPACK (R195, R196) -/

/-- The format slot that QPACK names. -/
def qSlot (x : Ctx) (f : BitVec 3) : W64 := x.g.fslot f.toNat
/-- Bits of an element, and elements of each lane. -/
def qBits (x : Ctx) (f : BitVec 3) : Nat := if bits (qSlot x f) 0 8 = 6 then 4 else 8
def qPer (x : Ctx) (f : BitVec 3) : Nat := 2 ^ (bits (qSlot x f) 8 8).toNat / 32
/-- The slot and the operand let QPACK run. -/
def qOk (a : BitVec 8) (f : BitVec 3) (x : Ctx) : Prop :=
  (bits (qSlot x f) 0 8 = 5 ∨ bits (qSlot x f) 0 8 = 6) ∧ a.toNat % qPer x f = 0 ∧ a.toNat + qPer x f ≤ x.g.regs
/-- The elements of the lanes that execute the word, by lane and element. -/
def qAll (a : BitVec 8) (f : BitVec 3) (x : Ctx) : List Nat :=
  x.on.flatMap fun u => (List.range (qPer x f)).map fun j => ((x.g.thread u).r (a.toNat + j)).toNat
/-- The largest and the least finite element, with zero among them; the least is 0 in a slot without zero points. -/
def qHi (a : BitVec 8) (f : BitVec 3) (x : Ctx) : Int := ((qAll a f x).filterMap fixed149).foldl max 0
def qLo (a : BitVec 8) (f : BitVec 3) (x : Ctx) : Int :=
  if bit (qSlot x f) 24 then 0 else ((qAll a f x).filterMap fixed149).foldl min 0
/-- Scale and zero point of the group. -/
def qSZ (a : BitVec 8) (f : BitVec 3) (x : Ctx) : Nat × Nat := qScale (2 ^ qBits x f - 1) (qLo a f x) (qHi a f x)
/-- Element k of the group, quantised; the zero point where its lane does not execute the word. -/
def qAt (a : BitVec 8) (f : BitVec 3) (x : Ctx) (k : Nat) : Nat :=
  match x.on.find? fun u => u % 32 == k / qPer x f with
  | some u => qElem (2 ^ qBits x f - 1) (qSZ a f x).1 (qSZ a f x).2
      ((x.g.thread u).r (a.toNat + k % qPer x f)).toNat
  | none => (qSZ a f x).2

end Sys2Proof.Claims

open Sys2Proof Sys2Proof.Machine Sys2Proof.Claims

/-- R154, R169, R170, R155, R156, R157: NOP, YIELD and REGION change nothing but the PC; YIELD ends the run, REGION closes the
region of each thread of its sheet; KSET gives the value of the lowest lane to its k register for words that issue at
least four cycles later, and no word before them sees it; SREG and FMTQ read what they name.
What the spec leaves open here is the model's choice or reading (log entry 21). -/
def Obligations.SimpleWords : Prop :=
  ((∀ h, OnlyAdvances (.nop h)) ∧
    (∀ h, OnlyAdvances (.yield h)) ∧
    (∀ y, OnlyAdvances (.region y)) ∧
    (∀ h s x, issueAt (.yield h) s = some x → ∃ t, exec (.yield h) s = .next t ∧ t.run x.core x.pipe = none) ∧
    (∀ y s x, issueAt (.region y) s = some x →
      ∃ t g, exec (.region y) s = .next t ∧ t.grp? x.core = some g ∧ ∀ u ∈ x.r.tids, (g.thread u).rclosed = true)) ∧
  ((∀ h d a s x u r, issueAt (.kset h d a) s = some x → x.on = u :: r →
      (∀ k ∈ x.g.kset, k.1 ≤ x.s.now + 3 ∨ k.1 = x.s.now + 4 ∧ x.pipe = 1) →
      ∃ t g, exec (.kset h d a) s = .next t ∧ t.grp? x.core = some g ∧
        (∀ c, x.s.now + 4 ≤ c → kRead g c d.toNat = (x.rd u).s64 a) ∧
        (∀ c n, c < x.s.now + 4 → kRead g c n = kRead x.g c n) ∧
        (∀ c n, n ≠ d.toNat → kRead g c n = kRead x.g c n) ∧
        (∀ v n, (g.thread v).r n = (x.g.thread v).r n) ∧
        (∀ v q, (g.thread v).pred q = (x.g.thread v).pred q) ∧ OnlyGroup x.core x.s t) ∧
    (∀ h d r, Gives (.sreg h d r) h d (r == .clock) (fun x y =>
      match r with
      | .tid => BitVec.ofNat 64 y.t
      | .gang => BitVec.ofNat 64 (y.t / 32)
      | .lane => BitVec.ofNat 64 (y.t % 32)
      | .clock => BitVec.ofNat 64 (x.s.clock x.core x.g.clockOff)
      | .pix => (x.g.thread y.t).pix.setWidth 64
      | .bargen => (x.g.thread y.t).bargen.setWidth 64
      | .phasecur => x.g.phasecur.setWidth 64
      | .cgx => BitVec.ofNat 64 x.g.bind.cgx
      | .sgx => BitVec.ofNat 64 x.g.bind.sgx
      | .kgx => BitVec.ofNat 64 x.g.bind.kgx
      | .launch => BitVec.ofNat 64 x.g.lid
      | .seg => BitVec.ofNat 64 ((x.s.logCore x.g.part x.core).map (·.1) |>.getD 0)
      | .core => BitVec.ofNat 64 ((x.s.logCore x.g.part x.core).map (·.2) |>.getD 0)
      | .part => BitVec.ofNat 64 x.g.part) noFlags) ∧
    (∀ h d f, Gives (.fmtq h d f) h d false (fun x _ =>
      if bits (x.g.fslot f.toNat) 0 8 = 0 then 0 else res (bits (x.g.fslot f.toNat) 0 32)) noFlags))

/-- R160, R161, R162, R163: BALLOT collects a predicate over the threads that execute it, SHUF takes a value from another
lane; a lane that does not execute the word gives SHUF the thread's own value; REDUX combines the operands of the threads
that execute it in ascending lane order and gives each of them the result; SCAN gives each the combination of those up to
it, or before it. -/
def Obligations.LaneWords : Prop :=
  ((∀ h d a, Gives (.ballot h .any d a) h d false (fun x _ => if x.on.any fun u => (x.rd u).p a then 1 else 0) noFlags) ∧
    (∀ h d a, Gives (.ballot h .all d a) h d false (fun x _ => if x.on.all fun u => (x.rd u).p a then 1 else 0) noFlags) ∧
    (∀ h d a, ∃ v : Ctx → W32,
      (∀ x i, i < 32 → (v x).getLsbD i = x.on.any fun u => u % 32 == i && (x.rd u).p a) ∧
      Gives (.ballot h .mask d a) h d false (fun x _ => res (v x)) noFlags) ∧
    (∀ h op d ty a b, Gives (.shuf h op d ty a b) h d ty.is64 (fun x y =>
      let source := (shufSource op (y.t % 32) (bits (y.s32 b) 0 5).toNat).bind fun l => x.on.find? fun u => u % 32 == l
      BitVec.ofNat 64 ((x.rd (source.getD y.t)).sA ty a)) noFlags)) ∧
  ((∀ h op d ty rnd a, Gives (.redux h op d ty rnd a) h d ty.is64
      (fun x _ => BitVec.ofNat 64 (folded (combine op ty rnd) (x.on.map fun u => (x.rd u).sR ty a)).1)
      (fun x _ => (folded (combine op ty rnd) (x.on.map fun u => (x.rd u).sR ty a)).2)) ∧
    (∀ h op d ty rnd a, Gives (.scan h op d ty rnd a) h d ty.is64
      (fun x y =>
        BitVec.ofNat 64 (folded (combine (if op = .max then .max else .add) ty rnd) (upTo x ty a y.t (op != .exc))).1)
      (fun x _ => (folded (combine (if op = .max then .max else .add) ty rnd) (x.on.map fun u => (x.rd u).sR ty a)).2)))

/-- R195, R196: QPACK in a slot of its formats packs the quantised elements in ascending order over the lanes, each lane its
own word of them, with scale and zero point in D+1; otherwise each thread traps.
What the spec leaves open here is the model's choice or reading (log entry 29). -/
def Obligations.Quantise : Prop :=
  (∀ h d a f, ∃ v : Ctx → Rd → W64,
    (∀ x y, bits (v x y) 32 32 = BitVec.ofNat 32 ((qSZ a f x).2 * 2 ^ 16 + (qSZ a f x).1) ∧
      ((y.t % 32 < qPer x f * qBits x f) → ∀ i, i < 32 / qBits x f →
        (bits (v x y) (qBits x f * i) (qBits x f)).toNat = qAt a f x (32 / qBits x f * (y.t % 32) + i)) ∧
      (qPer x f * qBits x f ≤ y.t % 32 → bits (v x y) 0 32 = 0)) ∧
    GivesWhen (.qpack h d (.w a) f) (qOk a f) h d true v
      (fun x _ => flagIf ((qAll a f x).any fun e => (fixed149 e).isNone) fNV)) ∧
  (∀ h d a f s x, issueAt (.qpack h d (.w a) f) s = some x → ¬ qOk a f x →
    (∀ u ∈ x.on, x.g.complete u = true ∧ (x.g.thread u).tm = false) → bit (x.s.tvec x.g.part) 0 = true →
    ∃ t g, exec (.qpack h d (.w a) f) s = .next t ∧ t.grp? x.core = some g ∧
      ∀ u ∈ x.on, (g.thread u).tm = true ∧ (g.thread u).tcause = 2 ∧ (g.thread u).tval = x.raw ∧
        (g.thread u).w = (x.g.thread u).w)

/-- R184, R179: FADD, FMUL and FFMA round the exact sum, product or fused sum once, then saturate under SAT; the flags are
those of the rounding. -/
def Obligations.FloatArithmetic : Prop :=
  (∀ o : FBin, Gives (.fadd o) o.h o.d false
    (fun _ y => BitVec.ofNat 64 (saturated o.ty o.sat (fAdd o.ty o.rnd (y.sF o.ty o.a) (y.sF o.ty o.b)).1))
    (fun _ y => (fAdd o.ty o.rnd (y.sF o.ty o.a) (y.sF o.ty o.b)).2)) ∧
  (∀ o : FBin, Gives (.fmul o) o.h o.d false
    (fun _ y => BitVec.ofNat 64 (saturated o.ty o.sat (fMul o.ty o.rnd (y.sF o.ty o.a) (y.sF o.ty o.b)).1))
    (fun _ y => (fMul o.ty o.rnd (y.sF o.ty o.a) (y.sF o.ty o.b)).2)) ∧
  (∀ o : FTern, Gives (.ffma o) o.h o.d false
    (fun _ y => BitVec.ofNat 64 (saturated o.ty o.sat (fFma o.ty o.rnd (y.sF o.ty o.a) (y.sF o.ty o.b) (y.sF o.ty o.c)).1))
    (fun _ y => (fFma o.ty o.rnd (y.sF o.ty o.a) (y.sF o.ty o.b) (y.sF o.ty o.c)).2))

/-- R185 to R191: FMINMAX, FCMP, FUNARY, FCLASS, FSPEC and TWOSUM give their results and flags; the flags of TWOSUM are those
of its first addition; flags on their way land in FPX in their cycle, beside those that stand there (R182).
What the spec leaves open here is the model's choice or reading (log entries 6 and 116). -/
def Obligations.FloatOthers : Prop :=
  (∀ h op d ty a b, Gives (.fminmax h op d ty a b) h d false
    (fun _ y => BitVec.ofNat 64 (fMinMax ty op (y.sF ty a) (y.sF ty b)).1)
    (fun _ y => (fMinMax ty op (y.sF ty a) (y.sF ty b)).2)) ∧
  (∀ h op d ty a b, GivesPred (.fcmp h op d ty a b) d (fun y => (fCmp ty op (y.sF ty a) (y.sF ty b)).1)
    (fun y => (fCmp ty op (y.sF ty a) (y.sF ty b)).2)) ∧
  (∀ h op d ty rnd a, Gives (.funary h op d ty rnd a) h d false
    (fun _ y => BitVec.ofNat 64 (fUnary ty op rnd (y.sF ty a)).1) (fun _ y => (fUnary ty op rnd (y.sF ty a)).2)) ∧
  (∀ h d ty a, Gives (.fclass h d ty a) h d false (fun _ y => BitVec.ofNat 64 (fClass ty (y.sF ty a))) noFlags) ∧
  (∀ h op d ty a, Gives (.fspec h op d ty a) h d false
    (fun _ y => BitVec.ofNat 64 (fSpec ty op (y.sF ty a)).1) (fun _ y => (fSpec ty op (y.sF ty a)).2)) ∧
  (∀ h d a b, Gives (.twosum h d a b) h d true
    (fun _ y =>
      let r := (twoSum (y.sF .f32 a) (y.sF .f32 b)).1
      BitVec.ofNat 64 (r.2 * 2 ^ 32 + r.1))
    (fun _ y => (fAdd .f32 .rn (y.sF .f32 a) (y.sF .f32 b)).2)) ∧
  (∀ (g : Group) now (i : Nat), i < 5 → ((landFlags g now).fpx.getLsbD i = true ↔
      g.fpx.getLsbD i = true ∨ ∃ f ∈ g.fpxLand, f.1 ≤ now ∧ f.2.getLsbD i = true)) ∧
  (∀ (g : Group) now f, f ∈ (landFlags g now).fpxLand ↔ f ∈ g.fpxLand ∧ now ≤ f.1)

/-- R192, R194, R197, R108, R109, R158: the packed words act on both halves of their operands, CVT converts between any two
types, QUNPACK multiplies the scale by the integer less its zero point; a pair word reads the operands of both halves
before either writes, and writes the destination of each half.
What the spec leaves open here is the model's choice or reading (log entries 37, 119 and 120). -/
def Obligations.PackedConvertedAndPairs : Prop :=
  ((∀ o : FBin, Gives (.hadd2 o) o.h o.d false
      (fun _ y => bothHalves fun k => saturated o.ty o.sat (fAdd o.ty o.rnd (y.sH o.ty k o.a) (y.sH o.ty k o.b)).1)
      (fun _ y => (fAdd o.ty o.rnd (y.sH o.ty 0 o.a) (y.sH o.ty 0 o.b)).2 |||
        (fAdd o.ty o.rnd (y.sH o.ty 1 o.a) (y.sH o.ty 1 o.b)).2)) ∧
    (∀ o : FBin, Gives (.hmul2 o) o.h o.d false
      (fun _ y => bothHalves fun k => saturated o.ty o.sat (fMul o.ty o.rnd (y.sH o.ty k o.a) (y.sH o.ty k o.b)).1)
      (fun _ y => (fMul o.ty o.rnd (y.sH o.ty 0 o.a) (y.sH o.ty 0 o.b)).2 |||
        (fMul o.ty o.rnd (y.sH o.ty 1 o.a) (y.sH o.ty 1 o.b)).2)) ∧
    (∀ o : FTern, Gives (.hfma2 o) o.h o.d false
      (fun _ y => bothHalves fun k =>
        saturated o.ty o.sat (fFma o.ty o.rnd (y.sH o.ty k o.a) (y.sH o.ty k o.b) (y.sH o.ty k o.c)).1)
      (fun _ y => (fFma o.ty o.rnd (y.sH o.ty 0 o.a) (y.sH o.ty 0 o.b) (y.sH o.ty 0 o.c)).2 |||
        (fFma o.ty o.rnd (y.sH o.ty 1 o.a) (y.sH o.ty 1 o.b) (y.sH o.ty 1 o.c)).2)) ∧
    (∀ h d dst src rnd sat a, Gives (.cvt h d dst src rnd sat a) h d dst.is64
      (fun _ y => (converted dst src rnd sat y a).1) (fun _ y => (converted dst src rnd sat y a).2)) ∧
    (∀ h d q4 zp0 a b c, Gives (.qunpack h d q4 zp0 a b c) h d false
      (fun _ y =>
        let s := cvtFloat .f16 .f32 .rn (bits (y.s32 b) 0 16).toNat
        BitVec.ofNat 64 (fMul .f32 .rn s.1 (roundInt .f32 .rn (qInt q4 zp0 y a b c) 0 false).1).1)
      (fun _ y =>
        let s := cvtFloat .f16 .f32 .rn (bits (y.s32 b) 0 16).toNat
        s.2 ||| (fMul .f32 .rn s.1 (roundInt .f32 .rn (qInt q4 zp0 y a b c) 0 false).1).2))) ∧
  (∀ y a b s x, issueAt (.pairWord y a b) s = some x →
      ∃ t g, exec (.pairWord y a b) s = .next t ∧ t.grp? x.core = some g ∧
        (∀ u ∈ x.on, ∀ d, b.dest = some d → (g.thread u).r d.toNat = (half (x.rd u) b).1) ∧
        (∀ u ∈ x.on, ∀ d, a.dest = some d → b.dest ≠ some d → (g.thread u).r d.toNat = (half (x.rd u) a).1) ∧
        g.fpxLand = (addFlags x.g (x.s.now + x.info.lat)
          ((x.on.map fun u => (half (x.rd u) a).2 ||| (half (x.rd u) b).2).foldl (· ||| ·) 0)).fpxLand ∧
        RegFrame x t g ((a.dest.toList ++ b.dest.toList).map (·.toNat)) [])

/-- R173, R174, R178, R180: the arithmetic of the formats. A NaN operand gives the canonical NaN, with NV where it is
signalling; rounding keeps exact integers, takes the nearest multiple (ties to even) under RN, and never passes the value
under RZ. -/
def Obligations.Rounding : Prop :=
  (∀ t r a b, ((unpack t a).isNan || (unpack t b).isNan) = true →
    fAdd t r a b = (nanBits t, flagIf ((unpack t a).isSnan || (unpack t b).isSnan) fNV) ∧
    fMul t r a b = (nanBits t, flagIf ((unpack t a).isSnan || (unpack t b).isSnan) fNV)) ∧
  (∀ r neg m (e q : Int), q ≤ e → cutRound r neg m e q false = (m * 2 ^ (e - q).toNat, true)) ∧
  (∀ r neg m (e q : Int), e < q →
    let s := (q - e).toNat
    let n := (cutRound r neg m e q false).1
    ((cutRound r neg m e q false).2 = true ↔ n * 2 ^ s = m) ∧
    (r = .rn → 2 * n * 2 ^ s ≤ 2 * m + 2 ^ s ∧ 2 * m ≤ 2 * n * 2 ^ s + 2 ^ s ∧
      (2 * n * 2 ^ s = 2 * m + 2 ^ s ∨ 2 * m = 2 * n * 2 ^ s + 2 ^ s → n % 2 = 0)) ∧
    (r = .rz → n * 2 ^ s ≤ m ∧ m < (n + 1) * 2 ^ s) ∧
    (r = .ru → neg = false → m ≤ n * 2 ^ s ∧ n * 2 ^ s < m + 2 ^ s) ∧
    (r = .rd → neg = true → m ≤ n * 2 ^ s ∧ n * 2 ^ s < m + 2 ^ s))

namespace Sys2Proof.Claims
open Machine

/-! ## Control and privileged words -/

/-- A thread without its scoreboard and the bookkeeping of its region. -/
def Thread.arch (t : Thread) : Thread := { t with lands := [], rclosed := false, rsPc := 0, rsPrio := 0, rage := 0 }

/-- A thread at the next word, with the priority of a fall-through (R125). -/
def onward (x : Ctx) (t : Thread) : Thread :=
  { t with pc := nextPc x.pc, prio := fallPrio x.g.blocks (nextPc x.pc) t.prio }

/-- A word that changes each thread that executes it as `f` says, moves the other threads of its sheet to the next word, and
changes no register elsewhere, no memory and no other core. -/
structure Acted (x : Ctx) (f : Nat → Thread → Thread) (t : State) (g : Group) : Prop where
  grp : t.grp? x.core = some g
  outside : OnlyGroup x.core x.s t
  rest : Group.rest g = Group.rest x.g
  results : g.pend = x.g.pend
  flags : g.fpxLand = x.g.fpxLand
  own : ∀ u ∈ x.on, Thread.arch (g.thread u) = Thread.arch (f u (x.g.thread u))
  others : ∀ u ∈ x.r.tids, u ∉ x.on → Thread.arch (g.thread u) = Thread.arch (onward x (x.g.thread u))
  idle : ∀ u, u ∉ x.r.tids → g.thread u = x.g.thread u

/-- A word has changed no register, no predicate and no memory, and its sheet stands at the next word. -/
structure Quiet (x : Ctx) (t : State) (g : Group) : Prop where
  grp : t.grp? x.core = some g
  regs : ∀ u, (g.thread u).w = (x.g.thread u).w ∧ (g.thread u).p = (x.g.thread u).p
  pc : ∀ u, u ∈ x.r.tids → (g.thread u).pc = nextPc x.pc
  idle : ∀ u, u ∉ x.r.tids → g.thread u = x.g.thread u
  memory : t.mem = x.s.mem
  others : ∀ c, c ≠ x.core → t.core c = x.s.core c

/-- A word that acts so wherever it issues and `P` holds. -/
def Acts (i : Instr) (P : Ctx → Prop) (f : Ctx → Nat → Thread → Thread) : Prop :=
  ∀ s x, issueAt i s = some x → P x → ∃ t g, exec i s = .next t ∧ Acted x (f x) t g

/-- A thread transferred to a pair (R165, R166). -/
def sent (pc : Va) (prio : BitVec 8) (t : Thread) : Thread := { t with pc := pc, prio := prio, pix := 0 }

/-- A thread transferred through a function pointer (R166). -/
def through (p : W64) (t : Thread) : Thread := sent ((bits p 3 53 ++ (0 : BitVec 3)).setWidth 57) (bits p 56 8) t

/-- The target of BRA and CALL, and that it lies in range (R96, R165). -/
def aim (x : Ctx) (t : Target) : Int := x.pc.toNat + 8 * t.off.toInt
def inRange (v : Int) : Prop := 0 ≤ v ∧ v ≤ 2 ^ 56 - 8

/-- The return entry of a call of a thread (R135, R136). -/
def returnEntry (x : Ctx) (t : Thread) : W64 :=
  (onward x t).prio ++ ((onward x t).pc.setWidth 56)

/-- Threads whose traps are taken at once: outside trap mode, with nothing of their regions open, in a partition with a
handler (R233, R397). -/
def canTrap (x : Ctx) (u : Nat) : Prop := x.g.complete u = true ∧ (x.g.thread u).tm = false
def hasHandler (x : Ctx) : Prop := bit (x.s.tvec x.g.part) 0 = true

/-- A thread that has entered trap mode (R397). -/
def trapped (x : Ctx) (cause : W64) (val : W64) (pc : Va) (prio : BitVec 8) (trec : W64) (t : Thread) : Thread :=
  let tvec := x.s.tvec x.g.part
  { t with
    tcause := cause, tval := val, tpc := prio ++ pc.setWidth 56, trec := trec,
    tstate := (0 : BitVec 31) ++ (if bit t.pix 31 then (1 : BitVec 1) else 0) ++ t.pix, pix := 0, tm := true,
    pc := (bits tvec 3 53 ++ (0 : BitVec 3)).setWidth 57, prio := bits tvec 56 8, ptrap := none }

/-- A word whose results of variable latency are on their way (R132): each thread that executes it has one, with its value;
registers and predicates stay until it lands. -/
def Sends (i : Instr) (P : Ctx → Prop) (regs : List Nat) (v : Ctx → Nat → List W32) : Prop :=
  ∀ s x, issueAt i s = some x → P x → ∃ t g, exec i s = .next t ∧ t.grp? x.core = some g ∧
    (∀ u ∈ x.on, ∃ p ∈ g.pend, p.tid = u ∧ p.pc = x.pc ∧ p.dsts = regs.map some ∧ p.st = .ready (v x u)) ∧
    (∀ u, (g.thread u).w = (x.g.thread u).w ∧ (g.thread u).p = (x.g.thread u).p) ∧
    (∀ u ∈ x.r.tids, (g.thread u).pc = nextPc x.pc) ∧
    (∀ u, u ∉ x.r.tids → g.thread u = x.g.thread u) ∧
    t.mem = x.s.mem

/-- The traps that checks 1 to 4 give the threads of a word's sheet (R113). -/
def checksAt (i : Instr) (s : State) : Option (Ctx × List (Nat × Fate)) :=
  match s.grp? s.sel.1, s.run s.sel.1 s.sel.2, infoOf i with
  | some g, some r, some w =>
    if mayIssue s s.sel.1 g && !r.tids.isEmpty && !stopsBefore s s.sel.1 g r w && shaped g && sheetOk g r then
      some (issueCtx w (rawOf i) none s g r)
    else none
  | _, _, _ => none

/-- Every thread of the sheet takes a trap of the word that checks 1 to 4 give it, and nothing else happens but that time
passes: no other thread, no other core, no result on its way, no flag, no queue, no other state. -/
def AllTrap (i : Instr) (cause : W64) (val : Ctx → W64) (P : Ctx → Prop) : Prop :=
  ∀ s x bad, checksAt i s = some (x, bad) → P x → (∀ u ∈ x.r.tids, canTrap x u) → hasHandler x →
    ∃ t g, exec i s = .next t ∧ t.grp? x.core = some g ∧ t.mem = s.mem ∧ OnlyGroup x.core x.s t ∧
      State.rest { t with now := s.now } = State.rest s ∧ Group.rest g = Group.rest x.g ∧ g.pend = x.g.pend ∧
      g.fpxLand = x.g.fpxLand ∧ (∀ u, u ∉ x.r.tids → g.thread u = x.g.thread u) ∧
      ∀ u ∈ x.r.tids, Thread.arch (g.thread u) =
        Thread.arch (trapped x cause (val x) x.pc (x.g.thread u).prio 0 (x.g.thread u))

end Sys2Proof.Claims

open Sys2Proof Sys2Proof.Machine Sys2Proof.Claims

/-- R165, R166, R136, R137, R167: BRA, BRX, CALL, CALLX and RET transfer each thread that executes them, a
call with its return entry pushed, a return with it popped; threads with a false guard go on; a call that finds four
entries stores the oldest to its spill slot, as a store of its own region that has still to drain; a return of a thread
with spilled entries asks for the last one, which joins the stack when it lands; a call traps CALL_SPILL where the spill
area is full, a return where there is no entry, a branch out of range traps WINDOW; nothing of a call or return that traps
takes effect. -/
def Obligations.Transfers : Prop :=
  ((∀ h t close, Acts (.bra h t close) (fun x => inRange (aim x t))
      (fun x _ => sent (BitVec.ofInt 57 (aim x t)) t.prio)) ∧
    (∀ h aux, Acts (.brx h aux) (fun _ => True) (fun _ _ th => through (th.r64 aux.toNat) th)) ∧
    (∀ h t, Acts (.call h t) (fun x => inRange (aim x t) ∧ ∀ u ∈ x.on, (x.g.thread u).ret.length < 4)
      (fun x _ th => sent (BitVec.ofInt 57 (aim x t)) t.prio { th with ret := returnEntry x th :: th.ret })) ∧
    (∀ h aux, Acts (.callx h aux) (fun x => ∀ u ∈ x.on, (x.g.thread u).ret.length < 4)
      (fun x _ th => through (th.r64 aux.toNat) { th with ret := returnEntry x th :: th.ret })) ∧
    (∀ h, Acts (.ret h) (fun x => ∀ u ∈ x.on, (x.g.thread u).ret ≠ [] ∧ (x.g.thread u).spilln = 0)
      (fun _ _ th => through (th.ret.headD 0) { th with ret := th.ret.tail }))) ∧
  ((∀ h t s x u a b c d acc ia, issueAt (.call h t) s = some x → x.on = [u] → inRange (aim x t) →
      (x.g.thread u).ret = [a, b, c, d] → (x.g.thread u).spilln < recSpillStride x.g.lrec / 16 →
      spillAcc x.s x.core x.g .wr (spillSlot x.g u (x.g.thread u).spilln) = .ok acc → acc.loc = .ia ia →
      x.g.rbUsed + 2 ≤ 2048 →
      ∃ t' g e f, exec (.call h t) s = .next t' ∧ t'.grp? x.core = some g ∧ t'.mem = x.s.mem ∧ g.rb = x.g.rb ++ [e, f] ∧
        e.tid = u ∧ e.use = .spill ∧ e.st = .probing ∧ e.acc.loc = .ia ia ∧ e.data = bytesOf 8 d.toNat ∧
        f.tid = u ∧ f.use = .spill ∧ f.st = .probing ∧ f.acc.loc = .ia (ia + 8) ∧ f.data = bytesOf 8 0 ∧
        (g.thread u).ret = [returnEntry x (x.g.thread u), a, b, c] ∧ (g.thread u).spilln = (x.g.thread u).spilln + 1 ∧
        (g.thread u).undo = some ([a, b, c, d], (x.g.thread u).spilln) ∧
        (g.thread u).pc = BitVec.ofInt 57 (aim x t) ∧ (g.thread u).prio = t.prio) ∧
    (∀ h s x u top rest acc ia s', issueAt (.ret h) s = some x → x.on = [u] → (x.g.thread u).ret = top :: rest →
      (x.g.thread u).spilln ≠ 0 →
      spillAcc x.s x.core x.g .rd (spillSlot x.g u ((x.g.thread u).spilln - 1)) = .ok acc → acc.loc = .ia ia →
      loadAt x.s x.core u x.pc [] false .spill { acc with n := 8 } ia = some s' →
      ∃ t g g', exec (.ret h) s = .next t ∧ t.grp? x.core = some g ∧ s'.grp? x.core = some g' ∧ t.mem = x.s.mem ∧
        g.pend = g'.pend ∧ (∃ p ∈ g.pend, p.tid = u ∧ p.use = .spill ∧ p.kind.acc? = some { acc with n := 8 }) ∧
        (g.thread u).ret = rest ∧ (g.thread u).undo = some (top :: rest, (x.g.thread u).spilln) ∧
        (g.thread u).pc = (through top (x.g.thread u)).pc ∧ (g.thread u).prio = bits top 56 8) ∧
    (∀ h t, Acts (.call h t) (fun x => inRange (aim x t) ∧ hasHandler x ∧
        ∀ u ∈ x.on, canTrap x u ∧ (x.g.thread u).ret.length = 4 ∧ recSpillStride x.g.lrec / 16 ≤ (x.g.thread u).spilln)
      (fun x u th => trapped x 15 (spillSlot x.g u th.spilln) x.pc th.prio 0 th)) ∧
    (∀ h, Acts (.ret h) (fun x => hasHandler x ∧ ∀ u ∈ x.on, canTrap x u ∧ (x.g.thread u).ret = [])
      (fun x _ th => trapped x 15 0 x.pc th.prio 0 th)) ∧
    (∀ h t close, Acts (.bra h t close) (fun x => ¬ inRange (aim x t) ∧ hasHandler x ∧ ∀ u ∈ x.on, canTrap x u)
      (fun x _ th => trapped x 7 (BitVec.ofInt 64 (aim x t)) x.pc th.prio 0 th)))

/-- R168: EXIT ends each thread that executes it, also in trap mode: it leaves its entry, its return entries and the results
still on their way to it; the others go on, and no register changes. -/
def Obligations.ExitEndsThreads : Prop :=
  ∀ h s x, issueAt (.exit h) s = some x → (∀ u ∈ x.on, x.g.waiting u = none) →
    ∃ t g, exec (.exit h) s = .next t ∧ t.grp? x.core = some g ∧ t.mem = x.s.mem ∧
      (∀ u ∈ x.on, (g.thread u).done = true ∧ (g.thread u).tm = false ∧ (g.thread u).ret = [] ∧ (g.thread u).spilln = 0 ∧
        (∀ e ∈ g.frontier, u ∉ e.tids) ∧ (∀ e ∈ g.parking, u ∉ e.tids) ∧ (∀ p ∈ g.pend, p.tid ≠ u)) ∧
      (∀ u ∈ x.r.tids, u ∉ x.on → (g.thread u).done = (x.g.thread u).done ∧ (g.thread u).pc = nextPc x.pc) ∧
      (∀ u, (g.thread u).w = (x.g.thread u).w) ∧
      (∀ u, u ∉ x.r.tids → g.thread u = x.g.thread u)

/-- R169, R397, R403: TRAP and BRK enter the handler with cause SOFTWARE or BREAK, TVAL the register that AUX names, and
TPC the next word with its priority, so that ERET resumes after them; a trap outside trap mode saves cause, value, pair,
trap record and PIX and enters the handler; a trap in trap mode, or in a partition without a handler, halts the group with
DOUBLE and changes no thread.
What the spec leaves open here is the model's choice or reading (log entry 41). -/
def Obligations.TrapsTaken : Prop :=
  ((∀ h aux, Acts (.trap h aux) (fun x => hasHandler x ∧ ∀ u ∈ x.on, canTrap x u)
      (fun x _ th => trapped x 0x10 (((th.r aux.toNat)).setWidth 64) (onward x th).pc (onward x th).prio 0 th)) ∧
    (∀ h aux, Acts (.brk h aux) (fun x => hasHandler x ∧ ∀ u ∈ x.on, canTrap x u)
      (fun x _ th => trapped x 0x11 (((th.r aux.toNat)).setWidth 64) (onward x th).pc (onward x th).prio 0 th))) ∧
  ((∀ (g : Group) tvec t cause val pc prio trec, t < g.threads.length → (g.thread t).tm = false → bit tvec 0 = true →
      let g' := g.trapThread tvec t cause val pc prio trec
      let y := g'.thread t
      y.tcause = BitVec.ofNat 64 cause ∧ y.tval = val ∧ y.tpc = prio ++ pc.setWidth 56 ∧ y.trec = trec ∧
        bits y.tstate 0 32 = (g.thread t).pix ∧ bit y.tstate 32 = bit (g.thread t).pix 31 ∧ bits y.tstate 33 31 = (0 : BitVec 31) ∧
        y.pix = 0 ∧ y.tm = true ∧ y.pc.toNat = (bits tvec 3 53).toNat * 8 ∧ y.prio = bits tvec 56 8 ∧
        y.w = (g.thread t).w ∧ y.p = (g.thread t).p ∧ y.ret = (g.thread t).ret ∧ g'.rb = g.rb ∧ g'.pend = g.pend ∧
        ∀ u, u ≠ t → g'.thread u = g.thread u) ∧
    (∀ (g : Group) tvec t cause val pc prio trec, g.st = .running → (g.thread t).tm = true →
      g.trapThread tvec t cause val pc prio trec = { g with st := .halting 0x13 (g.thread t).tpc }) ∧
    (∀ (g : Group) tvec t cause val pc prio trec, g.st = .running → (g.thread t).tm = false → bit tvec 0 = false →
      g.trapThread tvec t cause val pc prio trec = { g with st := .halting 0x13 (prio ++ pc.setWidth 56) }) ∧
    (∀ (g : Group) tvec t cause val pc prio trec, g.st ≠ .running → ((g.thread t).tm = true ∨ bit tvec 0 = false) →
      g.trapThread tvec t cause val pc prio trec = g))

/-- R402, R112, R113, R401: ERET resumes each thread that executes it at the pair in TPC, with PIX restored where PIXV is set,
and leaves trap mode; a thread with a false guard stays in trap mode at the next word; outside trap mode ERET, CSRR and
CSRW trap PRIV at check 2, with the word in TVAL, and have no other effect; so does TAGSET outside trap mode without the
right of its context; every word that no privilege stops and that names a register at or above REGS traps ILLEGAL_OPERAND,
with no other effect. -/
def Obligations.EretAndChecks : Prop :=
  (∀ h, Acts (.eret h) (fun _ => True) (fun _ _ th =>
      { th with
        pc := (bits th.tpc 3 53 ++ (0 : BitVec 3)).setWidth 57, prio := bits th.tpc 56 8,
        pix := if bit th.tstate 32 then bits th.tstate 0 32 else 0,
        tstate := th.tstate &&& 0xFFFFFFFF, tm := false })) ∧
  ((∀ h, AllTrap (.eret h) 5 (·.raw) (fun _ => True)) ∧
    (∀ h d c, AllTrap (.csrr h d c) 5 (·.raw) (fun _ => True)) ∧
    (∀ h c a, AllTrap (.csrw h c a) 5 (·.raw) (fun _ => True)) ∧
    (∀ h m b sz, AllTrap (.tagset h m b sz) 5 (·.raw) (fun x => bit (x.s.core x.core).ctxperm 0 = false)) ∧
    (∀ i, AllTrap i 2 (·.raw) (fun x => x.g.regs < x.info.top ∧
      (x.info.priv = .none ∨ x.info.priv = .tagu ∧ bit (x.s.core x.core).ctxperm 0 = true))))

/-- R385, R399, R400, R401, R403: in trap mode CSRR brings the CSR it names to its pair of registers, and CSRW writes the one it names: a trap
register with its reserved fields kept zero, TPC with PIXV cleared, FPX by clearing bits, RINGSHARE for the partition; a
CSRW of a CSR that no program may write traps PRIV, which in trap mode is a second error: it halts the group with DOUBLE
and leaves the thread in trap mode. -/
def Obligations.CsrWords : Prop :=
  (∀ h d c, h.nw = false → Sends (.csrr h d c) (fun _ => True) [d.toNat, d.toNat + 1] (fun x u =>
    let v : W64 := match c with
      | .tvec => x.s.tvec x.g.part
      | .tcause => (x.g.thread u).tcause
      | .tpc => (x.g.thread u).tpc
      | .tval => (x.g.thread u).tval
      | .trec => (x.g.thread u).trec
      | .tstate => (x.g.thread u).tstate
      | .fpx => x.g.fpx.setWidth 64
      | .win n d => (x.s.core x.core).wins.getD (2 * n.toNat + d.toNat) 0
      | .ctxperm => (x.s.core x.core).ctxperm
      | .ringshare => (x.s.part x.g.part).ringshare
    [bits v 0 32, bits v 32 32])) ∧
  (∀ h d c, h.nw = true → OnlyAdvances (.csrr h d c)) ∧
  (∀ h a, Acts (.csrw h .tcause a) (fun _ => True)
    (fun x u th => onward x { th with tcause := (x.rd u).s64 a &&& 0xFF })) ∧
  (∀ h a, Acts (.csrw h .tval a) (fun _ => True) (fun x u th => onward x { th with tval := (x.rd u).s64 a })) ∧
  (∀ h a, Acts (.csrw h .tpc a) (fun _ => True) (fun x u th =>
    onward x { th with tpc := (x.rd u).s64 a &&& ~~~7, tstate := th.tstate &&& 0xFFFFFFFF })) ∧
  (∀ h a, Acts (.csrw h .tstate a) (fun _ => True)
    (fun x u th => onward x { th with tstate := (x.rd u).s64 a &&& 0x1FFFFFFFF })) ∧
  (∀ h a s x u, issueAt (.csrw h .fpx a) s = some x → x.on = [u] →
    ∃ t g, exec (.csrw h .fpx a) s = .next t ∧ Quiet x t g ∧
      ((∀ f ∈ x.g.fpxLand, f.1 ≠ x.s.now) → g.fpx = x.g.fpx &&& ~~~(bits ((x.rd u).s64 a) 0 5)) ∧
      (∀ f ∈ x.g.fpxLand, f.1 = x.s.now → g.fpx &&& f.2 = f.2)) ∧
  (∀ h a s x u, issueAt (.csrw h .ringshare a) s = some x → x.on = [u] →
    (x.pipe = 0 → (x.s.core x.core).rsAt ≠ x.s.now + 1) →
    ∃ t g, exec (.csrw h .ringshare a) s = .next t ∧ Quiet x t g ∧ (t.part x.g.part).ringshare = (x.rd u).s64 a &&& 0xFFFFFFFF ∧
      ∀ p, p ≠ x.g.part → t.part p = s.part p) ∧
  (∀ h c a s x u, c.writable = false → issueAt (.csrw h c a) s = some x → x.on = [u] → x.g.complete u = true →
    ∃ t g, exec (.csrw h c a) s = .next t ∧ t.grp? x.core = some g ∧ g.st = .halting 0x13 (x.g.thread u).tpc ∧
      (g.thread u).tm = true)

/-- R171, R172: NOPRE.OPEN opens the window for 65,536 cycles where it is shut and no request waits, and gives each thread the
cycles left, 0 where a request waits; NOPRE.SHUT and the deadline shut it.
What the spec leaves open here is the model's choice or reading (log entries 5, 49 and 52). -/
def Obligations.NoPreemptionWindow : Prop :=
  (∀ h aux s x, issueAt (.nopreOpen h aux) s = some x → x.on ≠ [] →
    let clock := x.s.clock x.core x.g.clockOff
    let waits := (x.s.core x.core).preq || (x.s.core x.core).testDue
    ∃ t g, exec (.nopreOpen h aux) s = .next t ∧ Quiet x t g ∧
      (x.g.nopreOpen clock = true → g.nopre = x.g.nopre) ∧
      (x.g.nopreOpen clock = false → waits = false → g.nopre = some (clock + 65536)) ∧
      (x.g.nopreOpen clock = false → waits = true → g.nopre = none) ∧
      (∀ u ∈ x.on, ∃ p ∈ g.pend, p.tid = u ∧ p.dsts = [some aux.toNat] ∧
        p.st = .ready [if waits then 0 else BitVec.ofNat 32 (g.nopre.getD clock - clock)])) ∧
  (∀ h s x, issueAt (.nopreShut h) s = some x → x.on ≠ [] →
    ∃ t g, exec (.nopreShut h) s = .next t ∧ Quiet x t g ∧ g.nopre = none) ∧
  (∀ core s g d, s.grp? core = some g → g.nopre = some d →
    exec (.nopreDeadline core) s =
      .next (if d ≤ s.clock core g.clockOff then s.setGrp core { g with nopre := none } else s))

namespace Sys2Proof.Claims
open Machine

/-! ## Memory words -/

/-- A request of each thread that executes a word is on its way: its access has passed checks 1 to 3 of R198 as `acc` says,
and `k` is what it asks for. -/
def AsksFor (i : Instr) (P : Ctx → Prop) (acc : Ctx → Nat → Except Bad Acc) (dsts : List Nat)
    (k : Ctx → Nat → Acc → PKind) : Prop :=
  ∀ s x, issueAt i s = some x → P x → (∀ u ∈ x.on, ∃ a, acc x u = .ok a) →
    ∃ t g, exec i s = .next t ∧ Quiet x t g ∧
      ∀ u ∈ x.on, ∀ a, acc x u = .ok a →
        ∃ p ∈ g.pend, p.tid = u ∧ p.pc = x.pc ∧ p.dsts = dsts.map some ∧ p.kind = k x u a ∧ p.st = .sent

/-- The value of an operand of ATOM and RED at a size (R101, R336). -/
def operandOf (y : Rd) (op : AtomOp) (sz : Sz) (b : Sel) : Nat :=
  match op, b with
  | .fadd, .i v => (roundInt .f32 .rn v.toInt 0 false).1
  | _, _ => natOfBytes (dataBytes y sz b)

/-- Places in a header's destination. -/
def dsts (h : Hdr) (d : BitVec 8) (n : Nat) : List Nat := if h.nw then [] else (List.range n).map (d.toNat + ·)

/-- An access of the own core's scratchpad. -/
def ownSpad (x : Ctx) (va : W64) (off n : Nat) : Acc := ⟨va, .spad x.core off, n, .u, false, 0⟩

/-- The words of the long instructions, with what they say (R215). -/
inductive LongWord : Instr → LongOp → MemAddr → Nat → Sz → RT → Prop where
  | gather (h d m b sz sx rt) : LongWord (.gather h d m b sz sx rt) (.gather (BitVec.toNat d) sx h.nw) m (BitVec.toNat b) sz rt
  | scatter (h m b sz rt) : LongWord (.scatter h m b sz rt) .scatter m (BitVec.toNat b) sz rt
  | cst (h m b sz rt) : LongWord (.cst h m b sz rt) .cst m (BitVec.toNat b) sz rt

/-- The right that the elements of a long instruction need. -/
def longRight : LongOp → Right
  | .gather _ _ _ => .rd
  | _ => .wr

/-- The lowest element from `k` on that takes part in a thread's block (R215). -/
def firstElem (th : Thread) (b k : Nat) : Option Nat :=
  (List.range (bits (th.r b) 0 7).toNat).find? fun j => decide (k ≤ j) && bit (blockMask th b) j

end Sys2Proof.Claims

open Sys2Proof Sys2Proof.Machine Sys2Proof.Claims

/-- R213, R228, R132: LD of the own core's scratchpad gives the bytes there, with the thread's own buffered bytes over them,
to its destination, and changes nothing else; loads below 32 bits are extended. -/
def Obligations.ScratchpadLoads : Prop :=
  (∀ h d m sz sx rt s x (off : Nat → Nat), issueAt (.ld h d m sz sx rt) s = some x →
    (∀ u ∈ x.on, locate x.s x.core x.g .rd (memEa m (x.rd u)) sz.bytes sz.bytes rt =
      .ok (ownSpad x (memEa m (x.rd u)) (off u) sz.bytes)) →
    ∃ t g, exec (.ld h d m sz sx rt) s = .next t ∧ t.grp? x.core = some g ∧
      (∀ u ∈ x.on, ∀ (k : Nat) (v : W32), h.nw = false → k < sz.regs →
        (loadWords sz.bytes sx (mergeOwn (ownBytes x.g u (ownSpad x (memEa m (x.rd u)) (off u) sz.bytes))
          (memReadN x.g.spad (off u) sz.bytes)))[k]? = some v →
        (g.thread u).r (d.toNat + k) = v) ∧
      RegFrame x t g (dsts h d sz.regs) []) ∧
  (∀ b : Byte, loadWords 1 true [b] = [b.signExtend 32] ∧ loadWords 1 false [b] = [b.setWidth 32]) ∧
  (∀ b c : Byte, loadWords 2 true [b, c] = [(c ++ b).signExtend 32] ∧ loadWords 2 false [b, c] = [(c ++ b).setWidth 32]) ∧
  (∀ (sx : Bool) (b c d e : Byte), loadWords 4 sx [b, c, d, e] = [e ++ d ++ c ++ b])

/-- R203, R206, R213, R200: LD of memory under U asks the home; under another type it is answered by a valid line of the L1
whose tags agree, and asks for the line where the L1 lacks it; one of 16 bytes makes two accesses of 8 bytes, each for its
two registers. No register changes before the result lands.
What the spec leaves open here is the model's choice or reading (log entries 18 and 33). -/
def Obligations.MemoryLoads : Prop :=
  (∀ h d m sz sx, AsksFor (.ld h d m sz sx .u) (fun _ => sz ≠ .b128)
    (fun x u => match locate x.s x.core x.g .rd (memEa m (x.rd u)) sz.bytes sz.bytes .u with
      | .ok ⟨va, .ia ia, n, rt, tc, ps⟩ => .ok ⟨va, .ia ia, n, rt, tc, ps⟩
      | .ok a => .error (0, a.va)
      | .error e => .error e)
    (dsts h d sz.regs) (fun x u a => .load a sx (ownBytes x.g u a) true)) ∧
  (∀ h d m sz sx rt s x u a ia l bs, issueAt (.ld h d m sz sx rt) s = some x → x.on = [u] → rt ≠ .u → sz ≠ .b128 →
    locate x.s x.core x.g .rd (memEa m (x.rd u)) sz.bytes sz.bytes rt = .ok a → a.loc = .ia ia →
    x.g.earlierLoad u x.g.nextId a = false → (x.s.core x.core).line? (ia / 128) = some l → l.bytes? ia sz.bytes = some bs →
    l.tagOk a ia = true →
    ∃ t g, exec (.ld h d m sz sx rt) s = .next t ∧ Quiet x t g ∧
      ∃ p ∈ g.pend, p.tid = u ∧ p.dsts = (dsts h d sz.regs).map some ∧
        p.st = .ready (loadWords sz.bytes sx (mergeOwn (ownBytes x.g u a) bs))) ∧
  (∀ h d m sz sx rt s x u a ia, issueAt (.ld h d m sz sx rt) s = some x → x.on = [u] → rt ≠ .u → sz ≠ .b128 →
    locate x.s x.core x.g .rd (memEa m (x.rd u)) sz.bytes sz.bytes rt = .ok a → a.loc = .ia ia →
    x.g.earlierLoad u x.g.nextId a = false → (x.s.core x.core).line? (ia / 128) = none →
    ∃ t g, exec (.ld h d m sz sx rt) s = .next t ∧ Quiet x t g ∧ (∃ k ∈ (t.core x.core).misses, k.line = ia / 128) ∧
      ∃ p ∈ g.pend, p.tid = u ∧ p.dsts = (dsts h d sz.regs).map some ∧ p.st = .sent ∧
        p.kind = .load a sx (ownBytes x.g u a) false) ∧
  (∀ h d m sx rt s x u a ia s1 s2 g1 g2, issueAt (.ld h d m .b128 sx rt) s = some x → x.on = [u] →
    locate x.s x.core x.g .rd (memEa m (x.rd u)) 16 16 rt = .ok a → a.loc = .ia ia →
    loadAt x.s x.core u x.pc ((dsts h d 4).take 2) sx .word { a with n := 8 } ia = some s1 → s1.grp? x.core = some g1 →
    loadAt s1 x.core u x.pc ((dsts h d 4).drop 2) sx .word { a with va := a.va + 8, loc := .ia (ia + 8), n := 8 } (ia + 8) =
      some s2 → s2.grp? x.core = some g2 →
    ∃ t g p q, exec (.ld h d m .b128 sx rt) s = .next t ∧ Quiet x t g ∧ g.pend = g2.pend ∧ p ∈ g.pend ∧ q ∈ g.pend ∧
      p.tid = u ∧ q.tid = u ∧ p.kind.acc? = some { a with n := 8 } ∧
      q.kind.acc? = some { a with va := a.va + 8, loc := .ia (ia + 8), n := 8 })

/-- R214, R220, R226, R310: ST and TAGSET place the entry of each thread that executes them, with its data or tag, and send
its one probe; a store of 16 bytes takes two entries of the buffer, a TAGSET too; no byte of memory or of the scratchpad, no
line of the L1, no register, no result on its way and no other core changes until the entry drains. -/
def Obligations.StoresWait : Prop :=
  (∀ h m b sz rt s x, issueAt (.st h m b sz rt) s = some x →
    (∀ u ∈ x.on, ∃ a, locate x.s x.core x.g .wr (memEa m (x.rd u)) sz.bytes sz.bytes rt = .ok a) →
    x.g.rbUsed + 2 * x.on.length ≤ 2048 →
    ∃ t g, exec (.st h m b sz rt) s = .next t ∧ Quiet x t g ∧ OnlyGroup x.core x.s t ∧ g.spad = x.g.spad ∧
      g.pend = x.g.pend ∧ (∀ e ∈ x.g.rb, e ∈ g.rb) ∧
      (∀ u ∈ x.on, ∀ a, locate x.s x.core x.g .wr (memEa m (x.rd u)) sz.bytes sz.bytes rt = .ok a →
        ∃ e ∈ g.rb, e.tid = u ∧ e.pc = x.pc ∧ e.tag = none ∧ e.use = .word ∧ e.data = dataBytes (x.rd u) sz b ∧
          e.acc = a ∧ e.slots = (if sz = .b128 then 2 else 1) ∧ (∀ ia, a.loc = .ia ia → e.st = .probing))) ∧
  (∀ h m b sz s x, issueAt (.tagset h m b sz) s = some x →
    (∀ u ∈ x.on, isPlace (memEa m (x.rd u)) = false ∧
      ∃ a, locate x.s x.core x.g .wr (memEa m (x.rd u)) (32 * sz.bytes) (32 * sz.bytes) .u = .ok a) →
    x.g.rbUsed + 2 * x.on.length ≤ 2048 →
    ∃ t g, exec (.tagset h m b sz) s = .next t ∧ Quiet x t g ∧ OnlyGroup x.core x.s t ∧ g.spad = x.g.spad ∧
      g.pend = x.g.pend ∧ (∀ e ∈ x.g.rb, e ∈ g.rb) ∧
      ∀ u ∈ x.on, ∃ e ∈ g.rb, e.tid = u ∧ e.pc = x.pc ∧ e.tag = some (bits ((x.rd u).s32 b) 0 4) ∧ e.slots = 2 ∧
        e.acc.va = memEa m (x.rd u) ∧ e.acc.n = 32 * sz.bytes ∧ e.acc.tagchk = false ∧ e.st = .probing)

/-- R337, R101, R315 to R318: ATOM, RED, APPEND, SEAL and TAILQ send each thread's request to its home, with their operands as
they are read, an inline integer of FADD as the F32 value of it; no register changes before the answer lands. -/
def Obligations.RequestsToHomes : Prop :=
  (∀ h op d m b sz sc, AsksFor (.atom h op d m b sz sc)
    (fun x => ∀ u ∈ x.on, ∀ a, locate x.s x.core x.g .rdwr (atomEa m (x.rd u)) sz.bytes sz.bytes .u = .ok a →
      atomAllowed x.s x.g.part a op false sc = true)
    (fun x u => locate x.s x.core x.g .rdwr (atomEa m (x.rd u)) sz.bytes sz.bytes .u) (dsts h d sz.regs)
    (fun x u a => .atom op a (operandOf (x.rd u) op sz b) (operandOf (x.rd u) op sz (.w d)) sc x.raw)) ∧
  (∀ h op m b sz sc, AsksFor (.red h op m b sz sc)
    (fun x => ∀ u ∈ x.on, ∀ a, locate x.s x.core x.g .rdwr (atomEa m (x.rd u)) sz.bytes sz.bytes .u = .ok a →
      atomAllowed x.s x.g.part a (redToAtom op) true sc = true)
    (fun x u => locate x.s x.core x.g .rdwr (atomEa m (x.rd u)) sz.bytes sz.bytes .u) []
    (fun x u a => .red op a (operandOf (x.rd u) (redToAtom op) sz b) sc x.raw)) ∧
  (∀ h d a b, AsksFor (.appendRes h d a b) (fun x => ∀ u ∈ x.on, (x.rd u).s32 b ≠ 0)
    (fun x u => pageAcc x.s x.core x.g .wr ((x.rd u).s64 a)) (dsts h d 1) (fun x u c => .appendRes c ((x.rd u).s32 b) x.g.nextId)) ∧
  (∀ h d a, AsksFor (.appendQuery h d a) (fun _ => True)
    (fun x u => pageAcc x.s x.core x.g .rd ((x.rd u).s64 a)) (dsts h d 2) (fun x _ c => .appendQuery c x.g.nextId)) ∧
  (∀ h d a, AsksFor (.sealPlain h d a) (fun _ => True)
    (fun x u => pageAcc x.s x.core x.g .wr ((x.rd u).s64 a)) (dsts h d 2) (fun _ _ c => .seal c false false)) ∧
  (∀ h d a, AsksFor (.sealBcast h d a) (fun _ => True)
    (fun x u => pageAcc x.s x.core x.g .wr ((x.rd u).s64 a)) (dsts h d 2) (fun _ _ c => .seal c true false)) ∧
  (∀ h d a, AsksFor (.tailq h d a) (fun _ => True)
    (fun x u => pageAcc x.s x.core x.g .rd ((x.rd u).s64 a)) (dsts h d 1) (fun x _ c => .tailq c x.g.nextId))

/-- R218, R219, R94: PREF of an absent line that may be cached asks for it and changes no register; PGINFO gives what the home
map and the page tables say of an address, 0x30F for a place, and traps WINDOW for a place address that names none; a
request to a held region is held. While a replica of
the page is being placed, HOPS is that to the nearest copy or that to the home (log entry 108).
What the spec leaves open here is the model's choice or reading (log entries 48 and 108). -/
def Obligations.PrefetchAndPageInfo : Prop :=
  (∀ h m rt s x u a ia tg, issueAt (.pref h m .b8 rt) s = some x → x.on = [u] → rt ≠ .u →
    isPlace (memEa m (x.rd u) &&& ~~~127) = false →
    locate x.s x.core x.g .rd (memEa m (x.rd u) &&& ~~~127) 4 1 rt = .ok a → a.loc = .ia ia →
    askHome x.s x.g.part (segOf x.core) a ia .load = .ok tg → tg.cacheable = true → poisoned x.s tg.addr 128 = false →
    (a.tagchk = true → tg.kind = 0 → tagsOk x.s tg.addr 128 (bits a.va 60 4) = true) →
    (x.s.core x.core).line? (ia / 128) = none →
    ∃ t g, exec (.pref h m .b8 rt) s = .next t ∧ Quiet x t g ∧ ∃ k ∈ (t.core x.core).misses, k.line = ia / 128) ∧
  (∀ h d m, Sends (.pginfo h d m)
    (fun x => ∀ u ∈ x.on, ptrOk (memEa m (x.rd u)) = true ∧
      (isPlace (memEa m (x.rd u)) = true → placeBad (memEa m (x.rd u)) = false) ∧ (isPlace (memEa m (x.rd u)) = false →
      ∃ ia d0, winTranslate (x.s.core x.core).wins .none (memEa m (x.rd u)) = .ok (ia, d0) ∧
        pginfoHeld x.s x.g.part ia = false ∧ placingAt x.s x.g.part ia = false))
    (dsts h d 2)
    (fun x u =>
      let v : W64 := if isPlace (memEa m (x.rd u)) then 0x30F
        else match winTranslate (x.s.core x.core).wins .none (memEa m (x.rd u)) with
          | .ok (ia, _) => pginfoIa x.s x.g.part (segOf x.core) ia false
          | .error _ => 0
      [bits v 0 32, bits v 32 32])) ∧
  (∀ h d m, Acts (.pginfo h d m) (fun x => hasHandler x ∧ ∀ u ∈ x.on, canTrap x u ∧
      ptrOk (memEa m (x.rd u)) = true ∧ isPlace (memEa m (x.rd u)) = true ∧ placeBad (memEa m (x.rd u)) = true)
    (fun x u th => trapped x 7 (memEa m (x.rd u)) x.pc th.prio 0 th)) ∧
  (∀ h d m s x u ia d0, issueAt (.pginfo h d m) s = some x → x.on = [u] → ptrOk (memEa m (x.rd u)) = true →
    isPlace (memEa m (x.rd u)) = false → winTranslate (x.s.core x.core).wins .none (memEa m (x.rd u)) = .ok (ia, d0) →
    ∃ t g p, exec (.pginfo h d m) s = .next t ∧ Quiet x t g ∧ p ∈ g.pend ∧ p.tid = u ∧ p.dsts = (dsts h d 2).map some ∧
      (pginfoHeld x.s x.g.part ia = true → p.st = .sent) ∧
      (pginfoHeld x.s x.g.part ia = false →
        ∃ far, p.st = .ready [bits (pginfoIa x.s x.g.part (segOf x.core) ia far) 0 32,
          bits (pginfoIa x.s x.g.part (segOf x.core) ia far) 32 32]))

/-- R215, R216, R217: GATHER, SCATTER and CST with no element that takes part only clear PIX; else they begin at the lowest
element that takes part, or at NEXT where RESUME says so, and ask for it: here elements of the own core's scratchpad. A
GATHER's element that lands goes to the register of its number; one of SCATTER or CST that is stored goes to the bytes of its
address; after the last element that takes part the word ends with PIX 0.
What the spec leaves open here is the model's choice or reading (log entry 31). -/
def Obligations.LongWords : Prop :=
  ((∀ i o m b sz rt, LongWord i o m b sz rt → ∀ s x u, issueAt i s = some x → x.on = [u] → anyElem (x.g.thread u) b = false →
      ∃ t g, exec i s = .next t ∧ Quiet x t g ∧ (g.thread u).pix = 0 ∧ (g.thread u).long = none ∧ g.rb = x.g.rb ∧
        g.pend = x.g.pend ∧ g.spad = x.g.spad) ∧
    (∀ i o m b sz rt, LongWord i o m b sz rt → ∀ s x u j off, issueAt i s = some x → x.on = [u] →
      blockOk x.g (x.g.thread u) o sz.bytes b = true → anyElem (x.g.thread u) b = true →
      let th := { x.g.thread u with pix := if bit (x.g.thread u).pix 31 then (x.g.thread u).pix else 0 }
      firstElem th b th.next = some j →
      locate x.s x.core x.g (longRight o) (elemAddr th o (memEa m (x.rd u)) sz.bytes b j) sz.bytes sz.bytes rt =
        .ok (ownSpad x (elemAddr th o (memEa m (x.rd u)) sz.bytes b j) off sz.bytes) →
      x.g.rbUsed + 1 ≤ 2048 →
      ∃ t g, exec i s = .next t ∧ Quiet x t g ∧ g.spad = x.g.spad ∧ ((g.thread u).next = j) ∧
        (g.thread u).long = some ⟨o, x.pc, memEa m (x.rd u), sz.bytes, rt, b, (bits (th.r b) 0 7).toNat,
            (x.s.core x.core).wins⟩ ∧
        match o with
        | .gather d sx nw => ∃ p ∈ g.pend, p.tid = u ∧ p.use = .elem ∧
            p.st = .ready (loadWords sz.bytes sx (memReadN x.g.spad off sz.bytes)) ∧
            p.dsts = (if nw then [] else if sz.bytes = 8 then [d + 2 * j, d + 2 * j + 1] else [d + j]).map some
        | _ => ∃ e ∈ g.rb, e.tid = u ∧ e.use = .elem ∧ e.drains = true ∧ e.acc.loc = .spad x.core off ∧
            e.data = elemData th o sz.bytes b (bits (th.r b) 0 7).toNat j)) ∧
  ((∀ core id s g p v o, s.grp? core = some g → (g.pend.find? fun p => p.id == id) = some p → p.use = .elem →
      p.st = .ready v → p.kind.isRed = false → p.tid < g.threads.length → (g.thread p.tid).long = some o →
      (g.thread p.tid).next < 64 → o.n ≤ 64 → firstElem (g.thread p.tid) o.b ((g.thread p.tid).next + 1) = none →
      o.n = (bits ((g.thread p.tid).r o.b) 0 7).toNat →
      blockMask (landRegs p.dsts v (g.thread p.tid)) o.b = blockMask (g.thread p.tid) o.b →
      ∃ t g', exec (.resultLanding core id) s = .next t ∧ t.grp? core = some g' ∧ (g'.thread p.tid).pix = 0 ∧
        (g'.thread p.tid).long = none ∧ (g'.thread p.tid).w = (landRegs p.dsts v (g.thread p.tid)).w ∧
        (∀ q ∈ g'.pend, q.id ≠ id) ∧ t.mem = s.mem ∧ ∀ u, u ≠ p.tid → g'.thread u = g.thread u) ∧
    (∀ core id s g e o off, s.grp? core = some g → (∀ x ∈ s.posted, x.id ≠ id) → (g.rb.find? fun e => e.id == id) = some e →
      (∀ f ∈ g.rb, f.id = id → f = e) → e.drains = true → g.drainOk e = true → e.use = .elem → e.acc.loc = .spad core off → e.tid < g.threads.length →
      (g.thread e.tid).long = some o → (g.thread e.tid).next < 64 → o.n ≤ 64 →
      firstElem (g.thread e.tid) o.b ((g.thread e.tid).next + 1) = none →
      o.n = (bits ((g.thread e.tid).r o.b) 0 7).toNat →
      ∃ t g', exec (.homeWrite core id) s = .next t ∧ t.grp? core = some g' ∧ g'.spad = memWriteN off e.data g.spad ∧
        (g'.thread e.tid).pix = 0 ∧ (g'.thread e.tid).long = none ∧ (∀ f ∈ g'.rb, f.id ≠ id) ∧ t.mem = s.mem ∧
        ∀ u, (g'.thread u).w = (g.thread u).w))

namespace Sys2Proof.Claims
open Machine

/-! ## Synchronisation, stage rings, engine queues -/

/-- Each thread of the sheet has its registers and stands at the next word; the group is `g`. -/
structure GoesOn (x : Ctx) (t : State) (g : Group) : Prop where
  grp : t.grp? x.core = some g
  regs : ∀ u, (g.thread u).w = (x.g.thread u).w ∧ (g.thread u).p = (x.g.thread u).p
  pc : ∀ u, u ∈ x.r.tids → (g.thread u).pc = nextPc x.pc
  idle : ∀ u, u ∉ x.r.tids → g.thread u = x.g.thread u

/-- The threads that execute the word stay at it with nothing of it done for them. -/
structure Stays (x : Ctx) (t : State) (g : Group) : Prop where
  grp : t.grp? x.core = some g
  regs : ∀ u, (g.thread u).w = (x.g.thread u).w ∧ (g.thread u).p = (x.g.thread u).p
  pc : ∀ u, u ∈ x.on → (g.thread u).pc = (x.g.thread u).pc
  memory : t.mem = x.s.mem

/-- A thread waits in the wait store (R124), in no entry. -/
def WaitsFor (g : Group) (u : Nat) (w : Why) : Prop :=
  ⟨u, w⟩ ∈ g.waits ∧ (∀ e ∈ g.frontier, u ∉ e.tids) ∧ ∀ e ∈ g.parking, u ∉ e.tids

/-- A word of one thread that reads a block and places it in an engine queue (R261, R297, R375): where the queue has room the
block stands at its end, else the thread waits with the block that it has read. -/
def PlacesBlock (i : Instr) (role : Group → Nat → Bool) (a : Sel) (n : Nat) (full : Group → Bool)
    (queued : Ctx → List W64 → Group → Group) : Prop :=
  ∀ s x u s' b, issueAt i s = some x → x.on = [u] → role x.g u = true → (x.g.thread u).qblk = none →
    readBlock x { s := x.s } u ((x.rd u).s64 a) n = .ok (s', b) → s'.grp? x.core = some x.g →
    (full x.g = false → ∃ t g, exec i s = .next t ∧ GoesOn x t g ∧
      g.cqs = (queued x b x.g).cqs ∧ g.mx = (queued x b x.g).mx ∧ g.rq = (queued x b x.g).rq ∧ t.mem = s'.mem) ∧
    (full x.g = true → ∃ t g, exec i s = .next t ∧ t.grp? x.core = some g ∧ (g.thread u).qblk = some b ∧
      (g.thread u).pc = (x.g.thread u).pc ∧ g.cqs = x.g.cqs ∧ g.mx = x.g.mx ∧ g.rq = x.g.rq)

/-- A word that places one entry for its sheet where there is room (R264, R304). -/
def PlacesOne (i : Instr) (role : Group → Nat → Bool) (full : Group → Bool) (queued : Ctx → Nat → Group → Group) : Prop :=
  ∀ s x u r, issueAt i s = some x → x.on = u :: r → (∀ v ∈ x.on, role x.g v = true) → full x.g = false →
    ∃ t g, exec i s = .next t ∧ GoesOn x t g ∧ t.mem = x.s.mem ∧
      g.cqs = (queued x u x.g).cqs ∧ g.mx = (queued x u x.g).mx ∧ g.rq = (queued x u x.g).rq ∧
      g.fences = (queued x u x.g).fences

/-- The words of stage rings, with the ring that each names (R269). -/
inductive StgWord : Instr → BitVec 3 → Prop where
  | claim (h d sid) : StgWord (.stgClaim h d sid) sid
  | take (h d sid) : StgWord (.stgTake h d sid) sid
  | fill (h sid b) : StgWord (.stgFill h sid b) sid
  | free (h sid b) : StgWord (.stgFree h sid b) sid
  | query (h d sid) : StgWord (.stgQuery h d sid) sid

/-- The words that one role alone may issue, with the threads that have it (R119). -/
inductive RoleWord : Instr → (Group → Nat → Bool) → Prop where
  | copy (h q a) : RoleWord (.copy h q a) isCopy
  | chain (h q a) : RoleWord (.chain h q a) isCopy
  | qfence (h m b) : RoleWord (.qfence h m b) isCopy
  | coll (h a) : RoleWord (.coll h a) isCopy
  | cprog (h d grp b) : RoleWord (.cprog h d grp b) isCopy
  | mma (h a) : RoleWord (.mma h a) isMatrix
  | mdrain (h a) : RoleWord (.mdrain h a) isMatrix
  | mprec (h wa wb) : RoleWord (.mprec h wa wb) isMatrix
  | mzero (h bank) : RoleWord (.mzero h bank) isMatrix

/-- A word that enters its result in the latches as its run goes on: of each thread that executes it `v`, of the others
what their register `d` held (R99, R134). -/
def Enters (i : Instr) (y : Bool) (d : Nat) (v : Ctx → Rd → W32) : Prop :=
  ∀ s x, issueAt i s = some x → y = false → ∃ t vs, exec i s = .next t ∧
    t.run x.core x.pipe = some ⟨x.r.tids, some vs :: x.r.hist⟩ ∧
    ∀ (k : Nat) u, x.r.tids[k]? = some u → vs[k]? = some (if u ∈ x.on then v x (x.rd u) else (x.g.thread u).r d)

/-- A word that enters nothing: the latches of its place stay empty (R134). -/
def EntersNothing (i : Instr) (y : Bool) : Prop :=
  ∀ s x, issueAt i s = some x → y = false → ∃ t, exec i s = .next t ∧
    t.run x.core x.pipe = some ⟨x.r.tids, none :: x.r.hist⟩

end Sys2Proof.Claims

open Sys2Proof Sys2Proof.Machine Sys2Proof.Claims

/-- R204, R332, R333, R334: a FENCE that is performed goes on and ends its run; one that is not performed yet keeps each
thread waiting for it, as for a result, until it is. ACQ acquires, at RING and SYS scope after the owned words are written
back; REL releases; SC, and AR where it waits, releases and then acquires; each of SYS scope for memory of every kind. AR may
also acquire at once and hold the thread's later stores. An acquire leaves in self-invalidating lines only pending and owned
words, at a scope below SYS those of host and peer memory aside; a release writes the dirty owned words back and is
performed only when no store of the core that other threads have read is pending and no invalidation that the core caused is
unanswered, at SYS scope only when no store of the core to host or peer memory is on its way.
What the spec leaves open here is the model's choice or reading (log entries 1, 43, 50, 105 and 110). -/
def Obligations.Fences : Prop :=
  (∀ h k sc s x s', issueAt (.fence h k sc) s = some x → x.on ≠ [] → k ≠ .ar →
    fenceDo x.s x.g.part x.core k sc = (s', true) →
    ∃ t g, exec (.fence h k sc) s = .next t ∧ GoesOn x t g ∧ t.mem = s'.mem ∧
      (t.core x.core).l1 = (s'.core x.core).l1 ∧ t.homes = s'.homes ∧ t.run x.core x.pipe = none) ∧
  (∀ h k sc s x s', issueAt (.fence h k sc) s = some x → x.on ≠ [] → k ≠ .ar →
    fenceDo x.s x.g.part x.core k sc = (s', false) →
    ∃ t g, exec (.fence h k sc) s = .next t ∧ GoesOn x t g ∧ t.mem = s'.mem ∧ t.run x.core x.pipe = none ∧
      ∀ u ∈ x.on, ∃ p ∈ g.pend, p.tid = u ∧ p.pc = x.pc ∧ p.kind = .fence k sc ∧ p.st = .sent ∧ g.drained u = false) ∧
  (∀ h sc s x f s0 s' ok, issueAt (.fence h .ar sc) s = some x → x.on ≠ [] → x.s.draw = (f, s0) →
    acquireAt s0 x.g.part x.core sc = (s', ok) →
    ∃ t g, exec (.fence h .ar sc) s = .next t ∧ GoesOn x t g ∧ t.run x.core x.pipe = none ∧
      (bit f 0 = true → ok = true → t.mem = s'.mem ∧
        ∀ u ∈ x.on, (g.thread u).arHold = some ((x.g.thread u).arHold.getD false || sc == .sys)) ∧
      (bit f 0 = false ∨ ok = false →
        ∀ u ∈ x.on, ∃ p ∈ g.pend, p.tid = u ∧ p.pc = x.pc ∧ p.kind = .fence .ar sc ∧ p.st = .sent ∧ g.drained u = false)) ∧
  (∀ h k sc s x, issueAt (.fence h k sc) s = some x → x.on = [] →
    ∃ t g, exec (.fence h k sc) s = .next t ∧ GoesOn x t g ∧ t.mem = x.s.mem ∧ g.pend = x.g.pend) ∧
  (∀ core id s g p k sc s', s.grp? core = some g → (∀ m ∈ (s.core core).misses, m.id ≠ id) →
    (g.pend.find? fun p => p.id == id) = some p → p.kind = .fence k sc → p.st = .sent → p.tid < g.threads.length →
    (∀ e ∈ g.rb, e.tid = p.tid → e.gone = true) → fenceDo s g.part core k sc = (s', true) → s'.grp? core = some g →
    ∃ t g', exec (.homeLoad core id) s = .next t ∧ t.grp? core = some g' ∧ t.mem = s'.mem ∧
      g'.pend = g.pend.filter (fun q => q.id != id) ∧ (k ≠ .ar → g'.threads = g.threads) ∧
      (k = .ar → g'.thread p.tid = { g.thread p.tid with arHold := none } ∧ ∀ u, u ≠ p.tid → g'.thread u = g.thread u)) ∧
  (∀ s p core sc, fenceDo s p core .acq sc = acquireAt s p core sc ∧
    fenceDo s p core .rel sc = release s p core (sc == .sys)) ∧
  (∀ s p core k sc s', k = .ar ∨ k = .sc → (fenceDo s p core k sc = (s', true) ↔
    ∃ s1, release s p core (sc == .sys) = (s1, true) ∧ s' = acquire s1 core (sc == .sys))) ∧
  (∀ s p core sc, sc ≠ .ring → sc ≠ .sys → acquireAt s p core sc = (acquire s core false, true)) ∧
  (∀ s p core sc s', sc = .ring ∨ sc = .sys → (acquireAt s p core sc = (s', true) ↔
    hasPending s core = false ∧ acked (flushOwned s p core) core = true ∧
      s' = acquire (flushOwned s p core) core (sc == .sys))) ∧
  (∀ s p core sys, (release s p core sys).2 = true → (release s p core sys).1 = flushOwned s p core) ∧
  (∀ s core g, s.grp? core = some g → ∀ sys, ∀ l ∈ ((acquire s core sys).core core).l1, l.si = true →
    (sys = true ∨ ∀ e, hme s g.part (l.line * 128) = some e → e.kind = 0) →
    l.v &&& ~~~(g.pendingWhole l.line ||| l.own) = 0) ∧
  (∀ s p core sys, (release s p core sys).2 = true →
    hasPending s core = false ∧ (∀ i ∈ (release s p core sys).1.invs, i.src ≠ core) ∧
      (sys = true → ∀ w ∈ (release s p core sys).1.posted, w.writer ≠ core))

/-- R340, R341: an arrival after its release joins the generation, which completes when every participant has arrived;
BAR.ARRIVE gives the generation as a token, BAR.SYNC and BAR.WAIT raise BARGEN after their acquire where it has completed,
and wait where it has not.
What the spec leaves open here is the model's choice or reading (log entry 53). -/
def Obligations.Barriers : Prop :=
  (∀ h d lv n s x u s', issueAt (.barArrive h d lv n) s = some x → x.on = [u] → levelBad x.g lv = false →
    (barOf x.s x.g lv n.toNat).arrived.contains (x.g.linear, u) = false → release x.s x.g.part x.core false = (s', true) →
    s'.grp? x.core = some x.g →
    ∃ t g, exec (.barArrive h d lv n) s = .next t ∧ GoesOn x t g ∧ t.bars = (barArrive s' x.g lv n.toNat u).bars ∧
      ∃ p ∈ g.pend, p.tid = u ∧ p.dsts = (dsts h d 1).map some ∧ p.st = .ready [(barOf s' x.g lv n.toNat).gen]) ∧
  (∀ h lv n s x u s' s2, issueAt (.barSync h lv n) s = some x → x.on = [u] → levelBad x.g lv = false →
    (barOf x.s x.g lv n.toNat).arrived.contains (x.g.linear, u) = false → release x.s x.g.part x.core false = (s', true) →
    s'.grp? x.core = some x.g → x.g.waiting u = none →
    let s1 := barArrive s' x.g lv n.toNat u
    (barDone s1 x.g lv n.toNat (barOf s' x.g lv n.toNat).gen = true →
      acquireAt s1 x.g.part x.core (levelScope lv) = (s2, true) → s2.grp? x.core = some x.g →
      ∃ t g, exec (.barSync h lv n) s = .next t ∧ GoesOn x t g ∧ t.bars = s2.bars ∧
        (g.thread u).bargen = (x.g.thread u).bargen + 1) ∧
    (barDone s1 x.g lv n.toNat (barOf s' x.g lv n.toNat).gen = false →
      ∃ t g, exec (.barSync h lv n) s = .next t ∧ t.grp? x.core = some g ∧ t.bars = s1.bars ∧
        WaitsFor g u (.bar lv n.toNat (barOf s' x.g lv n.toNat).gen) ∧ (g.thread u).bargen = (x.g.thread u).bargen)) ∧
  (∀ h lv n b s x u s2, issueAt (.barWait h lv n b) s = some x → x.on = [u] → levelBad x.g lv = false →
    genFuture (barOf x.s x.g lv n.toNat).gen ((x.rd u).s32 b) = false → x.g.waiting u = none →
    (barDone x.s x.g lv n.toNat ((x.rd u).s32 b) = true →
      acquireAt x.s x.g.part x.core (levelScope lv) = (s2, true) → s2.grp? x.core = some x.g →
      ∃ t g, exec (.barWait h lv n b) s = .next t ∧ GoesOn x t g ∧ (g.thread u).bargen = (x.g.thread u).bargen + 1) ∧
    (barDone x.s x.g lv n.toNat ((x.rd u).s32 b) = false →
      ∃ t g, exec (.barWait h lv n b) s = .next t ∧ t.grp? x.core = some g ∧
        WaitsFor g u (.bar lv n.toNat ((x.rd u).s32 b)))) ∧
  (∀ s g lv n u, ((participants s (barOf s g lv n)) ≠ [] →
      (∀ p ∈ participants s (barOf s g lv n), p ∈ (barOf s g lv n).arrived ∨ p = (g.linear, u)) →
      barOf (barArrive s g lv n u) g lv n = { barOf s g lv n with gen := (barOf s g lv n).gen + 1, arrived := [] }) ∧
    ((∃ p ∈ participants s (barOf s g lv n), p ∉ (barOf s g lv n).arrived ∧ p ≠ (g.linear, u)) →
      barOf (barArrive s g lv n u) g lv n =
        { barOf s g lv n with arrived := (barOf s g lv n).arrived ++ [(g.linear, u)] }))

/-- R342, R343, R344: PHASE.ADV raises the thread's phase after its release, and PHASECUR once no live thread's phase lies at
or below it; PHASE.WAIT goes on where the counter has reached the operand and waits where it has not; PHASE.READ brings
the counter.
What the spec leaves open here is the model's choice or reading (log entries 1 and 47). -/
def Obligations.Phases : Prop :=
  (∀ h s x u s', issueAt (.phaseAdv h) s = some x → x.on = [u] → phaseLegal x.g = true → x.g.waiting u = none →
    (x.g.thread u).phase.toNat ≤ x.g.phasecur.toNat → release x.s x.g.part x.core false = (s', true) →
    s'.grp? x.core = some x.g →
    ∃ t g, exec (.phaseAdv h) s = .next t ∧ GoesOn x t g ∧ t.mem = s'.mem ∧
      (g.thread u).phase = (x.g.thread u).phase + 1 ∧ (∀ v, v ≠ u → (g.thread v).phase = (x.g.thread v).phase) ∧
      ((∃ v ∈ g.live, (g.thread v).phase.toNat ≤ x.g.phasecur.toNat) → g.phasecur = x.g.phasecur) ∧
      ((∀ v ∈ g.live, (g.thread v).phase = x.g.phasecur + 1 ∧ x.g.phasecur.toNat < (g.thread v).phase.toNat) → g.live ≠ [] →
        g.phasecur = x.g.phasecur + 1)) ∧
  (∀ h s x u, issueAt (.phaseAdv h) s = some x → x.on = [u] → phaseLegal x.g = true → x.g.waiting u = none →
    x.g.phasecur.toNat < (x.g.thread u).phase.toNat →
    ∃ t g, exec (.phaseAdv h) s = .next t ∧ t.grp? x.core = some g ∧ WaitsFor g u .phaseAdv ∧
      (g.thread u).phase = (x.g.thread u).phase ∧ (g.thread u).pc = (x.g.thread u).pc) ∧
  (∀ h a b s x u l s', issueAt (.phaseWait h a b) s = some x → x.on = [u] → phaseSeg x ((x.rd u).s32 a) = .ok l →
    x.g.waiting u = none →
    (((x.rd u).s32 b).toNat ≤ (phaseCount x.s x.g.part x.g.lid l).toNat →
      acquireAt x.s x.g.part x.core .ring = (s', true) → s'.grp? x.core = some x.g →
      ∃ t g, exec (.phaseWait h a b) s = .next t ∧ GoesOn x t g ∧ t.mem = s'.mem) ∧
    ((phaseCount x.s x.g.part x.g.lid l).toNat < ((x.rd u).s32 b).toNat →
      ∃ t g, exec (.phaseWait h a b) s = .next t ∧ t.grp? x.core = some g ∧
        WaitsFor g u (.phase l ((x.rd u).s32 b) x.s.now) ∧ (g.thread u).pc = nextPc x.pc)) ∧
  (∀ h d a, Sends (.phaseRead h d a) (fun x => ∀ u ∈ x.on, ∃ l, phaseSeg x ((x.rd u).s32 a) = .ok l)
    (dsts h d 1) (fun x u => match phaseSeg x ((x.rd u).s32 a) with
      | .ok l => [phaseCount x.s x.g.part x.g.lid l]
      | .error _ => [0]))

/-- R345, R346: WAITGE goes on once the count has reached its target and its acquire is performed, waits while the count is
below it, and with ERR traps SOFTWARE on a non-zero error word; BACKOFF keeps its threads from issuing for as many cycles
as its operand says, 65,535 at most, and expires by itself. -/
def Obligations.WaitgeAndBackoff : Prop :=
  (∀ h err sys a b s x u ac, issueAt (.waitge h err sys a b) s = some x → x.on = [u] → x.g.waiting u = none →
    locate x.s x.core x.g .rd ((x.rd u).s64 a) 8 8 .u = .ok ac → (∃ ia, ac.loc = .ia ia) →
    (∀ s', lookCount x.s x.core u x.g ac ((x.rd u).s64 b) err sys = .done s' → s'.grp? x.core = some x.g →
      ∃ t g, exec (.waitge h err sys a b) s = .next t ∧ GoesOn x t g ∧ t.mem = s'.mem) ∧
    (∀ s', lookCount x.s x.core u x.g ac ((x.rd u).s64 b) err sys = .below s' → s'.grp? x.core = some x.g →
      ∃ t g, exec (.waitge h err sys a b) s = .next t ∧ t.grp? x.core = some g ∧
        WaitsFor g u (.waitge ac ((x.rd u).s64 b) err sys x.s.now) ∧ (g.thread u).pc = (x.g.thread u).pc) ∧
    (∀ s' v, lookCount x.s x.core u x.g ac ((x.rd u).s64 b) err sys = .err s' v → s'.grp? x.core = some x.g →
      s'.tvec x.g.part = x.s.tvec x.g.part → canTrap x u → hasHandler x →
      ∃ t g, exec (.waitge h err sys a b) s = .next t ∧ t.grp? x.core = some g ∧
        Thread.arch (g.thread u) =
          Thread.arch (trapped x 0x10 v x.pc (x.g.thread u).prio 0 (x.g.thread u)))) ∧
  (∀ s core tid g a target err sys v s1, readCount s core tid g a = (s1, .ok v) →
    (v < target.toNat → lookCount s core tid g a target err sys = .below s1) ∧
    (target.toNat ≤ v → ∀ s2, acquireAt s1 g.part core (if sys then .sys else .ring) = (s2, true) →
      lookCount s core tid g a target false sys = .done s2)) ∧
  (∀ h a s x, issueAt (.backoff h a) s = some x →
    ∃ t g, exec (.backoff h a) s = .next t ∧ GoesOn x t g ∧ t.mem = x.s.mem ∧ (x.on ≠ [] → t.run x.core x.pipe = none) ∧
      ∀ u ∈ x.on, (g.thread u).backoff =
        (if (x.rd u).s32 a = 0 then 0 else x.s.now + min ((x.rd u).s32 a).toNat 65535)) ∧
  (∀ core tid s g, s.grp? core = some g → tid < g.threads.length → (g.thread tid).backoff ≠ 0 → (g.thread tid).backoff ≤ s.now →
    ∃ g', exec (.backoffExpiry core tid) s = .next (s.setGrp core g') ∧ (g'.thread tid).backoff = 0 ∧
      ∀ u, u ≠ tid → g'.thread u = g.thread u)

/-- R265, R266, R270: STG.CLAIM and STG.TAKE give the next number with its slot, or wait for one; STG.FILL and STG.FREE mark a
number that stands between the counts and is not marked yet, any other traps ILLEGAL_OPERAND with the number in TVAL;
STG.QUERY gives what is filled and free; a ring that is not declared traps.
What the spec leaves open here is the model's choice or reading (log entry 27). -/
def Obligations.StageRings : Prop :=
  (∀ h d sid s x u r, issueAt (.stgClaim h d sid) s = some x → x.on = [u] → x.g.ring? sid.toNat = some r →
    even8 d = true → d.toNat + 2 ≤ x.g.regs → x.g.waiting u = none →
    (0 < r.free → x.g.stgKeys sid.toNat false = [] →
      ∃ t g, exec (.stgClaim h d sid) s = .next t ∧ GoesOn x t g ∧
        g.ring? sid.toNat = some { r with claimc := (r.claimc + 1) % r.mod } ∧
        ∃ p ∈ g.pend, p.tid = u ∧ p.dsts = (dsts h d 2).map some ∧
          p.st = .ready [BitVec.ofNat 32 (r.base + r.claimc % r.slots * r.slotsz), BitVec.ofNat 32 r.claimc]) ∧
    (r.free = 0 → ∃ t g, exec (.stgClaim h d sid) s = .next t ∧ t.grp? x.core = some g ∧ g.rings = x.g.rings ∧
      WaitsFor g u (.stg sid.toNat false (if h.nw then none else some d.toNat) x.s.now))) ∧
  (∀ h d sid s x u r, issueAt (.stgTake h d sid) s = some x → x.on = [u] → x.g.ring? sid.toNat = some r →
    even8 d = true → d.toNat + 2 ≤ x.g.regs → x.g.waiting u = none →
    (0 < r.filled → x.g.stgKeys sid.toNat true = [] →
      ∃ t g, exec (.stgTake h d sid) s = .next t ∧ GoesOn x t g ∧
        g.ring? sid.toNat = some { r with takec := (r.takec + 1) % r.mod } ∧
        ∃ p ∈ g.pend, p.tid = u ∧ p.dsts = (dsts h d 2).map some ∧
          p.st = .ready [BitVec.ofNat 32 (r.base + r.takec % r.slots * r.slotsz), BitVec.ofNat 32 r.takec]) ∧
    (r.filled = 0 → ∃ t g, exec (.stgTake h d sid) s = .next t ∧ t.grp? x.core = some g ∧ g.rings = x.g.rings ∧
      WaitsFor g u (.stg sid.toNat true (if h.nw then none else some d.toNat) x.s.now))) ∧
  (∀ h sid b s x u r, issueAt (.stgFill h sid b) s = some x → x.on = [u] → x.g.ring? sid.toNat = some r →
    r.fillOk ((x.rd u).s32 b).toNat = true → (bits r.decl 24 3).toNat = sid.toNat →
    ∃ t g, exec (.stgFill h sid b) s = .next t ∧ GoesOn x t g ∧
      g.ring? sid.toNat = some (r.fill ((x.rd u).s32 b).toNat)) ∧
  (∀ h sid b s x u r, issueAt (.stgFree h sid b) s = some x → x.on = [u] → x.g.ring? sid.toNat = some r →
    r.freeOk ((x.rd u).s32 b).toNat = true → (bits r.decl 24 3).toNat = sid.toNat →
    ∃ t g, exec (.stgFree h sid b) s = .next t ∧ GoesOn x t g ∧
      g.ring? sid.toNat = some (r.release ((x.rd u).s32 b).toNat)) ∧
  (∀ h sid b, Acts (.stgFill h sid b) (fun x => hasHandler x ∧ ∀ u ∈ x.on, canTrap x u ∧
      ∃ r, x.g.ring? sid.toNat = some r ∧ r.fillOk ((x.rd u).s32 b).toNat = false)
    (fun x u th => trapped x 2 (((x.rd u).s32 b).setWidth 64) x.pc th.prio 0 th)) ∧
  (∀ h sid b, Acts (.stgFree h sid b) (fun x => hasHandler x ∧ ∀ u ∈ x.on, canTrap x u ∧
      ∃ r, x.g.ring? sid.toNat = some r ∧ r.freeOk ((x.rd u).s32 b).toNat = false)
    (fun x u th => trapped x 2 (((x.rd u).s32 b).setWidth 64) x.pc th.prio 0 th)) ∧
  (∀ (r : Ring) n, (r.fillOk n = true ↔ n < r.mod ∧ r.sub n r.fillc < r.sub r.claimc r.fillc ∧
      bit r.ph (n % r.slots) ≠ decide ((n / r.slots + 1) % 2 = 1)) ∧
    (r.freeOk n = true ↔ n < r.mod ∧ r.sub n r.freec < r.sub r.takec r.freec ∧
      bit r.rl (n % r.slots) ≠ decide ((n / r.slots + 1) % 2 = 1))) ∧
  (∀ i sid, StgWord i sid → Acts i (fun x => hasHandler x ∧ x.g.ring? sid.toNat = none ∧ ∀ u ∈ x.on, canTrap x u)
    (fun x _ th => trapped x 2 x.raw x.pc th.prio 0 th)) ∧
  (∀ h d sid, even8 d = true → Sends (.stgQuery h d sid)
    (fun x => d.toNat + 2 ≤ x.g.regs ∧ (x.g.ring? sid.toNat).isSome = true) (dsts h d 2)
    (fun x _ => match x.g.ring? sid.toNat with
      | some r => [BitVec.ofNat 32 r.filled, BitVec.ofNat 32 r.free]
      | none => []))

/-- R120, R260 to R264, R294, R297, R304, R375: COPY, MMA, MDRAIN and COLL read their block and place it at the end of their
queue, CHAIN its pointer, QFENCE a fence in every queue that it names, MPREC and MZERO their command.
What the spec leaves open here is the model's choice or reading (log entry 22). -/
def Obligations.EngineQueues : Prop :=
  (∀ h q a, PlacesBlock (.copy h q a) isCopy a 64 (cqFull · q.toNat) (fun _ b g =>
    { g with cqs := modNth (fun c => { c with q := c.q ++ [.xfer b] }) q.toNat g.cqs })) ∧
  (∀ h a, PlacesBlock (.mma h a) isMatrix a 64 mqFull (fun _ b g =>
    { g with mx := { g.mx with q := g.mx.q ++ [⟨.mma b, .waiting, []⟩] } })) ∧
  (∀ h a, PlacesBlock (.mdrain h a) isMatrix a 64 mqFull (fun _ b g =>
    { g with mx := { g.mx with q := g.mx.q ++ [⟨.mdrain b, .waiting, []⟩] } })) ∧
  (∀ h a, PlacesBlock (.coll h a) isCopy a 128 rqFull (fun x b g =>
    { g with rq := g.rq ++ [.coll (b.take 16 ++
      [BitVec.ofNat 64 g.lseg, BitVec.ofNat 64 x.s.now, BitVec.ofNat 64 g.nextId])] })) ∧
  (∀ h wa wb, PlacesOne (.mprec h wa wb) isMatrix mqFull (fun _ _ g =>
    { g with mx := { g.mx with q := g.mx.q ++ [⟨.mprec wa wb, .waiting, []⟩] } })) ∧
  (∀ h bank, PlacesOne (.mzero h bank) isMatrix mqFull (fun _ _ g =>
    { g with mx := { g.mx with q := g.mx.q ++ [⟨.mzero bank, .waiting, []⟩] } })) ∧
  (∀ h mask b, PlacesOne (.qfence h mask b) isCopy (maskFull mask) (fun x u g => putFence mask ((x.rd u).s64 b) g)) ∧
  (∀ h q a s x u, issueAt (.chain h q a) s = some x → x.on = [u] → isCopy x.g u = true → (x.rd u).s64 a ≠ 0 →
    ((x.rd u).s64 a).toNat % 64 = 0 → (x.g.cq q.toNat).hasChain = false → cqFull x.g q.toNat = false →
    ∃ t g, exec (.chain h q a) s = .next t ∧ GoesOn x t g ∧
      g.cqs = modNth (fun c => { c with q := c.q ++ [.chain ((x.rd u).s64 a)] }) q.toNat x.g.cqs) ∧
  (∀ h q a s x u, issueAt (.chain h q a) s = some x → x.on = [u] → isCopy x.g u = true → (x.rd u).s64 a = 0 →
    ∃ t g, exec (.chain h q a) s = .next t ∧ GoesOn x t g ∧
      g.cqs = modNth (fun c => { c with walk := c.walk.map fun w => { w with stop := true } }) q.toNat x.g.cqs)

/-- R305, R387, R119, R120: MSTAT and CPROG bring the value that they name to their pair of registers; each of the nine words
of R119's table traps ROLE in the threads outside its role, with the word in TVAL, and nothing of it takes effect for them.
What the spec leaves open here is the model's choice or reading (log entry 48). -/
def Obligations.EngineStatus : Prop :=
  (∀ h d r, Sends (.mstat h d r) (fun _ => True) (dsts h d 2) (fun x _ =>
    let v : W64 := match r with
      | .mpx => BitVec.ofNat 64 (x.g.mx.kgroup % 2 ^ 24 + 2 ^ 24 * x.g.mx.done.toNat + if x.g.mx.mrun then 2 ^ 40 else 0)
      | .corr => x.g.mx.corr
      | .gstall => x.g.mx.gstall
      | .cserr => x.g.mx.cserr
      | .nonfin => x.g.mx.nonfin
      | .qstat => x.g.mx.qstat
      | .bpused => x.g.mx.bpused
      | .dpx => BitVec.ofNat 64 (x.g.mx.drained.toNat + if x.g.mx.drun then 2 ^ 16 else 0)
    [bits v 0 32, bits v 32 32])) ∧
  (∀ h d grp b, Sends (.cprog h d grp b) (fun x => ∀ u ∈ x.on, isCopy x.g u = true) (dsts h d 2)
    (fun x u =>
      let v := cprogVal x.s x.core x.g grp.toNat ((x.rd u).s32 b)
      [bits v 0 32, bits v 32 32])) ∧
  (∀ i role, RoleWord i role → Acts i (fun x => hasHandler x ∧ ∀ u ∈ x.on, canTrap x u ∧ role x.g u = false)
    (fun x _ th => trapped x 4 x.raw x.pc th.prio 0 th))

namespace Sys2Proof.Claims
open Machine

/-! ## Events of issue, of waits, of regions and of pages -/

/-- An event answers a next state of which `P` holds. -/
def Comes (i : Instr) (s : State) (P : State → Prop) : Prop := ∃ t, exec i s = .next t ∧ P t

/-- The group of a core after an event, of which `P` holds. -/
def GroupIs (t : State) (core : Nat) (P : Group → Prop) : Prop := ∃ g, t.grp? core = some g ∧ P g

/-- The group as a pipe of its core finds it when it chooses (R129, R155, R182, R222). -/
def choosing (s : State) (core : Nat) (g : Group) : Group := closeReached s core (landKset (landFlags g s.now) s.now)

/-- What a look at a count finds: the state after it, done (R345). -/
def lookDone (s : State) (core tid : Nat) (g : Group) (a : Acc) (target : W64) (err sys : Bool) (s' : State) : Prop :=
  lookCount s core tid g a target err sys = .done s' ∧ s'.grp? core = some g

end Sys2Proof.Claims

open Sys2Proof Sys2Proof.Machine Sys2Proof.Claims

/-- R132, R133, R137, R126, R129, R134: a result that has arrived is written to those of its registers that no later word has
written, and to nothing else, the entry of a refill to the end of its thread's return stack; a pipe without a run takes the
sheet of an eligible entry whose score no other eligible entry exceeds, with empty latches, pipe 1 only where pipe 0 has a
run; a sheet has threads of distinct lanes, 32 at most. A word of latch class enters the low 32 bits of its result, a pair
word that of half X, for a thread with a false guard what its destination register held, and any other word nothing; latch
k gives a thread what the word k + 4 words before entered for it, and is empty where there was none or it entered nothing.
What the spec leaves open here is the model's choice or reading (log entry 26). -/
def Obligations.IssueEvents : Prop :=
  (∀ core id s g p (v : List W32), s.grp? core = some g → g.pend.find? (fun q => q.id == id) = some p → p.st = .ready v →
      p.use = .word → p.waitsAck s core = false → p.dsts.length = v.length → (p.dsts.filterMap (·)).Nodup → p.tid < g.threads.length →
      (∀ n, some n ∈ p.dsts → n < (g.thread p.tid).w.length) →
      ∃ t g', exec (.resultLanding core id) s = .next t ∧ t.grp? core = some g' ∧
        (∀ (k n : Nat), p.dsts[k]? = some (some n) → v[k]? = some ((g'.thread p.tid).r n)) ∧
        (∀ n, some n ∉ p.dsts → (g'.thread p.tid).r n = (g.thread p.tid).r n) ∧
        (∀ u, u ≠ p.tid → g'.thread u = g.thread u) ∧
        (g'.thread p.tid).p = (g.thread p.tid).p ∧ (g'.thread p.tid).pc = (g.thread p.tid).pc ∧
        (∀ q ∈ g'.pend, q.id ≠ id) ∧ OnlyGroup core s t) ∧
  (∀ core id s g p (lo hi : W32), s.grp? core = some g → g.pend.find? (fun q => q.id == id) = some p → p.st = .ready [lo, hi] →
      p.use = .spill → p.waitsAck s core = false → p.tid < g.threads.length →
      Comes (.resultLanding core id) s fun t => OnlyGroup core s t ∧ GroupIs t core fun g' =>
        (g'.thread p.tid).ret = (g.thread p.tid).ret ++ [(hi ++ lo : W64) &&& ~~~7] ∧
        (g'.thread p.tid).spilln = (g.thread p.tid).spilln - 1 ∧ (g'.thread p.tid).undo = none ∧
        (∀ u, (g'.thread u).w = (g.thread u).w) ∧ ∀ q ∈ g'.pend, q.id ≠ id) ∧
  ((∀ core pipe s g0 g e, s.grp? core = some g0 → mayIssue s core g0 = true → s.run core pipe = none →
      (pipe = 0 ∨ pipe = 1 ∧ s.run core 0 ≠ none) →
      let s0 := s.passTo ((s.core core).freeAt pipe)
      s0.grp? core = some g → mayIssue s0 core g = true →
      let h := choosing s0 core g
      let s1 := s0.setGrp core h
      bestBy (entryScore h (s1.agethr h.part)) (h.frontier.filter (eligible s1 core h)) = some e → sheetOf s1 core h e ≠ [] →
      Comes (.pipeChoose core pipe) s fun t => t.run core pipe = some ⟨sheetOf s1 core h e, []⟩ ∧ t.mem = s.mem ∧
        GroupIs t core fun g' => (∀ u, (g'.thread u).w = (g.thread u).w) ∧
          ∀ x ∈ g'.frontier, x.idx = e.idx → x.age = 0 ∧ x.chose = s0.now + 1) ∧
    (∀ (score : Entry → List Nat) l e, bestBy score l = some e → e ∈ l ∧ ∀ x ∈ l, ¬ score e < score x) ∧
    (∀ l, ((pickLanes l).map (· % 32)).Nodup ∧ (pickLanes l).length ≤ 32 ∧ ∀ t ∈ pickLanes l, t ∈ l)) ∧
  ((∀ o : IBin, Enters (.iadd o) o.h.y o.d.toNat (fun _ y => bits (fit o.ty o.sat (y.sI o.ty o.a + y.sI o.ty o.b)) 0 32)) ∧
    (∀ o : FBin, Enters (.fadd o) o.h.y o.d.toNat (fun _ y =>
      BitVec.ofNat 32 (saturated o.ty o.sat (fAdd o.ty o.rnd (y.sF o.ty o.a) (y.sF o.ty o.b)).1))) ∧
    (∀ h d dst src rnd sat a, Enters (.cvt h d dst src rnd sat a) h.y d.toNat
      (fun _ y => bits (converted dst src rnd sat y a).1 0 32)) ∧
    (∀ y a b d, a.dest = some d → Enters (.pairWord y a b) y d.toNat (fun _ z => (half z a).1)) ∧
    (∀ y a b, a.dest = none → EntersNothing (.pairWord y a b) y) ∧
    (∀ o : IBin, EntersNothing (.imul o) o.h.y)) ∧
  (∀ (r : Run) k t, (r.hist.length < k + 4 ∨ r.hist[k + 3]? = some none → latchRead r k t = none) ∧
    (∀ vs (i : Nat), r.hist[k + 3]? = some (some vs) → r.tids.Nodup → r.tids[i]? = some t → latchRead r k t = vs[i]?))

/-- R124, R127, R341, R344, R345, R270: the wait of a thread ends with its event: the barrier's generation complete, the phase
reached, the count reached, a stage slot there, the gang whole at one pair; then the thread leaves the wait store. -/
def Obligations.WaitsEnd : Prop :=
  (∀ core gang s g t r, s.grp? core = some g →
    ((g.gangLive gang).filter fun u => match g.waiting u with | some w => w.why == .lane | none => false) = t :: r →
    (∀ u ∈ t :: r, (g.thread u).pc = (g.thread t).pc ∧ (g.thread u).prio = (g.thread t).prio) →
    (∀ u ∈ g.gangLive gang, u ∈ t :: r ∨ u ∉ (s.core core).runningTids ∧
      ∃ e ∈ g.frontier, u ∈ e.tids ∧ e.pc = (g.thread t).pc ∧ e.prio = (g.thread t).prio) →
    Comes (.laneConvergence core gang) s fun t' => GroupIs t' core fun g' =>
      ∀ u ∈ t :: r, g'.waiting u = none ∧ (g'.thread u) = g.thread u) ∧
  (∀ core tid s g lv n k s', s.grp? core = some g → g.waiting tid = some ⟨tid, .bar lv n k⟩ → barDone s g lv n k = true →
    acquireAt s g.part core (levelScope lv) = (s', true) → s'.grp? core = some g → tid < g.threads.length →
    Comes (.waitStoreRelease core tid) s fun t => t.mem = s'.mem ∧ GroupIs t core fun g' =>
      g'.waiting tid = none ∧ (g'.thread tid).bargen = (g.thread tid).bargen + 1 ∧ (g'.thread tid).w = (g.thread tid).w) ∧
  (∀ core tid s g l n k s', s.grp? core = some g → g.waiting tid = some ⟨tid, .phase l n k⟩ →
    n.toNat ≤ (phaseCount s g.part g.lid l).toNat → acquireAt s g.part core .ring = (s', true) → s'.grp? core = some g →
    Comes (.waitStoreRelease core tid) s fun t => t.mem = s'.mem ∧ GroupIs t core fun g' =>
      g'.waiting tid = none ∧ g'.thread tid = g.thread tid) ∧
  (∀ core tid s g sid take dst since r, s.grp? core = some g → g.waiting tid = some ⟨tid, .stg sid take dst since⟩ →
    g.ring? sid = some r → (0 < if take then r.filled else r.free) → g.stgFirst sid take (stgKey since tid) = true →
    Comes (.waitStoreRelease core tid) s fun t => t.mem = s.mem ∧ GroupIs t core fun g' =>
      g'.waiting tid = none ∧ (∀ u, g'.thread u = g.thread u) ∧
      g'.ring? sid = some (if take then { r with takec := (r.takec + 1) % r.mod } else { r with claimc := (r.claimc + 1) % r.mod }) ∧
      let n := if take then r.takec else r.claimc
      ∃ p ∈ g'.pend, p.tid = tid ∧ p.dsts = (match dst with | some d => [some d, some (d + 1)] | none => []) ∧
        p.st = .ready [BitVec.ofNat 32 (r.base + n % r.slots * r.slotsz), BitVec.ofNat 32 n]) ∧
  (∀ core tid s g sid take dst since, s.grp? core = some g → g.waiting tid = some ⟨tid, .stg sid take dst since⟩ →
    (∀ r, g.ring? sid = some r → (if take then r.filled else r.free) = 0 ∨
      ∃ k ∈ g.stgKeys sid take, k < stgKey since tid) →
    exec (.waitStoreRelease core tid) s = .next s) ∧
  (∀ core tid s g a target err sys k s', s.grp? core = some g → g.waiting tid = some ⟨tid, .waitge a target err sys k⟩ →
    tid < g.threads.length → countInDevice s g.part a = true → lookDone s core tid g a target err sys s' →
    Comes (.waitgeWake core tid) s fun t => t.mem = s'.mem ∧ GroupIs t core fun g' =>
      g'.waiting tid = none ∧ (g'.thread tid).pc = nextPc (g.thread tid).pc ∧ (g'.thread tid).w = (g.thread tid).w) ∧
  (∀ core tid s g a target err sys k s', s.grp? core = some g → g.waiting tid = some ⟨tid, .waitge a target err sys k⟩ →
    tid < g.threads.length → countInDevice s g.part a = false →
    let h := { g with waits := g.waits.map fun x => if x.tid == tid then ⟨tid, .waitge a target err sys s.now⟩ else x }
    lookDone (s.setGrp core h) core tid h a target err sys s' →
    Comes (.waitgePoll core tid) s fun t => t.mem = s'.mem ∧ GroupIs t core fun g' =>
      g'.waiting tid = none ∧ (g'.thread tid).pc = nextPc (g.thread tid).pc ∧ (g'.thread tid).w = (g.thread tid).w)

/-- R225, R226, R227, R229, R233, R238: an acknowledged probe keeps the generation of its page and what it was acknowledged
for; a closed region with every access answered is complete and its stores begin to drain, one of 16 bytes as two of 8 (R200), in
program order behind those
that drain already; a trap that waits for such a region is taken, and closes it; a store that waits for entries goes on once
they are free.
What the spec leaves open here is the model's choice or reading (log entries 21 and 36). -/
def Obligations.RegionsDrain : Prop :=
  (∀ core id s g e ia tg, s.grp? core = some g → g.rb.find? (fun e => e.id == id) = some e → e.st = .probing →
    e.acc.loc = .ia ia → e.use ≠ .elem → askHome s g.part (segOf core) e.acc ia e.asks = .ok tg →
    (tg.kind = 0 → e.tag = none → poisoned s tg.addr e.acc.n = false) →
    Comes (.probeAnswer core id) s fun t => t.mem = s.mem ∧ GroupIs t core fun g' =>
      ∃ e' ∈ g'.rb, e'.id = id ∧ e'.acc = e.acc ∧ e'.data = e.data ∧ e'.tgt = some tg ∧
        e'.st = .acked (match tg.leaf with | some l => l.gen | none => 0)) ∧
  (∀ core tid s g, s.grp? core = some g → (g.thread tid).rclosed = true → g.unanswered tid = false →
    (g.thread tid).ptrap = none → (g.thread tid).arHold = none → (g.rb.map (·.id)).Nodup →
    (∀ e ∈ g.rb, e.tid = tid → e.acked = true → e.acc.n ≠ 16 ∨ e.tag.isSome = true ∨ ∀ ia, e.acc.loc ≠ .ia ia) →
    Comes (.regionComplete core tid) s fun t => t.mem = s.mem ∧ t.homes = s.homes ∧ GroupIs t core fun g' =>
      g'.complete tid = true ∧ (∀ u, g'.thread u = g.thread u) ∧
      g'.rb.map (·.id) = (g.rb.filter fun e => !(e.tid == tid && e.acked)).map (·.id) ++
        (g.rb.filter fun e => e.tid == tid && e.acked).map (·.id) ∧
      (∀ e ∈ g.rb, (e.tid == tid && e.acked) = false → e ∈ g'.rb) ∧
      ∀ e ∈ g.rb, ∀ n, e.tid = tid → e.st = .acked n →
        ∃ e' ∈ g'.rb, e'.id = e.id ∧ e'.st = .draining n ∧ e'.data = e.data ∧ e'.acc.loc = e.acc.loc ∧ e'.tgt = e.tgt) ∧
  (∀ (e : RbEntry) id ia, e.acc.loc = .ia ia → e.tag = none → e.acc.n = 16 →
    e.halves id =
      [{ e with slots := 1, acc := { e.acc with n := 8 }, data := e.data.take 8 },
       { e with
         id := id, slots := 1, acc := { e.acc with va := e.acc.va + 8, loc := .ia (ia + 8), n := 8 }, data := e.data.drop 8,
         tgt := e.tgt.map fun t => { t with addr := t.addr + 8 } }]) ∧
  (∀ core tid s g p, s.grp? core = some g → (g.thread tid).ptrap = some p → g.complete tid = true → tid < g.threads.length →
    (g.thread tid).arHold = none →
    (g.thread tid).tm = false → bit (s.tvec g.part) 0 = true →
    Comes (.regionComplete core tid) s fun t => t.mem = s.mem ∧ GroupIs t core fun g' =>
      (g'.thread tid).ptrap = none ∧ (g'.thread tid).rclosed = true ∧ (g'.thread tid).tm = true ∧
      (g'.thread tid).tcause = BitVec.ofNat 64 p.cause ∧ (g'.thread tid).tval = p.val ∧ (g'.thread tid).trec = p.trec ∧
      (g'.thread tid).tpc = p.prio ++ p.pc.setWidth 56 ∧ (g'.thread tid).w = (g.thread tid).w ∧ g'.rb = g.rb) ∧
  (∀ core tid s g, s.grp? core = some g → (g.thread tid).rbwait ≠ 0 → g.rbUsed + (g.thread tid).rbwait ≤ 2048 →
    tid < g.threads.length → (g.thread tid).long = none →
    Comes (.storeEntryRetry core tid) s fun t => OnlyGroup core s t ∧ GroupIs t core fun g' =>
      (g'.thread tid).rbwait = 0 ∧ ∀ u, u ≠ tid → g'.thread u = g.thread u)

/-- R230, R232, R235, R236: a page that is served lets every thread that waits for it arrive at its region start; a page that
is declined, or a page response that fails, Invalid Request or Response Failure alike, makes them trap PAGE_ABSENT there, the
latter with PRIFAIL in the trap record; Response Failure stops the function's page requests; a page response of an older
generation of its context is dropped.
What the spec leaves open here is the model's choice or reading (log entries 8, 40 and 91). -/
def Obligations.PagesServed : Prop :=
  (∀ part page fw s s' core g w, (part, page) ∈ s.serving → grantFw s part fw = some s' →
    pageThere s' part ((hme s' part (page * 65536)).map (·.seg) |>.getD 0) page = true →
    s'.grp? core = some g → g.part = part → w ∈ g.faultWaiters page →
    Comes (.pageServed part page fw) s fun t => (part, page) ∉ t.serving ∧ (∀ a ∈ t.asks, a.part ≠ part ∨ a.page ≠ page) ∧
      GroupIs t core fun g' => g'.waiting w.tid = none ∧ (g'.thread w.tid).pc = (g.thread w.tid).pc) ∧
  (∀ part page s core g tid pc va akind late, (part, page) ∈ s.serving → s.grp? core = some g → g.part = part →
    g.waits = [⟨tid, .fault page pc va akind late⟩] → (g.thread tid).tm = false → bit (s.tvec part) 0 = true →
    tid < g.threads.length → (akind = 4 → g.complete tid = true) →
    Comes (.faultDeclined part page) s fun t => (part, page) ∉ t.serving ∧ GroupIs t core fun g' =>
      g'.waiting tid = none ∧ (g'.thread tid).tm = true ∧ (g'.thread tid).tcause = 8 ∧ (g'.thread tid).tval = va ∧
      (g'.thread tid).tpc = (g.thread tid).prio ++ (g.thread tid).pc.setWidth 56 ∧ (g'.thread tid).w = (g.thread tid).w) ∧
  (∀ idx s x, s.pris.find? (fun x => x.idx == idx) = some x → x.gen = ctxGen s x.part x.ctx → s.priWait = [] →
    Comes (.priResponse idx 0) s fun t => ⟨x.part, x.pasid, x.page, t.atsNow x.part x.page⟩ ∈ t.ats ∧ (x.part, x.page) ∉ t.serving ∧
      (∀ y ∈ t.pris, y.idx ≠ idx)) ∧
  (∀ idx s x, s.pris.find? (fun x => x.idx == idx) = some x → x.gen = ctxGen s x.part x.ctx →
    Comes (.priResponse idx 15) s fun t => ctxOwner s x.part x.ctx ∈ t.priStopped ∧ (x.part, x.page) ∉ t.serving ∧ t.ats = s.ats) ∧
  (∀ idx code s x core g tid pc va akind late, s.pris.find? (fun x => x.idx == idx) = some x →
    x.gen = ctxGen s x.part x.ctx → code ≠ 0 → (code = 15 → s.priWait = []) → s.grp? core = some g → g.part = x.part →
    g.waits = [⟨tid, .fault x.page pc va akind late⟩] → (g.thread tid).tm = false → bit (s.tvec x.part) 0 = true →
    tid < g.threads.length → (akind = 4 → g.complete tid = true) →
    Comes (.priResponse idx code) s fun t => (x.part, x.page) ∉ t.serving ∧ t.ats = s.ats ∧ GroupIs t core fun g' =>
      g'.waiting tid = none ∧ (g'.thread tid).tm = true ∧ (g'.thread tid).tcause = 8 ∧ (g'.thread tid).tval = va ∧
      bit (g'.thread tid).trec 35 = true ∧
      (g'.thread tid).tpc = (g.thread tid).prio ++ (g.thread tid).pc.setWidth 56 ∧ (g'.thread tid).w = (g.thread tid).w) ∧
  (∀ idx code s x, s.pris.find? (fun x => x.idx == idx) = some x → x.gen ≠ ctxGen s x.part x.ctx → s.priWait = [] →
    exec (.priResponse idx code) s = .next { s with pris := s.pris.filter fun y => y.idx != idx })

namespace Sys2Proof.Claims
open Machine

/-! ## Events of homes, L1s and pages -/

/-- An outstanding result of a core group (R133). -/
def outstanding (s : State) (core id : Nat) (g : Group) (p : Pend) : Prop :=
  s.grp? core = some g ∧ (s.core core).misses.find? (fun m => m.id == id) = none ∧ g.pend.find? (fun q => q.id == id) = some p

/-- No L1 owns a word of a line, and no granule of the bytes is poisoned (R203, R209). -/
def freeOfOwners (s : State) (p ia addr n : Nat) : Prop :=
  (s.homeLine p ia).owners = [] ∧ poisoned s addr n = false

/-- A store of a word that drains, behind no other to its bytes, under the translation for which it was acknowledged, to a
unit that is there (R227, R238). -/
structure drainsNow (s : State) (core id : Nat) (g : Group) (e : RbEntry) (ia : Nat) (tg : Tgt) : Prop where
  group : s.grp? core = some g
  entry : g.rb.find? (fun e => e.id == id) = some e
  one : ∀ f ∈ g.rb, f.id = id → f = e
  notPosted : ∀ x ∈ s.posted, x.id ≠ id
  drains : e.drains = true
  first : g.drainOk e = true
  store : e.tag = none ∧ e.use ≠ .elem ∧ e.acc.n = e.data.length
  addr : e.acc.loc = .ia ia
  target : target s g.part (segOf core) e.acc.pasid ia = .ok tg
  acked : e.tgt = none ∨ e.tgt = some tg
  sink : sinkUp s g.part (segOf core) ia tg = some true

/-- Two memories agree but for the second dword of a leaf, which holds its ACC and DIRTY bits (R86). -/
def sameButLeaf (l : Leaf) (m k : List Host.Cell) : Prop :=
  ∀ a, a < l.at_ + 8 ∨ l.at_ + 16 ≤ a → memRead k a = memRead m a

/-- The result of a group's outstanding word has come. -/
def Ready (t : State) (core id : Nat) (v : List W32) : Prop :=
  GroupIs t core fun g => ∃ p ∈ g.pend, p.id = id ∧ p.st = .ready v

/-- The dirty owned words of a line lie at their home, and no other byte of memory has changed, of the line's other words
or elsewhere. -/
def wordsHome (l : L1Line) (base : Nat) (m k : List Host.Cell) : Prop :=
  (∀ i, i < 32 → bit l.own i = true → bit l.dty i = true →
    memReadN k (base + 4 * i) 4 = bytesOf 4 (l.data.getD i 0).toNat) ∧
  ∀ a, (∀ i, i < 32 → bit l.own i = true → bit l.dty i = true → a < base + 4 * i ∨ base + 4 * i + 4 ≤ a) →
    memRead k a = memRead m a

/-- No L1 of a partition's cores holds a line of an extent. -/
def noLines (t : State) (part ia size : Nat) : Prop :=
  ∀ core g, t.grp? core = some g → g.part = part →
    ∀ k ∈ (t.core core).l1, k.line < ia / 128 ∨ ia / 128 + size / 128 ≤ k.line

/-- The stores that a shootdown waits for are all done: those acknowledged have left their region buffers, those posted have
been performed at the host. -/
def shootDone (s : State) (x : Shoot) : Bool :=
  !stillOpen s x.part x.stores && !s.posted.any fun y => x.posted.contains y.id

end Sys2Proof.Claims

open Sys2Proof Sys2Proof.Machine Sys2Proof.Claims

/-- R201, R203, R316, R317: the home of a load answers with the bytes of memory, the thread's own buffered bytes over them; of
a miss it reads the line; of TAILQ and APPEND.QUERY it answers with the page's tails, once the lower lanes of the sheet have
been answered.
What the spec leaves open here is the model's choice or reading (log entries 18 and 33). -/
def Obligations.HomeLoads : Prop :=
  (∀ core id s g p a sx own ia tg l, outstanding s core id g p → p.kind = .load a sx own true → p.st = .sent → a.loc = .ia ia →
    g.earlierLoad p.tid p.id a = false → pendingAt s core ia a.n = false →
    askHome s g.part (segOf core) a ia .load = .ok tg → tg.kind = 0 → tg.leaf = some l → l.cls ≠ 2 →
    freeOfOwners s g.part ia tg.addr a.n → lineBusy s g.part ia = false →
    Comes (.homeLoad core id) s fun t => t.mem = (noteWalk s g.part a.pasid ia).mem ∧
      Ready t core id (loadWords a.n sx (mergeOwn own (memReadN (noteWalk s g.part a.pasid ia).mem tg.addr a.n)))) ∧
  (∀ core id s g m tg l, s.grp? core = some g → (s.core core).misses.find? (fun m => m.id == id) = some m →
    (s.core core).fills = [] → g.missWaiters m.line = [] →
    target s g.part (segOf core) (winPasid (s.core core).wins) (m.line * 128) = .ok tg →
    tg.kind = 0 → tg.leaf = some l → l.cls = 0 → l.cache = true → tg.rd = true →
    (s.homeLine g.part (m.line * 128)).owners = [] → lineBusy s g.part (m.line * 128) = false →
    Comes (.homeLoad core id) s fun t => ∃ f, (t.core core).fills = [f] ∧ f.line = m.line ∧ f.id = m.id ∧
      f.data = wordsOfBytes (memReadN (noteWalk s g.part (winPasid (s.core core).wins) (m.line * 128)).mem tg.addr 128) ∧
      f.stamp = (s.homeLine g.part (m.line * 128)).lseq) ∧
  (∀ core id s g p a sheet tg r, outstanding s core id g p → p.kind = .appendQuery a sheet → p.st = .sent →
    resBefore s g p a sheet = false →
    askPage s g.part (segOf core) a .rd = .ok (tg, some r) →
    Comes (.homeLoad core id) s fun t => Ready t core id [BitVec.ofNat 32 (16 * r.rt), r.state.setWidth 32]) ∧
  (∀ core id s g p a sheet tg r, outstanding s core id g p → p.kind = .tailq a sheet → p.st = .sent →
    resBefore s g p a sheet = false →
    askPage s g.part (segOf core) a .rd = .ok (tg, some r) →
    Comes (.homeLoad core id) s fun t => Ready t core id [BitVec.ofNat 32 (16 * r.ct)]) ∧
  (∀ core id s g p a sheet, outstanding s core id g p → p.kind = .appendQuery a sheet ∨ p.kind = .tailq a sheet →
    resBefore s g p a sheet = true → exec (.homeLoad core id) s = .next s) ∧
  (∀ core id s g p a sx own ia tg l, outstanding s core id g p → p.kind = .load a sx own true → p.st = .sent → a.loc = .ia ia →
    askHome s g.part (segOf core) a ia .load = .ok tg → tg.kind = 0 → tg.leaf = some l → l.cls ≠ 2 → (s.homeLine g.part ia).owners = [] →
    lineBusy s g.part ia = true →
    Comes (.homeLoad core id) s fun t => GroupIs t core fun g' => p ∈ g'.pend)

/-- R203, R205, R226, R227, R332, R362: a draining W or U store that the L1 does not hold is applied at its home: its bytes
stand in memory and, beside the leaf's own bits, no others change; the line's stamp rises, every holder is sent an
invalidation, and the entry is free once none that the core caused is unacknowledged. A store to host or peer memory leaves
as a posted one, which is performed behind those posted before it to its bytes; its entry is free once it is.
What the spec leaves open here is the model's choice or reading (log entries 10, 33, 42 and 105). -/
def Obligations.HomeWrites : Prop :=
  (∀ core id s g e ia tg l, Memory.wf s.mem = true → drainsNow s core id g e ia tg → e.acc.rt ≠ .o → tg.kind = 0 →
    tg.leaf = some l → mergesPoison s tg.addr e.acc.n = false →
    (s.core core).line? (ia / 128) = none → (s.homeLine g.part ia).owners = [] →
    Comes (.homeWrite core id) s fun t =>
      sameButLeaf l (memWriteN tg.addr e.data s.mem) t.mem ∧
      (t.homeLine g.part ia).lseq = (s.homeLine g.part ia).lseq + 1 ∧
      (∀ c ∈ holders s g.part ia (s.homeLine g.part ia) core,
        ⟨c, g.part, ia / 128, (s.homeLine g.part ia).lseq + 1, core⟩ ∈ t.invs) ∧
      GroupIs t core fun g' => (∀ x ∈ g'.rb, x.id = id → x.st = .applied) ∧
        (holders s g.part ia (s.homeLine g.part ia) core = [] → s.invs = [] → ∀ x ∈ g'.rb, x.id ≠ id) ∧
        ∀ u, g'.thread u = g.thread u) ∧
  (∀ core id s g e ia tg, drainsNow s core id g e ia tg → tg.kind = 1 ∨ tg.kind = 2 ∨ tg.kind = 3 → tg.leaf = none →
    core < 512 → (s.core core).fills = [] →
    (s.core core).line? (ia / 128) = none →
    Comes (.homeWrite core id) s fun t => t.mem = s.mem ∧
      (∃ x, t.posted = s.posted ++ [x] ∧ x.writer = core ∧ x.part = g.part ∧ x.kind = tg.kind ∧ x.addr = tg.addr ∧ x.data = e.data) ∧
      GroupIs t core fun g' => (∀ x ∈ g'.rb, x.id = id → x.gone = true) ∧ ∀ u, g'.thread u = g.thread u) ∧
  (∀ core id s x, s.posted.find? (fun x => x.id == id) = some x → postedBefore s x = false →
    Comes (.homeWrite core id) s fun t => t.mem = memWriteN x.addr x.data s.mem ∧
      t.posted = s.posted.filter (fun y => y.id != id) ∧
      (∀ gr, x.addr ≤ 32 * gr → 32 * gr + 32 ≤ x.addr + x.data.length → gr ∉ t.poison) ∧
      (∀ g, x.writer < 512 → s.grp? x.writer = some g → GroupIs t x.writer fun g' =>
        g'.threads = g.threads ∧ ∀ e ∈ g'.rb, e.st ≠ .posted id))

/-- R315, R336, R337, R338: ATOM and RED are performed at the home as one read and one write of the new value that the table
of R336 gives, ATOM answers with the old value, RED with none; APPEND.RES reserves granules while the page is open and answers with the
first.
What the spec leaves open here is the model's choice or reading (log entry 42). -/
def Obligations.HomeAtomics : Prop :=
  (∀ core id s g p op a b d sc raw ia tg l, Memory.wf s.mem = true → 
    outstanding s core id g p → p.kind = .atom op a b d sc raw → p.st = .sent → a.loc = .ia ia →
    pendingAt s core ia a.n = false → askHome s g.part (segOf core) a ia .atomic = .ok tg → tg.kind = 0 → tg.leaf = some l →
    freeOfOwners s g.part ia tg.addr a.n → lineBusy s g.part ia = false →
    let m := (noteWalk s g.part a.pasid ia).mem
    let old := natOfBytes (memReadN m tg.addr a.n)
    Comes (.homeAtomic core id) s fun t =>
      sameButLeaf l (memWriteN tg.addr (bytesOf a.n (atomNew op (8 * a.n) old b d)) m) t.mem ∧
      Ready t core id (wordsOfBytes (bytesOf a.n old))) ∧
  (∀ core id s g p op a b sc raw ia tg l, Memory.wf s.mem = true → 
    outstanding s core id g p → p.kind = .red op a b sc raw → p.st = .sent → a.loc = .ia ia →
    pendingAt s core ia a.n = false → askHome s g.part (segOf core) a ia .atomic = .ok tg → tg.kind = 0 → tg.leaf = some l →
    freeOfOwners s g.part ia tg.addr a.n →
    let m := (noteWalk s g.part a.pasid ia).mem
    Comes (.homeAtomic core id) s fun t =>
      sameButLeaf l (memWriteN tg.addr
        (bytesOf a.n (atomNew (redToAtom op) (8 * a.n) (natOfBytes (memReadN m tg.addr a.n)) b 0)) m) t.mem ∧
      Ready t core id []) ∧
  (∀ core id s g p a n sheet tg l r, outstanding s core id g p → p.kind = .appendRes a n sheet → p.st = .sent →
    resBefore s g p a sheet = false →
    askPage s g.part (segOf core) a .wr = .ok (tg, some r) → tg.leaf = some l → r.state = 0 → r.rt + n.toNat ≤ r.granules →
    Comes (.homeAtomic core id) s fun t => alFind t.tails l.frame = some { r with rt := r.rt + n.toNat } ∧
      Ready t core id [BitVec.ofNat 32 (16 * r.rt)]) ∧
  (∀ w old b d, old < 2 ^ w → b < 2 ^ w →
    atomNew .add w old b d = (old + b) % 2 ^ w ∧
    atomNew .min w old b d = (if (BitVec.ofNat w b).slt (BitVec.ofNat w old) then b else old) ∧
    atomNew .max w old b d = (if (BitVec.ofNat w old).slt (BitVec.ofNat w b) then b else old) ∧
    atomNew .and w old b d = old &&& b ∧ atomNew .or w old b d = old ||| b ∧ atomNew .xor w old b d = old ^^^ b ∧
    atomNew .exch w old b d = b ∧ atomNew .cas w old b d = (if old = d then b else old) ∧
    atomNew .fadd w old b d = (fAdd .f32 .rn old b).1)

/-- R203, R205, R206, R207: a fill that is not older than the floor of its miss enters the L1; an invalidation and a host
snoop leave only owned words valid and those that a store has pending; a recall and a write-back put the owned dirty words
of a line in memory and change no other byte, of the line's clean words and of those not owned neither.
What the spec leaves open here is the model's choice or reading (log entries 18, 44 and 66). -/
def Obligations.L1Lines : Prop :=
  (∀ core line s g f m, s.grp? core = some g → (s.core core).fills.find? (fun f => f.line == line) = some f →
    (s.core core).misses.find? (fun m => m.line == line) = some m → (∀ fl, m.floor = some fl → older f.stamp fl = false) →
    (s.core core).l1.length < l1Lines g → g.missWaiters line = [] →
    Comes (.fillArrival core line) s fun t =>
      (t.core core).line? line = some (mergedLine g ((s.core core).line? line) f) ∧
      (∀ k ∈ (t.core core).misses, k.id ≠ m.id) ∧ ∀ k ∈ (t.core core).fills, k.id ≠ f.id) ∧
  (∀ core line s g i l, s.grp? core = some g → s.invs.find? (fun i => i.core == core && i.line == line) = some i →
    i.part = g.part → (s.core core).line? line = some l →
    Comes (.invalidation core line) s fun t => t.invs.length + 1 = s.invs.length ∧
      match (t.core core).line? line with
      | none => l.v &&& (l.own ||| g.pendingWhole line) = 0
      | some k => k = { l with v := l.v &&& (l.own ||| g.pendingWhole line) }) ∧
  (∀ core line s g l base, Memory.wf s.mem = true → s.grp? core = some g → (s.core core).line? line = some l → lineAddr s g.part line = some base →
    Comes (.recall core line) s fun t => wordsHome l base s.mem t.mem ∧
      ∃ k, (t.core core).line? line = some k ∧ k.own = 0 ∧ k.v = l.v ∧ k.data = l.data) ∧
  (∀ core line s g l base, Memory.wf s.mem = true → s.grp? core = some g → (s.core core).line? line = some l → lineAddr s g.part line = some base →
    Comes (.writeBack core line) s fun t => wordsHome l base s.mem t.mem ∧
      ∃ k, (t.core core).line? line = some k ∧ (k.own &&& k.dty = 0 ∨ l.dty &&& l.own = 0) ∧ k.v = l.v ∧ k.data = l.data) ∧
  (∀ part line s core g, kindOf s part (line / 512) = 1 → s.grp? core = some g → g.part = part → g.pendingMask line = 0 →
    (∀ l, (s.core core).line? line = some l → l.own = 0) →
    Comes (.hostSnoop part line) s fun t => (t.core core).line? line = none ∧ (∀ f ∈ (t.core core).fills, f.line ≠ line) ∧
      t.mem = s.mem)

/-- R51, R320, R363, R405: a host request to device HBM that no L1 owns reads or writes the bytes it names, and writes none of
a sealed page; it does nothing at an address of the second tier, and faults where the part has no memory; an access of a
thread to outside memory that times out traps POISON at the region start; one of an engine and a fetch are marked, and read
as POISON.
What the spec leaves open here is the model's choice or reading (log entries 67, 69 and 93). -/
def Obligations.HostAccesses : Prop :=
  (∀ addr len bs s u, addr < 2 ^ 56 → unitAt (addr / 2 ^ 53) (addr % 2 ^ 53) = some (.inl u) → 0 < len → addr % 64 + len ≤ 64 →
    bs.length = len → unitReady s.pkg (addr / 2 ^ 53) (addr % 2 ^ 53) = some true → linesAt s addr = [] →
    sealedAt s addr = false →
    Comes (.hostCxlMemAccess addr len (some bs)) s fun t => t.mem = memWriteN addr bs s.mem ∧ t.cores = s.cores) ∧
  (∀ addr len data s u, addr < 2 ^ 56 → unitAt (addr / 2 ^ 53) (addr % 2 ^ 53) = some (.inl u) → linesAt s addr = [] →
    sealedAt s addr = true → exec (.hostCxlMemAccess addr len data) s = .next s) ∧
  (∀ addr len s u, addr < 2 ^ 56 → unitAt (addr / 2 ^ 53) (addr % 2 ^ 53) = some u → linesAt s addr = [] →
    exec (.hostCxlMemAccess addr len none) s = .next s) ∧
  (∀ addr len data s u, addr < 2 ^ 56 → unitAt (addr / 2 ^ 53) (addr % 2 ^ 53) = some (.inr u) →
    exec (.hostCxlMemAccess addr len data) s = .next s) ∧
  (∀ addr len data s, unitAt (addr / 2 ^ 53) (addr % 2 ^ 53) = none →
    exec (.hostCxlMemAccess addr len data) s = .fault .noSuchAddress) ∧
  (∀ core id s g p a sx own, outstanding s core id g p → g.pend = [p] → g.rb = [] → p.kind = .load a sx own true → p.st = .sent →
    outside s g.part a = true → id ≠ engineAccess → id ≠ fetchAccess → s.run core 0 = none → s.run core 1 = none → p.tid < g.threads.length →
    (g.thread p.tid).tm = false → bit (s.tvec g.part) 0 = true →
    Comes (.accessTimeout core id) s fun t => GroupIs t core fun g' =>
      (g'.thread p.tid).tm = true ∧ (g'.thread p.tid).tcause = 0x0B ∧ (g'.thread p.tid).tval = a.va ∧
      (g'.thread p.tid).tpc = (g.thread p.tid).rsPrio ++ (g.thread p.tid).rsPc.setWidth 56 ∧ g'.pend = []) ∧
  (∀ core s, exec (.accessTimeout core engineAccess) s = .next { s with expired := s.expired ++ [(core, 0)] }) ∧
  (∀ core s, exec (.accessTimeout core fetchAccess) s = .next { s with expired := s.expired ++ [(core, 1)] })

/-- R83 to R89, R93, R94, R237: a walk caches the leaf and sets ACC; a shootdown replaces the leaf with its generation one
higher and drops its cached copies, and the lines of a page whose frame or rights change, at once; then it waits for the
stores acknowledged under the old one and ends when they are done; an ATS invalidation does the same for a host page, and
waits also for the stores posted under the old translation until they are performed at the host; a migration within the partition's quotas holds the region and
writes its new entry, and the hold ends with the slices' copies of the old one; hot counts are halved once in every 2^20
cycles.
What the spec leaves open here is the model's choice or reading (log entries 8, 30 and 68). -/
def Obligations.Translations : Prop :=
  (∀ part ia s h l, Memory.wf s.mem = true → hme s part ia = some h → h.kind = 0 → alFind s.xlat (pageKey part ia) = none →
    walk s part h ia = .leaf l →
    Comes (.pageWalk part ia) s fun t => bit (memRead64 t.mem (l.at_ + 8)) 32 = true ∧
      alFind t.xlat (pageKey part ia) = some (l.at_, leafRaw l t.mem) ∧ sameButLeaf l s.mem t.mem) ∧
  (∀ part ia d0 d1 s h l, Memory.wf s.mem = true → leafOf s part ia = some (h, l) → s.shootOf part (ia / 65536) = none →
    (∀ k ∈ s.homes, k.2.owners = []) →
    Comes (.shootdown part ia d0 d1) s fun t => memRead64 t.mem l.at_ = d0 ∧
      bits (memRead64 t.mem (l.at_ + 8)) 0 32 = bits (memRead64 s.mem (l.at_ + 8)) 0 32 + (1 : W32) ∧
      (∀ e ∈ t.xlat, e.1 ≠ part * 2 ^ 32 + l.pageIa ia / 65536) ∧
      (d0 ≠ memRead64 s.mem l.at_ → noLines t part (l.pageIa ia) l.size) ∧
      let stores := openStores s part (l.pageIa ia) l.size
      (stores = [] → t.shoots = s.shoots) ∧
      (stores ≠ [] → t.shoots = s.shoots ++ [⟨part, l.pageIa ia / 65536, l.size / 65536, stores, []⟩])) ∧
  (∀ part ia d0 d1 s x, s.shootOf part (ia / 65536) = some x → kindOf s part (ia / 65536) = 0 →
    exec (.shootdown part ia d0 d1) s =
      .next (if shootDone s x then { s with shoots := s.shoots.filter (· != x) } else s)) ∧
  (∀ part page s, (kindOf s part page = 1 ∨ kindOf s part page = 2) → s.shootOf part page = none →
    Comes (.atsInvalidation part page) s fun t => (∀ x ∈ t.ats, x.part ≠ part ∨ x.page ≠ page) ∧ t.mem = s.mem ∧
      t.atsNow part page = s.atsNow part page + 1 ∧ noLines t part (page * 65536) 65536 ∧
      let stores := openStores s part (page * 65536) 65536
      let out := postedTo s part page
      (stores = [] → out = [] → t.shoots = s.shoots) ∧
      (¬(stores = [] ∧ out = []) → t.shoots = s.shoots ++ [⟨part, page, 1, stores, out⟩])) ∧
  (∀ s part page a x, a ∈ s.ats → a.part = part → a.page = page → x ∈ s.posted → x.part = part →
    x.addr / 65536 = hostAddr (Config.atsPage part a.pasid page a.epoch * 65536) / 65536 → x.id ∈ postedTo s part page) ∧
  (∀ part page s x, s.shootOf part page = some x → kindOf s part page ≠ 0 →
    exec (.atsInvalidation part page) s =
      .next (if shootDone s x then { s with shoots := s.shoots.filter (· != x) } else s)) ∧
  (∀ part ia seg stk fw s h a, Memory.wf s.mem = true → hme s part ia = some h → hmeAddr s part ia = some a → h.kind = 0 → h.hold = false →
    storesOpen s part (ia / 2 ^ 21 * 2 ^ 21) (2 ^ 21) = false →
    (let s1 := moveTails (applyFw (recallRange s part (ia / 2 ^ 21 * 2 ^ 21) (2 ^ 21)) part fw) fw.copies
     quotaOk { s1 with frames := s1.frames.filter fun f => !(f.2 == part && fw.copies.any fun c => c.1 == f.1) } part = true) →
    Comes (.migrateRegion part ia seg stk fw) s fun t => memReadN t.mem a 4 = bytesOf 4 (hmeWord seg stk).toNat ∧
      ∃ e, alFind t.hmc (part * 2 ^ 27 + ia / 2 ^ 21) = some e ∧ bit e 20 = true) ∧
  (∀ part ia s e, alFind s.hmc (part * 2 ^ 27 + ia / 2 ^ 21) = some e → bit e 20 = true →
    (∀ f ∈ s.fns, f.2.held = []) →
    exec (.heldRequestMoved part ia) s = .next { s with hmc := alDel (part * 2 ^ 27 + ia / 2 ^ 21) s.hmc }) ∧
  (∀ s, s.hotEpoch = s.now / 2 ^ 20 → exec .hotnessHalving s = .next s) ∧
  (∀ s, s.now / 2 ^ 20 = s.hotEpoch + 1 → Comes .hotnessHalving s fun t => t.hotEpoch = s.hotEpoch + 1 ∧
    (∀ h ∈ s.hot, 2 ≤ h.count → { h with count := h.count / 2 } ∈ t.hot) ∧
    ∀ k ∈ t.hot, ∃ h ∈ s.hot, k = { h with count := h.count / 2 } ∧ k.count ≠ 0)

/-- R318, R321, R322: the first SEAL of an open page closes it; a closing page whose reserved granules are all written becomes
sealed, its leaf of class 2 with a higher generation; a placed replica is read, a dropped one drains, a drained one gives
its frames back.
What the spec leaves open here is the model's choice or reading (log entries 8 and 39). -/
def Obligations.SealsAndReplicas : Prop :=
  (∀ core id s g p a b tg l h r, outstanding s core id g p → p.kind = .seal a b false → p.st = .sent →
    askPage s g.part (segOf core) a .wr = .ok (tg, some r) → tg.leaf = some l → hme s g.part a.ia = some h → r.state = 0 →
    Comes (.sealAtHome core id) s fun t =>
      alFind t.tails l.frame = some { r with state := 1, bcast := r.bcast || b } ∧
      GroupIs t core fun g' => ∃ q ∈ g'.pend, q.id = id ∧ q.kind = .seal a b true ∧ q.st = .sent) ∧
  (∀ part page s h l r, Memory.wf s.mem = true → tailOf s part page = some (h, l, r) → r.state = 1 → r.ct = r.rt →
    Comes (.sealComplete part page) s fun t => alFind t.tails l.frame = some { r with state := 2 } ∧
      bits (memRead64 t.mem l.at_) 5 2 = (2 : BitVec 2) ∧
      bits (memRead64 t.mem (l.at_ + 8)) 0 32 = bits (memRead64 s.mem (l.at_ + 8)) 0 32 + (1 : W32)) ∧
  (∀ part page stack s h l r x, tailOf s part page = some (h, l, r) →
    s.replicas.find? (Replica.of part page stack) = some x → x.st = .placing →
    Comes (.replicaPlaced part page stack) s fun t =>
      (∃ y ∈ t.replicas, Replica.of part page stack y = true ∧ y.st = .live ∧ y.frame = x.frame) ∧
      alFind t.tails l.frame = some { r with repl := r.repl + 1 }) ∧
  (∀ part page stack s h l r x, tailOf s part page = some (h, l, r) →
    s.replicas.filter (Replica.of part page stack) = [x] → x.st = .live →
    Comes (.replicaDrop part page stack) s fun t =>
      (∀ y ∈ t.replicas, Replica.of part page stack y = true → y.st = .draining) ∧
      alFind t.tails l.frame = some { r with repl := r.repl - 1 }) ∧
  (∀ part page stack s x, s.replicas.find? (Replica.of part page stack) = some x → x.st = .draining →
    Comes (.replicaDrained part page stack) s fun t =>
      (∀ y ∈ t.replicas, Replica.of part page stack y = false) ∧ (x.frame / 65536, part) ∉ t.frames ∧ t.mem = s.mem) ∧
  (∀ part page stack frame s x h l r, s.proposals = [x] → x.part = part → x.page = page → x.fallback = false →
    x.src = stack / 2 → tailOf s part page = some (h, l, r) → r.state = 2 → stack ≠ 2 * h.seg + h.stk → stack < 16 →
    slicesOn s part (stack / 2) (stack % 2) ≠ [] → frame * 65536 % l.size = 0 → stackOf (frame * 65536) = stack →
    onStack (frame * 65536) = true → (∀ f ∈ frameList (frame * 65536) l.size, ∀ y ∈ s.frames, y.1 ≠ f) →
    s.replicas.any (Replica.of part (l.pageNo page) stack) = false →
    framesUsed s part + l.size / 65536 ≤ frameQuota s part → stackReady s stack = true →
    Comes (.replicationByHotness part page stack frame) s fun t => t.proposals = [] ∧
      t.replicas = s.replicas ++ [⟨part, l.pageNo page, stack, frame * 65536, .placing⟩])

namespace Sys2Proof.Claims
open Machine

/-! ## Engines: copies, products, collectives -/

/-- A completion is added (R257, R258): nothing where the command names no object; else the error word of a failed command goes
to an error field that holds 0, and then WEIGHT is added to COUNT. -/
def Added (s : State) (p seg core : Nat) (wins : List W64) (va : W64) (weight : W32) (code engine : Nat) (cseq : W32)
    (t : State) : Prop :=
  if va = 0 then t = s
  else va.toNat % 8 = 0 ∧ ∃ s1 v,
    (if code = 0 then s1 = s else ∃ o, vaAtom s p seg core wins (va + 8) .cas (errWord code engine cseq).toNat 0 = (s1, .ok o)) ∧
    vaAtom s1 p seg core wins va .add weight.toNat 0 = (t, .ok v)

/-- The matrix engine of a core after an event, of which `P` holds. -/
def MxIs (t : State) (core : Nat) (P : Matrix → Prop) : Prop := GroupIs t core fun g => P g.mx

/-- Every rank that takes part in a collective at a number, of which `P` holds. -/
def RanksAre (t : State) (k : CollKey) (n : Nat) (P : CollRank → Prop) : Prop :=
  ∀ y ∈ t.ranks, CollRank.is k n y = true → P y

/-- The rows of A and the columns of B that a micro-tile takes for the group in progress come to `la` and `lb` (R288). -/
def TileBytes (s : State) (core tile : Nat) (g : Group) (m : MqItem) (b : List W64) (la lb : List (List Byte))
    (t : State) : Prop :=
  ∃ r s1 v w, g.mx.mma = some r ∧
    sideRows s core g m.wins (sideOf g b 0) g.mx.collA r.slotA g.mx.kgroup (tileSpan (tileRow tile) (mM b)) = (s1, .ok la, v) ∧
    sideRows s1 core g m.wins (sideOf g b 1) g.mx.collB r.slotB g.mx.kgroup (tileSpan (tileCol tile) (mN b)) = (t, .ok lb, w)

/-- The operand lines of a micro-tile. -/
def tileLines (g : Group) (m : MqItem) (b : List W64) (tile : Nat) : List Nat :=
  sideLines g m.wins (sideOf g b 0) g.mx.kgroup (tileSpan (tileRow tile) (mM b)) ++
    sideLines g m.wins (sideOf g b 1) g.mx.kgroup (tileSpan (tileCol tile) (mN b))

end Sys2Proof.Claims

open Sys2Proof Sys2Proof.Machine Sys2Proof.Claims

/-- R210, R250, R253, R254, R262, R264, R266, R267: a copy queue starts its head record with the checks made, claims the next
stage slot, moves one block at a time, each read whole and then written within one row and within lines of 128 bytes, and
one of the scratchpad behind what the pipes do in the same cycle; it walks a chain record by record while OWN is 1, and
performs a fence that heads every queue that it names.
What the spec leaves open here is the model's choice or reading (log entries 54, 55 and 56). -/
def Obligations.CopyEngine : Prop :=
  (∀ core q s g r l, s.grp? core = some g → g.cfrozen = false → (g.cq q).run = none → (g.cq q).q = .xfer r :: l →
    Comes (.copyEntryStart core q) s fun t => t.mem = s.mem ∧ GroupIs t core fun g' =>
      (g'.cq q).run = some (startRun s core g r) ∧ (g'.cq q).q = (g.cq q).q ∧ ∀ k, k ≠ q → g'.cq k = g.cq k) ∧
  (∀ core q s g p l, s.grp? core = some g → g.cfrozen = false → (g.cq q).run = none → (g.cq q).q = .chain p :: l →
    (g.cq q).walk = none →
    Comes (.copyEntryStart core q) s fun t => t.mem = s.mem ∧ GroupIs t core fun g' =>
      (g'.cq q).walk = some ⟨p, false, false, s.now⟩ ∧ (g'.cq q).run = none) ∧
  (∀ core q s g c r, s.grp? core = some g → movingRun g q = some c → xDstg c.desc = true → c.claim = none →
    g.ring? (xSid c.desc) = some r → 0 < r.free → c.total ≠ 0 →
    g.stgFirst (xSid c.desc) false (stgKey c.since (4096 + q)) = true → pipeDue s core g 0 = false → pipeDue s core g 1 = false →
    Comes (.copyStageClaim core q) s fun t => t.mem = s.mem ∧ GroupIs t core fun g' =>
      g'.ring? (xSid c.desc) = some { r with claimc := (r.claimc + 1) % r.mod } ∧
      (g'.cq q).run = some { c with claim := some r.claimc }) ∧
  (∀ core q s g c s1 s2 bs, s.grp? core = some g → movingRun g q = some c → c.pos < c.total →
    (xDstg c.desc = true → c.claim ≠ none) →
    (isPlace (blockOf g c).1 = true ∨ isPlace (blockOf g c).2.1 = true → pipeDue s core g 0 = false ∧ pipeDue s core g 1 = false) →
    engRead s core g c.wins (blockOf g c).1 (blockOf g c).2.2 = (s1, .ok bs) →
    engWrite s1 core g c.wins (blockOf g c).2.1 bs = (s2, .ok ()) →
    Comes (.copyBlock core q) s fun t => t.mem = s2.mem ∧ GroupIs t core fun g' =>
      (g'.cq q).run = some { c with pos := c.pos + (blockOf g c).2.2 }) ∧
  (∀ core q s g c, s.grp? core = some g → movingRun g q = some c →
    (isPlace (blockOf g c).1 = true ∨ isPlace (blockOf g c).2.1 = true) → (pipeDue s core g 0 = true ∨ pipeDue s core g 1 = true) →
    exec (.copyBlock core q) s = .next s) ∧
  (∀ g c, c.pos < c.total →
    let (src, dst, n) := blockOf g c
    0 < n ∧ src.toNat % 128 + n ≤ 128 ∧ dst.toNat % 128 + n ≤ 128 ∧ c.pos % xLen c.desc + n ≤ xLen c.desc) ∧
  (∀ core q s g w s1 bs, s.grp? core = some g → idleWalk g q = some w → w.p.toNat % 64 = 0 →
    engRead s core g (s.core core).wins w.p 64 = (s1, .ok bs) →
    let s2 := s1.settle g.part (chanAsker s g.part core q w.p)
    ∀ i, (i = .chainRecordRead core q ∧ w.ownWait = false ∨ i = .chainRereadTimer core q ∧ w.ownWait = true) →
    Comes i s fun t => t.mem = s1.mem ∧ GroupIs t core fun g' =>
      if xOwn (dwordsOf bs) then
        (g'.cq q).run = some (startRun s2 core g (dwordsOf bs)) ∧
        (g'.cq q).walk = some { w with ownWait := false, readAt := s1.now }
      else (g'.cq q).run = none ∧ (g'.cq q).walk = some { w with ownWait := true, readAt := s1.now }) ∧
  (∀ core s g f s1, s.grp? core = some g → g.fences = [f] → fenceReady s core g f = true →
    Added s g.part (segOf core) core (s.core core).wins f.comp 1 0 0 0 s1 →
    Comes (.qfencePerformed core) s fun t => t.mem = s1.mem ∧ GroupIs t core fun g' =>
      g'.fences = [] ∧ (∀ q e, e ∈ (g'.cq q).q ↔ e ∈ (g.cq q).q ∧ e ≠ .fence f.id) ∧
      (∀ m, m ∈ g'.mx.q ↔ m ∈ g.mx.q ∧ m.cmd ≠ .fence f.id) ∧ ∀ r, r ∈ g'.rq ↔ r ∈ g.rq ∧ r ≠ .fence f.id)

/-- R257, R258, R262, R294, R382, R387: the completion of a command puts its error word and its WEIGHT in its object by
atomics at the home, and the entry leaves its queue.
What the spec leaves open here is the model's choice or reading (log entry 57). -/
def Obligations.Completions : Prop :=
  (∀ core q s g c s1, s.grp? core = some g → (g.cq q).run = some c → (g.cq q).walk = none → c.over = true →
    c.faultWait = none → engineQuiet s core = true →
    Added s g.part (segOf core) core c.wins (xComp c.desc) (xWeight c.desc) (c.code.getD 0) (engineId s g.part core 0x1000)
      (xCseq c.desc) s1 →
    Comes (.commandCompletion core (.copy q)) s fun t => t.mem = s1.mem ∧ GroupIs t core fun g' =>
      (g'.cq q).q = (g.cq q).q.drop 1 ∧ (g'.cq q).run = none ∧ ∀ k, k ≠ q → g'.cq k = g.cq k) ∧
  (∀ core s g cmd code wins l s1, s.grp? core = some g → g.mx.q = ⟨cmd, .ended code, wins⟩ :: l → engineQuiet s core = true →
    wins ≠ [] →
    Added s g.part (segOf core) core wins cmd.comp.1 cmd.comp.2.1 code (engineId s g.part core 0x2000) cmd.comp.2.2 s1 →
    Comes (.commandCompletion core .matrix) s fun t => t.mem = s1.mem ∧ MxIs t core fun m => m.q = l ∧ m.bank0 = g.mx.bank0 ∧
      m.bank1 = g.mx.bank1) ∧
  (∀ core s g x s1, s.grp? core = some g → s.ranks = [x] → s.rankAt core = some x → x.token = true → x.failed = none →
    engineQuiet s core = true →
    Added s x.key.part (segOf core) core x.wins (cComp x.blk) (cWeight x.blk) 0 (0x3000 + x.lseg) x.key.cseq s1 →
    Comes (.commandCompletion core .ring) s fun t => t.mem = s1.mem ∧ t.ranks = [] ∧
      (t.core core).rdone.head? = some ⟨x.key.part, x.key.group, x.key.cseq, progWord 6 x.rank x.minPv x.folds⟩ ∧
      GroupIs t core fun g' => g'.rq = g.rq.drop 1)

/-- R274, R276, R288, R289, R290, R293, R294, R298, R299, R300, R301, R302, R304: the matrix engine starts a product or a drain
that passes its checks, takes a filled slot of an operand's stage ring in the order of those that wait and behind the pipes
of the same cycle, fetches micro-tile by micro-tile, waits for the governor, updates the bank once for each group, sets
widths, clears a bank, and writes drained cells tile by tile, two at a time.
What the spec leaves open here is the model's choice or reading (log entries 58, 59, 62 and 63). -/
def Obligations.MatrixEngine : Prop :=
  (∀ core s g i b, s.grp? core = some g → g.mx.frozen = false → g.mx.mma = none →
    startable g.mx.q MqCmd.isMma = some (i, .mma b) →
    (mmaCheck s core g b = none → Comes (.mmaStart core) s fun t => t.mem = s.mem ∧ MxIs t core fun m =>
      m.kgroup = 0 ∧ m.done = inactiveMask (mM b) (mN b) ∧ m.mrun = true ∧ m.bank0 = g.mx.bank0 ∧ m.bank1 = g.mx.bank1 ∧
      (m.q.map (·.wins))[i]? = some (s.core core).wins ∧
      ∃ r, m.mma = some r ∧ r.fetched = [] ∧ r.wa = (sideOf g b 0).resolve g.mx.wa.toNat ∧
        r.wb = (sideOf g b 1).resolve g.mx.wb.toNat) ∧
    (∀ c, mmaCheck s core g b = some c → Comes (.mmaStart core) s fun t => t.mem = s.mem ∧ MxIs t core fun m =>
      (m.q.map (·.st))[i]? = some (.ended c) ∧ (m.q.map (·.wins))[i]? = some (s.core core).wins ∧ m.mma = none ∧ m.bank0 = g.mx.bank0 ∧ m.bank1 = g.mx.bank1)) ∧
  (∀ core tile s g g1 i m b r pins la lb s3, s.grp? core = some g → mmaNow g = some (i, m, b, r) →
    needsFetch g.mx b r tile = true → r.pinWait = none →
    (takeSlots s core g b r).grp? core = some g1 →
    takePins (takeSlots s core g b r) r (tileLines g1 m b tile) = some pins →
    TileBytes (takeSlots s core g b r) core tile g1 m b la lb s3 →
    Comes (.operandFetch core tile) s fun t => t.mem = s3.mem ∧ MxIs t core fun k => ∃ r', k.mma = some r' ∧
      r'.fetched = r.fetched ++ [⟨tile, la, lb⟩] ∧ r'.pins = r.pins ++ pins) ∧
  (∀ since g x r, x.stg = true → g.ring? x.sid = some r → r.has true = true → g.stgFirst x.sid true (mxStgKey since) = true →
    takeSlot false since g x none = (g.setRing x.sid r.take, some r.takec) ∧ takeSlot true since g x none = (g, none)) ∧
  (∀ core tile since s g i m b r la lb s3, s.grp? core = some g → mmaNow g = some (i, m, b, r) → r.pinWait = some (tile, since) →
    takePins s r (tileLines g m b tile) = none → since + 1024 ≤ s.now → TileBytes s core tile g m b la lb s3 →
    Comes (.pinWaitTimeout core) s fun t => t.mem = s3.mem ∧ MxIs t core fun k => ∃ r', k.mma = some r' ∧
      r'.fetched = r.fetched ++ [⟨tile, la, lb⟩] ∧ r'.pins = r.pins ∧ r'.pinWait = none) ∧
  (∀ core s g, s.grp? core = some g → g.mx.winNo ≠ winOf s core g → Comes (.governorWindow core) s fun t => t.mem = s.mem ∧
    MxIs t core fun m => m.winNo = winOf s core g ∧ m.winCharge = 0 ∧ m.winAny = false ∧
      ∀ r, m.mma = some r → r.held = false) ∧
  (∀ core tile s g i m b r d, s.grp? core = some g → mmaNow g = some (i, m, b, r) → g.mx.winNo = winOf s core g →
    r.admitted = true → g.mx.faults = [] → r.fetched.find? (fun d => d.tile == tile) = some d → bit g.mx.done tile = false →
    tileCheck (tileOps (sideOf g b 0) (sideOf g b 1) r.wa r.wb d) [] tile (sideOf g b 0).g
      (tilePartials (tileOps (sideOf g b 0) (sideOf g b 1) r.wa r.wb d) []) = .ok →
    d.tile = tile →
    let o := tileOps (sideOf g b 0) (sideOf g b 1) r.wa r.wb d
    Comes (.mmaTileUpdate core tile) s fun t => t.mem = s.mem ∧ MxIs t core fun k =>
      bankOf' k (mBank b) = (tileUpdate o (tilePartials o []) none (bankOf' g.mx (mBank b))).1 ∧
      bankOf' k (!mBank b) = bankOf' g.mx (!mBank b) ∧
      (g.mx.done ||| ((1 : BitVec 16) <<< tile) ≠ 0xFFFF → k.done = g.mx.done ||| ((1 : BitVec 16) <<< tile) ∧ k.kgroup = g.mx.kgroup) ∧
      (g.mx.done ||| ((1 : BitVec 16) <<< tile) = 0xFFFF → k.kgroup = g.mx.kgroup + 1 ∧ k.done = inactiveMask (mM b) (mN b))) ∧
  (∀ s core g r gs, g.mx.mma = some r → g.mx.winNo = winOf s core g → r.admitted = false → r.held = false →
    (∀ c, c = ((List.range 16).filter fun u => !bit g.mx.done u).length * 1024 * gs * r.wa * r.wb →
      (g.mx.winAny = false ∨ g.mx.winCharge + c ≤ s.mbudget g.part →
        (admitted s core g gs).winCharge = g.mx.winCharge + c ∧ (admitted s core g gs).bpused = g.mx.bpused + BitVec.ofNat 64 c ∧
        (admitted s core g gs).mma = some { r with admitted := true }) ∧
      (g.mx.winAny = true → s.mbudget g.part < g.mx.winCharge + c →
        (admitted s core g gs).gstall = g.mx.gstall + 1 ∧ (admitted s core g gs).mma = some { r with held := true }))) ∧
  (∀ core s g i wa wb, s.grp? core = some g → g.mx.frozen = false →
    startable g.mx.q MqCmd.isMprec = some (i, .mprec wa wb) →
    Comes (.mprecEffect core) s fun t => t.mem = s.mem ∧ MxIs t core fun m => m.wa = wa ∧ m.wb = wb ∧
      m.q = g.mx.q.take i ++ g.mx.q.drop (i + 1) ∧ m.bank0 = g.mx.bank0 ∧ m.bank1 = g.mx.bank1) ∧
  (∀ core s g i bank, s.grp? core = some g → g.mx.frozen = false →
    startable g.mx.q (fun c => match c with | .mzero _ => true | _ => false) = some (i, .mzero bank) →
    Comes (.mzeroEffect core) s fun t => t.mem = s.mem ∧ MxIs t core fun m => (∀ k, bankCell (bankOf' m bank) k = (0, 0)) ∧
      bankOf' m (!bank) = bankOf' g.mx (!bank) ∧ m.q = g.mx.q.take i ++ g.mx.q.drop (i + 1)) ∧
  (∀ core s g i b, s.grp? core = some g → g.mx.frozen = false → g.mx.drain = none →
    startable g.mx.q MqCmd.isDrain = some (i, .mdrain b) →
    (drainCheck s core g b = none → Comes (.mdrainStart core) s fun t => t.mem = s.mem ∧ MxIs t core fun m =>
      m.drained = 0 ∧ m.drun = true ∧ (m.q.map (·.wins))[i]? = some (s.core core).wins ∧ ∃ d, m.drain = some d ∧ d.cells = [] ∧
        d.issued = (if (s.core core).preq || (s.core core).testDue then []
          else ((List.range 16).filter fun u => tileActive (dM b) (dN b) u).take 2)) ∧
    (∀ c, drainCheck s core g b = some c → Comes (.mdrainStart core) s fun t => t.mem = s.mem ∧ MxIs t core fun m =>
      (m.q.map (·.st))[i]? = some (.ended c) ∧ m.drain = none ∧ m.drun = false)) ∧
  (∀ core tile s g i m b d r c s1, s.grp? core = some g → runningItem g.mx.q MqCmd.isDrain = some (i, m) →
    m.cmd = .mdrain b → g.mx.drain = some d → d.issued.contains tile = true → d.faultWait = none →
    (cellsLeft d b tile)[(s.pick (cellsLeft d b tile).length).1]? = some (r, c) →
    drainCell (s.pick (cellsLeft d b tile).length).2 core g m.wins b (dAddr b r c)
      (bankCell (bankOf' g.mx (dBank b)) (128 * r + c)) = (s1, .ok ()) →
    (s1.grp? core).map (·.mx) = some g.mx → engineQuiet s1 core = true →
    Comes (.drainTileAck core tile) s fun t => t.mem = s1.mem ∧ MxIs t core fun k =>
      (1 < (cellsLeft d b tile).length → k.drained = g.mx.drained ∧ k.drain = some { d with cells := (128 * r + c) :: d.cells }) ∧
      ((cellsLeft d b tile).length = 1 → k.drained = g.mx.drained ||| ((1 : BitVec 16) <<< tile) ∧
        bankOf' k (!dBank b) = bankOf' g.mx (!dBank b) ∧ (dClear b = false → bankOf' k (dBank b) = bankOf' g.mx (dBank b)))) ∧
  (∀ s core g wins b va c tgt off a, drainLoc s core g wins b va = .ok a → a.loc = .spad tgt off → dRed b = false →
    drainCell s core g wins b va c = (spadWrite s tgt off (drainVal b c), .ok ()))

/-- R281 to R285: without an error of the array the checksums of a micro-tile agree with its partials; one wrong partial is
found by its row and its column, and its amount is what both differ by.
What the spec leaves open here is the model's choice or reading (log entry 64). -/
def Obligations.TileChecksums : Prop :=
  ∀ (o : TileOps) u n, (o.a.map (·.1)).Nodup → (o.b.map (·.1)).Nodup →
    (∀ x ∈ o.a ++ o.b, ∀ p, x.2 = some p → p.q.length = n) →
    tileCheck o [] u n (tilePartials o []) = .ok ∧
    ∀ i j d, i ∈ o.a.map (·.1) → j ∈ o.b.map (·.1) → d ≠ 0 →
      tileCheck o [.cell i j d] u n (tilePartials o [.cell i j d]) = .fix i j d

/-- R369, R372, R376, R377, R379, R380, R381, R382, R383, R384: an entry of the ring engine is checked as it starts; the members of
a command match when all are there and agree; a rank sees its trigger; a piece is landed, combined and committed; the
token closes a command whose ranks have all ended, an abort fails the others, and after a fold the ranks go on, on each
ring, from the least progress among them; the combinations are those of R379, of pairs too.
What the spec leaves open here is the model's choice or reading (log entries 15, 23 and 65). -/
def Obligations.Collectives : Prop :=
  (∀ core s x, s.runningAt core = some x → exec (.collStart core) s = .next s) ∧
  (∀ s core g b, cOper b ≠ 3 → cSend b = 0 → collCheck s core g b = some 0x0401) ∧
  (∀ core s g b l, s.grp? core = some g → s.runningAt core = none → s.ringFrozen (segOf core) g.part = false →
    (s.ranks.filter fun r => !r.remote && segOf r.core == segOf core).length < 64 → g.rq = .coll b :: l →
    Comes (.collStart core) s fun t => t.mem = s.mem ∧ t.cores = s.cores ∧ ∃ x, t.ranks = s.ranks ++ [x] ∧ x.core = core ∧
      x.blk = b ∧ x.failed = collCheck s core g b ∧ x.wins = (s.core core).wins ∧ x.lid = g.lid ∧ x.linear = g.linear ∧
      x.matched = false ∧ ∀ j, x.pv j false = 0) ∧
  (∀ k s r x l, collSize s k.part k.group = some r → remoteRanks s k.part k.group r = [] →
    (ranksOf s k).filter (fun x => !x.remote && x.failed.isNone) = x :: l → x.matched = false →
    (∀ n, n < r → ∃ y ∈ x :: l, y.rank = n) →
    ((∀ y ∈ x :: l, collTerms y.blk = collTerms x.blk) → Comes (.collMatch k) s fun t => t.mem = s.mem ∧
      t.ranks = s.ranks.map fun y => if CollRank.memberOf k y then { y with matched := true } else y) ∧
    ((∃ y ∈ x :: l, collTerms y.blk ≠ collTerms x.blk) → Comes (.collMatch k) s fun t => t.mem = s.mem ∧
      t.ranks = s.ranks.map fun y => if CollRank.memberOf k y then { y with failed := some 0x0407 } else y)) ∧
  (∀ core s x s1 bs va, waitingTriggers s core true = [x] → x.read s (cTrigVa x.blk) 8 = (s1, .ok bs, va) →
    (cTrigVal x.blk).toNat ≤ natOfBytes bs →
    Comes (.triggerSeen core) s fun t => t.mem = s1.mem ∧ RanksAre t x.key x.rank fun y => y.trig = true) ∧
  (∀ core s x s1 bs va, waitingTriggers s core false = [x] → x.read s (cTrigVa x.blk) 8 = (s1, .ok bs, va) →
    (cTrigVal x.blk).toNat ≤ natOfBytes bs →
    Comes (.triggerPoll core) s fun t => t.mem = s1.mem ∧ RanksAre t x.key x.rank fun y => y.trig = true) ∧
  (∀ k n j ringB s r x q, collSize s k.part k.group = some r → s.ranks.find? (CollRank.is k n) = some x →
    s.ranks.find? (CollRank.is k (prevRank r n ringB)) = some q → couchOpen s k = true → (ringB = true → cBidir x.blk = true) →
    j < cPieces x.blk r → j < (if ringB then x.pvB else x.pvA).length → x.pv j ringB < lastStep x.blk r n ringB →
    x.inflight = [] →
    let st := nextStep x.blk r n (x.pv j ringB) ringB
    let blk := sentBlock x.blk r q.rank st ringB
    let span := pieceSpan x.blk r j ringB
    (∀ bs s1 s2 v w, x.landed = [] → q.trig = true → st ≤ q.pv j ringB + 1 → (cOper x.blk = 0 → q.copied = true) →
      q.read s (sourceVa q.blk r q.rank st blk span.1) (span.2 * cElem x.blk) = (s1, .ok bs, v) →
      landPiece s1 x r st blk span.1 bs = (s2, .ok (), w) →
      (reduces x.blk r st = false → cChunkComp x.blk = 0 → engineQuiet s2 x.core = true →
        Comes (.couch k n j ringB) s fun t => t.mem = s2.mem ∧ RanksAre t k n fun y => y.pv j ringB = st) ∧
      (reduces x.blk r st = true → x.trig = false → Comes (.couch k n j ringB) s fun t => t.mem = s2.mem ∧
        t.ranks = s2.ranks.map fun y => if CollRank.is k n y then { y with landed := y.landed ++ [(j, ringB)] } else y) ∧
      (∀ own s3 s4 v3 w4, reduces x.blk r st = true → x.trig = true →
        x.read s2 (sendVa x.blk r blk span.1) bs.length = (s3, .ok own, v3) →
        x.write s3 (foldedVa x.blk r st blk span.1) (combine x.blk (bs.length / cElem x.blk) bs own) = (s4, .ok (), w4) →
        cChunkComp x.blk = 0 → engineQuiet s4 x.core = true →
        Comes (.couch k n j ringB) s fun t => t.mem = s4.mem ∧ RanksAre t k n fun y => y.pv j ringB = st)) ∧
    (x.landed = [(j, ringB)] → x.trig = false → exec (.couch k n j ringB) s = .next s) ∧
    (∀ bs own s1 s2 s3 v w w3, x.landed = [(j, ringB)] → x.trig = true →
      x.read s (landingVa x.blk r blk span.1) (span.2 * cElem x.blk) = (s1, .ok bs, v) →
      x.read s1 (sendVa x.blk r blk span.1) bs.length = (s2, .ok own, w) →
      x.write s2 (foldedVa x.blk r st blk span.1) (combine x.blk (bs.length / cElem x.blk) bs own) = (s3, .ok (), w3) →
      cChunkComp x.blk = 0 → engineQuiet s3 x.core = true →
      Comes (.couch k n j ringB) s fun t => t.mem = s3.mem ∧ RanksAre t k n fun y => y.pv j ringB = st)) ∧
  (∀ k n s r x, collSize s k.part k.group = some r → s.ranks.find? (CollRank.is k n) = some x → allEnded s k r = true →
    x.remote = false →
    Comes (.closingToken k n) s fun t => t.mem = s.mem ∧ RanksAre t k n fun y => y.token = true ∧ y.closed = true) ∧
  (∀ k n s x y, s.ranks.find? (CollRank.is k n) = some x → x.matched = true → x.failed = none → x.remote = false →
    y ∈ s.ranks → y.key = k → y.rank ≠ n → y.failed ≠ none → y.matched = true →
    Comes (.collAbort k n) s fun t => t.mem = s.mem ∧ RanksAre t k n fun z => z.failed = some 0x0409) ∧
  (∀ k s x, s.pkg.folding = false → x ∈ s.ranks → CollRank.memberOf k x = true → x.agreeing = true →
    Comes (.pvAgreement k) s fun t => t.mem = s.mem ∧ ∀ y ∈ t.ranks, CollRank.memberOf k y = true → y.agreeing = false ∧
      (y.closed = false → y.inflight = [] ∧ y.landed = [] ∧ ∀ ringB j, j < (if ringB then y.pvB else y.pvA).length →
        (∀ z ∈ s.ranks, CollRank.memberOf k z = true → y.pv j ringB ≤ z.pv j ringB) ∧
        ∃ z ∈ s.ranks, CollRank.memberOf k z = true ∧ y.pv j ringB = z.pv j ringB)) ∧
  (∀ b n x y, (cDtype b, cRedop b) = (4, 0) → combine b (n + 1) x y =
    bytesOf 8 (combine1 4 0 (natOfBytes (x.take 8)) (natOfBytes (y.take 8))) ++ combine b n (x.drop 8) (y.drop 8)) ∧
  (∀ s1 c1 s2 c2, s1 < 2 ^ 32 → c1 < 2 ^ 32 → s2 < 2 ^ 32 → c2 < 2 ^ 32 →
    combine1 4 0 (s1 + 2 ^ 32 * c1) (s2 + 2 ^ 32 * c2) =
      (twoSum s1 s2).1.1 + 2 ^ 32 * (fAdd .f32 .rn (fAdd .f32 .rn c1 c2).1 (twoSum s1 s2).1.2).1) ∧
  (∀ a b, a < 2 ^ 32 → b < 2 ^ 32 →
    combine1 0 0 a b = (fAdd .f32 .rn a b).1 ∧ combine1 1 0 a b = (fAdd .f16 .rn a b).1 ∧
    combine1 2 0 a b = (fAdd .b16 .rn a b).1 ∧ combine1 3 0 a b = (a + b) % 2 ^ 32 ∧
    combine1 0 1 a b = (fMinMax .f32 .min a b).1 ∧ combine1 0 2 a b = (fMinMax .f32 .max a b).1 ∧
    combine1 3 1 a b = (if (BitVec.ofNat 32 b).slt (BitVec.ofNat 32 a) then b else a) ∧
    combine1 3 2 a b = (if (BitVec.ofNat 32 a).slt (BitVec.ofNat 32 b) then b else a))

namespace Sys2Proof.Claims
open Machine

/-! ## Queues, launches, the package -/

/-- The only command of a function's queue is `r`, of kind `id`, well formed, on partition `p` (R56, R58). -/
def CmdAt (s : State) (fn id p : Nat) (r : List W64) : Prop :=
  (s.fn fn).cmds = [r] ∧ cmdId r = id ∧ cmdBad s fn r = false ∧ cmdPart s fn r = some p

/-- The effect of a command is `s1`, whose completion is then added; the command leaves the queue (R56). -/
def CmdEnds (i : Instr) (s : State) (fn : Nat) (r : List W64) (s1 : State) : Prop :=
  ∀ s2, cmdComplete s s1 fn r 0 = .done s2 → exec i s = .next (popCmd s2 fn)

/-- The offsets of the queue registers that R52 lists. -/
def queueOffsets : List Nat := [0, 8, 0x10, 0x18, 0x20, 0x28, 0x30, 0x38, 0x40, 0x48, 0x50, 0x58, 0x60]

/-- An offset of the management block outside every range that R21 lists, and that of the reset control, which is
write-only (R22). -/
def pmbGap (off : Nat) : Prop :=
  (0x18 ≤ off ∧ off < 0x20) ∨ (0x28 ≤ off ∧ off < 0x1000) ∨ (0x2000 ≤ off ∧ off < 0x3000) ∨ (0xD400 ≤ off ∧ off < 0xE000) ∨
    (0xEC00 ≤ off ∧ off < 0x10000) ∨ (0x10100 ≤ off ∧ off < 0x20000) ∨ 0x40000 ≤ off

/-- Cores that run a context have a new copy of something of it; the others stay (R81). -/
def CopiesAre (s t : State) (p ctx : Nat) (f : Core → Core) : Prop :=
  ∀ c, (∀ g, s.grp? c = some g → g.part = p ∧ g.ctxid = ctx → t.core c = f (s.core c)) ∧
    ((∀ g, s.grp? c = some g → ¬(g.part = p ∧ g.ctxid = ctx)) → t.core c = s.core c)

/-- Readiness and the other state of the package, but for the number of the map's updates (R20). -/
def mapOf (pk : Pkg) : Pkg := { pk with rdyseq := 0, rdyAt := 0 }

/-- No core runs a group that a test names. -/
def NoneRuns (t : State) (mine : Group → Prop) : Prop := ∀ c g, t.grp? c = some g → ¬mine g

end Sys2Proof.Claims

open Sys2Proof Sys2Proof.Machine Sys2Proof.Claims

/-- R52, R53, R55, R56: a good doorbell moves the tail, a bad one of an enabled queue sets the error bit and leaves the tail;
the error bits are cleared by a write; a head written past the tail is ignored; the firmware copies submitted commands in
order.
What the spec leaves open here is the model's choice or reading (log entry 76). -/
def Obligations.FunctionQueues : Prop :=
  (∀ fn v s, fn ≤ 1024 → doorbellBad (s.fn fn).sqlog (s.fn fn).sqhead (s.fn fn).sqtail v = false →
    exec (.submissionDoorbell fn v) s = .next (s.setFn fn { s.fn fn with sqtail := v })) ∧
  (∀ fn v s, fn ≤ 1024 → Machine.qOk (s.fn fn).sqen (s.fn fn).sqlog = true →
    doorbellBad (s.fn fn).sqlog (s.fn fn).sqhead (s.fn fn).sqtail v = true →
    Comes (.submissionDoorbell fn v) s fun t => (t.fn fn).sqerr = true ∧ (t.fn fn).sqtail = (s.fn fn).sqtail) ∧
  (∀ (log : BitVec 4) (head tail v : W32), doorbellBad log head tail v = false ↔
    (v - head).toNat ≤ 2 ^ log.toNat ∧ (v = tail ∨ 2 ^ 31 < (tail - v).toNat)) ∧
  (∀ fn s, fn ≤ 1024 → Comes (.sqerrClear fn) s fun t => t.fn fn = { s.fn fn with sqerr := false } ∧
    ∀ k, k ≠ fn → t.fn k = s.fn k) ∧
  (∀ fn s, fn ≤ 1024 → Comes (.mqlostClear fn) s fun t => t.fn fn = { s.fn fn with mqlost := false, lostcnt := 0 } ∧
    ∀ k, k ≠ fn → t.fn k = s.fn k) ∧
  (∀ fn v s, ((s.fn fn).mqtail - (s.fn fn).mqhead).toNat < (v - (s.fn fn).mqhead).toNat →
    exec (.mqheadWrite fn v) s = .next s) ∧
  (∀ fn v s, fn ≤ 1024 → (v - (s.fn fn).mqhead).toNat ≤ ((s.fn fn).mqtail - (s.fn fn).mqhead).toNat → (s.fn fn).held = [] →
    Comes (.mqheadWrite fn v) s fun t => t.fn fn = { s.fn fn with mqhead := v } ∧ t.mem = s.mem) ∧
  (∀ fn v s, fn ≤ 1024 → Machine.qOk (s.fn fn).cqen (s.fn fn).cqlog = true → (s.fn fn).cqerr = false →
    doorbellBad (s.fn fn).cqlog (s.fn fn).cqhead (s.fn fn).cqtail v = false →
    Comes (.commandDoorbell fn v) s fun t => (t.fn fn).cqtail = v ∧ (t.fn fn).cqhead = v) ∧
  (∀ fn s r, fn ≤ 1024 → Machine.qOk (s.fn fn).cqen (s.fn fn).cqlog = true → (s.fn fn).cqerr = false → (s.fn fn).cmds = [] →
    doorbellBad (s.fn fn).cqlog (s.fn fn).cqhead (s.fn fn).cqtail ((s.fn fn).cqhead + 1) = false →
    r = dwordsOf (memReadN s.mem (hostAddr ((s.fn fn).cqbase.toNat +
      (s.fn fn).cqhead.toNat % 2 ^ (s.fn fn).cqlog.toNat * 64)) 64) → 1 ≤ cmdId r → cmdId r ≤ 8 →
    Comes (.commandDoorbell fn ((s.fn fn).cqhead + 1)) s fun t => (t.fn fn).cmds = [r] ∧ t.mem = s.mem) ∧
  (∀ fn v s, fn ≤ 1024 → Machine.qOk (s.fn fn).cqen (s.fn fn).cqlog = true →
    doorbellBad (s.fn fn).cqlog (s.fn fn).cqhead (s.fn fn).cqtail v = true →
    Comes (.commandDoorbell fn v) s fun t => (t.fn fn).cqerr = true ∧ (t.fn fn).cqtail = (s.fn fn).cqtail) ∧
  (∀ fn s, fn ≤ 1024 → (s.fn fn).cqhead = (s.fn fn).cqtail → (s.fn fn).cmds = [] →
    Comes (.cqerrClear fn) s fun t => t.fn fn = { s.fn fn with cqerr := false } ∧ t.mem = s.mem)

/-- R56 to R58, R81, R82, R221, R255, R324, R414: each command of the command queue has its effect on the context table, the
windows and permissions of cores that run the context, the layout handles, the page freed, the launch ended, the group
read.
What the spec leaves open here is the model's choice or reading (log entries 8, 73, 77 and 78). -/
def Obligations.Commands : Prop :=
  (∀ fn lhbase p r s, CmdAt s fn 1 p r → fn ≤ 1024 → Memory.wf s.mem = true → cmdCtx r < ctxCount s p →
    bits (cmdArg r 0) 21 43 = (0 : BitVec 43) → bits (cmdArg r 1) 16 48 = (0 : BitVec 48) → ctxValid s p (cmdCtx r) = false →
    framesUsed s p + tableFrames (bits (cmdArg r 1) 0 16).toNat ≤ frameQuota s p →
    runExists s p (tableFrames (bits (cmdArg r 1) 0 16).toNat) = true →
    framesFree s p lhbase (tableFrames (bits (cmdArg r 1) 0 16).toNat) = true →
    ∃ s1, CmdEnds (.ctxcreate fn lhbase) s fn r s1 ∧ ctxValid s1 p (cmdCtx r) = true ∧ ctxOwner s1 p (cmdCtx r) = fn ∧
      bit (ctxDw s1 p (cmdCtx r) 0) 1 = bit (cmdArg r 0) 20 ∧ ctxDw s1 p (cmdCtx r) 8 = cmdArg r 0 &&& 0xFFFFF ∧
      ctxDw s1 p (cmdCtx r) 0x10 = BitVec.ofNat 64 lhbase ∧
      ctxDw s1 p (cmdCtx r) 0x18 = BitVec.ofNat 64 (bits (cmdArg r 1) 0 16).toNat ∧
      ctxWins s1 p (cmdCtx r) = List.replicate 32 0) ∧
  (∀ fn p r s, CmdAt s fn 2 p r → ctxOwned s p fn (cmdCtx r) = true → Memory.wf s.mem = true → ctxInUse s p (cmdCtx r) = false →
    ∃ s1, CmdEnds (.ctxdestroy fn) s fn r s1 ∧ ctxValid s1 p (cmdCtx r) = false ∧
      ctxGen s1 p (cmdCtx r) = ctxGen s p (cmdCtx r) + 1) ∧
  (∀ fn p r s, CmdAt s fn 3 p r → ctxOwned s p fn (cmdCtx r) = true → Memory.wf s.mem = true →
    bits (cmdArg r 0) 4 60 = (0 : BitVec 60) → windowBad (cmdArg r 1) (cmdArg r 2) = false →
    let n := (bits (cmdArg r 0) 0 4).toNat
    ∃ s1, CmdEnds (.winset fn) s fn r s1 ∧ ctxDw s1 p (cmdCtx r) (0x80 + 16 * n) = cmdArg r 1 ∧
      ctxDw s1 p (cmdCtx r) (0x88 + 16 * n) = cmdArg r 2 ∧
      (∀ a, a < ctxAddr s p (cmdCtx r) + 0x80 + 16 * n ∨ ctxAddr s p (cmdCtx r) + 0x90 + 16 * n ≤ a →
        memRead s1.mem a = memRead s.mem a) ∧
      CopiesAre s s1 p (cmdCtx r) fun c =>
        { c with wins := setNth (2 * n + 1) (cmdArg r 2) (setNth (2 * n) (cmdArg r 1) c.wins) }) ∧
  (∀ fn p r s, CmdAt s fn 4 p r → ctxOwned s p fn (cmdCtx r) = true → Memory.wf s.mem = true →
    bits (cmdArg r 0) 1 63 = (0 : BitVec 63) →
    ∃ s1, CmdEnds (.permset fn) s fn r s1 ∧ ctxDw s1 p (cmdCtx r) 0x20 = cmdArg r 0 ∧
      CopiesAre s s1 p (cmdCtx r) fun c => { c with ctxperm := cmdArg r 0 }) ∧
  (∀ fn p r s, CmdAt s fn 5 p r → ctxOwned s p fn (cmdCtx r) = true → Memory.wf s.mem = true →
    bits (cmdArg r 0) 17 47 = (0 : BitVec 47) → bits (cmdArg r 1) 32 32 = (0 : W32) → (bits (cmdArg r 0) 0 16).toNat ≠ 0 →
    (bits (cmdArg r 0) 0 16).toNat < (bits (ctxDw s p (cmdCtx r) 24) 0 16).toNat →
    let a := (bits (ctxDw s p (cmdCtx r) 16) 0 56).toNat + 32 * (bits (cmdArg r 0) 0 16).toNat
    ∃ s1, CmdEnds (.lhset fn) s fn r s1 ∧ s1.cores = s.cores ∧
      memRead64 s1.mem a = BitVec.ofNat 64 (cmdCtx r + if bit (cmdArg r 0) 16 then 2 ^ 32 else 0) ∧
      memRead64 s1.mem (a + 8) = cmdArg r 1 ∧ memRead64 s1.mem (a + 16) = cmdArg r 2 ∧
      memRead64 s1.mem (a + 24) = cmdArg r 3) ∧
  (∀ fn p r s ia h l, CmdAt s fn 6 p r → ctxOwned s p fn (cmdCtx r) = true → (∀ f ∈ s.freeing, f.part ≠ p) →
    cmdIa s p (cmdCtx r) (cmdArg r 0) = some ia → leafOf s p ia = some (h, l) → l.cls ≠ 0 →
    Comes (.pagefree fn) s fun t => t.mem = s.mem ∧ t.freeing = s.freeing ++ [⟨p, l.pageNo (ia / 65536), [fn], false⟩] ∧
      (alFind t.tails l.frame).map (·.state) = some 3) ∧
  (∀ fn p r s f h l k, CmdAt s fn 6 p r → ctxOwned s p fn (cmdCtx r) = true → Memory.wf s.mem = true → s.freeing = [f] →
    f.part = p → f.fns = [fn] → f.done = false → tailOf s p f.page = some (h, l, k) → k.intended = [] → s.replicas = [] →
    pinned s p (f.page * 65536) l.size = false →
    ∃ s1, CmdEnds (.pagefree fn) s fn r s1 ∧ bit (memRead64 s1.mem l.at_) 0 = false ∧ s1.freeing = [] ∧
      ∀ a ∈ frameList l.frame l.size, (a, p) ∉ s1.frames) ∧
  (∀ fn p r s l, CmdAt s fn 7 p r → bits (cmdArg r 0) 16 48 = (0 : BitVec 48) →
    s.launch? p (bits (cmdArg r 0) 0 16).toNat = some l →
    ∀ s1, endLaunch s p (bits (cmdArg r 0) 0 16).toNat = .done s1 → CmdEnds (.launchend fn) s fn r s1 ∧
      s1.launch? p (bits (cmdArg r 0) 0 16).toNat = none ∧
      NoneRuns s1 fun g => g.part = p ∧ g.lid = (bits (cmdArg r 0) 0 16).toNat) ∧
  (∀ fn p r s g l, CmdAt s fn 8 p r → ctxOwned s p fn (cmdCtx r) = true → bits (cmdArg r 0) 48 16 = (0 : BitVec 16) →
    bits (cmdArg r 2) 32 32 = (0 : W32) → (cmdArg r 1).toNat % 64 = 0 → (bits (cmdArg r 2) 0 32).toNat % 64 = 0 →
    s.launch? p (bits (cmdArg r 0) 0 16).toNat = some l → (bits (cmdArg r 0) 16 32).toNat < launchGroups l.lrec →
    haltedAt s p (bits (cmdArg r 0) 0 16).toNat (bits (cmdArg r 0) 16 32).toNat = some g →
    ∀ s1, writePieces s p (cmdCtx r) (ctxWins s p (cmdCtx r)) ((bits (cmdArg r 2) 0 32).toNat / 64 + 1)
      { s with fresh := s.fresh + 8 * g.threads.length } (cmdArg r 1)
      ((imageHeader g (64 + (imageBytes g s.fresh).length) ++ imageBytes g s.fresh).take (bits (cmdArg r 2) 0 32).toNat) =
        .done s1 →
      CmdEnds (.groupread fn) s fn r s1) ∧
  (∀ s s1 fn r code, cmdComp r = 0 → cmdComplete s s1 fn r code = .done s1) ∧
  (∀ s s1 s2 fn r code p c, queueCtx s fn = some (p, c) → (cmdComp r).toNat % 8 = 0 →
    Added s1 p (fwSeg s1 p) byHost (ctxWins s1 p c) (cmdComp r) (cmdWeight r) code 0x00FE (cmdSeq r) s2 →
    ∃ s3, cmdComplete s s1 fn r code = .done s3 ∧ s3.mem = s2.mem)

/-- R53, R60, R62 to R64, R67 to R76, R416, R417, R65 to R67, R415: the head record of a submission queue that passes its
checks becomes a launch; credit rises to its limit; gangs are bound, become ready and start together with zero registers
at the entry; a late Q0 gang asks victims to stop; groups and launches retire; enabling a partition that overlaps no other
sets ENABLE and fills its account; killing one clears ENABLE, and nothing of it runs or waits.
What the spec leaves open here is the model's choice or reading (log entries 8, 16, 38, 71, 81, 83 and 85). -/
def Obligations.LaunchesAndPartitions : Prop :=
  ((∀ fn s p qc lid s1 bs s2 k blocks stages, Machine.qOk (s.fn fn).sqen (s.fn fn).sqlog = true → (s.fn fn).sqerr = false →
      (s.fn fn).sqhead ≠ (s.fn fn).sqtail → queueCtx s fn = some (p, qc) → freeLid s p = some lid →
      readCtx s p qc ((s.fn fn).sqbase + BitVec.ofNat 64 ((s.fn fn).sqhead.toNat % 2 ^ (s.fn fn).sqlog.toNat * 256)) 256 =
        (s1, .ok bs) →
      admission s1 p fn (dwordsOf bs) = (s2, .accepted k blocks stages) →
      Comes (.launchConsume fn) s fun t => (t.fn fn).sqhead = (s.fn fn).sqhead + 1 ∧ t.mem = s2.mem ∧
        ∃ l ∈ (t.part p).launches, l.lid = lid ∧ l.fn = fn ∧ l.lrec = dwordsOf bs ∧ l.gangs = 0 ∧ l.retired = 0 ∧
          l.entprio = bits (recDw k 1) 32 8 ∧ l.blocks = blocks ∧ (recQos (dwordsOf bs) = 0 → l.charged = true)) ∧
    (∀ part s, s.enabled part = true → (s.part part).launches = [] →
      let n : Nat := (s.now - (s.part part).creditAt) / 2500000
      let b : Int := (s.partRec part 0x20).toNat
      Comes (.budgetCredit part) s fun t => (t.part part).account =
        (if n = 0 then (s.part part).account else min ((s.part part).account + (n : Int) * b) (2 * b)) ∧
        (t.part part).creditAt = (s.part part).creditAt + 2500000 * n) ∧
    (∀ part lrec cores s l, nextBind s part = some l → placementOk s part (freeCore s part) l cores = true →
      Comes (.gangBind part lrec cores) s fun t => (t.part part).gangSeq = (s.part part).gangSeq + 1 ∧ t.mem = s.mem ∧
        (t.part part).bindSeq = (s.part part).bindSeq + 1 ∧
        ∀ (i c : Nat), cores[i]? = some c → (t.core c).nxt = bindRec part l lrec (s.part part).gangSeq i) ∧
    (∀ core r s, core < 512 → r.valid = true → (s.core core).nxt.valid = false →
      Comes (.nextWrite core r) s fun t => t.core core = { s.core core with
          nxt := ⟨r.d0, r.d1 &&& 0x1FFFFFFFFFFFF, r.d2 &&& 0xFFFF03FFFFFFFFFF, r.d3 &&& 3⟩, nxtNo := (s.part r.part).bindSeq } ∧
        ∀ c, c ≠ core → t.core c = s.core c) ∧
    (∀ core r s, core < 512 → r.valid = true → (s.core core).nxt.valid = true →
      Comes (.nextWrite core r) s fun t => t.core core = { s.core core with busy := true } ∧ ∀ c, c ≠ core → t.core c = s.core c) ∧
    (∀ core s, core < 512 → Comes (.nextCancel core) s fun t =>
      t.core core = (if (s.core core).promAt = s.now + 1 then { s.core core with busy := true }
        else { s.core core with nxt := BindRec.empty, gangwait := false }) ∧ ∀ c, c ≠ core → t.core c = s.core c) ∧
    (∀ core s, (s.core core).nxt.valid = true → (s.core core).gangwait = false → (s.core core).testing = false →
      (s.core core).outOfUse = false → s.grp? core = none →
      Comes (.gangReady core) s fun t => t.core core = { s.core core with gangwait := true }) ∧
    (∀ core s g, (s.core core).nxt.valid = true → (s.core core).gangwait = false → (s.core core).testing = false →
      (s.core core).outOfUse = false → s.grp? core = some g → (s.core core).nxt.displace = true →
      Comes (.gangReady core) s fun t => t.mem = s.mem ∧ ∀ c, t.core c = if c ∈ gangCores s core g then
        { s.core c with preq := true } else s.core c) ∧
    (∀ part gang s c0 cs, readyCores s part gang = c0 :: cs → (c0 :: cs).length = (s.core c0).nxt.gangn → (c0 :: cs).Nodup →
      (∀ c ∈ c0 :: cs, ∃ l, s.launch? (s.core c).nxt.part (s.core c).nxt.lid = some l) →
      Comes (.promotion part gang) s fun t => t.mem = s.mem ∧ ∀ c ∈ c0 :: cs, ∀ l,
        s.launch? (s.core c).nxt.part (s.core c).nxt.lid = some l →
        (t.core c).cur = (s.core c).nxt ∧ (t.core c).nxt = BindRec.empty ∧ (t.core c).l1 = [] ∧
        (t.core c).wins = ctxWins s (s.core c).nxt.part (s.core c).nxt.ctxid ∧
        t.grp? c = some (newGroup s c (s.core c).nxt l)) ∧
    (∀ s c b l, let g := newGroup s c b l
      g.threads.length = recThreads l.lrec ∧ (∀ u n, (g.thread u).r n = 0) ∧
      (∀ u, u < recThreads l.lrec → (g.thread u).pc = (bits (recDw l.lrec 0) 0 56 : BitVec 56).setWidth 57 ∧ (g.thread u).prio = l.entprio) ∧
      g.k.getD 0 0 = recDw l.lrec 6 ∧ g.k.getD 1 0 = recDw l.lrec 7 ∧ g.k.getD 8 0 = BitVec.ofNat 64 b.rgx ∧ g.spad = [] ∧
      g.fpx = 0 ∧ g.rb = [] ∧ g.mx = Matrix.reset) ∧
    (∀ part s l cs, lateQ0 s part = some l → takeVictims s part l (victims s part) [] = some cs →
      Comes (.q0PreemptTimeout part) s fun t => t.mem = s.mem ∧ ∀ c, (t.core c) = if c ∈ cs then
        { s.core c with preq := true } else s.core c) ∧
    (∀ core s g, s.grp? core = some g → g.st = .running → g.live = [] → enginesDone s g = true → g.rb = [] → g.pend = [] →
      Comes (.coreGroupRetire core) s fun t => t.grp? core = none ∧ (t.core core).curempty = true ∧ (t.core core).l1 = [] ∧
        (t.part g.part).launches = (s.part g.part).launches.map fun l =>
          if l.lid = g.lid then { l with retired := l.retired + 1 } else l) ∧
    (∀ part lid s l s1, s.launch? part lid = some l → launchGroups l.lrec ≤ l.retired → (∀ i ∈ s.invs, i.part ≠ part) →
      (∀ x ∈ s.posted, x.part ≠ part) → launchDone s part l.fn l.lrec 0 = .done s1 → bit (recDw l.lrec 9) 19 = false →
      Comes (.launchRetire part lid) s fun t => t.mem = s1.mem ∧ t.launch? part lid = none)) ∧
  ((∀ part s, part < 64 → s.enabled part = false → enableRefused s part = false →
      Comes (.partitionEnable part) s fun t => t.enabled part = true ∧
        (t.part part).account = ((s.partRec part 0x20).toNat : Int) ∧ t.mem = s.mem) ∧
    (∀ part s, part < 64 → s.enabled part = false → enableRefused s part = true →
      Comes (.partitionEnable part) s fun t => t.enabled part = false) ∧
    (∀ part s, s.enabled part = true →
      Comes (.partitionKill part) s fun t => t.enabled part = false ∧ (t.part part).launches = [] ∧
        (∀ g ∈ (t.part part).csa, g.part ≠ part) ∧ NoneRuns t (fun g => g.part = part) ∧ (∀ x ∈ t.ranks, x.key.part ≠ part) ∧ ∀ r ∈ t.replicas, r.part ≠ part))

/-- R11 to R24: a function becomes ready, or fails; a bridge or a segment fails, and the fold begins and ends; a warm reset
clears queues and cores and keeps the package's readiness, a cold one everything but memory; the firmware is verified.
What the spec leaves open here is the model's choice or reading (log entries 19, 20 and 86). -/
def Obligations.PackageEvents : Prop :=
  (∀ f s, funcThere f = true → s.pkg.outOfReach f = false →
    exec (.functionReady f) s = .next (retryHeld (modPkg s fun pk => pk.setReady f true))) ∧
  (∀ f s, funcThere f = true → s.pkg.outOfReach f = false → (∀ n, (s.fn n).held = []) →
    Comes (.functionReady f) s fun t => mapOf t.pkg = mapOf (s.pkg.setReady f true) ∧ t.mem = s.mem ∧ t.cores = s.cores) ∧
  (∀ f s, funcThere f = true → s.pkg.down f = false → s.pkg.outOfReach f = true → f ∉ s.pkg.cut → (∀ n, (s.fn n).held = []) →
    Comes (.functionReady f) s fun t => t.pkg = { s.pkg with cut := s.pkg.cut ++ [f] } ∧ t.mem = s.mem ∧ t.cores = s.cores) ∧
  (∀ s (f : Pkg → Pkg), s.pkg.rdyAt ≠ s.now + 1 → (∀ p, (f p).rdyseq = p.rdyseq) →
    ((f s.pkg).word0 ≠ s.pkg.word0 ∨ (f s.pkg).word1 ≠ s.pkg.word1) → (modPkg s f).pkg.rdyseq = s.pkg.rdyseq + 1) ∧
  (∀ f s, funcThere f = true → f ∉ s.pkg.failed → (∀ n, f ≠ .segment n) → (∀ n, f ≠ .bridge n) → s.replicas = [] →
    Comes (.functionFailure f) s fun t =>
      mapOf t.pkg = mapOf (({ s.pkg with
        failed := s.pkg.failed ++ [f], cut := s.pkg.cut.filter (· != f) } : Pkg).setReady f false) ∧ t.mem = s.mem ∧
      t.cores = s.cores) ∧
  (∀ b s, b < 8 → bridgeUp s.pkg b = true →
    Comes (.bridgeFailure b) s fun t => t.pkg.folding = true ∧ bit t.pkg.deadBr b = true ∧ bit t.pkg.brgrdy b = false ∧
      ∀ x ∈ t.ranks, x.matched = true → x.closed = false → x.agreeing = true) ∧
  (∀ y s, y < 8 → bit s.pkg.deadSeg y = false →
    Comes (.segmentFailure y) s fun t => t.pkg.folding = true ∧ bit t.pkg.deadSeg y = true ∧ bit t.pkg.segrdy y = false ∧
      ∀ x ∈ t.ranks, x.matched = true → x.closed = false → x.agreeing = true) ∧
  (∀ s, s.pkg.folding = true → s.pkg.warmWaits = false →
    Comes .foldComplete s fun t => t.pkg.folding = false ∧ t.pkg.folded = true ∧ t.mem = s.mem ∧ t.cores = s.cores) ∧
  (∀ s, s.pkg.folding = false →
    Comes .warm s fun t => t.pkg = { s.pkg with warmWaits := false } ∧ t.fns = [] ∧ t.parts = [] ∧ t.ranks = [] ∧ t.invs = [] ∧
      ∀ c, t.core c = { Core.reset with
        outOfUse := (s.core c).outOfUse,
        l1 := (s.core c).l1.map fun l => { l with v := l.v &&& ~~~l.own, dty := 0, own := 0 } }) ∧
  (∀ s, s.pkg.folding = true → exec .warm s = .next { s with pkg := { s.pkg with warmWaits := true } }) ∧
  (∀ s, (∀ p, p < 64 → s.enabled p = false) →
    exec .cold s = .next { State.reset with
      agenda := s.agenda, fresh := s.fresh, mem := s.mem, tags := s.tags, poison := s.poison }) ∧
  (∀ s, s.pkg.bootState.toNat < 2 →
    exec (.firmwareVerify true true true) s = .next { s with pkg := { s.pkg with bootState := 2, bootReason := 0 } }) ∧
  (∀ s ed ml v, s.pkg.bootState.toNat < 2 → (ed && ml && v) = false →
    Comes (.firmwareVerify ed ml v) s fun t => t.pkg.bootState = 3 ∧
      t.pkg.bootReason = (if !ed && !ml then 3 else if !ed then 1 else if !ml then 2 else 4) ∧ t.mem = s.mem)

/-- R172, R403 to R408: a group halts at its second error; pre-emption is asked of a whole gang, saves a quiet group in the
shadow pool, from where it goes to memory or comes back; a halted group is saved there too, and one that is saved
halts at an error of the pool; a test takes an idle core, unless a Q0 gang of the owner waits, or the group's place; a
partition is copied while it runs, then stops and migrates with every CLOCK no smaller.
What the spec leaves open here is the model's choice or reading (log entries 70, 84 and 90). -/
def Obligations.Preemption : Prop :=
  (∀ core s g c d, s.grp? core = some g → g.st = .halting c d →
    Comes (.coreGroupHalt core none) s fun t => (t.core core).stopped = true ∧ GroupIs t core fun g' => g'.st = .halted) ∧
  (∀ core s g a, s.grp? core = some g → g.st = .running → a < 96 * 16384 →
    Comes (.coreGroupHalt core (some a)) s fun t => (t.core core).stopped = true ∧ GroupIs t core fun g' => g'.st = .halted) ∧
  (∀ core s g a, (s.core core).shadow = some g → g.st = .running → 96 * 16384 ≤ a →
    Comes (.coreGroupHalt core (some a)) s fun t => (t.core core).shadow = some { g with st := .halted } ∧
      (t.core core).grp = (s.core core).grp ∧ t.mem = s.mem) ∧
  (∀ core s g, s.grp? core = some g → g.st = .halted → enginesDone s g = true → g.quiet = true →
    let s1 := flushL1 s g.part core
    writesDone s1 core = true → (s1.core core).shadow = none →
    Comes (.preemptSave core) s fun t => t.mem = s1.mem ∧ t.grp? core = none ∧ (t.core core).stopped = true ∧
      (t.core core).cur = (s1.core core).cur ∧ ∃ h, (t.core core).shadow = some h ∧ h.st = .halted) ∧
  (∀ core s g, s.grp? core = some g → g.st = .running →
    Comes (.preemptRequest core) s fun t => t.mem = s.mem ∧ ∀ c, t.core c = if c ∈ gangCores s core g then
      { s.core c with preq := true } else s.core c) ∧
  (∀ core s g g1, s.grp? core = some g → g.st = .running → ((s.core core).preq = true ∨ (s.core core).testDue = true) →
    (∀ c ∈ gangCores s core g, ∀ h, s.grp? c = some h → h.nopreOpen (s.clock c h.clockOff) = false) →
    (quietGroup (endRuns s core) core).grp? core = some g1 → g1.quiet = true →
    g1.mx.between = true → ((quietGroup (endRuns s core) core).core core).shadow = none →
    let s1 := flushL1 (quietGroup (endRuns s core) core) g1.part core
    writesDone s1 core = true →
    Comes (.preemptSave core) s fun t => t.mem = s1.mem ∧ t.grp? core = none ∧ (t.core core).curempty = true ∧
      (t.core core).l1 = [] ∧ (t.core core).preq = false ∧
      (t.core core).shadow = some { g1.saved with
        nopre := none, rqBusy := false, rq := if (s1.rankAt core).isSome then g1.rq.drop 1 else g1.rq }) ∧
  (∀ core s g, (s.core core).shadow = some g →
    Comes (.shadowPoolEvict core) s fun t => t.core core = { s.core core with shadow := none } ∧
      (t.part g.part).csa = (s.part g.part).csa ++ [g] ∧ t.mem = s.mem) ∧
  (∀ core s g, (s.core core).shadow = some g → takesSaved s core g = true → betterWaits s g = false →
    Comes (.restore core none) s fun t => t.mem = s.mem ∧ (t.core core).cur = g.bind ∧ (t.core core).shadow = none ∧
      (t.core core).wins = ctxWins s g.part g.ctxid ∧ (t.core core).l1 = [] ∧
      GroupIs t core fun g' => g'.threads = g.threads ∧ g'.k = g.k ∧ g'.spad = g.spad ∧ g'.frontier = g.frontier) ∧
  (∀ core s, core < 512 → s.grp? core = none → (s.core core).testing = false → (s.core core).testDue = false →
    (s.core core).outOfUse = false → (s.core core).nxt.valid = false →
    (∀ p, p < 64 → s.enabled p = true → s.owns p (core / 4) = true → q0Waits s p = false) →
    Comes (.infieldTestDue core) s fun t => t.core core = { s.core core with testing := true } ∧ t.mem = s.mem) ∧
  (∀ core s p, s.grp? core = none → p < 64 → s.enabled p = true → s.owns p (core / 4) = true → q0Waits s p = true →
    exec (.infieldTestDue core) s = .next s) ∧
  (∀ core s, (s.core core).testing = true → (s.core core).shadow = none →
    Comes (.infieldTestEnd core true) s fun t => t.core core = { s.core core with testing := false } ∧ t.mem = s.mem) ∧
  (∀ core s, (s.core core).testing = true →
    Comes (.infieldTestEnd core false) s fun t => (t.core core).testing = false ∧ (t.core core).outOfUse = true ∧
      (t.core core).shadow = none) ∧
  (∀ part s, s.enabled part = true → (s.part part).copying = false →
    Comes (.liveMigration part) s fun t => (t.part part).copying = true ∧ t.cores = s.cores ∧ t.now = s.now) ∧
  (∀ part s core g, s.enabled part = true → (s.part part).copying = true → s.grp? core = some g → g.part = part →
    g.st = .running → (s.core core).preq = false →
    Comes (.liveMigration part) s fun t => (t.core core).preq = true ∧ t.grp? core = some g ∧ t.mem = s.mem) ∧
  (∀ part s, s.enabled part = true → (s.part part).copying = true →
    (∀ e ∈ s.cores, ∀ g, e.2.grp = some g → ¬(g.part = part ∧ g.st = .running)) →
    (∀ x ∈ s.ranks, x.key.part ≠ part) → (∀ x ∈ s.serving, x.1 ≠ part) →
    Comes (.liveMigration part) s fun t => (∀ g ∈ t.ats, g.part ≠ part) ∧ (∀ r ∈ t.replicas, r.part ≠ part) ∧
      s.now ≤ t.now ∧ (t.part part).copying = false ∧ (t.part part).clockOff = (s.part part).clockOff ∧
        ∀ (i : Nat) g, (s.part part).csa[i]? = some g → (t.part part).csa[i]? = some g)

/-- R3, R19, R21, R22, R24, R52, R72, R413: a read of a function's BAR 0 or of the slot table brings the fields of the register at
the offset; what is write-only or not listed reads zero; in the slot table a 1 written to BUSY clears it, and a write of
CUR does nothing.
What the spec leaves open here is the model's choice or reading (log entry 103). -/
def Obligations.RegisterReads : Prop :=
  (∀ s, readRegister s 1024 0 = s.pkg.word0 ∧ readRegister s 1024 8 = s.pkg.word1 ∧
    readRegister s 1024 0x10 = s.pkg.rdyseq.setWidth 64 ∧ readRegister s 1024 0x18 = 0 ∧
    bits (readRegister s 1024 0x20) 0 4 = s.pkg.bootState ∧ bits (readRegister s 1024 0x20) 4 4 = s.pkg.bootReason ∧
    (bits (readRegister s 1024 0x20) 8 56 : BitVec 56) = 0) ∧
  (∀ s f base, (f < 1024 ∧ base = 0) ∨ (f = 1024 ∧ base = 0x10000) →
    readRegister s f base = (s.fn f).sqbase ∧ bits (readRegister s f (base + 8)) 0 4 = (s.fn f).sqlog ∧
    bit (readRegister s f (base + 8)) 4 = (s.fn f).sqen ∧ bits (readRegister s f (base + 0x28)) 0 4 = (s.fn f).mqlog ∧
    bit (readRegister s f (base + 0x28)) 4 = (s.fn f).mqen ∧ bits (readRegister s f (base + 0x50)) 0 4 = (s.fn f).cqlog ∧
    bit (readRegister s f (base + 0x50)) 4 = (s.fn f).cqen ∧
    (∀ o, o = 8 ∨ o = 0x28 ∨ o = 0x50 → (bits (readRegister s f (base + o)) 5 59 : BitVec 59) = 0) ∧
    (∀ o, o = 0x10 ∨ o = 0x18 ∨ o = 0x30 ∨ o = 0x38 ∨ o = 0x58 ∨ o = 0x60 → (bits (readRegister s f (base + o)) 32 32 : W32) = 0) ∧
    (bits (readRegister s f (base + 0x40)) 3 5 : BitVec 5) = 0 ∧ (bits (readRegister s f (base + 0x40)) 16 48 : BitVec 48) = 0 ∧
    (∀ o, o < 0x100 → o ∉ queueOffsets → readRegister s f (base + o) = 0) ∧ bits (readRegister s f (base + 0x10)) 0 32 = (s.fn f).sqtail ∧
    bits (readRegister s f (base + 0x18)) 0 32 = (s.fn f).sqhead ∧ readRegister s f (base + 0x20) = (s.fn f).mqbase ∧
    bits (readRegister s f (base + 0x30)) 0 32 = (s.fn f).mqhead ∧ bits (readRegister s f (base + 0x38)) 0 32 = (s.fn f).mqtail ∧
    bit (readRegister s f (base + 0x40)) 0 = (s.fn f).sqerr ∧ bit (readRegister s f (base + 0x40)) 1 = (s.fn f).mqlost ∧
    bit (readRegister s f (base + 0x40)) 2 = (s.fn f).cqerr ∧
    bits (readRegister s f (base + 0x40)) 8 8 = (s.fn f).lostcnt ∧ readRegister s f (base + 0x48) = (s.fn f).cqbase ∧
    bits (readRegister s f (base + 0x58)) 0 32 = (s.fn f).cqtail ∧ bits (readRegister s f (base + 0x60)) 0 32 = (s.fn f).cqhead) ∧
  (∀ s f off, f < 1024 → off ∉ queueOffsets → readRegister s f off = 0) ∧
  (∀ s off, pmbGap off → readRegister s 1024 off = 0) ∧
  (∀ s stack, stack < 16 → readRegister s 1024 (errReg stack 0x28) = 0) ∧
  (∀ part v s, part < 64 → Comes (.agethrWrite 1024 part v) s fun t =>
    readRegister t 1024 (0xE400 + 16 * part) = v &&& 0xFFFF) ∧
  (∀ part o v s, part < 64 → o < 64 → o % 8 = 0 → s.enabled part = false → (o = 0x30 → bit v 32 = false) →
    Comes (.registerWrite 1024 (0x1000 + 64 * part + o) v) s fun t =>
      readRegister t 1024 (0x1000 + 64 * part + o) = v &&& partMask o) ∧
  (∀ s seg n, seg < 8 → n < 64 →
    let c := s.core (64 * seg + n)
    let w := readRegister s (1025 + seg) (0x40000 + 128 * n + 0x40)
    bit w 0 = c.busy ∧ bit w 1 = c.curempty ∧ bit w 2 = c.gangwait ∧ bit w 3 = c.stopped ∧ (bits w 4 60 : BitVec 60) = 0 ∧
    (∀ i, i < 4 → readRegister s (1025 + seg) (0x40000 + 128 * n + 8 * i) = bindDw c.cur i ∧
      readRegister s (1025 + seg) (0x40000 + 128 * n + 0x20 + 8 * i) = bindDw c.nxt i)) ∧
  (∀ s seg n v, seg < 8 → n < 64 → bit v 0 = true →
    Comes (.registerWrite (1025 + seg) (0x40000 + 128 * n + 0x40) v) s fun t =>
      t.core (64 * seg + n) = { s.core (64 * seg + n) with busy := false } ∧ ∀ c, c ≠ 64 * seg + n → t.core c = s.core c) ∧
  (∀ s seg n v i, seg < 8 → n < 64 → i < 4 →
    exec (.registerWrite (1025 + seg) (0x40000 + 128 * n + 8 * i) v) s = .next s)

/-- R3, R21, R22, R52, R66, R130, R292, R398, R413: registers written by the PF take the bits that they have; a VF's write of
what only the PF may write is dropped; the records of an enabled partition do not change; errors of a bank lead to a
stronger code.
What the spec leaves open here is the model's choice or reading (log entries 17, 87 and 88). -/
def Obligations.Registers : Prop :=
  (∀ part v s, part < 64 → Comes (.agethrWrite 1024 part v) s fun t => t.reg (0xE400 + 16 * part) = v &&& 0xFFFF ∧ t.mem = s.mem) ∧
  (∀ part v s, part < 64 → Comes (.mbudgetWrite 1024 part v) s fun t =>
    t.reg (0xE800 + 16 * part) = v &&& 0xFFFFFFFF ∧ t.mem = s.mem) ∧
  (∀ part v s, part < 64 → Comes (.tvecWrite 1024 part v) s fun t => t.tvec part = v &&& ~~~6 ∧ t.mem = s.mem) ∧
  (∀ fn part v s i, fn < 1024 → part < 64 →
    (i = .agethrWrite fn part v ∨ i = .mbudgetWrite fn part v ∨ i = .tvecWrite fn part v ∨ i = .resetWriteFromVf fn v) →
    Comes i s fun t => t.pmb = s.pmb ∧ t.pkg = s.pkg ∧ t.parts = s.parts) ∧
  (∀ fn off v s, fn ≤ 1024 → off % 8 ≠ 0 → exec (.registerWrite fn off v) s = .next s) ∧
  (∀ fn v s, fn < 1024 → Comes (.registerWrite fn 0 v) s fun t => t.fn fn = { s.fn fn with sqbase := v }) ∧
  (∀ part o v s, part < 64 → o < 64 → o % 8 = 0 → s.enabled part = false → (o = 0x30 → bit v 32 = false) →
    Comes (.registerWrite 1024 (0x1000 + 64 * part + o) v) s fun t => t.partRec part o = v &&& partMask o ∧ t.mem = s.mem) ∧
  (∀ part o v s, part < 64 → o < 64 → o % 8 = 0 → s.enabled part = true → (o = 0x30 → bit v 32 = true) →
    exec (.registerWrite 1024 (0x1000 + 64 * part + o) v) s = .next s) ∧
  (∀ stack s, stack < 16 → Comes (.clrcnt stack) s fun t => t.reg (0xD010 + 64 * stack) = 0 ∧ t.reg (0xD018 + 64 * stack) = 0) ∧
  (∀ stack bank s, stack < 16 → bank < 32 → (bits (s.reg (errReg stack 0)) 0 16).toNat ≠ 0 →
    (bits (s.reg (errReg stack 0)) 0 16).toNat ≤ bankErrors s (32 * stack + bank) → bit (s.reg (errReg stack 8)) bank = false →
    (∀ b ∈ s.banks, b.1 ≠ 512 + (32 * stack + bank)) →
    exec (.ceThreshold stack bank) s = .next { s with banks := s.banks ++ [(512 + (32 * stack + bank), s.now)] }) ∧
  (∀ stack bank s b, stack < 16 → bank < 32 → b ∈ s.banks → b.1 = 512 + 32 * stack + bank → reencodeFits s stack = true →
    Comes (.reencodeDone stack bank true) s fun t => bit (t.reg (errReg stack 8)) bank = true ∧
      ∀ c ∈ t.banks, c.1 ≠ 512 + 32 * stack + bank) ∧
  (∀ stack bank s b, stack < 16 → bank < 32 → b ∈ s.banks → b.1 = 512 + 32 * stack + bank → reencodeFits s stack = false →
    Comes (.reencodeDone stack bank false) s fun t => t.pmb = s.pmb ∧ t.banks = s.banks) ∧
  (∀ stack bank freed s, freed ≠ reencodeFits s stack → exec (.reencodeDone stack bank freed) s = .next s)

open Sys2Proof Sys2Proof.Machine Sys2Proof.Claims

/-- R98 to R111: an instruction word's instruction, encoded by the tables of the spec, decodes to itself, every operand with
it; every word of the table has an encoding, no event has.
What the spec leaves open here is the model's choice or reading (log entries 28, 29 and 37). -/
def Obligations.EncodedWordsDecode : Prop :=
  (∀ i w, wellFormed i = true → encode i = some w → decode w = .ok i) ∧
  ∀ i, (encode i).isSome = (infoOf i).isSome

/-- R98 to R113: what the decoder reads from a word is well formed and encodes to that word: no bit of a word that is accepted
is dropped, and no two words are one instruction.
What the spec leaves open here is the model's choice or reading (log entries 28, 29 and 37). -/
def Obligations.DecodedWordsEncode : Prop :=
  ∀ w i, decode w = .ok i → wellFormed i = true ∧ encode i = some w

/-- Words whose fields the spec writes out decode to the instructions that they stand for (worked encodings of files 05, 07,
09, 11, 13, 14, 15, 17, 20 and 22 of the spec). -/
def Obligations.WorkedWords : Prop :=
  decode 0x0170140202000000 = .ok (.iadd ⟨⟨7, false, false⟩, 5, .s32, false, .w 1, .w 2⟩) ∧
  decode 0x32A0280901CE8460 = .ok (.ffma ⟨⟨10, false, false⟩, 10, .f32, .rz, true, .w 4, .b 1, .i (-3)⟩) ∧
  decode 0x201003FFFFEFE800 = .ok (.bra ⟨1, false⟩ ⟨-5, 0xFA⟩ false) ∧
  decode 0x820809003C181600 = .ok (.pairWord false (.iadd 4 (.w 9)) (.fmul 6 (.w 11))) ∧
  decode 0x4070141000FFFE2C = .ok (.ld ⟨7, false, false⟩ 5 ⟨.w 8, -2⟩ .b16 true .w) ∧
  decode 0x4270141006010050 = .ok (.atom ⟨7, false, false⟩ .add 5 ⟨.w 8, 0x10⟩ (.w 6) .b32 .ring) ∧
  decode 0x5170000405001002 = .ok (.barWait ⟨7, false⟩ .slice 2 (.w 5)) ∧
  decode 0x5A7000260C000000 = .ok (.qfence ⟨7, false⟩ 0x13 (.w 12)) ∧
  decode 0x6270000808000000 = .ok (.mprec ⟨7, false⟩ 4 8) ∧
  decode 0x4D70101000000800 = .ok (.sealBcast ⟨7, false, false⟩ 4 (.w 8)) ∧
  decode 0x69705003A7000000 = .ok (.cprog ⟨7, false, false⟩ 20 1 (.i 7)) ∧
  decode 0x2D70000802000000 = .ok (.csrw ⟨7, false⟩ .tpc (.w 4)) ∧
  decode 0x707018002468ACF0 = .ok (.movi ⟨7, false, false⟩ 6 0x12345678)

/-- R2 (the model's memory, log 3): every step keeps device memory in its canonical form, from every state that has it. -/
def Obligations.MemoryStaysCanonical : Prop :=
  Safety.Kept fun s => Memory.wf s.mem = true

/-- R19, R21, R23, R52, R66, R72, R130, R292, R385, R413: the machine after a cold reset: nothing is ready, no core holds a
group, no partition is enabled, the registers hold the reset values of their tables; memory is in canonical form (what it
holds is the model's choice, log 3). -/
def Obligations.ResetState : Prop :=
  Memory.wf State.reset.mem = true ∧ State.reset.now = 0 ∧
  (∀ c, State.reset.grp? c = none ∧ (State.reset.core c).curempty = true ∧ (State.reset.core c).busy = false ∧
    (State.reset.core c).gangwait = false ∧ (State.reset.core c).stopped = false ∧ (State.reset.core c).nxt.valid = false) ∧
  (∀ f, State.reset.fn f = Fn.reset) ∧ (∀ p, p < 64 → State.reset.enabled p = false) ∧
  (∀ p, p < 64 → State.reset.agethr p = 0x1000 ∧ State.reset.mbudget p = 0x08000000 ∧ State.reset.tvec p = 0 ∧
    State.reset.partRec p 0x18 = 0x30000 ∧ (State.reset.part p).ringshare = 0x80808080) ∧
  (∀ k, k < 16 → State.reset.reg (errReg k 0) = 0x100 ∧ State.reset.reg (errReg k 8) = 0 ∧ State.reset.reg (errReg k 0x10) = 0) ∧
  State.reset.pkg.word0 = 0 ∧ State.reset.pkg.word1 = 0 ∧ State.reset.pkg.rdyseq = 0

/-- R96, R113, R128 (the schedule is the model's, log 2): a step performs the act at the head of the schedule. In the turn of
a core, its pipe that is due first fetches the word at the PC of its run's first thread; a word that decodes is executed,
and one that does not traps; an event is executed. After an act, what its write-backs met is reported, and the tail
records that it changed stand in memory; where there is neither, nothing is added. -/
def Obligations.StepExecutesDecoded : Prop :=
  (∀ s c core pipe r s' w i, s.agenda = (c, .turn core pipe) :: r →
    let s0 := State.passTo { s with agenda := r } c
    let p := firstPipe s0 core pipe
    nextWord { s0 with sel := (core, p) } core p = some (s', .word w) →
    decode w = .ok i → step s = settled s0 (exec i s')) ∧
  (∀ s c core pipe r s' w e, s.agenda = (c, .turn core pipe) :: r →
    let s0 := State.passTo { s with agenda := r } c
    let p := firstPipe s0 core pipe
    nextWord { s0 with sel := (core, p) } core p = some (s', .word w) →
    decode w = .rej e → step s = settled s0 (.next (issueBad w e s'))) ∧
  (∀ s c i r, s.agenda = (c, .ev i) :: r → infoOf i = none →
    step s = settled (State.passTo { s with agenda := r } c) (exec i (State.passTo { s with agenda := r } c))) ∧
  (∀ old t, t.reports = [] → t.tails = old.tails → (t.tails.map (·.1)).Nodup → t.tailBase = old.tailBase →
    settled old (.next t) = .next t) ∧
  (∀ s core pipe g a b, s.grp? core = some g → dueCycle s core g 0 = some a → dueCycle s core g 1 = some b →
    firstPipe s core pipe = if a ≤ b then 0 else 1) ∧
  (∀ s core pipe g r t l, s.grp? core = some g → s.run core pipe = some r → r.tids = t :: l →
    nextWord s core pipe = some (fetchAt s core g (g.thread t).pc)) ∧
  (∀ s, s.agenda = [] → defaultAct s = none → step s = .next (s.passTo (s.now + 1)))
end

