-- ==== Sys2Proof/Laws/Lists.lean ====
section
/-! SUPPORT. Laws of the sparse lists, of lists by position and of memory: read after write, what a write leaves, and
that every memory operation keeps the canonical form. -/

namespace Sys2Proof.Machine

variable {α : Type}

/-! ## Sparse lists -/

@[simp] theorem alGet_alSet_self (d : α) (n : Nat) (x : α) (l : List (Nat × α)) : alGet d (alSet n x l) n = x := by
  induction l with
  | nil => simp [alSet, alGet]
  | cons e r ih =>
    obtain ⟨k, v⟩ := e
    simp only [alSet]
    split
    · simp [alGet]
    · split
      · simp [alGet]
      · rename_i h; simp [alGet, Ne.symm h, ih]

theorem alGet_alSet_ne (d : α) {n m : Nat} (h : m ≠ n) (x : α) (l : List (Nat × α)) :
    alGet d (alSet n x l) m = alGet d l m := by
  induction l with
  | nil => simp [alSet, alGet, Ne.symm h]
  | cons e r ih =>
    obtain ⟨k, v⟩ := e
    simp only [alSet]
    split
    · simp [alGet, Ne.symm h]
    · split
      · rename_i hk; subst hk; simp [alGet, Ne.symm h]
      · by_cases hk : k = m <;> simp [alGet, hk, ih]

@[simp] theorem alSet_alSet_self (n : Nat) (x y : α) (l : List (Nat × α)) : alSet n x (alSet n y l) = alSet n x l := by
  induction l with
  | nil => simp [alSet]
  | cons e r ih =>
    obtain ⟨k, v⟩ := e
    by_cases h1 : n < k
    · simp [alSet, h1]
    · by_cases h2 : n = k
      · subst h2; simp [alSet]
      · simp [alSet, h1, h2, ih]

@[simp] theorem alFind_alSet_self (n : Nat) (x : α) (l : List (Nat × α)) : alFind (alSet n x l) n = some x := by
  induction l with
  | nil => simp [alSet, alFind]
  | cons e r ih =>
    obtain ⟨k, v⟩ := e
    simp only [alSet]
    split
    · simp [alFind]
    · split
      · simp [alFind]
      · rename_i h; simp [alFind, Ne.symm h, ih]

theorem alFind_alSet_ne {n m : Nat} (h : m ≠ n) (x : α) (l : List (Nat × α)) : alFind (alSet n x l) m = alFind l m := by
  induction l with
  | nil => simp [alSet, alFind, Ne.symm h]
  | cons e r ih =>
    obtain ⟨k, v⟩ := e
    simp only [alSet]
    split
    · simp [alFind, Ne.symm h]
    · split
      · rename_i hk; subst hk; simp [alFind, Ne.symm h]
      · by_cases hk : k = m <;> simp [alFind, hk, ih]

/-! ## Lists by position -/

@[simp] theorem modNth_length (f : α → α) (n : Nat) (l : List α) : (modNth f n l).length = l.length := by
  induction l generalizing n with
  | nil => cases n <;> rfl
  | cons a r ih => cases n <;> simp [modNth, ih]

theorem modNth_getD_self (f : α → α) (d : α) {n : Nat} {l : List α} (h : n < l.length) :
    (modNth f n l).getD n d = f (l.getD n d) := by
  induction l generalizing n with
  | nil => simp at h
  | cons a r ih =>
    cases n with
    | zero => simp [modNth]
    | succ n => simpa [modNth] using ih (by simpa using h)

theorem modNth_getD_ne (f : α → α) (d : α) {n m : Nat} (h : m ≠ n) (l : List α) :
    (modNth f n l).getD m d = l.getD m d := by
  induction l generalizing n m with
  | nil => cases n <;> rfl
  | cons a r ih =>
    cases n with
    | zero =>
      cases m with
      | zero => exact absurd rfl h
      | succ m => simp [modNth]
    | succ n =>
      cases m with
      | zero => simp [modNth]
      | succ m => simpa [modNth] using ih (by omega)

theorem modNth_of_length_le (f : α → α) {n : Nat} {l : List α} (h : l.length ≤ n) : modNth f n l = l := by
  induction l generalizing n with
  | nil => cases n <;> rfl
  | cons a r ih =>
    cases n with
    | zero => simp at h
    | succ n => simp [modNth, ih (by simpa using h)]

@[simp] theorem setNth_length (n : Nat) (x : α) (l : List α) : (setNth n x l).length = l.length := modNth_length ..

theorem setNth_getD_self (d : α) {n : Nat} (x : α) {l : List α} (h : n < l.length) : (setNth n x l).getD n d = x :=
  modNth_getD_self _ d h

theorem setNth_getD_ne (d : α) {n m : Nat} (h : m ≠ n) (x : α) (l : List α) : (setNth n x l).getD m d = l.getD m d :=
  modNth_getD_ne _ d h l

/-! ## Memory -/

/-- Nothing is listed below the first address of a memory in canonical form. -/
theorem memRead_below {lo : Nat} {m : List Host.Cell} (h : memWfFrom lo m = true) {a : Nat} (ha : a < lo) :
    memRead m a = memDefault := by
  induction m generalizing lo with
  | nil => rfl
  | cons e r ih =>
    obtain ⟨k, v⟩ := e
    simp only [memWfFrom, Bool.and_eq_true, decide_eq_true_eq] at h
    have h1 : k ≠ a := by omega
    have h2 : a < k := by omega
    simp [memRead, h1, h2]

theorem memWfFrom_mono {lo lo' : Nat} (h : lo' ≤ lo) {m : List Host.Cell} (hw : memWfFrom lo m = true) :
    memWfFrom lo' m = true := by
  cases m with
  | nil => rfl
  | cons e r =>
    obtain ⟨k, v⟩ := e
    simp only [memWfFrom, Bool.and_eq_true, decide_eq_true_eq] at hw ⊢
    exact ⟨⟨by omega, hw.1.2⟩, hw.2⟩

theorem memWrite_wfFrom {lo a : Nat} (b : Byte) (hlo : lo ≤ a) {m : List Host.Cell} (h : memWfFrom lo m = true) :
    memWfFrom lo (memWrite a b m) = true := by
  induction m generalizing lo with
  | nil => by_cases hb : b = memDefault <;> simp [memWrite, memWfFrom, hb, hlo]
  | cons e r ih =>
    obtain ⟨k, v⟩ := e
    simp only [memWfFrom, Bool.and_eq_true, decide_eq_true_eq] at h
    obtain ⟨⟨hk, hv⟩, hr⟩ := h
    simp only [memWrite]
    by_cases h1 : a < k
    · by_cases hb : b = memDefault
      · simp [h1, hb, memWfFrom, hk, hr, hv]
      · simp [h1, hb, memWfFrom, hlo, hr, hv, Nat.succ_le_of_lt h1]
    · by_cases h2 : a = k
      · subst h2
        by_cases hb : b = memDefault
        · simpa [hb] using memWfFrom_mono (by omega) hr
        · simp [hb, memWfFrom, hlo, hr]
      · simp only [h1, h2, if_false, memWfFrom, Bool.and_eq_true, decide_eq_true_eq]
        exact ⟨⟨hk, hv⟩, ih (by omega) hr⟩

/-- A write of one byte keeps the canonical form. -/
theorem memWrite_wf (a : Nat) (b : Byte) {m : List Host.Cell} (h : Memory.wf m = true) : Memory.wf (memWrite a b m) = true :=
  memWrite_wfFrom b (Nat.zero_le a) h

/-- A write of bytes keeps the canonical form. -/
theorem memWriteN_wf (bs : List Byte) (a : Nat) {m : List Host.Cell} (h : Memory.wf m = true) :
    Memory.wf (memWriteN a bs m) = true := by
  induction bs generalizing a m with
  | nil => exact h
  | cons b r ih => exact ih _ (memWrite_wf a b h)

theorem memWrite64_wf (a : Nat) (v : W64) {m : List Host.Cell} (h : Memory.wf m = true) :
    Memory.wf (memWrite64 a v m) = true := memWriteN_wf _ a h

/-- A read gives the byte last written. -/
theorem memRead_memWrite_self (a : Nat) (b : Byte) {m : List Host.Cell} (h : Memory.wf m = true) :
    memRead (memWrite a b m) a = b := by
  have aux : ∀ (m : List Host.Cell) (lo : Nat), memWfFrom lo m = true → memRead (memWrite a b m) a = b := by
    intro m
    induction m with
    | nil => intro lo _; by_cases hb : b = memDefault <;> simp [memWrite, memRead, hb]
    | cons e r ih =>
      obtain ⟨k, v⟩ := e
      intro lo h
      simp only [memWfFrom, Bool.and_eq_true, decide_eq_true_eq] at h
      obtain ⟨⟨hk, hv⟩, hr⟩ := h
      simp only [memWrite]
      by_cases h1 : a < k
      · by_cases hb : b = memDefault
        · simp [h1, hb, memRead, show k ≠ a by omega]
        · simp [h1, hb, memRead]
      · by_cases h2 : a = k
        · subst h2
          by_cases hb : b = memDefault
          · simpa [hb] using memRead_below hr (by omega)
          · simp [hb, memRead]
        · simp [h1, h2, memRead, Ne.symm h2, ih _ hr]
  exact aux m 0 h

/-- A write leaves every other byte alone. -/
theorem memRead_memWrite_ne {a c : Nat} (hc : c ≠ a) (b : Byte) {m : List Host.Cell} (h : Memory.wf m = true) :
    memRead (memWrite a b m) c = memRead m c := by
  have aux : ∀ (m : List Host.Cell) (lo : Nat), memWfFrom lo m = true → memRead (memWrite a b m) c = memRead m c := by
    intro m
    induction m with
    | nil =>
      intro lo _
      by_cases hb : b = memDefault <;> simp [memWrite, memRead, hb, Ne.symm hc]
    | cons e r ih =>
      obtain ⟨k, v⟩ := e
      intro lo h
      simp only [memWfFrom, Bool.and_eq_true, decide_eq_true_eq] at h
      obtain ⟨⟨hk, hv⟩, hr⟩ := h
      simp only [memWrite]
      by_cases h1 : a < k
      · by_cases hb : b = memDefault
        · simp [h1, hb]
        · by_cases hca : c < a
          · simp [h1, hb, memRead, Ne.symm hc, hca, show k ≠ c by omega, show c < k by omega]
          · simp [h1, hb, memRead, Ne.symm hc, hca]
      · by_cases h2 : a = k
        · subst h2
          by_cases hb : b = memDefault
          · by_cases hca : c < a
            · simp [hb, memRead, Ne.symm hc, hca, memRead_below hr (show c < a + 1 by omega)]
            · simp [hb, memRead, Ne.symm hc, hca]
          · simp [hb, memRead, Ne.symm hc]
        · by_cases hkc : k = c
          · subst hkc; simp [h1, h2, memRead]
          · by_cases hck : c < k
            · simp [h1, h2, memRead, hkc, hck]
            · simp [h1, h2, memRead, hkc, hck, ih _ hr]
  exact aux m 0 h

/-- A write of bytes leaves every address outside them alone. -/
theorem memRead_memWriteN_outside (bs : List Byte) {a c : Nat} (hc : c < a ∨ a + bs.length ≤ c) {m : List Host.Cell}
    (h : Memory.wf m = true) : memRead (memWriteN a bs m) c = memRead m c := by
  induction bs generalizing a m with
  | nil => rfl
  | cons b r ih =>
    simp only [List.length_cons] at hc
    simp only [memWriteN]
    rw [ih (by omega) (memWrite_wf a b h), memRead_memWrite_ne (by omega) b h]

end Sys2Proof.Machine
end

