-- ==== Sys2Proof/Laws/State.lean ====
section
/-! SUPPORT. What each update of the state leaves and sets, field by field. -/

namespace Sys2Proof.Machine

/-! ## Cores -/

@[simp] theorem core_setCore_self (s : State) (c : Nat) (x : Core) : (s.setCore c x).core c = x := alGet_alSet_self ..

theorem core_setCore_ne (s : State) {c d : Nat} (h : d ≠ c) (x : Core) : (s.setCore c x).core d = s.core d :=
  alGet_alSet_ne _ h ..

@[simp] theorem core_modCore_self (s : State) (c : Nat) (f : Core → Core) : (s.modCore c f).core c = f (s.core c) :=
  core_setCore_self ..

theorem core_modCore_ne (s : State) {c d : Nat} (h : d ≠ c) (f : Core → Core) : (s.modCore c f).core d = s.core d :=
  core_setCore_ne s h _

@[simp] theorem grp?_setGrp (s : State) (c : Nat) (g : Group) : (s.setGrp c g).grp? c = some g := by
  simp [State.grp?, State.setGrp]

theorem grp?_setGrp_ne (s : State) {c d : Nat} (h : d ≠ c) (g : Group) : (s.setGrp c g).grp? d = s.grp? d := by
  simp [State.grp?, State.setGrp, core_modCore_ne s h]

@[simp] theorem grp?_setRun (s : State) (c p d : Nat) (r : Option Run) : (s.setRun c p r).grp? d = s.grp? d := by
  by_cases h : d = c
  · subst h; simp only [State.grp?, State.setRun, core_modCore_self]; split <;> rfl
  · simp [State.grp?, State.setRun, core_modCore_ne s h]

/-! ### Fields that updates of a core leave -/

section fields
variable (s : State) (c p : Nat)

@[simp] theorem setCore_mem (x : Core) : (s.setCore c x).mem = s.mem := rfl
@[simp] theorem modCore_mem (f : Core → Core) : (s.modCore c f).mem = s.mem := rfl
@[simp] theorem setGrp_mem (g : Group) : (s.setGrp c g).mem = s.mem := rfl
@[simp] theorem setRun_mem (r : Option Run) : (s.setRun c p r).mem = s.mem := rfl
@[simp] theorem setCore_now (x : Core) : (s.setCore c x).now = s.now := rfl
@[simp] theorem modCore_now (f : Core → Core) : (s.modCore c f).now = s.now := rfl
@[simp] theorem setGrp_now (g : Group) : (s.setGrp c g).now = s.now := rfl
@[simp] theorem setRun_now (r : Option Run) : (s.setRun c p r).now = s.now := rfl
@[simp] theorem setPart_mem (x : Part) : (s.setPart c x).mem = s.mem := rfl
@[simp] theorem modPart_mem (f : Part → Part) : (s.modPart c f).mem = s.mem := rfl
@[simp] theorem setFn_mem (x : Fn) : (s.setFn c x).mem = s.mem := rfl
@[simp] theorem modFn_mem (f : Fn → Fn) : (s.modFn c f).mem = s.mem := rfl
@[simp] theorem setReg_mem (v : W64) : (s.setReg c v).mem = s.mem := rfl
@[simp] theorem setReg_cores (v : W64) : (s.setReg c v).cores = s.cores := rfl
@[simp] theorem setFn_cores (x : Fn) : (s.setFn c x).cores = s.cores := rfl
@[simp] theorem modFn_cores (f : Fn → Fn) : (s.modFn c f).cores = s.cores := rfl
@[simp] theorem setPart_cores (x : Part) : (s.setPart c x).cores = s.cores := rfl
@[simp] theorem modPart_cores (f : Part → Part) : (s.modPart c f).cores = s.cores := rfl
@[simp] theorem setCore_sel (x : Core) : (s.setCore c x).sel = s.sel := rfl
@[simp] theorem modCore_sel (f : Core → Core) : (s.modCore c f).sel = s.sel := rfl
@[simp] theorem setGrp_sel (g : Group) : (s.setGrp c g).sel = s.sel := rfl
@[simp] theorem setRun_sel (r : Option Run) : (s.setRun c p r).sel = s.sel := rfl
@[simp] theorem setCore_posted (x : Core) : (s.setCore c x).posted = s.posted := rfl
@[simp] theorem modCore_posted (f : Core → Core) : (s.modCore c f).posted = s.posted := rfl
@[simp] theorem setGrp_posted (g : Group) : (s.setGrp c g).posted = s.posted := rfl
@[simp] theorem setRun_posted (r : Option Run) : (s.setRun c p r).posted = s.posted := rfl
@[simp] theorem setCore_invs (x : Core) : (s.setCore c x).invs = s.invs := rfl
@[simp] theorem modCore_invs (f : Core → Core) : (s.modCore c f).invs = s.invs := rfl
@[simp] theorem setGrp_invs (g : Group) : (s.setGrp c g).invs = s.invs := rfl
@[simp] theorem setRun_invs (r : Option Run) : (s.setRun c p r).invs = s.invs := rfl
@[simp] theorem modCore_tails (f : Core → Core) : (s.modCore c f).tails = s.tails := rfl
@[simp] theorem setGrp_tails (g : Group) : (s.setGrp c g).tails = s.tails := rfl
@[simp] theorem setRun_tails (r : Option Run) : (s.setRun c p r).tails = s.tails := rfl
@[simp] theorem modCore_reports (f : Core → Core) : (s.modCore c f).reports = s.reports := rfl
@[simp] theorem setGrp_reports (g : Group) : (s.setGrp c g).reports = s.reports := rfl
@[simp] theorem setRun_reports (r : Option Run) : (s.setRun c p r).reports = s.reports := rfl
@[simp] theorem modCore_wcache (f : Core → Core) : (s.modCore c f).wcache = s.wcache := rfl
@[simp] theorem setGrp_wcache (g : Group) : (s.setGrp c g).wcache = s.wcache := rfl
@[simp] theorem modCore_l2 (f : Core → Core) : (s.modCore c f).l2 = s.l2 := rfl
@[simp] theorem setGrp_l2 (g : Group) : (s.setGrp c g).l2 = s.l2 := rfl
@[simp] theorem modCore_repSets (f : Core → Core) : (s.modCore c f).repSets = s.repSets := rfl
@[simp] theorem modCore_shoots (f : Core → Core) : (s.modCore c f).shoots = s.shoots := rfl
@[simp] theorem setGrp_shoots (g : Group) : (s.setGrp c g).shoots = s.shoots := rfl
@[simp] theorem modCore_ats (f : Core → Core) : (s.modCore c f).ats = s.ats := rfl
@[simp] theorem modCore_pris (f : Core → Core) : (s.modCore c f).pris = s.pris := rfl
@[simp] theorem modCore_priWait (f : Core → Core) : (s.modCore c f).priWait = s.priWait := rfl
@[simp] theorem setFn_posted (x : Fn) : (s.setFn c x).posted = s.posted := rfl
@[simp] theorem setPart_posted (x : Part) : (s.setPart c x).posted = s.posted := rfl
@[simp] theorem setReg_posted (v : W64) : (s.setReg c v).posted = s.posted := rfl
@[simp] theorem setFn_tails (x : Fn) : (s.setFn c x).tails = s.tails := rfl
@[simp] theorem setPart_tails (x : Part) : (s.setPart c x).tails = s.tails := rfl
@[simp] theorem setReg_tails (v : W64) : (s.setReg c v).tails = s.tails := rfl
@[simp] theorem setCore_expired (x : Core) : (s.setCore c x).expired = s.expired := rfl
@[simp] theorem modCore_expired (f : Core → Core) : (s.modCore c f).expired = s.expired := rfl
@[simp] theorem setGrp_expired (g : Group) : (s.setGrp c g).expired = s.expired := rfl
@[simp] theorem setRun_expired (r : Option Run) : (s.setRun c p r).expired = s.expired := rfl
@[simp] theorem setPart_expired (x : Part) : (s.setPart c x).expired = s.expired := rfl
@[simp] theorem setFn_expired (x : Fn) : (s.setFn c x).expired = s.expired := rfl
@[simp] theorem setReg_expired (v : W64) : (s.setReg c v).expired = s.expired := rfl
@[simp] theorem setCore_rfrozen (x : Core) : (s.setCore c x).rfrozen = s.rfrozen := rfl
@[simp] theorem modCore_rfrozen (f : Core → Core) : (s.modCore c f).rfrozen = s.rfrozen := rfl
@[simp] theorem setGrp_rfrozen (g : Group) : (s.setGrp c g).rfrozen = s.rfrozen := rfl
@[simp] theorem setRun_rfrozen (r : Option Run) : (s.setRun c p r).rfrozen = s.rfrozen := rfl
@[simp] theorem setPart_rfrozen (x : Part) : (s.setPart c x).rfrozen = s.rfrozen := rfl
@[simp] theorem setFn_rfrozen (x : Fn) : (s.setFn c x).rfrozen = s.rfrozen := rfl
@[simp] theorem setReg_rfrozen (v : W64) : (s.setReg c v).rfrozen = s.rfrozen := rfl

end fields

@[simp] theorem modGrp_mem (s : State) (c : Nat) (f : Group → Group) : (s.modGrp c f).mem = s.mem := by
  unfold State.modGrp; split <;> rfl

@[simp] theorem modGrp_now (s : State) (c : Nat) (f : Group → Group) : (s.modGrp c f).now = s.now := by
  unfold State.modGrp; split <;> rfl

theorem modGrp_of (s : State) (c : Nat) (f : Group → Group) {g : Group} (h : s.grp? c = some g) :
    s.modGrp c f = s.setGrp c (f g) := by
  simp [State.modGrp, h]

/-! ## Partitions, functions, registers -/

@[simp] theorem part_setPart_self (s : State) (p : Nat) (x : Part) : (s.setPart p x).part p = x := alGet_alSet_self ..

theorem part_setPart_ne (s : State) {p q : Nat} (h : q ≠ p) (x : Part) : (s.setPart p x).part q = s.part q :=
  alGet_alSet_ne _ h ..

@[simp] theorem part_modPart_self (s : State) (p : Nat) (f : Part → Part) : (s.modPart p f).part p = f (s.part p) :=
  part_setPart_self ..

@[simp] theorem fn_setFn_self (s : State) (f : Nat) (x : Fn) : (s.setFn f x).fn f = x := alGet_alSet_self ..

theorem fn_setFn_ne (s : State) {f g : Nat} (h : g ≠ f) (x : Fn) : (s.setFn f x).fn g = s.fn g := alGet_alSet_ne _ h ..

@[simp] theorem fn_modFn_self (s : State) (f : Nat) (k : Fn → Fn) : (s.modFn f k).fn f = k (s.fn f) := fn_setFn_self ..

@[simp] theorem reg_setReg_self (s : State) (o : Nat) (v : W64) : (s.setReg o v).reg o = v := by
  simp [State.reg, State.setReg]

theorem reg_setReg_ne (s : State) {o q : Nat} (h : q ≠ o) (v : W64) : (s.setReg o v).reg q = s.reg q := by
  simp [State.reg, State.setReg, alFind_alSet_ne h]

/-! ## Threads -/

@[simp] theorem modThread_length (g : Group) (t : Nat) (f : Thread → Thread) :
    (g.modThread t f).threads.length = g.threads.length := modNth_length ..

theorem thread_modThread_self (g : Group) {t : Nat} (f : Thread → Thread) (h : t < g.threads.length) :
    (g.modThread t f).thread t = f (g.thread t) := modNth_getD_self _ _ h

theorem thread_modThread_ne (g : Group) {t u : Nat} (f : Thread → Thread) (h : u ≠ t) :
    (g.modThread t f).thread u = g.thread u := modNth_getD_ne _ _ h _

theorem thread_out (g : Group) {t : Nat} (h : g.threads.length ≤ t) : g.thread t = Thread.blank := by
  simp [Group.thread, List.getD, List.getElem?_eq_none h]

/-- Changes to threads leave the rest of the group. -/
theorem modThreads_rest (g : Group) (ts : List Nat) (f : Nat → Thread → Thread) :
    g.modThreads ts f = { g with threads := (g.modThreads ts f).threads } := by
  unfold Group.modThreads
  induction ts generalizing g with
  | nil => rfl
  | cons t r ih => simp only [List.foldl_cons]; rw [ih]; rfl

@[simp] theorem modThreads_length (g : Group) (ts : List Nat) (f : Nat → Thread → Thread) :
    (g.modThreads ts f).threads.length = g.threads.length := by
  unfold Group.modThreads
  induction ts generalizing g with
  | nil => rfl
  | cons t r ih => simp only [List.foldl_cons]; rw [ih]; simp

theorem thread_modThreads_ne (g : Group) {ts : List Nat} (f : Nat → Thread → Thread) {u : Nat} (h : u ∉ ts) :
    (g.modThreads ts f).thread u = g.thread u := by
  unfold Group.modThreads
  induction ts generalizing g with
  | nil => rfl
  | cons t r ih =>
    simp only [List.mem_cons, not_or] at h
    simp only [List.foldl_cons]
    rw [ih _ h.2, thread_modThread_ne _ _ h.1]

theorem thread_modThreads_self (g : Group) {ts : List Nat} (f : Nat → Thread → Thread) {u : Nat} (hn : ts.Nodup)
    (hu : u ∈ ts) (hl : u < g.threads.length) : (g.modThreads ts f).thread u = f u (g.thread u) := by
  unfold Group.modThreads
  induction ts generalizing g with
  | nil => simp at hu
  | cons t r ih =>
    simp only [List.foldl_cons]
    obtain ⟨ht, hr⟩ := List.nodup_cons.mp hn
    by_cases h : u = t
    · subst h
      exact (thread_modThreads_ne _ f ht).trans (thread_modThread_self g _ hl)
    · have hm : u ∈ r := by simpa [h] using hu
      rw [ih _ hr hm (by simpa using hl), thread_modThread_ne _ _ h]

/-- What every change keeps, the changes of many threads keep. -/
theorem modThreads_keeps (P : Thread → Thread → Prop) (hr : ∀ x, P x x) (ht : ∀ x y z, P x y → P y z → P x z)
    (g : Group) (ts : List Nat) (f : Nat → Thread → Thread) (hf : ∀ t x, P x (f t x)) (u : Nat) :
    P (g.thread u) ((g.modThreads ts f).thread u) := by
  unfold Group.modThreads
  induction ts generalizing g with
  | nil => exact hr _
  | cons t r ih =>
    simp only [List.foldl_cons]
    refine ht _ _ _ ?_ (ih _)
    by_cases h : u = t
    · subst h
      by_cases hl : u < g.threads.length
      · rw [thread_modThread_self g _ hl]; exact hf u _
      · rw [thread_out g (by omega), thread_out _ (by simp; omega)]; exact hr _
    · rw [thread_modThread_ne _ _ h]; exact hr _

section threadfields
variable (t : Thread) (n : Nat) (v : W32) (q : BitVec 3) (b : Bool)

@[simp] theorem setR_p : (t.setR n v).p = t.p := rfl
@[simp] theorem setR_pc : (t.setR n v).pc = t.pc := rfl
@[simp] theorem setR_prio : (t.setR n v).prio = t.prio := rfl
@[simp] theorem setR_tm : (t.setR n v).tm = t.tm := rfl
@[simp] theorem setR_w_length : (t.setR n v).w.length = t.w.length := setNth_length ..

theorem setR_r_self (h : n < t.w.length) : (t.setR n v).r n = v := setNth_getD_self _ _ h

theorem setR_r_ne {m : Nat} (h : m ≠ n) : (t.setR n v).r m = t.r m := setNth_getD_ne _ h ..

@[simp] theorem setPred_w : (t.setPred q b).w = t.w := by unfold Thread.setPred; split <;> rfl
@[simp] theorem setPred_pc : (t.setPred q b).pc = t.pc := by unfold Thread.setPred; split <;> rfl
@[simp] theorem setPred_prio : (t.setPred q b).prio = t.prio := by unfold Thread.setPred; split <;> rfl

theorem maskBit : ∀ n < 8, ∀ m < 8, ((1 : BitVec 8) <<< n).getLsbD m = decide (n = m) := by decide

theorem setPred_pred_self (h : q ≠ 7) : (t.setPred q b).pred q = b := by
  have h7 : (q == 7) = false := by simpa using h
  have hm := maskBit q.toNat q.isLt q.toNat q.isLt
  unfold Thread.setPred Thread.pred
  rw [if_neg h, h7]
  cases b
  · simp only [Bool.false_eq_true, if_false, bit, BitVec.getLsbD_and, BitVec.getLsbD_not, hm]; simp
  · simp only [if_true, bit, BitVec.getLsbD_or, hm]; simp

theorem setPred_pred_ne {r : BitVec 3} (h : r ≠ q) : (t.setPred q b).pred r = t.pred r := by
  have hne : q.toNat ≠ r.toNat := fun e => h (BitVec.eq_of_toNat_eq e.symm)
  have hm := maskBit q.toNat q.isLt r.toNat r.isLt
  have hr : r.toNat < 8 := r.isLt
  unfold Thread.setPred
  split
  · rfl
  · unfold Thread.pred
    cases b
    · simp only [Bool.false_eq_true, if_false, bit, BitVec.getLsbD_and, BitVec.getLsbD_not, hm]; simp [hne, hr]
    · simp only [if_true, bit, BitVec.getLsbD_or, hm]; simp [hne]

end threadfields

/-! ## Traps (R397, R402) -/

section rollback
variable (t : Thread)

@[simp] theorem rollback_w : t.rollback.w = t.w := rfl
@[simp] theorem rollback_p : t.rollback.p = t.p := rfl
@[simp] theorem rollback_pc : t.rollback.pc = t.rsPc := rfl
@[simp] theorem rollback_prio : t.rollback.prio = t.rsPrio := rfl
@[simp] theorem rollback_rclosed : t.rollback.rclosed = true := rfl
@[simp] theorem rollback_ptrap : t.rollback.ptrap = none := rfl
@[simp] theorem rollback_long : t.rollback.long = none := rfl
@[simp] theorem rollback_undo : t.rollback.undo = none := rfl
@[simp] theorem rollback_tm : t.rollback.tm = t.tm := rfl

end rollback

section trapfields
variable (t : Thread) (tvec val trec : W64) (c : Nat) (pc : Va) (prio : BitVec 8)

@[simp] theorem trap_w : (t.trap tvec c val pc prio trec).w = t.w := rfl
@[simp] theorem trap_p : (t.trap tvec c val pc prio trec).p = t.p := rfl
@[simp] theorem trap_tm : (t.trap tvec c val pc prio trec).tm = true := rfl
@[simp] theorem trap_tcause : (t.trap tvec c val pc prio trec).tcause = BitVec.ofNat 64 c := rfl
@[simp] theorem trap_tval : (t.trap tvec c val pc prio trec).tval = val := rfl
@[simp] theorem trap_tpc : (t.trap tvec c val pc prio trec).tpc = tpcOf pc prio := rfl
@[simp] theorem trap_trec : (t.trap tvec c val pc prio trec).trec = trec := rfl
@[simp] theorem trap_pix : (t.trap tvec c val pc prio trec).pix = 0 := rfl
@[simp] theorem trap_pc : (t.trap tvec c val pc prio trec).pc = pcOf tvec := rfl
@[simp] theorem eret_w : t.eret.w = t.w := rfl
@[simp] theorem eret_tm : t.eret.tm = false := rfl
@[simp] theorem eret_pc : t.eret.pc = pcOf t.tpc := rfl
@[simp] theorem eret_prio : t.eret.prio = bits t.tpc 56 8 := rfl

end trapfields

end Sys2Proof.Machine
end

