-- ==== Sys2Proof/Laws/Issue.lean ====
section
/-! SUPPORT. What every word does as it issues (R113, R126-R133): `issue_of` says it once, `perThread_gives` and
`perThread_givesPred` for the words whose effect is on registers and predicates. -/

namespace Sys2Proof.Machine
open Claims

/-! ## Time passing, what lands -/

theorem passTo_mem (s : State) (c : Nat) : (s.passTo c).mem = s.mem := by
  unfold State.passTo; split <;> rfl

theorem passTo_self (s : State) : s.passTo s.now = s := by simp [State.passTo]

theorem ageEntries_threads (s : State) (core n : Nat) (g : Group) : (ageEntries s core n g).threads = g.threads := by
  unfold ageEntries; split <;> rfl

theorem ageEntries_lrec (s : State) (core n : Nat) (g : Group) : (ageEntries s core n g).lrec = g.lrec := by
  unfold ageEntries; split <;> rfl

theorem alGet_map {α : Type} (d : α) (f : Nat → α → α) (l : List (Nat × α)) (n : Nat) :
    alGet d (l.map fun (k, x) => (k, f k x)) n = alGet d l n ∨
      alGet d (l.map fun (k, x) => (k, f k x)) n = f n (alGet d l n) := by
  induction l with
  | nil => exact .inl rfl
  | cons e r ih =>
    obtain ⟨k, v⟩ := e
    by_cases h : k = n
    · subst h; exact .inr (by simp [alGet])
    · simpa [alGet, h] using ih

/-- Time that passes ages the entries of a group and changes nothing else of its core (R130). -/
theorem passTo_core (s : State) (c k : Nat) :
    (s.passTo c).core k = s.core k ∨
      (s.passTo c).core k = { s.core k with grp := (s.core k).grp.map (ageEntries s k (c - s.now)) } := by
  unfold State.passTo
  split
  · exact .inl rfl
  · exact alGet_map Core.reset (fun k x => { x with grp := x.grp.map (ageEntries s k (c - s.now)) }) s.cores k

theorem Thread.openRegion_rest (cls : RegionCls) (now id : Nat) (x : Thread) :
    (Thread.openRegion cls now id x).w = x.w ∧ (Thread.openRegion cls now id x).p = x.p ∧
      (Thread.openRegion cls now id x).pc = x.pc ∧ (Thread.openRegion cls now id x).prio = x.prio := by
  unfold Thread.openRegion
  split <;> (try split) <;> exact ⟨rfl, rfl, rfl, rfl⟩

theorem landed_threads (g : Group) (n m : Nat) : (landKset (landFlags g n) m).threads = g.threads := rfl
theorem landed_lrec (g : Group) (n m : Nat) : (landKset (landFlags g n) m).lrec = g.lrec := rfl

theorem shaped_congr {g h : Group} (hl : h.lrec = g.lrec) (hn : h.threads.length = g.threads.length)
    (hw : ∀ u, (h.thread u).w.length = (g.thread u).w.length) (hs : shaped g = true) : shaped h = true := by
  simp only [shaped, List.all_eq_true, decide_eq_true_eq] at hs ⊢
  intro t ht
  obtain ⟨u, hu, rfl⟩ := List.getElem_of_mem ht
  have h1 : h.thread u = h.threads[u] := by simp [Group.thread, hu]
  have h2 : g.thread u = g.threads[u]'(by omega) := by simp [Group.thread, show u < g.threads.length by omega]
  have := hs _ (List.getElem_mem (show u < g.threads.length by omega))
  rw [← h2, ← hw u, h1] at this
  simpa [Group.regs, hl] using this

theorem shaped_w {g : Group} (h : shaped g = true) {u : Nat} (hu : u < g.threads.length) :
    g.regs ≤ (g.thread u).w.length := by
  simp only [shaped, List.all_eq_true, decide_eq_true_eq] at h
  have : g.thread u = g.threads[u] := by simp [Group.thread, hu]
  rw [this]
  exact h _ (List.getElem_mem hu)

/-- What is true of the word that `issueAt` finds. -/
structure Issued (i : Instr) (s : State) (x : Ctx) : Prop where
  core : x.core = s.sel.1
  pipe : x.pipe = s.sel.2
  info : infoOf i = some x.info
  grp : x.s.grp? x.core = some x.g
  run : x.s.run x.core x.pipe = some x.r
  mem : x.s.mem = s.mem
  some : x.r.tids ≠ []
  nodup : x.r.tids.Nodup
  here : ∀ t ∈ x.r.tids, t < x.g.threads.length
  shaped : Claims.shaped x.g = true
  on_sub : ∀ t ∈ x.on, t ∈ x.r.tids
  on_nodup : x.on.Nodup
  on_guard : ∀ t ∈ x.on, (x.g.thread t).guard x.info.gp = true
  regs : x.info.top ≤ x.g.regs

theorem mem_insertBy {α : Type} (f : α → Nat) (x y : α) (l : List α) : y ∈ insertBy f x l ↔ y = x ∨ y ∈ l := by
  induction l with
  | nil => simp [insertBy]
  | cons z r ih =>
    simp only [insertBy]
    split
    · simp
    · simp only [List.mem_cons, ih]; constructor <;> (rintro (h | h | h) <;> simp [h])

theorem mem_sortBy {α : Type} (f : α → Nat) (y : α) (l : List α) : y ∈ sortBy f l ↔ y ∈ l := by
  induction l with
  | nil => simp [sortBy]
  | cons z r ih => simp [sortBy, mem_insertBy, ih]

theorem nodup_insertBy {α : Type} (f : α → Nat) {x : α} {l : List α} (hx : x ∉ l) (h : l.Nodup) :
    (insertBy f x l).Nodup := by
  induction l with
  | nil => simp [insertBy]
  | cons z r ih =>
    obtain ⟨h1, h2⟩ := List.nodup_cons.mp h
    simp only [List.mem_cons, not_or] at hx
    simp only [insertBy]
    split
    · exact List.nodup_cons.mpr ⟨by simp [hx.1, hx.2], h⟩
    · exact List.nodup_cons.mpr ⟨by simp [mem_insertBy, Ne.symm hx.1, h1], ih hx.2 h2⟩

theorem nodup_sortBy {α : Type} (f : α → Nat) {l : List α} (h : l.Nodup) : (sortBy f l).Nodup := by
  induction l with
  | nil => exact List.nodup_nil
  | cons z r ih =>
    obtain ⟨h1, h2⟩ := List.nodup_cons.mp h
    exact nodup_insertBy f (by simpa [mem_sortBy] using h1) (ih h2)

/-- A check that fails no thread has found registers enough (R41). -/
theorem top_of_precheck {s : State} {core : Nat} {g : Group} {r : Run} {i : Info} {raw : W64} {t : Nat}
    (h : precheck s core g r i raw none t = none) : i.top ≤ g.regs := by
  unfold precheck at h
  simp only [reduceCtorEq, if_false] at h
  split at h
  · simp at h
  · split at h
    · simp at h
    · rename_i h2; simp at h2; exact h2

theorem setFree_core (s : State) (core pipe c k : Nat) :
    ((setFree s core pipe c).core k).grp = (s.core k).grp ∧ ((setFree s core pipe c).core k).run0 = (s.core k).run0 ∧
      ((setFree s core pipe c).core k).run1 = (s.core k).run1 := by
  unfold setFree
  by_cases h : k = core
  · subst h; simp only [core_modCore_self]; split <;> exact ⟨rfl, rfl, rfl⟩
  · simp [core_modCore_ne s h]

/-- The group of a core after time has passed has the same threads. -/
theorem grp_passed (s : State) (c pipe n : Nat) {k : Nat} {g : Group} (h : s.grp? k = some g) :
    ∃ g', (setFree (s.passTo c) k pipe n).grp? k = some g' ∧ g'.threads = g.threads ∧ g'.lrec = g.lrec := by
  have h1 : (setFree (s.passTo c) k pipe n).grp? k = (s.passTo c).grp? k := (setFree_core ..).1
  rw [h1]
  rcases passTo_core s c k with h2 | h2
  · exact ⟨g, by simp only [State.grp?, h2]; exact h, rfl, rfl⟩
  · refine ⟨ageEntries s k (c - s.now) g, ?_, ageEntries_threads .., ageEntries_lrec ..⟩
    have h' : (s.core k).grp = some g := h
    simp [State.grp?, h2, h']

theorem run_passed (s : State) (c pipe n k q : Nat) : (setFree (s.passTo c) k pipe n).run k q = s.run k q := by
  have h1 := setFree_core (s.passTo c) k pipe n k
  have h2 : ((s.passTo c).core k).run0 = (s.core k).run0 ∧ ((s.passTo c).core k).run1 = (s.core k).run1 := by
    rcases passTo_core s c k with h | h <;> rw [h] <;> exact ⟨rfl, rfl⟩
  simp only [State.run, h1.2.1, h1.2.2, h2.1, h2.2]

theorem run_setGrp (s : State) (k q : Nat) (g : Group) : (s.setGrp k g).run k q = s.run k q := by
  simp [State.run, State.setGrp]

theorem issued_of {i : Instr} {s : State} {x : Ctx} (h : issueAt i s = some x) : Issued i s x := by
  unfold issueAt at h
  split at h
  · rename_i g r w hg hr hi
    split at h
    · rename_i hc
      split at h
      · rename_i y hx
        simp only [Bool.and_eq_true, Bool.not_eq_true'] at hc
        obtain ⟨⟨⟨⟨hm, ht⟩, hs⟩, hsh⟩, hsk⟩ := hc
        cases h
        obtain ⟨g0, h0, ht0, hl0⟩ := grp_passed s (issueCycle s s.sel.1 s.sel.2 g r w) s.sel.2
          (issueCycle s s.sel.1 s.sel.2 g r w + 1) hg
        simp only [issueCtx, Prod.mk.injEq, h0, Option.getD_some] at hx
        obtain ⟨rfl, hbad⟩ := hx
        simp only [sheetOk, Bool.and_eq_true, List.all_eq_true, decide_eq_true_eq] at hsk
        have hne : r.tids ≠ [] := by intro e; simp [e] at ht
        have hlen : ∀ (n m : Nat), ((landKset (landFlags g0 n) m).openRegion w.cls n r.tids).threads.length =
            g.threads.length := by
          intro n m; simp [Group.openRegion, landed_threads, ht0]
        have hw : ∀ (n m u : Nat), (((landKset (landFlags g0 n) m).openRegion w.cls n r.tids).thread u).w =
            (g.thread u).w := by
          intro n m u
          have := modThreads_keeps (fun a b => b.w = a.w) (fun _ => rfl) (fun _ _ _ p q => q.trans p)
            (landKset (landFlags g0 n) m) r.tids (fun _ => Thread.openRegion w.cls n (landKset (landFlags g0 n) m).nextId)
            (fun _ y => (Thread.openRegion_rest w.cls n _ y).1) u
          have h3 : (landKset (landFlags g0 n) m).thread u = g.thread u := by
            simp only [Group.thread, landed_threads, ht0]
          rw [h3] at this
          exact this
        have hlrec : ∀ (n m : Nat), ((landKset (landFlags g0 n) m).openRegion w.cls n r.tids).lrec = g.lrec := by
          intro n m
          rw [Group.openRegion, modThreads_rest]
          exact hl0
        refine ⟨rfl, rfl, hi, grp?_setGrp .., ?_, ?_, hne, hsk.2, ?_, ?_, ?_, ?_, ?_, ?_⟩
        · rw [run_setGrp, run_passed]; exact hr
        · simp [setFree, passTo_mem]
        · intro t htm; simp only [hlen]; exact hsk.1 t htm
        · exact shaped_congr (hlrec ..) (hlen ..) (fun u => by rw [hw]) hsh
        · intro t htm; simp only [mem_sortBy, List.mem_filter] at htm; exact htm.1
        · exact nodup_sortBy _ (hsk.2.filter _)
        · intro t htm; simp only [mem_sortBy, List.mem_filter, Bool.and_eq_true] at htm; exact htm.2.2
        · obtain ⟨u, hu⟩ := List.exists_mem_of_ne_nil _ hne
          rw [List.filterMap_eq_nil_iff] at hbad
          have := hbad u hu
          simp only [Option.map_eq_none_iff] at this
          have h5 := top_of_precheck this
          have h6 : (landKset (landFlags g0 (issueCycle s s.sel.1 s.sel.2 g r w))
            (issueCycle s s.sel.1 s.sel.2 g r w)).regs = g.regs := by
            simp only [Group.regs, landed_lrec, hl0]
          rw [h6] at h5
          simpa [Group.regs, hlrec] using h5
      · simp at h
    · simp at h
  · simp at h

theorem issue_of {i : Instr} {s : State} {x : Ctx} (h : issueAt i s = some x) (body : Ctx → Eff) :
    issue i body s = finish x [] (body x) := by
  unfold issueAt at h
  split at h
  · rename_i g r w hg hr hi
    split at h
    · rename_i hc
      split at h
      · rename_i y hx
        simp only [Bool.and_eq_true, Bool.not_eq_true'] at hc
        obtain ⟨⟨⟨⟨hm, ht⟩, hs⟩, -⟩, -⟩ := hc
        cases h
        simp [issue, hi, issueWith, hg, hr, hm, ht, hs, hx]
      · simp at h
    · simp at h
  · simp at h

end Sys2Proof.Machine
end

