-- ==== Sys2Proof/Laws/Finish.lean ====
section
/-! SUPPORT. How the effect of a word is applied (R128): a word without traps, waits or jumps moves its sheet to the next
word and changes nothing else than its effect does. -/

namespace Sys2Proof.Machine
open Claims

/-! ## Moving between entries leaves threads and the rest of the group -/

/-- Two groups that differ at most in where threads stand. -/
def SameButPlaces (g h : Group) : Prop := h = { g with frontier := h.frontier, parking := h.parking }

theorem SameButPlaces.refl (g : Group) : SameButPlaces g g := rfl

theorem SameButPlaces.trans {a b c : Group} (h : SameButPlaces a b) (k : SameButPlaces b c) : SameButPlaces a c := by
  unfold SameButPlaces at *
  rw [k, h]

theorem unparkOne_same (g : Group) : SameButPlaces g (unparkOne g) := by
  unfold unparkOne; split <;> rfl

theorem unpark_same (n : Nat) (g : Group) : SameButPlaces g (unpark n g) := by
  induction n generalizing g with
  | zero => rfl
  | succ n ih =>
    unfold unpark
    split
    · rfl
    · exact (unparkOne_same g).trans (ih _)

theorem depart_same (g : Group) (ts : List Nat) (h : ∀ t ∈ ts, g.waiting t = none) : SameButPlaces g (g.depart ts) := by
  have hw : (g.waits.filter fun x => !ts.contains x.tid) = g.waits := by
    rw [List.filter_eq_self]
    intro x hx
    simp only [Bool.not_eq_true', List.contains_eq_mem, decide_eq_false_iff_not]
    intro hm
    have := h _ hm
    simp only [Group.waiting, List.find?_eq_none] at this
    exact this x hx (by simp)
  unfold Group.depart
  refine SameButPlaces.trans ?_ (unpark_same _ _)
  unfold SameButPlaces
  simp only [hw]

theorem arriveAt_same (g : Group) (pc : Va) (prio : BitVec 8) (ts : List Nat) : SameButPlaces g (g.arriveAt pc prio ts) := by
  unfold Group.arriveAt
  split
  · rfl
  · split
    · rfl
    · split
      · rfl
      · split <;> rfl

theorem arrive_same (g : Group) (fall : Option (Va × BitVec 8)) (ts : List Nat) : SameButPlaces g (g.arrive fall ts) := by
  unfold Group.arrive
  have : ∀ (l : List Nat) (h : Group) (f : Group → Nat → List Nat), SameButPlaces g h →
      SameButPlaces g (l.foldl (fun h t => h.arriveAt (g.thread t).pc (g.thread t).prio (f g t)) h) := by
    intro l
    induction l with
    | nil => intro h f hh; exact hh
    | cons t r ih => intro h f hh; exact ih _ f (hh.trans (arriveAt_same ..))
  exact this _ g (fun g t => g.samePair t (sortBy id ts)) rfl

/-- The end of a run changes only where threads stand, and empties the run. -/
theorem endRun_of (s : State) (core pipe : Nat) (fall : Option (Va × BitVec 8)) {g : Group} (hg : s.grp? core = some g) :
    ∃ h, SameButPlaces g h ∧ (endRun s core pipe fall = (s.setGrp core h).setRun core pipe none ∨
      endRun s core pipe fall = s.setRun core pipe none ∧ h = g) := by
  unfold endRun
  split
  · rename_i r k _ hk
    rw [hg] at hk; cases hk
    refine ⟨_, ?_, .inl rfl⟩
    refine SameButPlaces.trans (depart_same g _ ?_) (arrive_same _ _ _)
    intro t ht
    simp only [List.mem_filter, Option.isNone_iff_eq_none] at ht
    exact ht.2
  · exact ⟨g, rfl, .inr ⟨rfl, rfl⟩⟩

/-! ## What a change of one core's group leaves -/

theorem onlyGroup_refl (core : Nat) (s : State) : OnlyGroup core s s := ⟨rfl, fun _ _ => rfl, rfl, fun _ => rfl⟩

theorem onlyGroup_trans {core : Nat} {a b c : State} (h : OnlyGroup core a b) (k : OnlyGroup core b c) :
    OnlyGroup core a c :=
  ⟨k.state.trans h.state, fun d hd => (k.others d hd).trans (h.others d hd), k.own.trans h.own,
    fun d => (k.memory d).trans (h.memory d)⟩

theorem onlyGroup_setGrp (core : Nat) (s : State) (g : Group) : OnlyGroup core s (s.setGrp core g) :=
  ⟨rfl, fun _ hd => core_modCore_ne s hd _, by simp [State.setGrp, Core.rest], fun _ => rfl⟩

theorem onlyGroup_setRun (core pipe : Nat) (s : State) (r : Option Run) : OnlyGroup core s (s.setRun core pipe r) := by
  refine ⟨rfl, fun _ hd => core_modCore_ne s hd _, ?_, fun _ => rfl⟩
  simp only [State.setRun, core_modCore_self]
  split <;> rfl

theorem onlyGroup_endRun (core pipe : Nat) (s : State) (fall : Option (Va × BitVec 8)) : OnlyGroup core s (endRun s core pipe fall) := by
  unfold endRun
  split
  · exact onlyGroup_trans (onlyGroup_setGrp ..) (onlyGroup_setRun ..)
  · exact onlyGroup_setRun ..

/-! ## The fate "next" -/

/-- A thread at the next word. -/
def Thread.step (blocks : List (Nat × BitVec 8)) (pc : Va) (t : Thread) : Thread :=
  { t with pc := nextPc pc, prio := fallPrio blocks (nextPc pc) t.prio }

theorem fate_next (g : Group) (tvec : W64) (pc : Va) (t : Nat) :
    g.fate tvec pc t .next = g.modThread t (Thread.step g.blocks pc) := by
  unfold Group.fate
  simp only
  by_cases h : t < g.threads.length
  · unfold Group.modThread
    congr 1
    have aux : ∀ (l : List Thread) (n : Nat), n < l.length →
        modNth (fun x => { x with pc := nextPc pc, prio := fallPrio g.blocks (nextPc pc) (l.getD n Thread.blank).prio }) n l =
          modNth (Thread.step g.blocks pc) n l := by
      intro l
      induction l with
      | nil => intro n hn; simp at hn
      | cons a r ih =>
        intro n hn
        cases n with
        | zero => rfl
        | succ n =>
          have := ih n (by simpa using hn)
          simpa [modNth] using this
    exact aux _ _ h
  · unfold Group.modThread
    rw [modNth_of_length_le _ (by omega), modNth_of_length_le _ (by omega)]

theorem fates_next (g : Group) (tvec : W64) (pc : Va) (ts : List Nat) :
    ts.foldl (fun g t => g.fate tvec pc t .next) g = g.modThreads ts fun _ => Thread.step g.blocks pc := by
  unfold Group.modThreads
  have : ∀ (ts : List Nat) (h : Group), h.blocks = g.blocks →
      ts.foldl (fun g t => g.fate tvec pc t .next) h =
        ts.foldl (fun g' t => g'.modThread t (Thread.step g.blocks pc)) h := by
    intro ts
    induction ts with
    | nil => intro h _; rfl
    | cons t r ih =>
      intro h hb
      simp only [List.foldl_cons]
      rw [fate_next, hb]
      exact ih _ hb
  exact this ts g rfl

/-- A thread of the sheet after a word: its region closed where the word is one of its own, and at the next word. -/
def Thread.after (cls : RegionCls) (blocks : List (Nat × BitVec 8)) (pc : Va) (t : Thread) : Thread :=
  Thread.step blocks pc (if cls.isOwn then Thread.closeRegion t else t)

/-- A word whose threads all go on: the group after it. -/
theorem finish_next {x : Ctx} {e : Eff} {ge : Group} (hf : e.fates = []) (hi : e.iso = none)
    (hg : e.s.grp? x.core = some ge) (hn : x.r.tids.Nodup) (hl : ∀ t ∈ x.r.tids, t < ge.threads.length) :
    ∃ g', (finish x [] e).grp? x.core = some g' ∧ OnlyGroup x.core e.s (finish x [] e) ∧
      (∀ u ∈ x.r.tids, g'.thread u = Thread.after x.info.cls ge.blocks x.pc (ge.thread u)) ∧
      (∀ u, u ∉ x.r.tids → g'.thread u = ge.thread u) ∧
      g' = { ge with threads := g'.threads, frontier := g'.frontier, parking := g'.parking } := by
  have hfin : ∃ gm, gm = (ge.closeOwn x.info.cls x.r.tids).modThreads x.r.tids
        (fun _ => Thread.step (ge.closeOwn x.info.cls x.r.tids).blocks x.pc) ∧
      (finish x [] e = endRun (e.s.setGrp x.core gm) x.core x.pipe (some (fallPair x.g x.r x.pc)) ∨
        finish x [] e = (e.s.setGrp x.core gm).setRun x.core x.pipe (some { x.r with hist := e.enter :: x.r.hist })) := by
    refine ⟨_, rfl, ?_⟩
    have h0 : serveFates e.s x.core [] = e.s := rfl
    have h1 : ∀ t, fateOf [] t = .next := fun _ => rfl
    unfold finish
    simp only [hf, hi, List.nil_append, h0, hg, h1, fates_next]
    by_cases hy : x.info.y = true ∨ e.ends = true
    · left; rw [if_pos (by rcases hy with h | h <;> simp [h])]
    · right; rw [if_neg (by simp only [not_or] at hy; simp [hy.1, hy.2])]
  obtain ⟨gm, hgm, hfin⟩ := hfin
  have hb : (ge.closeOwn x.info.cls x.r.tids).blocks = ge.blocks := by
    unfold Group.closeOwn; split
    · rw [modThreads_rest]
    · rfl
  have hlc : (ge.closeOwn x.info.cls x.r.tids).threads.length = ge.threads.length := by
    unfold Group.closeOwn; split <;> simp
  have hin : ∀ u ∈ x.r.tids, gm.thread u = Thread.after x.info.cls ge.blocks x.pc (ge.thread u) := by
    intro u hu
    rw [hgm, thread_modThreads_self _ _ hn hu (by rw [hlc]; exact hl u hu), hb]
    unfold Thread.after Group.closeOwn
    congr 1
    split
    · exact thread_modThreads_self _ _ hn hu (hl u hu)
    · rfl
  have hout : ∀ u, u ∉ x.r.tids → gm.thread u = ge.thread u := by
    intro u hu
    rw [hgm, thread_modThreads_ne _ _ hu]
    unfold Group.closeOwn
    split
    · exact thread_modThreads_ne _ _ hu
    · rfl
  have hrest : gm = { ge with threads := gm.threads } := by
    rw [hgm, modThreads_rest]
    unfold Group.closeOwn
    split
    · rw [modThreads_rest]
    · rfl
  have hset : (e.s.setGrp x.core gm).grp? x.core = some gm := grp?_setGrp ..
  rcases hfin with hfin | hfin
  · obtain ⟨k, hk, hend⟩ := endRun_of (e.s.setGrp x.core gm) x.core x.pipe (some (fallPair x.g x.r x.pc)) hset
    have hgk : (finish x [] e).grp? x.core = some k := by
      rcases hend with hend | ⟨hend, rfl⟩ <;> rw [hfin, hend] <;> simp
    have hth : k.threads = gm.threads := by unfold SameButPlaces at hk; rw [hk]
    refine ⟨k, hgk, ?_, ?_, ?_, ?_⟩
    · rw [hfin]; exact onlyGroup_trans (onlyGroup_setGrp ..) (onlyGroup_endRun ..)
    · intro u hu; rw [← hin u hu]; simp [Group.thread, hth]
    · intro u hu; rw [← hout u hu]; simp [Group.thread, hth]
    · unfold SameButPlaces at hk; rw [hk, hrest]
  · refine ⟨gm, by rw [hfin]; simp, ?_, hin, hout, ?_⟩
    · rw [hfin]; exact onlyGroup_trans (onlyGroup_setGrp ..) (onlyGroup_setRun ..)
    · rw [hrest]

end Sys2Proof.Machine
end

