-- ==== Sys2Proof/Laws/RegWords.lean ====
section
/-! SUPPORT. The words whose effect is on registers, predicates, latches and flags alone: `perThread_gives` and
`perThread_givesPred` say once what each of them does, `regEff_gives` for the lane operations. -/

namespace Sys2Proof.Machine
open Claims

/-! ## Puts -/

theorem putW_fields (land : Nat) (l : List (Nat × W32)) (t : Thread) :
    (Thread.putW land l t).p = t.p ∧ (Thread.putW land l t).pc = t.pc ∧
      Claims.Thread.rest (Thread.putW land l t) = Claims.Thread.rest t ∧
      (Thread.putW land l t).w.length = t.w.length := by
  induction l generalizing t with
  | nil => exact ⟨rfl, rfl, rfl, rfl⟩
  | cons a r ih =>
    obtain ⟨n, v⟩ := a
    simp only [Thread.putW]
    obtain ⟨h1, h2, h3, h4⟩ := ih { t.setR n v with lands := alSet n (max land (alGet 0 t.lands n)) t.lands }
    exact ⟨h1, h2, h3, h4.trans (setR_w_length t n v)⟩

theorem putW_ne (land : Nat) (l : List (Nat × W32)) (t : Thread) {m : Nat} (h : ∀ a ∈ l, m ≠ a.1) :
    (Thread.putW land l t).r m = t.r m := by
  induction l generalizing t with
  | nil => rfl
  | cons a r ih =>
    obtain ⟨n, v⟩ := a
    simp only [Thread.putW]
    rw [ih _ (fun b hb => h b (List.mem_cons_of_mem _ hb))]
    exact setR_r_ne t n v (h _ (List.mem_cons_self ..))

theorem putW_one (land n : Nat) (v : W32) (t : Thread) (h : n < t.w.length) : (Thread.putW land [(n, v)] t).r n = v :=
  setR_r_self t n v h

theorem putW_two (land n : Nat) (v u : W32) (t : Thread) (h : n + 1 < t.w.length) :
    (Thread.putW land [(n, v), (n + 1, u)] t).r n = v ∧ (Thread.putW land [(n, v), (n + 1, u)] t).r (n + 1) = u := by
  simp only [Thread.putW]
  constructor
  · refine (setR_r_ne _ (n + 1) u (by omega)).trans ?_
    exact setR_r_self t n v (by omega)
  · exact setR_r_self _ (n + 1) u (by simpa using h)

theorem putP_fields (land : Nat) (p : Option (BitVec 3 × Bool)) (t : Thread) :
    (Thread.putP land p t).w = t.w ∧ (Thread.putP land p t).pc = t.pc ∧
      Claims.Thread.rest (Thread.putP land p t) = Claims.Thread.rest t := by
  unfold Thread.putP
  split
  · exact ⟨rfl, rfl, rfl⟩
  · rename_i n v
    split
    · exact ⟨rfl, rfl, rfl⟩
    · refine ⟨setPred_w .., setPred_pc .., ?_⟩
      simp only [Claims.Thread.rest, Thread.setPred]
      split <;> rfl

theorem put_w (land : Nat) (x : Put) (t : Thread) (n : Nat) : (t.put land x).r n = (Thread.putW land x.ws t).r n := by
  simp only [Thread.put, Thread.r, (putP_fields ..).1]

theorem put_rest (land : Nat) (x : Put) (t : Thread) : Claims.Thread.rest (t.put land x) = Claims.Thread.rest t :=
  (putP_fields ..).2.2.trans (putW_fields ..).2.2.1

theorem put_pred_none (land : Nat) (x : Put) (t : Thread) (h : x.p = none) (q : BitVec 3) :
    (t.put land x).pred q = t.pred q := by
  simp only [Thread.put, Thread.pred, h, Thread.putP, (putW_fields ..).1]

theorem put_pred_some (land : Nat) (x : Put) (t : Thread) {n : BitVec 3} {v : Bool} (h : x.p = some (n, v)) :
    (n ≠ 7 → (t.put land x).pred n = v) ∧ (∀ q, (n = 7 ∨ q ≠ n) → (t.put land x).pred q = t.pred q) := by
  have hp : (Thread.putW land x.ws t).p = t.p := (putW_fields ..).1
  constructor
  · intro hn
    simp only [Thread.put, h, Thread.putP, hn, if_false]
    exact setPred_pred_self _ n v hn
  · intro q hq
    simp only [Thread.put, h, Thread.putP]
    split
    · simp only [Thread.pred, hp]
    · rename_i hn
      have h1 : ∀ t' : Thread, ((t'.setPred n v).pred q) = t'.pred q := fun t' =>
        setPred_pred_ne t' n v (hq.resolve_left hn)
      refine (h1 _).trans ?_
      simp only [Thread.pred, hp]

/-! ## The effect on a group -/

/-- The group after all threads have had their results. -/
def putAll (land : Nat) (g : Group) (puts : List (Nat × Put)) : Group :=
  puts.foldl (fun g (t, p) => g.put t land p) g

theorem gput_rest (g : Group) (t land : Nat) (p : Put) :
    g.put t land p = { g with threads := (g.put t land p).threads, pend := (g.put t land p).pend } := by
  unfold Group.put Group.cancel Group.modThread
  split <;> rfl

theorem gput_thread_self (g : Group) {t : Nat} (land : Nat) (p : Put) (h : t < g.threads.length) :
    (g.put t land p).thread t = (g.thread t).put land p := by
  have h1 : (g.put t land p).thread t = (g.modThread t (Thread.put land p)).thread t := by
    unfold Group.put Group.cancel; split <;> rfl
  rw [h1, thread_modThread_self _ _ h]

theorem gput_thread_ne (g : Group) {t u : Nat} (land : Nat) (p : Put) (h : u ≠ t) :
    (g.put t land p).thread u = g.thread u := by
  have h1 : (g.put t land p).thread u = (g.modThread t (Thread.put land p)).thread u := by
    unfold Group.put Group.cancel; split <;> rfl
  rw [h1, thread_modThread_ne _ _ h]

theorem gput_length (g : Group) (t land : Nat) (p : Put) : (g.put t land p).threads.length = g.threads.length := by
  have h1 : (g.put t land p).threads = (g.modThread t (Thread.put land p)).threads := by
    unfold Group.put Group.cancel; split <;> rfl
  rw [h1, modThread_length]

theorem putAll_rest (land : Nat) (g : Group) (puts : List (Nat × Put)) :
    putAll land g puts = { g with threads := (putAll land g puts).threads, pend := (putAll land g puts).pend } := by
  unfold putAll
  induction puts generalizing g with
  | nil => rfl
  | cons a r ih => simp only [List.foldl_cons]; rw [ih, gput_rest]

theorem putAll_length (land : Nat) (g : Group) (puts : List (Nat × Put)) :
    (putAll land g puts).threads.length = g.threads.length := by
  unfold putAll
  induction puts generalizing g with
  | nil => rfl
  | cons a r ih => simp only [List.foldl_cons]; rw [ih, gput_length]

theorem putAll_ne (land : Nat) (g : Group) (puts : List (Nat × Put)) {u : Nat} (h : ∀ a ∈ puts, u ≠ a.1) :
    (putAll land g puts).thread u = g.thread u := by
  unfold putAll
  induction puts generalizing g with
  | nil => rfl
  | cons a r ih =>
    simp only [List.foldl_cons]
    rw [ih _ (fun b hb => h b (List.mem_cons_of_mem _ hb)), gput_thread_ne _ _ _ (h _ (List.mem_cons_self ..))]

theorem putAll_self (land : Nat) (g : Group) (puts : List (Nat × Put)) (hn : (puts.map (·.1)).Nodup) {u : Nat} {p : Put}
    (h : (u, p) ∈ puts) (hl : u < g.threads.length) : (putAll land g puts).thread u = (g.thread u).put land p := by
  unfold putAll
  induction puts generalizing g with
  | nil => simp at h
  | cons a r ih =>
    simp only [List.map_cons, List.nodup_cons] at hn
    simp only [List.foldl_cons]
    rcases List.mem_cons.mp h with rfl | h
    · refine (putAll_ne land _ r ?_).trans (gput_thread_self g land p hl)
      intro b hb e
      exact hn.1 (by simpa [e] using List.mem_map_of_mem (f := (·.1)) hb)
    · have hu : u ≠ a.1 := by
        rintro rfl
        exact hn.1 (List.mem_map_of_mem (f := (·.1)) h)
      rw [ih _ hn.2 h (by rw [gput_length]; exact hl), gput_thread_ne _ _ _ hu]

/-- Results of register words: what a word with these results leaves of a state. -/
theorem regEff_finish {i : Instr} {s : State} {x : Ctx} (hx : issueAt i s = some x) (puts : List (Nat × Put))
    (hp : puts.map (·.1) = x.on) :
    ∃ g', (finish x [] (regEff x puts)).grp? x.core = some g' ∧
      OnlyGroup x.core x.s (finish x [] (regEff x puts)) ∧
      Claims.Group.rest g' = Claims.Group.rest x.g ∧
      g'.fpxLand = (addFlags x.g (x.s.now + x.info.lat) (puts.foldl (fun f (_, p) => f ||| p.fl) 0)).fpxLand ∧
      (∀ u p, (u, p) ∈ puts → ∃ th, th = (x.g.thread u).put (x.s.now + x.info.lat) p ∧
        g'.thread u = Thread.after x.info.cls x.g.blocks x.pc th) ∧
      (∀ u ∈ x.r.tids, u ∉ x.on → g'.thread u = Thread.after x.info.cls x.g.blocks x.pc (x.g.thread u)) ∧
      (∀ u, u ∉ x.r.tids → g'.thread u = x.g.thread u) := by
  have hi := issued_of hx
  let ge := addFlags (putAll (x.s.now + x.info.lat) x.g puts) (x.s.now + x.info.lat)
    (puts.foldl (fun f (_, p) => f ||| p.fl) 0)
  have hth : ge.threads = (putAll (x.s.now + x.info.lat) x.g puts).threads := by
    simp only [ge, addFlags]; split <;> rfl
  have hthr : ∀ u, ge.thread u = (putAll (x.s.now + x.info.lat) x.g puts).thread u := by
    intro u; simp only [Group.thread, hth]
  have hbl : ge.blocks = x.g.blocks := by
    have h1 : ge.blocks = (putAll (x.s.now + x.info.lat) x.g puts).blocks := by
      simp only [ge, addFlags]; split <;> rfl
    rw [h1, putAll_rest]
  have he : (regEff x puts).s = x.s.setGrp x.core ge := rfl
  obtain ⟨g', h1, h2, h3, h4, h5⟩ := finish_next (x := x) (e := regEff x puts) (ge := ge) rfl rfl
    (by rw [he]; simp) hi.nodup (by intro t ht; rw [hth, putAll_length]; exact hi.here t ht)
  have hnd : (puts.map (·.1)).Nodup := by rw [hp]; exact hi.on_nodup
  refine ⟨g', h1, ?_, ?_, ?_, ?_, ?_, ?_⟩
  · rw [he] at h2
    exact onlyGroup_trans (onlyGroup_setGrp ..) h2
  · have : Claims.Group.rest ge = Claims.Group.rest x.g := by
      simp only [ge, addFlags]
      split <;> (rw [putAll_rest]; rfl)
    rw [h5, ← this]; rfl
  · rw [h5]
    simp only [ge, addFlags]
    split <;> (rw [putAll_rest])
  · intro u p hup
    refine ⟨_, rfl, ?_⟩
    have hu : u ∈ x.on := by rw [← hp]; exact List.mem_map_of_mem (f := (·.1)) hup
    have hur := hi.on_sub u hu
    rw [h3 u hur, hbl, hthr, putAll_self _ _ _ hnd hup (hi.here u hur)]
  · intro u hu hno
    rw [h3 u hu, hbl, hthr, putAll_ne]
    rintro a ha rfl
    exact hno (by rw [← hp]; exact List.mem_map_of_mem (f := (·.1)) ha)
  · intro u hu
    rw [h4 u hu, hthr, putAll_ne]
    rintro a ha rfl
    exact hu (hi.on_sub _ (by rw [← hp]; exact List.mem_map_of_mem (f := (·.1)) ha))

theorem after_r (cls : RegionCls) (bl : List (Nat × BitVec 8)) (pc : Va) (t : Thread) (n : Nat) :
    (Thread.after cls bl pc t).r n = t.r n := by
  unfold Thread.after; split <;> rfl

theorem after_pred (cls : RegionCls) (bl : List (Nat × BitVec 8)) (pc : Va) (t : Thread) (q : BitVec 3) :
    (Thread.after cls bl pc t).pred q = t.pred q := by
  unfold Thread.after; split <;> rfl

theorem after_rest (cls : RegionCls) (bl : List (Nat × BitVec 8)) (pc : Va) (t : Thread) :
    Claims.Thread.rest (Thread.after cls bl pc t) = Claims.Thread.rest t := by
  unfold Thread.after; split <;> rfl

theorem after_pc (cls : RegionCls) (bl : List (Nat × BitVec 8)) (pc : Va) (t : Thread) :
    (Thread.after cls bl pc t).pc = nextPc pc := rfl

/-- The frame of a word with these results (R99, R100). -/
theorem regEff_frame {i : Instr} {s : State} {x : Ctx} (hx : issueAt i s = some x) (puts : List (Nat × Put))
    (hp : puts.map (·.1) = x.on) (regs : List Nat) (preds : List (BitVec 3))
    (hr : ∀ u p, (u, p) ∈ puts → ∀ a ∈ p.ws, a.1 ∈ regs)
    (hq : ∀ u p, (u, p) ∈ puts → p.p = none ∨ ∃ n v, p.p = some (n, v) ∧ (n = 7 ∨ n ∈ preds)) :
    ∃ g', (finish x [] (regEff x puts)).grp? x.core = some g' ∧
      RegFrame x (finish x [] (regEff x puts)) g' regs preds ∧
      g'.fpxLand = (addFlags x.g (x.s.now + x.info.lat) (puts.foldl (fun f (_, p) => f ||| p.fl) 0)).fpxLand ∧
      (∀ u p, (u, p) ∈ puts → ∃ th, th = (x.g.thread u).put (x.s.now + x.info.lat) p ∧
        g'.thread u = Thread.after x.info.cls x.g.blocks x.pc th) := by
  obtain ⟨g', h1, h2, h3, h4, h5, h6, h7⟩ := regEff_finish hx puts hp
  have hi := issued_of hx
  have hin : ∀ u, u ∈ x.on → ∃ p, (u, p) ∈ puts := by
    intro u hu; rw [← hp] at hu
    obtain ⟨⟨v, p⟩, ha, rfl⟩ := List.mem_map.mp hu
    exact ⟨p, ha⟩
  refine ⟨g', h1, ⟨h2, h3, ?_, ?_, ?_, ?_, h7⟩, h4, h5⟩
  · intro u n hn
    by_cases hu : u ∈ x.on
    · obtain ⟨p, hup⟩ := hin u hu
      obtain ⟨th, rfl, ht⟩ := h5 u p hup
      rw [ht, after_r, put_w, putW_ne]
      rintro a ha rfl
      exact hn hu (hr u p hup a ha)
    · by_cases hur : u ∈ x.r.tids
      · rw [h6 u hur hu, after_r]
      · rw [h7 u hur]
  · intro u q hn
    by_cases hu : u ∈ x.on
    · obtain ⟨p, hup⟩ := hin u hu
      obtain ⟨th, rfl, ht⟩ := h5 u p hup
      rw [ht, after_pred]
      rcases hq u p hup with hno | ⟨n, v, hs, hm⟩
      · exact put_pred_none _ _ _ hno q
      · refine (put_pred_some _ _ _ hs).2 q ?_
        rcases hm with h | h
        · exact .inl h
        · exact .inr (fun e => hn hu (e ▸ h))
    · by_cases hur : u ∈ x.r.tids
      · rw [h6 u hur hu, after_pred]
      · rw [h7 u hur]
  · intro u
    by_cases hu : u ∈ x.on
    · obtain ⟨p, hup⟩ := hin u hu
      obtain ⟨th, rfl, ht⟩ := h5 u p hup
      rw [ht, after_rest, put_rest]
    · by_cases hur : u ∈ x.r.tids
      · rw [h6 u hur hu, after_rest]
      · rw [h7 u hur]
  · intro u hur
    by_cases hu : u ∈ x.on
    · obtain ⟨p, hup⟩ := hin u hu
      obtain ⟨th, rfl, ht⟩ := h5 u p hup
      rw [ht, after_pc]
    · rw [h6 u hur hu, after_pc]

theorem foldl_fl (puts : List (Nat × Put)) (f : Flags) :
    puts.foldl (fun f (_, p) => f ||| p.fl) f = (puts.map fun a => a.2.fl).foldl (· ||| ·) f := by
  induction puts generalizing f with
  | nil => rfl
  | cons a r ih => exact ih _

/-- A word that gives each thread its own value in a w destination. -/
theorem regEff_gives {i : Instr} {h : Hdr} {d : BitVec 8} {is64 : Bool} {v : Ctx → Rd → W64} {fl : Ctx → Rd → Flags}
    (body : Ctx → Eff) (hex : ∀ s, exec i s = .next (issue i body s))
    (hb : ∀ s x, issueAt i s = some x →
      body x = regEff x (x.on.map fun u => (u, { putVal h d is64 (v x (x.rd u)) with fl := fl x (x.rd u) })))
    (hd : ∀ w, infoOf i = some w → d.toNat + (if is64 then 2 else 1) ≤ w.top) : Gives i h d is64 v fl := by
  intro s x hx
  have hi := issued_of hx
  have hb := hb s x hx
  obtain ⟨g', h1, h2, h3, h4⟩ := regEff_frame hx
    (x.on.map fun u => (u, { putVal h d is64 (v x (x.rd u)) with fl := fl x (x.rd u) }))
    (by rw [List.map_map]; exact List.map_id' x.on) (dests h d is64) []
    (by
      intro u p hp a ha
      obtain ⟨w, hw, he⟩ := List.mem_map.mp hp
      cases he
      simp only [putVal, dests] at ha ⊢
      split at ha
      · simp at ha
      · rename_i hnw
        simp only [hnw]
        cases is64
        · simp only [Bool.false_eq_true, if_false, List.mem_singleton] at ha ⊢; simp [ha]
        · simp only [if_true, List.mem_cons, List.not_mem_nil, or_false] at ha ⊢
          rcases ha with rfl | rfl <;> simp)
    (by
      intro u p hp
      obtain ⟨w, hw, he⟩ := List.mem_map.mp hp
      cases he
      exact .inl rfl)
  refine ⟨_, g', (hex s).trans (by rw [issue_of hx body, hb]), h1, ?_, ?_, h2⟩
  · intro u hu hnw
    obtain ⟨th, rfl, ht⟩ := h4 u _ (List.mem_map_of_mem (f := fun u =>
      (u, { putVal h d is64 (v x (x.rd u)) with fl := fl x (x.rd u) })) hu)
    have hl : d.toNat + (if is64 then 2 else 1) ≤ (x.g.thread u).w.length :=
      Nat.le_trans (hd _ hi.info) (Nat.le_trans hi.regs (shaped_w hi.shaped (hi.here u (hi.on_sub u hu))))
    rw [ht]
    simp only [after_r, put_w]
    cases is64
    · refine ⟨?_, by simp⟩
      simp only [putVal, hnw, Bool.false_eq_true, if_false] at hl ⊢
      exact putW_one _ _ _ _ (by omega)
    · simp only [putVal, hnw, Bool.false_eq_true, if_false, if_true] at hl ⊢
      have := putW_two (x.s.now + x.info.lat) d.toNat (bits (v x (x.rd u)) 0 32) (bits (v x (x.rd u)) 32 32)
        (x.g.thread u) (by omega)
      exact ⟨this.1, fun _ => this.2⟩
  · rw [h3, foldl_fl, List.map_map]
    rfl

/-! ## The registers a word names lie below its top (R41) -/

theorem foldl_top (l : List Nat) (m : Nat) : m ≤ l.foldl (fun m r => max m (r + 1)) m ∧
    ∀ k ∈ l, k + 1 ≤ l.foldl (fun m r => max m (r + 1)) m := by
  induction l generalizing m with
  | nil => exact ⟨Nat.le_refl _, by simp⟩
  | cons a r ih =>
    have := ih (max m (a + 1))
    refine ⟨Nat.le_trans (Nat.le_max_left ..) this.1, fun k hk => ?_⟩
    rcases List.mem_cons.mp hk with rfl | hk
    · exact Nat.le_trans (Nat.le_max_right ..) this.1
    · exact this.2 k hk

theorem top_le {w : Info} {n : Nat} (h : n ∈ w.dst ++ w.src) : n + 1 ≤ w.top := (foldl_top _ 0).2 n h

theorem infoVal_top (h : Hdr) (d : BitVec 8) (n : Nat) (ss : List (Sel × Nat)) (l : Bool) (lat : Nat) (hn : 0 < n) :
    d.toNat + n ≤ (infoVal h d n ss l lat).top := by
  have h1 : d.toNat + (n - 1) ∈ (infoVal h d n ss l lat).dst ++ (infoVal h d n ss l lat).src := by
    refine List.mem_append_left _ ?_
    simp only [infoVal, regsFrom, List.mem_map, List.mem_range]
    exact ⟨n - 1, by omega, rfl⟩
  have := top_le h1
  omega

theorem infoVal_topW (h : Hdr) (d : BitVec 8) (is64 : Bool) (ss : List (Sel × Nat)) (l : Bool) (lat : Nat) :
    d.toNat + (if is64 then 2 else 1) ≤ (infoVal h d (widthRegs is64) ss l lat).top := by
  have := infoVal_top h d (widthRegs is64) ss l lat (by cases is64 <;> decide)
  cases is64 <;> simpa [widthRegs] using this

/-- A word whose threads each act on their own (R141). -/
theorem perThread_gives {i : Instr} {h : Hdr} {d : BitVec 8} {is64 : Bool} {v : Rd → W64} {fl : Rd → Flags}
    (hex : ∀ s, exec i s = .next (issue i (perThread fun x => { putVal h d is64 (v x) with fl := fl x }) s))
    (hd : ∀ w, infoOf i = some w → d.toNat + (if is64 then 2 else 1) ≤ w.top) :
    Gives i h d is64 (fun _ => v) (fun _ => fl) :=
  regEff_gives _ hex (fun _ _ _ => rfl) hd

/-- A word that gives each thread's predicate its own value. -/
theorem perThread_givesPred {i : Instr} {d : BitVec 3} {v : Rd → Bool} {fl : Rd → Flags}
    (hex : ∀ s, exec i s = .next (issue i (perThread fun x => { p := some (d, v x), fl := fl x }) s)) :
    GivesPred i d v fl := by
  intro s x hx
  obtain ⟨g', h1, h2, h3, h4⟩ := regEff_frame hx
    (x.on.map fun u => (u, ({ p := some (d, v (x.rd u)), fl := fl (x.rd u) } : Put)))
    (by rw [List.map_map]; exact List.map_id' x.on) [] (if d = 7 then [] else [d])
    (by
      intro u p hp a ha
      obtain ⟨w, hw, he⟩ := List.mem_map.mp hp
      cases he
      simp at ha)
    (by
      intro u p hp
      obtain ⟨w, hw, he⟩ := List.mem_map.mp hp
      cases he
      refine .inr ⟨d, _, rfl, ?_⟩
      by_cases h7 : d = 7
      · exact .inl h7
      · exact .inr (by rw [if_neg h7]; exact List.mem_singleton.mpr rfl))
  refine ⟨_, g', (hex s).trans (by rw [issue_of hx]; rfl), h1, ?_, ?_, h2⟩
  · intro u hu h7
    obtain ⟨th, rfl, ht⟩ := h4 u _ (List.mem_map_of_mem (f := fun u =>
      (u, ({ p := some (d, v (x.rd u)), fl := fl (x.rd u) } : Put))) hu)
    rw [ht, after_pred]
    exact (put_pred_some _ _ _ rfl).1 h7
  · rw [h3, foldl_fl, List.map_map]
    rfl

/-! ## Latches -/

theorem alFind_map_mem {α : Type} (f : Nat → α) (l : List Nat) (u : Nat) :
    alFind (l.map fun t => (t, f t)) u = if u ∈ l then some (f u) else none := by
  induction l with
  | nil => simp [alFind]
  | cons a r ih =>
    by_cases h : a = u
    · subst h; simp [alFind]
    · simp only [List.map_cons, alFind, ih, List.mem_cons, Ne.symm h, false_or] 
      simp [h]

/-- A word whose threads each act on their own and that does not end its run: the run goes on, with what the word enters
in the latches (R99, R134). -/
theorem perThread_run {i : Instr} {f : Rd → Put} (hex : ∀ s, exec i s = .next (issue i (perThread f) s)) {s : State} {x : Ctx}
    (hx : issueAt i s = some x) (hy : x.info.y = false) :
    ∃ t, exec i s = .next t ∧ t.run x.core x.pipe = some ⟨x.r.tids, (regEff x (x.on.map fun t => (t, f (x.rd t)))).enter :: x.r.hist⟩ := by
  refine ⟨_, (hex s).trans (by rw [issue_of hx]), ?_⟩
  have hg : ∃ g, (perThread f x).s.grp? x.core = some g := ⟨_, grp?_setGrp ..⟩
  obtain ⟨g, hg⟩ := hg
  have h0 : serveFates (perThread f x).s x.core [] = (perThread f x).s := rfl
  unfold finish
  have hfs : (perThread f x).fates = [] := rfl
  have he : (perThread f x).ends = false := rfl
  have hi : (perThread f x).iso = none := rfl
  simp only [hfs, List.append_nil, h0, hg, hy, he, hi]
  simp only [Bool.or_self, List.any_nil, Option.isSome_none, Bool.false_eq_true, if_false]
  simp only [State.run, State.setRun, core_modCore_self]
  split <;> rfl

end Sys2Proof.Machine
end

