-- ==== Sys2Proof/Tests/Slice0.lean ====
section
/-! SUPPORT. Tests: ill-formed instructions are refused; words written out from the encodings of the spec decode to
their instructions; single words have the results that the spec states; and for every
statement with hypotheses, states and operands that meet them. -/

namespace Sys2Proof.Tests
open Sys2Proof Machine Claims

/- The tests are checked one after another: in parallel they would need a stack each. -/
set_option Elab.async false

/-! ## Small states -/

/-- Guard p7, no Y, no NW. -/
def hh : Hdr := ⟨7, false, false⟩
def gy : GY := ⟨7, false⟩

/-- The launch record of a group of one segment: one gang of either role, REGS 256, four granules of scratchpad. -/
def lrec0 : List W64 := [0, 0, 0x0000010301110020, 0x01000100, 0x0000040401020100, 0, 0, 0, 0, 0x40] ++ List.replicate 22 0

/-- A group whose one thread stands at VA 0. -/
def one : Group := { probeGroup with lrec := lrec0, frontier := [⟨0, 0, 0, [0], 0, 0⟩], threads := [Thread.start 256 0 0] }

/-- The package with that group on core 0, changed by `f`, its thread in the running sheet of pipe 0; a window of 16 pages
stands at VA 0, the partition has a handler at VA 0x1000, its context may set tags. -/
def on1 (f : Group → Group) : State :=
  let s := (State.reset.withFetchWord 64 0).setReg 0xE000 0x1001
  let wins := [0xF, 0xF00000000] ++ List.replicate 30 0
  s.modCore 0 fun c => { c with grp := some (f one), run0 := some ⟨[0], []⟩, ctxperm := 1, wins := wins }

/-- The one thread changed. -/
def th0 (f : Thread → Thread) (g : Group) : Group := { g with threads := g.threads.map f }

/-- A register given a value. -/
def reg (n : Nat) (v : W32) (t : Thread) : Thread := { t with w := t.w.set n v }

/-- The word of an instruction issues, and what it finds meets `P`. -/
def meets (s : State) (P : Ctx → Bool) (i : Instr) : Bool :=
  match issueAt i s with
  | some x => P x
  | none => false

/-- The one thread executes the word. -/
def alone (P : Ctx → Bool) (x : Ctx) : Bool := decide (x.on = [0]) && P x

/-- The state after an instruction or event. -/
def after (i : Instr) (s : State) : State := match exec i s with | .next t => t | _ => s

/-- What holds of the one thread of core 0. -/
def thread0 (s : State) (P : Thread → Bool) : Bool := match s.grp? 0 with | some g => P (g.thread 0) | none => false

/-- What holds of the group of core 0. -/
def grp0 (s : State) (P : Group → Bool) : Bool := match s.grp? 0 with | some g => P g | none => false

/-! ## Witnesses: words that issue -/

/-- Register words (`Gives`, `GivesPred`, `OnlyAdvances`). -/
theorem witness_integer_words : ([.iadd ⟨hh, 4, .s32, true, .w 1, .w 2⟩, .isub ⟨hh, 4, .n64, false, .w 0, .w 2⟩,
    .imul ⟨hh, 4, .s64, false, .w 0, .w 2⟩, .imulhi ⟨hh, 4, .n32, .w 1, .w 2⟩, .imad ⟨hh, 4, .s32, false, .w 1, .w 2, .w 3⟩,
    .imin ⟨hh, 4, .s32, .w 1, .w 2⟩, .imax ⟨hh, 255, .n32, .w 1, .i (-1)⟩, .iunary hh .popc 5 .s64 false (.w 2),
    .logic hh .xnor 4 .n32 (.w 1) (.k 5), .movi hh 6 5, .iaddi ⟨hh, 6, .w 6, 1⟩, .andi ⟨hh, 6, .w 6, 1⟩, .ori ⟨hh, 6, .w 6, 1⟩,
    .xori ⟨hh, 6, .w 6, 1⟩, .shift hh .sar 4 .s64 (.w 2) (.i (-1)), .bfx hh 4 .s32 (.w 1) (.w 2),
    .bfi hh 4 .n64 (.w 0) (.w 2) (.w 4), .perm hh 4 (.w 1) (.w 2) (.w 3), .sel hh 4 (.flt .f32) (.w 1) (.w 2) ⟨true, 2⟩,
    .mov hh 4 false (.w 1), .mov hh 4 true (.w 2), .lea hh 4 true 4 (.w 2) (.w 1),
    .icmp gy .lt 7 .s32 (.w 1) (.i 0), .plogic gy .not 3 ⟨false, 1⟩ ⟨false, 0⟩] : List Instr).all
      (meets (on1 id) (alone fun _ => true)) = true := by decide +kernel

theorem witness_simple_and_lane_words : ([.nop gy, .yield gy, .region false, .kset gy 16 (.w 2), .sreg hh 4 .clock, .sreg hh 4 .tid, .fmtq hh 2 3,
    .ballot hh .mask 2 ⟨false, 7⟩, .shuf hh .xor 4 (.int .s64) (.w 2) (.w 1), .redux hh .add 4 .f32 .ru (.w 1),
    .scan hh .exc 4 (.int .n32) .rn (.w 1)] : List Instr).all
      (meets (on1 id) (alone fun x => x.g.kset.isEmpty)) = true := by decide +kernel

theorem witness_float_words : ([.fadd ⟨hh, 4, .f16, .rz, true, .w 1, .w 2⟩, .fmul ⟨hh, 4, .f32, .rn, false, .w 1, .i 3⟩,
    .ffma ⟨hh, 4, .b16, .rd, false, .w 1, .w 2, .w 3⟩, .fminmax hh .min 4 .f32 (.w 1) (.w 2), .fcmp gy .un 2 .f32 (.w 1) (.w 2),
    .funary hh .rint 4 .f32 .ru (.w 1), .fclass hh 4 .f16 (.w 1), .fspec hh .rsq 4 .f32 (.w 1), .twosum hh 4 (.w 1) (.w 2),
    .hadd2 ⟨hh, 4, .f16, .rn, false, .w 1, .w 2⟩, .hmul2 ⟨hh, 4, .b16, .rn, true, .w 1, .w 2⟩,
    .hfma2 ⟨hh, 4, .f16, .rz, false, .w 1, .w 2, .w 3⟩, .cvt hh 4 (.int .s64) (.flt .f32) .rd false (.w 1),
    .qunpack hh 4 true false (.w 1) (.w 2) (.w 3), .pairWord false (.iadd 4 (.w 5)) (.fmul 6 (.w 7))] : List Instr).all
      (meets (on1 id) (alone fun _ => true)) = true := by decide +kernel
/-- QPACK in a slot of its formats, and in an unused one (R195). -/
theorem witness_quantise :
    meets (on1 fun g => { g with lrec := lrec0.set 18 0x0505 }) (alone fun x =>
      bits (qSlot x 1) 0 8 == 5 && qPer x 1 == 1 && decide (4 + qPer x 1 ≤ x.g.regs)) (.qpack hh 10 (.w 4) 1) = true ∧
    meets (on1 id) (alone fun x => bits (qSlot x 1) 0 8 == 0 && x.g.complete 0 && !(x.g.thread 0).tm && bit (x.s.tvec x.g.part) 0)
      (.qpack hh 10 (.w 4) 1) = true := by decide +kernel

/-- The access goes to an intermediate address. -/
def toIa : Except Bad Acc → Bool
  | .ok ⟨_, .ia _, _, _, _, _⟩ => true
  | _ => false

/-- A thread that may trap, in a partition with a handler. -/
def mayTrap (x : Ctx) : Bool := x.g.complete 0 && !(x.g.thread 0).tm && bit (x.s.tvec x.g.part) 0

theorem witness_transfers :
    meets (on1 id) (alone fun x => decide (0 ≤ aim x ⟨0, 5⟩ ∧ aim x ⟨0, 5⟩ ≤ 2 ^ 56 - 8)) (.bra gy ⟨0, 5⟩ true) = true ∧
    meets (on1 id) (alone fun _ => true) (.brx gy 2) = true ∧
    meets (on1 (th0 fun t => { t with ret := [8, 16, 24] })) (alone fun x => (x.g.thread 0).ret.length == 3)
      (.call gy ⟨2, 0⟩) = true ∧
    meets (on1 id) (alone fun x => (x.g.thread 0).ret.length == 0) (.callx gy 254) = true ∧
    meets (on1 (th0 fun t => { t with ret := [8] })) (alone fun x => (x.g.thread 0).ret != [] && (x.g.thread 0).spilln == 0)
      (.ret gy) = true ∧
    meets (on1 (th0 fun t => { t with ret := [8, 16, 24, 32], spilln := 3 })) (alone fun x =>
      decide ((x.g.thread 0).spilln < recSpillStride x.g.lrec / 16) &&
      toIa (spillAcc x.s x.core x.g .wr (spillSlot x.g 0 3)) && decide (x.g.rbUsed + 2 ≤ 2048)) (.call gy ⟨2, 0⟩) = true ∧
    meets (on1 (th0 fun t => { t with ret := [8], spilln := 1 })) (alone fun x =>
      (x.g.thread 0).ret == [8] && (x.g.thread 0).spilln != 0 &&
      (match spillAcc x.s x.core x.g .rd (spillSlot x.g 0 0) with
        | .ok ⟨va, .ia ia, _, rt, tc, ps⟩ => (loadAt x.s x.core 0 x.pc [] false .spill ⟨va, .ia ia, 8, rt, tc, ps⟩ ia).isSome
        | _ => false)) (.ret gy) = true ∧
    meets (on1 (th0 fun t => { t with ret := [8, 16, 24, 32], spilln := 4 })) (alone fun x =>
      mayTrap x && decide (recSpillStride x.g.lrec / 16 ≤ (x.g.thread 0).spilln)) (.call gy ⟨2, 0⟩) = true ∧
    meets (on1 id) (alone fun x => mayTrap x && (x.g.thread 0).ret == []) (.ret gy) = true ∧
    meets (on1 id) (alone fun x => mayTrap x && decide (aim x ⟨-1, 0⟩ < 0)) (.bra gy ⟨-1, 0⟩ false) = true := by decide +kernel

theorem witness_exit_and_traps :
    meets (on1 (th0 fun t => { t with tm := true })) (alone fun x => x.g.waiting 0 == none) (.exit gy) = true ∧
    ([.trap gy 5, .brk gy 255] : List Instr).all (meets (on1 id) (alone mayTrap)) = true ∧
    grp0 (on1 id) (fun g => decide (0 < g.threads.length) && !(g.thread 0).tm) = true ∧ bit ((on1 id).tvec 0) 0 = true ∧
    grp0 (on1 (th0 fun t => { t with tm := true })) (fun g => (g.thread 0).tm) = true ∧
    bit (((on1 id).setReg 0xE000 0).tvec 0) 0 = false := by decide +kernel

/-- What checks 1 to 4 find meets `P`. -/
def checked (s : State) (P : Ctx → Bool) (i : Instr) : Bool :=
  match checksAt i s with
  | some (x, _) => x.r.tids.all (fun u => x.g.complete u && !(x.g.thread u).tm) && bit (x.s.tvec x.g.part) 0 && P x
  | none => false

theorem witness_eret_and_checks :
    meets (on1 (th0 fun t => { t with tm := true, tpc := 0x0500000000000040, tstate := 0x180000000 })) (alone fun _ => true)
      (.eret gy) = true ∧
    ([.eret gy, .csrr hh 4 .tpc, .csrw gy .fpx (.w 4)] : List Instr).all (checked (on1 id) fun _ => true) = true ∧
    ([.iadd ⟨hh, 64, .s32, false, .w 1, .w 2⟩, .ld hh 63 ⟨.w 2, 0⟩ .b64 false .w] : List Instr).all
      (checked (on1 fun g => { g with lrec := lrec0.set 4 0x0000040401010040 }) fun x => decide (x.g.regs < x.info.top)) = true := by
  decide +kernel

/-- TAGSET outside trap mode without the right of its context, and words of the context that has it (R112, R221). -/
theorem witness_tagset_right :
    checked ((on1 id).modCore 0 fun c => { c with ctxperm := 0 }) (fun x => !bit (x.s.core x.core).ctxperm 0)
      (.tagset gy ⟨.w 2, 0⟩ (.i 5) .b64) = true ∧
    checked (on1 fun g => { g with lrec := lrec0.set 4 0x0000040401010002 })
      (fun x => decide (x.g.regs < x.info.top) && x.info.priv == .tagu && bit (x.s.core x.core).ctxperm 0)
      (.tagset gy ⟨.w 2, 0⟩ (.i 5) .b64) = true := by decide +kernel

/-- Flags on their way, some due and some not (R182). -/
theorem witness_flags_land :
    (let g : Group := { one with fpx := 1, fpxLand := [(3, 4), (9, 16)] }
     (landFlags g 3).fpx = 5 ∧ (landFlags g 3).fpxLand = [(3, 4), (9, 16)] ∧ (landFlags g 4).fpxLand = [(9, 16)]) := by
  decide +kernel

theorem witness_csr_words :
    ([.csrr hh 4 .tvec, .csrr hh 4 (.win 15 true), .csrr ⟨7, false, true⟩ 4 .trec, .csrw gy .tcause (.w 2), .csrw gy .tval (.w 2),
      .csrw gy .tpc (.w 2), .csrw gy .tstate (.w 2)] : List Instr).all
      (meets (on1 (th0 fun t => { t with tm := true })) (alone fun _ => true)) = true ∧
    meets (on1 (th0 fun t => { t with tm := true })) (alone fun x => x.g.fpxLand.isEmpty) (.csrw gy .fpx (.w 2)) = true ∧
    meets (on1 fun g => { th0 (fun t => { t with tm := true }) g with fpxLand := [(0, 5)] }) (alone fun _ => true)
      (.csrw gy .fpx (.w 2)) = true ∧
    meets (on1 (th0 fun t => { t with tm := true })) (alone fun x => (x.s.core x.core).rsAt != x.s.now + 1)
      (.csrw gy .ringshare (.w 2)) = true ∧
    meets (on1 (th0 fun t => { t with tm := true })) (alone fun x => !Csr.trec.writable && x.g.complete 0)
      (.csrw gy .trec (.w 2)) = true := by decide +kernel

/-- A deadline of 100 lies ahead of CLOCK in the first 36 cycles, whatever the skew. -/
theorem window_open (s : State) (g : Group) (c : Nat) (h : g.nopre = some 100) (hs : s.now + g.clockOff < 36) :
    g.nopreOpen (s.clock c g.clockOff) = true := by
  simp only [Group.nopreOpen, h, State.clock]
  exact decide_eq_true (by omega)

theorem witness_no_preemption_window :
    meets (on1 fun g => { g with nopre := some 100 }) (fun x => x.on != [] && x.g.nopre == some 100 &&
      decide (x.s.now + x.g.clockOff < 36)) (.nopreOpen gy 5) = true ∧
    meets (on1 id) (fun x => x.on != [] && !x.g.nopreOpen (x.s.clock x.core x.g.clockOff) &&
      !((x.s.core x.core).preq || (x.s.core x.core).testDue)) (.nopreOpen gy 5) = true ∧
    meets (on1 id) (fun x => x.on != []) (.nopreShut gy) = true ∧
    grp0 (on1 fun g => { g with nopre := some 0 }) (fun g => g.nopre == some 0) = true := by decide +kernel

/-! ## Witnesses: memory words -/

/-- `on1` with page 0 cacheable, and with a page of class 1 at IA 0x10000 in frame 1, whose tail record is given. -/
def mem1 (r : TailRec) (f : Group → Group) : State :=
  let s := on1 f
  { s with xlat := [(0, (0x10000, 0x9F)), (1, (0x10010, 0x1003F))], frames := [(0, 0), (0x10000, 0), (1, 0)],
           tails := [(0x10000, r)] }

/-- An open page without appends. -/
def openTail : TailRec := ⟨0, 0, 0, false, 0, 0x40000, 4096, [], []⟩

def isOk {α β : Type} : Except α β → Bool
  | .ok _ => true
  | .error _ => false

/-- The access goes to the own scratchpad, at an offset. -/
def toSpad (off : Nat) : Except Bad Acc → Bool
  | .ok ⟨_, .spad 0 o, _, .u, false, _⟩ => o == off
  | _ => false

/-- w2 holds the address of the own scratchpad. -/
def spadReg (g : Group) : Group := th0 (fun t => reg 3 0x01F0FFC0 (reg 2 0 t)) g

/-- A line of the L1 whose words are all valid. -/
def line0 : L1Line := ⟨0, 0xFFFFFFFF, 0, 0, List.replicate 32 7, List.replicate 8 0, false, false, 0⟩

theorem witness_loads :
    meets (on1 spadReg) (alone fun x => toSpad 0x7FF8 (locate x.s x.core x.g .rd (memEa ⟨.w 2, 0x7FF8⟩ (x.rd 0)) 8 8 .o))
      (.ld hh 4 ⟨.w 2, 0x7FF8⟩ .b64 false .o) = true ∧
    meets (on1 id) (alone fun x => toIa (locate x.s x.core x.g .rd (memEa ⟨.w 2, 0x40⟩ (x.rd 0)) 2 2 .u))
      (.ld hh 4 ⟨.w 2, 0x40⟩ .b16 true .u) = true ∧
    meets ((on1 id).modCore 0 fun c => { c with l1 := [line0] }) (alone fun x =>
      match locate x.s x.core x.g .rd (memEa ⟨.w 2, 124⟩ (x.rd 0)) 4 4 .w with
      | .ok a => a.loc == .ia 124 && !x.g.earlierLoad 0 x.g.nextId a &&
          (match (x.s.core x.core).line? 0 with
            | some l => (l.bytes? 124 4).isSome && l.tagOk a 124
            | none => false)
      | .error _ => false) (.ld hh 4 ⟨.w 2, 124⟩ .b32 false .w) = true ∧
    meets (on1 id) (alone fun x =>
      match locate x.s x.core x.g .rd (memEa ⟨.w 2, 128⟩ (x.rd 0)) 4 4 .s with
      | .ok a => a.loc == .ia 128 && !x.g.earlierLoad 0 x.g.nextId a && ((x.s.core x.core).line? 1).isNone
      | .error _ => false) (.ld hh 4 ⟨.w 2, 128⟩ .b32 false .s) = true ∧
    meets (on1 id) (alone fun x =>
      match locate x.s x.core x.g .rd (memEa ⟨.w 2, 128⟩ (x.rd 0)) 16 16 .o with
      | .ok ⟨va, .ia ia, _, rt, tc, ps⟩ =>
        (match loadAt x.s x.core 0 x.pc [4, 5] false .word ⟨va, .ia ia, 8, rt, tc, ps⟩ ia with
          | some s1 => (s1.grp? 0).isSome && (loadAt s1 x.core 0 x.pc [6, 7] false .word ⟨va + 8, .ia (ia + 8), 8, rt, tc, ps⟩ (ia + 8)).any
              fun s2 => (s2.grp? 0).isSome
          | none => false)
      | _ => false) (.ld hh 4 ⟨.w 2, 128⟩ .b128 false .o) = true := by decide +kernel

theorem witness_stores :
    meets (on1 id) (alone fun x => isOk (locate x.s x.core x.g .wr (memEa ⟨.w 2, 16⟩ (x.rd 0)) 16 16 .o) &&
      decide (x.g.rbUsed + 2 ≤ 2048)) (.st gy ⟨.w 2, 16⟩ (.w 4) .b128 .o) = true ∧
    meets (on1 id) (alone fun x => isOk (locate x.s x.core x.g .wr (memEa ⟨.w 2, 0⟩ (x.rd 0)) 256 256 .u) &&
      !isPlace (memEa ⟨.w 2, 0⟩ (x.rd 0)) && decide (x.g.rbUsed + 2 ≤ 2048)) (.tagset gy ⟨.w 2, 0⟩ (.i 5) .b64) = true := by
  decide +kernel

theorem witness_requests :
    meets (on1 id) (alone fun x =>
      match locate x.s x.core x.g .rdwr (atomEa ⟨.w 2, 16⟩ (x.rd 0)) 16 16 .u with
      | .ok a => atomAllowed x.s x.g.part a .cas false .sys
      | .error _ => false) (.atom hh .cas 4 ⟨.w 2, 16⟩ (.w 8) .b128 .sys) = true ∧
    meets (on1 id) (alone fun x =>
      match locate x.s x.core x.g .rdwr (atomEa ⟨.w 2, 4⟩ (x.rd 0)) 4 4 .u with
      | .ok a => atomAllowed x.s x.g.part a .fadd true .ring
      | .error _ => false) (.red gy .fadd ⟨.w 2, 4⟩ (.w 6) .b32 .ring) = true ∧
    meets (on1 (th0 (reg 2 0x10000))) (alone fun x => isOk (pageAcc x.s x.core x.g .wr ((x.rd 0).s64 (.w 2))) &&
      (x.rd 0).s32 (.i 1) != 0) (.appendRes hh 4 (.w 2) (.i 1)) = true ∧
    ([.appendQuery hh 4 (.w 2), .tailq hh 5 (.w 2)] : List Instr).all (meets (on1 (th0 (reg 2 0x10000)))
      (alone fun x => isOk (pageAcc x.s x.core x.g .rd ((x.rd 0).s64 (.w 2))))) = true ∧
    ([.sealPlain hh 4 (.w 2), .sealBcast hh 4 (.w 2)] : List Instr).all (meets (on1 (th0 (reg 2 0x10000)))
      (alone fun x => isOk (pageAcc x.s x.core x.g .wr ((x.rd 0).s64 (.w 2))))) = true := by decide +kernel

theorem witness_prefetch_and_page_info :
    meets (mem1 openTail id) (alone fun x => !isPlace (memEa ⟨.w 2, 130⟩ (x.rd 0) &&& ~~~127) &&
      (match locate x.s x.core x.g .rd (memEa ⟨.w 2, 130⟩ (x.rd 0) &&& ~~~127) 4 1 .s with
        | .ok a => a.loc == .ia 128 && !a.tagchk && (match askHome x.s x.g.part (segOf x.core) a 128 .load with
          | .ok tg => tg.cacheable && !poisoned x.s tg.addr 128
          | _ => false)
        | .error _ => false) && ((x.s.core x.core).line? 1).isNone) (.pref gy ⟨.w 2, 130⟩ .b8 .s) = true ∧
    meets (on1 spadReg) (alone fun x => ptrOk (memEa ⟨.w 2, 0⟩ (x.rd 0)) && isPlace (memEa ⟨.w 2, 0⟩ (x.rd 0)))
      (.pginfo hh 4 ⟨.w 2, 0⟩) = true ∧
    meets (on1 id) (alone fun x => ptrOk (memEa ⟨.w 2, 8⟩ (x.rd 0)) &&
      (match winTranslate (x.s.core x.core).wins .none (memEa ⟨.w 2, 8⟩ (x.rd 0)) with
        | .ok (ia, _) => !pginfoHeld x.s x.g.part ia && !placingAt x.s x.g.part ia
        | .error _ => false)) (.pginfo hh 4 ⟨.w 2, 8⟩) = true ∧
    meets { on1 id with hmc := [(0, 0x100001)] } (alone fun x => ptrOk (memEa ⟨.w 2, 8⟩ (x.rd 0)) &&
      (match winTranslate (x.s.core x.core).wins .none (memEa ⟨.w 2, 8⟩ (x.rd 0)) with
        | .ok (ia, _) => pginfoHeld x.s x.g.part ia
        | .error _ => false)) (.pginfo hh 4 ⟨.w 2, 8⟩) = true := by
  decide +kernel

/-- A place address that names no place (R90). -/
theorem witness_place_that_is_none :
    meets (on1 (th0 (reg 3 0x01F00001))) (alone fun x => mayTrap x && ptrOk (memEa ⟨.w 2, 0⟩ (x.rd 0)) &&
      isPlace (memEa ⟨.w 2, 0⟩ (x.rd 0)) && placeBad (memEa ⟨.w 2, 0⟩ (x.rd 0))) (.pginfo hh 4 ⟨.w 2, 0⟩) = true := by
  decide +kernel

/-- A block at w8 of two elements, the second masked out; it lies in the scratchpad at w2. -/
def block (g : Group) : Group := th0 (fun t => reg 12 3 (reg 10 1 (reg 8 2 t))) (spadReg g)

/-- The first element of a long instruction is one of the own scratchpad, at an offset. -/
def elemAt (o : LongOp) (n off : Nat) (x : Ctx) : Bool :=
  let th := x.g.thread 0
  blockOk x.g th o n 8 && anyElem th 8 && !bit th.pix 31 && firstElem th 8 th.next == some 0 && decide (x.g.rbUsed + 1 ≤ 2048) &&
    toSpad off (locate x.s x.core x.g (longRight o) (elemAddr th o (memEa ⟨.w 2, 0⟩ (x.rd 0)) n 8 0) n n .w)

theorem witness_long_words :
    meets (on1 id) (alone fun x => !anyElem (x.g.thread 0) 8) (.gather hh 32 ⟨.w 2, 0⟩ 8 .b32 false .w) = true ∧
    meets (on1 block) (alone (elemAt (.gather 32 false false) 4 12)) (.gather hh 32 ⟨.w 2, 0⟩ 8 .b32 false .w) = true ∧
    meets (on1 block) (alone (elemAt .scatter 8 24)) (.scatter gy ⟨.w 2, 0⟩ 8 .b64 .w) = true ∧
    meets (on1 block) (alone (elemAt .cst 4 0)) (.cst gy ⟨.w 2, 0⟩ 8 .b32 .w) = true := by decide +kernel

/-- A long instruction that stands at its first element, the only one of its block. -/
def atElem (o : LongOp) : Group → Group :=
  fun g => th0 (fun t => { t with long := some ⟨o, 0, 0, 4, .w, 8, 2, []⟩ }) (block g)

theorem witness_long_elements :
    grp0 (on1 fun g => { atElem (.gather 32 false false) g with
        pend := [⟨0, 0, 0, [some 32], .value true, .ready [5], .elem⟩] }) (fun g =>
      match g.pend.find? fun p => p.id == 0 with
      | some p => p.use == .elem && !p.kind.isRed && (match (g.thread 0).long with
        | some o => (firstElem (g.thread 0) o.b ((g.thread 0).next + 1)).isNone &&
            o.n == (bits ((g.thread 0).r o.b) 0 7).toNat && decide ((g.thread 0).next < 64) &&
            blockMask (landRegs p.dsts [5] (g.thread 0)) o.b == blockMask (g.thread 0) o.b
        | none => false)
      | none => false) = true ∧
    grp0 (on1 fun g => { atElem .cst g with
        rb := [⟨0, 0, 0, ⟨0x01F0FFC000000000, .spad 0 0, 4, .u, false, 0⟩, bytesOf 4 5, none, 1, .draining 0, none, .elem, false⟩] }) (fun g =>
      match g.rb.find? fun e => e.id == 0 with
      | some e => e.drains && g.drainOk e && e.use == .elem && (match (g.thread 0).long with
        | some o => (firstElem (g.thread 0) o.b ((g.thread 0).next + 1)).isNone && o.n == (bits ((g.thread 0).r o.b) 0 7).toNat
        | none => false)
      | none => false) = true := by decide +kernel

/-! ## Witnesses: synchronisation, stage rings, engine queues -/

/-- The group with a second thread that stands at VA 8. -/
def two (g : Group) : Group :=
  { g with threads := [Thread.start 256 0 0, Thread.start 256 8 0], frontier := [⟨0, 0, 0, [0], 0, 0⟩, ⟨1, 8, 0, [1], 0, 0⟩] }

/-- Core 0 has caused an invalidation that core 1 has not answered. -/
def owing (s : State) : State := { s with invs := [⟨1, 0, 0, 0, 0⟩] }

/-- A pair of state and outcome that is performed, with the group unchanged. -/
def done (x : Ctx) : State × Bool → Bool
  | (s, true) => s.grp? x.core == some x.g
  | _ => false

theorem witness_fences :
    ([.fence gy .acq .core, .fence gy .rel .ring, .fence gy .sc .sys] : List Instr).all
      (meets (on1 id) (alone fun x => (fenceDo x.s x.g.part x.core .sc .ring).2)) = true ∧
    meets (owing (on1 id)) (alone fun x => !(fenceDo x.s x.g.part x.core .rel .ring).2) (.fence gy .rel .ring) = true ∧
    grp0 (on1 fun g => { g with pend := [⟨0, 0, 0, [], .fence .rel .ring, .sent, .word⟩] }) (fun g =>
      match g.pend.find? fun p => p.id == 0 with
      | some p => p.kind == .fence .rel .ring && p.st == .sent
      | none => false) = true ∧
    (let s := on1 fun g => { g with pend := [⟨0, 0, 0, [], .fence .rel .ring, .sent, .word⟩] }
     (fenceDo s 0 0 .rel .ring).2 && (fenceDo s 0 0 .rel .ring).1.grp? 0 == s.grp? 0 && (s.core 0).misses.isEmpty) = true ∧
    ((on1 id).grp? 0).isSome = true ∧ (release (on1 id) 0 0 true).2 = true ∧
    ((acquire ((on1 id).modCore 0 fun c => { c with l1 := [{ line0 with si := true, own := 1 }] }) 0 false).core 0).l1 ≠ [] := by
  decide +kernel

/-- A FENCE.AR that acquires at once, and one that waits, by the free value drawn (R334, log 110): the acquire itself may be
performed or not. -/
theorem witness_fence_ar :
    meets (on1 id) (alone fun x => x.on != [] && (acquireAt x.s.draw.2 x.g.part x.core .ring).2) (.fence gy .ar .ring) = true ∧
    meets (owing (on1 id)) (alone fun x => x.on != [] && !(acquireAt x.s.draw.2 x.g.part x.core .sys).2) (.fence gy .ar .sys) = true ∧
    meets (on1 (th0 fun t => { t with p := 0 })) (fun x => x.on == []) (.fence ⟨0, false⟩ .ar .sys) = true := by decide +kernel

/-- A line of device memory that an acquire below SYS scope may leave out of its drop (R348). -/
theorem witness_acquire :
    (match hme (on1 id) 0 (0 * 128) with | some h => h.kind == 0 | none => true) = true ∧
    hasPending (on1 id) 0 = false ∧ acked (flushOwned (on1 id) 0 0) 0 = true ∧
    (release (on1 id) 0 0 true) = (flushOwned (on1 id) 0 0, true) := by decide +kernel

theorem witness_barriers :
    meets (on1 id) (alone fun x => !levelBad x.g .ring && !(barOf x.s x.g .ring 7).arrived.contains (x.g.linear, 0) &&
      done x (release x.s x.g.part x.core false)) (.barArrive hh 4 .ring 7) = true ∧
    meets (on1 id) (alone fun x => !levelBad x.g .core && !(barOf x.s x.g .core 0).arrived.contains (x.g.linear, 0) &&
      done x (release x.s x.g.part x.core false) && x.g.waiting 0 == none &&
      (let s' := (release x.s x.g.part x.core false).1
       let s1 := barArrive s' x.g .core 0 0
       barDone s1 x.g .core 0 (barOf s' x.g .core 0).gen && done x (acquireAt s1 x.g.part x.core .core)))
      (.barSync gy .core 0) = true ∧
    meets (on1 two) (alone fun x => !levelBad x.g .core && !(barOf x.s x.g .core 0).arrived.contains (x.g.linear, 0) &&
      done x (release x.s x.g.part x.core false) && x.g.waiting 0 == none &&
      (let s' := (release x.s x.g.part x.core false).1
       !barDone (barArrive s' x.g .core 0 0) x.g .core 0 (barOf s' x.g .core 0).gen)) (.barSync gy .core 0) = true ∧
    meets ((on1 (th0 (reg 4 0xFFFFFFFF)))) (alone fun x => !levelBad x.g .slice && x.g.waiting 0 == none &&
      !genFuture (barOf x.s x.g .slice 2).gen ((x.rd 0).s32 (.w 4)) && barDone x.s x.g .slice 2 ((x.rd 0).s32 (.w 4)) &&
      done x (acquireAt x.s x.g.part x.core .slice)) (.barWait gy .slice 2 (.w 4)) = true ∧
    meets (on1 id) (alone fun x => !levelBad x.g .slice && x.g.waiting 0 == none &&
      !genFuture (barOf x.s x.g .slice 2).gen ((x.rd 0).s32 (.w 4)) && !barDone x.s x.g .slice 2 ((x.rd 0).s32 (.w 4)))
      (.barWait gy .slice 2 (.w 4)) = true ∧
    participants (on1 id) (barOf (on1 id) one .core 0) = [(0, 0)] ∧
    participants (on1 two) (barOf (on1 two) (two one) .core 0) = [(0, 0), (0, 1)] := by decide +kernel

theorem witness_phases :
    meets (on1 id) (alone fun x => phaseLegal x.g && x.g.waiting 0 == none &&
      decide ((x.g.thread 0).phase.toNat ≤ x.g.phasecur.toNat) && done x (release x.s x.g.part x.core false)) (.phaseAdv gy) = true ∧
    meets (on1 (th0 fun t => { t with phase := 1 })) (alone fun x => phaseLegal x.g && x.g.waiting 0 == none &&
      decide (x.g.phasecur.toNat < (x.g.thread 0).phase.toNat)) (.phaseAdv gy) = true ∧
    meets (on1 id) (alone fun x => isOk (phaseSeg x ((x.rd 0).s32 (.i 15))) && x.g.waiting 0 == none &&
      (match phaseSeg x ((x.rd 0).s32 (.i 15)) with
        | .ok l => decide (0 ≤ (phaseCount x.s x.g.part x.g.lid l).toNat)
        | .error _ => false) && done x (acquireAt x.s x.g.part x.core .ring)) (.phaseWait gy (.i 15) (.i 0)) = true ∧
    meets (on1 id) (alone fun x => x.g.waiting 0 == none &&
      (match phaseSeg x ((x.rd 0).s32 (.i 15)) with
        | .ok l => decide ((phaseCount x.s x.g.part x.g.lid l).toNat < 1)
        | .error _ => false)) (.phaseWait gy (.i 15) (.i 1)) = true ∧
    meets (on1 id) (alone fun x => isOk (phaseSeg x ((x.rd 0).s32 (.i 15)))) (.phaseRead hh 4 (.i 15)) = true := by
  decide +kernel

/-- What WAITGE finds at its count. -/
def looks (x : Ctx) (err sys : Bool) (b : Sel) (P : Look → Bool) : Bool :=
  match locate x.s x.core x.g .rd ((x.rd 0).s64 (.w 2)) 8 8 .u with
  | .ok ac => toIa (.ok ac) && P (lookCount x.s x.core 0 x.g ac ((x.rd 0).s64 b) err sys)
  | .error _ => false

/-- `on1` with the count 3 and an error word at VA 64, which w2 names. -/
def counted (s : State) : State := { s with mem := memWriteN 64 (bytesOf 8 3 ++ bytesOf 8 9) s.mem }

theorem witness_waitge_and_backoff :
    meets (counted (on1 (th0 (reg 2 64)))) (alone fun x => x.g.waiting 0 == none && looks x false false (.i 3) fun l =>
      match l with | .done s' => s'.grp? x.core == some x.g | _ => false) (.waitge gy false false (.w 2) (.i 3)) = true ∧
    meets (counted (on1 (th0 (reg 2 64)))) (alone fun x => x.g.waiting 0 == none && looks x false true (.i 4) fun l =>
      match l with | .below s' => s'.grp? x.core == some x.g | _ => false) (.waitge gy false true (.w 2) (.i 4)) = true ∧
    meets (counted (on1 (th0 (reg 2 64)))) (alone fun x => x.g.waiting 0 == none && mayTrap x && looks x true false (.i 3) fun l =>
      match l with | .err s' _ => s'.grp? x.core == some x.g && s'.tvec 0 == x.s.tvec 0 | _ => false)
      (.waitge gy true false (.w 2) (.i 3)) = true ∧
    (match readCount (counted (on1 id)) 0 0 one ⟨64, .ia 64, 8, .u, false, 0⟩ with | (_, .ok v) => v == 3 | _ => false) = true ∧
    meets (on1 id) (alone fun _ => true) (.backoff gy (.i 16)) = true ∧
    grp0 { on1 (th0 fun t => { t with backoff := 5 }) with now := 5 } (fun g => decide ((g.thread 0).backoff = 5)) = true := by
  decide +kernel

/-- A stage ring of two slots of 64 bytes, of which `c` are claimed, `f` filled, `k` taken and `r` freed. -/
def ring2 (c f k r : Nat) (g : Group) : Group :=
  { g with rings := [{ ringOf 0x0002004001000000 with claimc := c, fillc := f, takec := k, freec := r }] }

theorem witness_stage_rings :
    meets (on1 (ring2 0 0 0 0)) (alone fun x => match x.g.ring? 1 with
      | some r => decide (0 < r.free) && (x.g.stgKeys 1 false).isEmpty && x.g.waiting 0 == none
      | none => false) (.stgClaim hh 4 1) = true ∧
    meets (on1 (ring2 2 0 0 0)) (alone fun x => match x.g.ring? 1 with
      | some r => r.free == 0 && x.g.waiting 0 == none
      | none => false) (.stgClaim hh 4 1) = true ∧
    meets (on1 (ring2 1 1 0 0)) (alone fun x => match x.g.ring? 1 with
      | some r => decide (0 < r.filled) && (x.g.stgKeys 1 true).isEmpty && x.g.waiting 0 == none
      | none => false) (.stgTake hh 254 1) = true ∧
    meets (on1 (ring2 1 0 0 0)) (alone fun x => match x.g.ring? 1 with
      | some r => r.filled == 0 && x.g.waiting 0 == none
      | none => false) (.stgTake hh 4 1) = true ∧
    meets (on1 (ring2 1 0 0 0)) (alone fun x => match x.g.ring? 1 with
      | some r => r.fillOk ((x.rd 0).s32 (.i 0)).toNat && (bits r.decl 24 3).toNat == 1
      | none => false) (.stgFill gy 1 (.i 0)) = true ∧
    meets (on1 (ring2 1 1 1 0)) (alone fun x => match x.g.ring? 1 with
      | some r => r.freeOk ((x.rd 0).s32 (.i 0)).toNat && (bits r.decl 24 3).toNat == 1
      | none => false) (.stgFree gy 1 (.i 0)) = true ∧
    meets (on1 (ring2 1 1 0 0)) (alone fun x => (x.g.ring? 1).isSome) (.stgQuery hh 4 1) = true := by decide +kernel

/-- A number that FILL or FREE may not name, and a ring that is not declared (R270). -/
theorem witness_stage_traps :
    meets (on1 (ring2 1 0 0 0)) (alone fun x => mayTrap x && match x.g.ring? 1 with
      | some r => !r.fillOk ((x.rd 0).s32 (.i 1)).toNat
      | none => false) (.stgFill gy 1 (.i 1)) = true ∧
    meets (on1 (ring2 1 1 0 0)) (alone fun x => mayTrap x && match x.g.ring? 1 with
      | some r => !r.freeOk ((x.rd 0).s32 (.i 0)).toNat
      | none => false) (.stgFree gy 1 (.i 0)) = true ∧
    ([.stgClaim hh 4 2, .stgTake hh 4 2, .stgFill gy 2 (.i 0), .stgFree gy 2 (.i 0), .stgQuery hh 4 2] : List Instr).all
      (meets (on1 (ring2 1 1 0 0)) (alone fun x => mayTrap x && x.g.ring? 2 == none)) = true := by decide +kernel

/-- A word that places a block finds it read. -/
def reads (n : Nat) (role : Group → Nat → Bool) (full : Group → Bool) (isFull : Bool) (x : Ctx) : Bool :=
  role x.g 0 && (x.g.thread 0).qblk == none && full x.g == isFull &&
    (match readBlock x { s := x.s } 0 ((x.rd 0).s64 (.w 2)) n with
      | .ok (s', _) => s'.grp? x.core == some x.g
      | .error _ => false)

/-- The group with a full copy queue 0, matrix queue and ring-engine queue. -/
def fullQueues (g : Group) : Group :=
  { g with cqs := List.replicate 4 ⟨List.replicate 64 (.fence 0), none, none⟩,
           mx := { g.mx with q := List.replicate 64 ⟨.fence 0, .waiting, []⟩ }, rq := List.replicate 64 (.fence 0) }

theorem witness_engine_queues :
    meets (on1 spadReg) (alone (reads 64 isCopy (cqFull · 3) false)) (.copy gy 3 (.w 2)) = true ∧
    ([.mma gy (.w 2), .mdrain gy (.w 2)] : List Instr).all (meets (on1 spadReg) (alone (reads 64 isMatrix mqFull false))) = true ∧
    meets (on1 spadReg) (alone (reads 128 isCopy rqFull false)) (.coll gy (.w 2)) = true ∧
    meets (on1 fun g => fullQueues (spadReg g)) (alone (reads 64 isCopy (cqFull · 0) true)) (.copy gy 0 (.w 2)) = true ∧
    ([.mma gy (.w 2), .mdrain gy (.w 2)] : List Instr).all
      (meets (on1 fun g => fullQueues (spadReg g)) (alone (reads 64 isMatrix mqFull true))) = true ∧
    meets (on1 fun g => fullQueues (spadReg g)) (alone (reads 128 isCopy rqFull true)) (.coll gy (.w 2)) = true ∧
    ([.mprec gy 16 4, .mzero gy true] : List Instr).all (meets (on1 id) (alone fun x => isMatrix x.g 0 && !mqFull x.g)) = true ∧
    meets (on1 id) (alone fun x => isCopy x.g 0 && !maskFull 0x3F x.g) (.qfence gy 0x3F (.w 2)) = true ∧
    meets (on1 (th0 (reg 2 64))) (alone fun x => isCopy x.g 0 && (x.rd 0).s64 (.w 2) == 64 && !(x.g.cq 2).hasChain && !cqFull x.g 2)
      (.chain gy 2 (.w 2)) = true ∧
    meets (on1 id) (alone fun x => isCopy x.g 0 && (x.rd 0).s64 (.w 2) == 0) (.chain gy 2 (.w 2)) = true := by decide +kernel

theorem witness_engine_status :
    ([.mstat hh 4 .dpx, .mstat hh 254 .corr] : List Instr).all (meets (on1 id) (alone fun _ => true)) = true ∧
    meets (on1 id) (alone fun x => isCopy x.g 0) (.cprog hh 4 15 (.w 2)) = true ∧
    ([.copy gy 0 (.w 2), .chain gy 1 (.w 2), .qfence gy 1 (.w 2), .coll gy (.w 2), .cprog hh 4 1 (.w 2)] : List Instr).all
      (meets (on1 fun g => { g with lrec := lrec0.set 3 0 }) (alone fun x => mayTrap x && !isCopy x.g 0)) = true ∧
    ([.mma gy (.w 2), .mdrain gy (.w 2), .mprec gy 4 4, .mzero gy false] : List Instr).all
      (meets (on1 fun g => { g with lrec := lrec0.set 3 0 }) (alone fun x => mayTrap x && !isMatrix x.g 0)) = true := by
  decide +kernel

/-! ## Witnesses: events of issue, waits, regions, pages, homes and L1s -/

/-- `on1` with no sheet in a pipe. -/
def idle1 (f : Group → Group) : State := (on1 f).modCore 0 fun c => { c with run0 := none }

/-- `mem1` with no sheet in a pipe. -/
def idleMem (r : TailRec) (f : Group → Group) : State := (mem1 r f).modCore 0 fun c => { c with run0 := none }

/-- Four bytes at VA 64. -/
def acc4 (rt : RT) : Acc := ⟨64, .ia 64, 4, rt, false, 0⟩

/-- The tail page. -/
def accPage : Acc := ⟨0x10000, .ia 0x10000, 1, .u, false, 0⟩

/-- One outstanding word of the thread. -/
def asking (k : PKind) (g : Group) : Group := { g with pend := [⟨7, 0, 0, [some 4], k, .sent, .word⟩] }

/-- One entry of the region buffer. -/
def storing (a : Acc) (st : RbSt) (g : Group) : Group := { g with rb := [⟨3, 0, 0, a, [1, 2, 3, 4], none, 1, st, none, .word, false⟩] }

theorem witness_issue_events :
    (let s := on1 fun g => { g with pend := [⟨7, 0, 0, [some 254, some 255], .value false, .ready [1, 2], .word⟩] }
     grp0 s fun g =>
      match g.pend.find? (fun q => q.id == 7) with
      | some p => p.st == .ready [1, 2] && decide (p.dsts.filterMap (·)).Nodup && decide (p.tid < g.threads.length) &&
          decide (255 < (g.thread p.tid).w.length) && p.use == .word && !p.waitsAck s 0
      | none => false) = true ∧
    (let s := on1 fun g => { g with pend := [⟨7, 0, 0, [], .value false, .ready [8, 0], .spill⟩] }
     grp0 s fun g =>
      match g.pend.find? (fun q => q.id == 7) with
      | some p => p.st == .ready [8, 0] && decide (p.tid < g.threads.length) && p.use == .spill && !p.waitsAck s 0
      | none => false) = true ∧
    (idle1 id).run 0 0 = none ∧
    (let s0 := (idle1 id).passTo (((idle1 id).core 0).freeAt 0)
     grp0 s0 fun g =>
      let h := choosing s0 0 g
      let s1 := s0.setGrp 0 h
      grp0 (idle1 id) (mayIssue (idle1 id) 0) && mayIssue s0 0 g && (match bestBy (entryScore h (s1.agethr h.part)) (h.frontier.filter (eligible s1 0 h)) with
        | some e => !(sheetOf s1 0 h e).isEmpty
        | none => false)) = true := by decide +kernel

/-- Words that enter a latch or none as they issue, and a latch that is read three words later (R134). -/
theorem witness_latches :
    ([.iadd ⟨hh, 4, .s32, false, .w 1, .w 2⟩, .fadd ⟨hh, 4, .f32, .rn, false, .w 1, .w 2⟩,
      .cvt hh 4 (.int .s32) (.flt .f32) .rz false (.w 1), .pairWord false (.iadd 4 (.w 5)) (.fmul 6 (.w 7)),
      .imul ⟨hh, 4, .s32, false, .w 1, .w 2⟩] : List Instr).all (meets (on1 id) (alone fun _ => true)) = true ∧
    (let r : Run := ⟨[0, 5], [none, none, none, some [3, 4], none]⟩
     r.hist[0 + 3]? = some (some [3, 4]) ∧ latchRead r 0 5 = some 4 ∧ latchRead r 1 5 = none ∧ latchRead r 2 5 = none) := by
  decide +kernel

/-- The one thread waits. -/
def waits (w : Why) (g : Group) : Group := { g with waits := [⟨0, w⟩], frontier := [] }

theorem witness_waits_end :
    grp0 (idle1 (waits .lane)) (fun g =>
      ((g.gangLive 0).filter fun u => match g.waiting u with | some w => w.why == .lane | none => false) == [0] &&
      (g.gangLive 0) == [0]) = true ∧
    (let s := idle1 fun g => { two (waits .lane g) with frontier := [⟨1, 0, 0, [1], 0, 0⟩],
                                                         threads := [Thread.start 256 0 0, Thread.start 256 0 0] }
     grp0 s fun g =>
      ((g.gangLive 0).filter fun u => match g.waiting u with | some w => w.why == .lane | none => false) == [0] &&
      (g.gangLive 0) == [0, 1] && !(s.core 0).runningTids.contains 1) = true ∧
    grp0 (idle1 (waits (.bar .core 3 0xFFFFFFFF))) (fun g =>
      barDone (idle1 (waits (.bar .core 3 0xFFFFFFFF))) g .core 3 0xFFFFFFFF &&
      (match acquireAt (idle1 (waits (.bar .core 3 0xFFFFFFFF))) g.part 0 .core with
        | (s', true) => s'.grp? 0 == some g
        | _ => false)) = true ∧
    grp0 (idle1 (waits (.phase 0 0 0))) (fun g =>
      decide ((0 : W32).toNat ≤ (phaseCount (idle1 (waits (.phase 0 0 0))) g.part g.lid 0).toNat) &&
      (match acquireAt (idle1 (waits (.phase 0 0 0))) g.part 0 .ring with
        | (s', true) => s'.grp? 0 == some g
        | _ => false)) = true ∧
    grp0 (counted (idle1 (waits (.waitge ⟨64, .ia 64, 8, .u, false, 0⟩ 3 false false 0)))) (fun g =>
      let s := counted (idle1 (waits (.waitge ⟨64, .ia 64, 8, .u, false, 0⟩ 3 false false 0)))
      countInDevice s g.part ⟨64, .ia 64, 8, .u, false, 0⟩ && decide (0 < g.threads.length) &&
      (match lookCount s 0 0 g ⟨64, .ia 64, 8, .u, false, 0⟩ 3 false false with
        | .done s' => s'.grp? 0 == some g
        | _ => false)) = true := by decide +kernel

/-- A thread that waits for a stage slot, the first of those that wait, where the ring has one and where it has none (R270). -/
theorem witness_stage_waits :
    ([(false, ring2 0 0 0 0), (true, ring2 1 1 0 0)] : List (Bool × (Group → Group))).all (fun x =>
      grp0 (idle1 fun g => waits (.stg 1 x.1 (some 4) 7) (x.2 g)) fun g => (match g.ring? 1 with
        | some r => decide (0 < if x.1 then r.filled else r.free)
        | none => false) && g.stgFirst 1 x.1 (stgKey 7 0)) = true ∧
    grp0 (idle1 fun g => waits (.stg 1 true none 7) (ring2 1 0 0 0 g)) (fun g =>
      match g.ring? 1 with | some r => r.filled == 0 | none => false) = true := by decide +kernel

/-- The poll of a count outside device memory. What the host or a peer answers is a free value (log 9), so the
count here is one in the scratchpad, in a region that the home map gives to the host. -/
theorem witness_waitge_poll :
    let w : Why := .waitge ⟨64, .spad 0 64, 8, .u, false, 0⟩ 0 false true 0
    let s := { idle1 (waits w) with hmc := [(0, 3)] }
    grp0 s (fun g => !countInDevice s g.part ⟨64, .spad 0 64, 8, .u, false, 0⟩ &&
      (match lookCount (s.setGrp 0 g) 0 0 g ⟨64, .spad 0 64, 8, .u, false, 0⟩ 0 false true with
        | .done s' => s'.grp? 0 == some g
        | _ => false)) = true := by decide +kernel

theorem witness_regions_drain :
    grp0 (on1 (storing (acc4 .w) .probing)) (fun g =>
      match g.rb.find? fun e => e.id == 3 with
      | some e => e.use != .elem && (match askHome (on1 (storing (acc4 .w) .probing)) g.part (segOf 0) (acc4 .w) 64 e.asks with
        | .ok tg => !poisoned (on1 id) tg.addr 4
        | _ => false)
      | none => false) = true ∧
    grp0 (on1 (th0 fun t => { t with rclosed := true, ptrap := some ⟨7, 5, 8, 2, 0⟩ })) (fun g =>
      (g.thread 0).ptrap.isSome && g.complete 0 && decide (0 < g.threads.length) && !(g.thread 0).tm) = true ∧
    bit ((on1 id).tvec 0) 0 = true ∧
    grp0 (on1 (storing (acc4 .u) (.acked 0))) (fun g => (g.thread 0).rclosed && !g.unanswered 0 && (g.thread 0).ptrap == none &&
      decide (g.rb.map (·.id)).Nodup) = true ∧
    grp0 (on1 (th0 fun t => { t with rbwait := 2 })) (fun g => decide (g.rbUsed + (g.thread 0).rbwait ≤ 2048) &&
      decide (0 < g.threads.length) && (g.thread 0).long.isNone) = true := by decide +kernel

/-- Page 1 is being served, and the thread waits for it. -/
def served : State := { idleMem openTail (waits (.fault 1 0 0x10000 0 false)) with serving := [(0, 1)] }

/-- A page request of the generation `n` is outstanding. -/
def asked (n : W32) : State := { idle1 id with serving := [(0, 1)], pris := [⟨0, 0, 0, 1, 0, n⟩] }

theorem witness_pages_served :
    served.serving.contains (0, 1) = true ∧
    (grantFw { served with pmb := alSet 0x1010 1000 served.pmb } 0 ⟨[], [], [], [], []⟩).isSome = true ∧
    pageThere (applyFw served 0 ⟨[], [], [], [], []⟩) 0
      ((hme (applyFw served 0 ⟨[], [], [], [], []⟩) 0 (1 * 65536)).map (·.seg) |>.getD 0) 1 = true ∧
    grp0 (applyFw served 0 ⟨[], [], [], [], []⟩) (fun g => g.part == 0 && g.faultWaiters 1 == [⟨0, .fault 1 0 0x10000 0 false⟩]) = true ∧
    grp0 served (fun g => g.waits == [⟨0, .fault 1 0 0x10000 0 false⟩] && !(g.thread 0).tm && decide (0 < g.threads.length)) = true ∧
    bit (served.tvec 0) 0 = true ∧
    ((asked 0).pris.find? fun x => x.idx == 0) = some ⟨0, 0, 0, 1, 0, 0⟩ ∧ ctxGen (asked 0) 0 0 = 0 ∧
    ((asked 1).pris.find? fun x => x.idx == 0) = some ⟨0, 0, 0, 1, 0, 1⟩ ∧ ctxGen (asked 1) 0 0 ≠ 1 := by decide +kernel

/-- A page response that fails finds the thread that waits for the page, whose partition has a handler (R232, R236). -/
theorem witness_failing_response :
    (let s := { served with pris := [⟨0, 0, 0, 1, 0, 0⟩] }
     (s.pris.find? fun x => x.idx == 0) == some ⟨0, 0, 0, 1, 0, 0⟩ && (0 : W32) == ctxGen s 0 0 && s.priWait.isEmpty &&
      bit (s.tvec 0) 0 && grp0 s fun g => g.part == 0 && g.waits == [⟨0, .fault 1 0 0x10000 0 false⟩] && !(g.thread 0).tm &&
        decide (0 < g.threads.length)) = true := by decide +kernel

/-- The home answers with a device address in memory of class `c`. -/
def homeOk {α : Type} (h : HAns α) (P : α → Bool) : Bool := match h with | .ok t => P t | _ => false

theorem witness_home_loads :
    (let s := idle1 (asking (.load (acc4 .u) false [none, none, none, none] true))
     grp0 s (fun g => ((s.core 0).misses.find? fun m => m.id == 7).isNone && (g.pend.find? fun q => q.id == 7).isSome &&
      !g.earlierLoad 0 7 (acc4 .u) && !pendingAt s 0 64 4 && homeOk (askHome s g.part (segOf 0) (acc4 .u) 64 .load) fun tg =>
        tg.kind == 0 && (match tg.leaf with | some l => l.cls != 2 | none => false) && !poisoned s tg.addr 4) &&
      (s.homeLine 0 64).owners.isEmpty && !lineBusy s 0 64) = true ∧
    (let s := { idle1 (asking (.load (acc4 .u) false [none, none, none, none] true)) with invs := [⟨1, 0, 0, 0, 2⟩] }
     lineBusy s 0 64 = true ∧ grp0 s (fun g => homeOk (askHome s g.part (segOf 0) (acc4 .u) 64 .load) fun tg => tg.kind == 0) = true) ∧
    (let s := (idleMem openTail id).modCore 0 fun c => { c with misses := [⟨9, 1, .w, none, 0⟩] }
     grp0 s (fun g => (s.core 0).fills.isEmpty && (g.missWaiters 1).isEmpty && homeOk (target s g.part (segOf 0) 0 (1 * 128)) fun tg =>
        tg.kind == 0 && tg.rd && (match tg.leaf with | some l => l.cls == 0 && l.cache | none => false)) &&
      (s.homeLine 0 128).owners.isEmpty && !lineBusy s 0 128) = true ∧
    ([.appendQuery accPage 0, .tailq accPage 0] : List PKind).all (fun k =>
      let s := idleMem openTail (asking k)
      grp0 s fun g => homeOk (askPage s g.part (segOf 0) accPage .rd) fun t => t.2 == some openTail) = true := by decide +kernel

/-- A lower lane of the sheet has not been answered (R313). -/
theorem witness_lower_lane_first :
    (let s := idleMem openTail fun g => { g with
        nextId := 9, pend := [⟨6, 0, 0, [some 4], .tailq accPage 5, .sent, .word⟩, ⟨7, 1, 0, [some 4], .tailq accPage 5, .sent, .word⟩] }
     grp0 s fun g => match g.pend.find? fun q => q.id == 7 with
      | some p => resBefore s g p accPage 5
      | none => false) = true := by decide +kernel

theorem witness_home_writes :
    (let s := idle1 (storing (acc4 .w) (.draining 0))
     Memory.wf s.mem && grp0 s (fun g => (match g.rb.find? (fun e => e.id == 3) with
        | some e => e.drains && g.drainOk e && e.tag.isNone && e.use != .elem && e.acc.n == e.data.length && e.tgt.isNone
        | none => false) && homeOk (target s g.part (segOf 0) 0 64) fun tg =>
          tg.kind == 0 && tg.leaf.isSome && !mergesPoison s tg.addr 4 && sinkUp s g.part (segOf 0) 64 tg == some true) &&
      s.posted.isEmpty && ((s.core 0).line? 0).isNone && (s.homeLine 0 64).owners.isEmpty &&
      (holders s 0 64 (s.homeLine 0 64) 0).isEmpty && s.invs.isEmpty) = true ∧
    (let s := { idle1 fun g => { storing (acc4 .w) (.draining 0) g with
                  rb := [⟨3, 0, 0, acc4 .w, [1, 2, 3, 4], none, 1, .draining 0, some ⟨1, 64, 8, none, true, true, true⟩, .word, false⟩] } with
                hmc := [(0, 3)], pkg := { (on1 id).pkg with hostrdy := 3 } }
     sinkUp s 0 (segOf 0) 64 ⟨1, 64, 8, none, true, true, true⟩ == some true && s.invs.isEmpty && ((s.core 0).line? 0).isNone) = true ∧
    (let s := { idle1 id with posted := [⟨2 ^ 40, 0, 0, 1, 0, 2 ^ 60, [1]⟩] }
     postedBefore s ⟨2 ^ 40, 0, 0, 1, 0, 2 ^ 60, [1]⟩ = false ∧ (s.posted.find? fun x => x.id == 2 ^ 40).isSome = true) := by
  decide +kernel

theorem witness_home_atomics :
    ([.atom .cas (acc4 .u) 5 0 .sys 0, .red .add (acc4 .u) 5 .sys 0] : List PKind).all (fun k =>
      let s := idle1 (asking k)
      Memory.wf s.mem && grp0 s (fun g => !pendingAt s 0 64 4 && homeOk (askHome s g.part (segOf 0) (acc4 .u) 64 .atomic) fun tg =>
        tg.kind == 0 && tg.leaf.isSome && !poisoned s tg.addr 4) && (s.homeLine 0 64).owners.isEmpty && !lineBusy s 0 64) = true ∧
    (let s := idleMem { openTail with rt := 4090 } (asking (.appendRes accPage 6 0))
     grp0 s fun g => (match g.pend.find? (fun q => q.id == 7) with | some p => !resBefore s g p accPage 0 | none => false) &&
      homeOk (askPage s g.part (segOf 0) accPage .wr) fun t => t.1.leaf.isSome && (match t.2 with
        | some r => r.state == 0 && decide (r.rt + 6 ≤ r.granules)
        | none => false)) = true := by decide +kernel

/-- A line with an owned dirty word. -/
def ownedLine : L1Line := { line0 with dty := 1, own := 1 }

theorem witness_l1_lines :
    (let f : Fill := ⟨9, 1, 0xFFFFFFFF, line0.data, line0.tags, false, false, true, 0⟩
     let s := (idleMem openTail id).modCore 0 fun c => { c with misses := [⟨9, 1, .w, some 0, 0⟩], fills := [f] }
     grp0 s (fun g => decide ((s.core 0).l1.length < l1Lines g) && (g.missWaiters 1).isEmpty) && !older 0 0 &&
      ((s.core 0).fills.find? fun f => f.line == 1).isSome && ((s.core 0).misses.find? fun m => m.line == 1).isSome) = true ∧
    (let s := { (idle1 id).modCore 0 fun c => { c with l1 := [ownedLine] } with invs := [⟨0, 0, 0, 1, 5⟩] }
     (s.invs.find? fun i => i.core == 0 && i.line == 0).isSome && ((s.core 0).line? 0).isSome) = true ∧
    (let s := (idle1 id).modCore 0 fun c => { c with l1 := [ownedLine] }
     Memory.wf s.mem && (lineAddr s 0 0).isSome && ((s.core 0).line? 0).isSome) = true ∧
    (let s := { (idle1 id).modCore 0 fun c => { c with l1 := [line0] } with hmc := [(0, 3)] }
     line0.own = 0 ∧ kindOf s 0 (0 / 512) == 1 && grp0 s (fun g => g.part == 0 && g.pendingMask 0 == 0) && ((s.core 0).line? 0) == some line0) := by
  decide +kernel

theorem witness_host_accesses :
    (unitAt (128 / 2 ^ 53) (128 % 2 ^ 53)).map (fun u => match u with | .inl _ => true | .inr _ => false) = some true ∧
    unitReady (idle1 id).pkg (128 / 2 ^ 53) (128 % 2 ^ 53) = some true ∧ linesAt (idle1 id) 128 = [] ∧
    unitAt (0x2000000000 / 2 ^ 53) (0x2000000000 % 2 ^ 53) = none ∧
    (unitAt (2 ^ 40 / 2 ^ 53) (2 ^ 40 % 2 ^ 53)).map (fun u => match u with | .inl _ => false | .inr _ => true) = some true ∧
    (let s := { idle1 (asking (.load (acc4 .u) false [none, none, none, none] true)) with hmc := [(0, 3)] }
     outside s 0 (acc4 .u) && (s.run 0 0).isNone && (s.run 0 1).isNone && bit (s.tvec 0) 0 && ((s.core 0).misses.isEmpty) &&
      grp0 s fun g => g.rb.isEmpty && !(g.thread 0).tm && decide (0 < g.threads.length)) = true := by decide +kernel

/-- A 64-byte block of a sealed page of the first stack (R320). -/
theorem witness_sealed_block :
    (let s := idleMem { openTail with state := 2 } id
     sealedAt s 0x1000000000 = false ∧ sealedAt s 0x10000 = true ∧ linesAt s 0x10000 = [] ∧
      (unitAt (0x10000 / 2 ^ 53) (0x10000 % 2 ^ 53)).map (fun u => match u with | .inl _ => true | .inr _ => false) =
        some true) := by decide +kernel

/-- `on1` with the tables of R84 to R86 in memory: the home map's root at 0x30000, its region table at 0x34000, the page
table's four levels from 0x20000 on, with one leaf of frame 0. -/
def tables : State :=
  let s := ((idle1 id).setReg 0x3000 0x30000).setReg 0x3010 0x20000
  { s with xlat := [], mem := [(0x20000, 0x22001), (0x22000, 0x24001), (0x24000, 0x26001), (0x26000, 0x1F),
      (0x30000, 0x34001), (0x34000, 1)].foldl (fun m d => memWrite64 d.1 (BitVec.ofNat 64 d.2) m) s.mem }

theorem witness_translations :
    (Memory.wf tables.mem && (alFind tables.xlat (pageKey 0 0)).isNone && (match hme tables 0 0 with
      | some h => h.kind == 0 && (match walk tables 0 h 0 with | .leaf _ => true | _ => false)
      | none => false)) = true ∧
    (match leafOf (idle1 id) 0 0 with
      | some (_, l) => (openStores (idle1 id) 0 (l.pageIa 0) l.size).isEmpty && (idle1 id).homes.isEmpty
      | none => false) = true ∧
    (match leafOf (on1 (storing (acc4 .w) (.acked 0))) 0 0 with
      | some (_, l) => !(openStores (on1 (storing (acc4 .w) (.acked 0))) 0 (l.pageIa 0) l.size).isEmpty
      | none => false) = true ∧
    (({ idle1 id with shoots := [⟨0, 0, 1, [(0, 0, 3)], []⟩] } : State).shootOf 0 0).isSome = true ∧ kindOf (idle1 id) 0 0 = 0 ∧
    (let s := { idle1 id with ats := [⟨0, 0, 1, 0⟩], hmc := [(0, 3)] }
     kindOf s 0 1 = 1 ∧ s.shootOf 0 1 = none) ∧
    (match hme tables 0 0 with
      | some h => h.kind == 0 && !h.hold && (hmeAddr tables 0 0).isSome && !storesOpen tables 0 (0 / 2 ^ 21 * 2 ^ 21) (2 ^ 21) &&
          (let t := tables.setReg 0x1010 0x100
           quotaOk (moveTails (applyFw (recallRange t 0 0 (2 ^ 21)) 0 ⟨[], [], [], [], []⟩) []) 0)
      | none => false) = true ∧
    (idle1 id).fns = [] ∧ (idle1 id).hotEpoch = (idle1 id).now / 2 ^ 20 ∧
    alFind ({ idle1 id with hmc := [(0, 0x100001)] } : State).hmc (0 * 2 ^ 27 + 0 / 2 ^ 21) = some 0x100001 ∧ bit (0x100001 : W32) 20 = true ∧
    ({ idle1 id with now := 2 ^ 20 } : State).now / 2 ^ 20 = (idle1 id).hotEpoch + 1 := by decide +kernel

/-- A store posted under a host translation, an invalidation of its page, and one that waits for it (R237). -/
theorem witness_ats_waits :
    (let s := { idle1 id with
        ats := [⟨0, 0, 1, 0⟩], hmc := [(0, 3)],
        posted := [⟨4, 0, 0, 1, 0, hostAddr (Config.atsPage 0 0 1 0 * 65536), [1]⟩] }
     (⟨0, 0, 1, 0⟩ : Ats) ∈ s.ats ∧ s.posted.length = 1) ∧
    (let s := { idle1 id with hmc := [(0, 3)], shoots := [⟨0, 1, 1, [], [4]⟩], posted := [⟨4, 0, 0, 1, 0, 2 ^ 60, [1]⟩] }
     s.shootOf 0 1 = some ⟨0, 1, 1, [], [4]⟩ ∧ kindOf s 0 1 ≠ 0 ∧ shootDone s ⟨0, 1, 1, [], [4]⟩ = false ∧
      shootDone { s with posted := [] } ⟨0, 1, 1, [], [4]⟩ = true) := by
  refine ⟨⟨List.mem_singleton.mpr rfl, rfl⟩, ?_⟩
  decide +kernel

/-- A replica of the tail page on stack 1. -/
def replica (st : RepSt) : Replica := ⟨0, 1, 1, 0x1000000000, st⟩

theorem witness_seals_and_replicas :
    (let s := idleMem openTail (asking (.seal accPage false false))
     grp0 s fun g => homeOk (askPage s g.part (segOf 0) accPage .wr) (fun t => t.1.leaf.isSome && t.2 == some openTail) &&
      (hme s g.part 0x10000).isSome) = true ∧
    (let s := idleMem { openTail with rt := 4, ct := 4, state := 1 } id
     Memory.wf s.mem && (tailOf s 0 1).isSome) = true ∧
    ([.placing, .live, .draining] : List RepSt).all (fun st =>
      let s := { idleMem { openTail with state := 2, repl := 1 } id with replicas := [replica st] }
      (tailOf s 0 1).isSome && s.replicas.find? (Replica.of 0 1 1) == some (replica st) &&
        s.replicas.filter (Replica.of 0 1 1) == [replica st]) = true ∧
    (let s := { (idleMem { openTail with state := 2 } id).setReg 0x1000 0x100 with proposals := [⟨0, 1, 0, false⟩] }
     let s := { (s.setReg 0x1000 0x101).setReg 0x1010 4 with pkg := { (on1 id).pkg with stkrdy := 3 } }
     (match tailOf s 0 1 with
      | some (h, l, r) => r.state == 2 && 1 != 2 * h.seg + h.stk && !(slicesOn s 0 0 1).isEmpty &&
          decide (0x100000 * 65536 % l.size = 0) && decide (framesUsed s 0 + l.size / 65536 ≤ frameQuota s 0) &&
          (frameList (0x100000 * 65536) l.size).all (fun f => s.frames.all fun y => y.1 != f) &&
          !s.replicas.any (Replica.of 0 (l.pageNo 1) 1)
      | none => false) && stackReady s 1 && stackOf (0x100000 * 65536) == 1 && onStack (0x100000 * 65536)) = true := by decide +kernel

/-! ## Witnesses: engines -/

/-- A transfer of 64 bytes from VA 0x100 to VA 0x200, or to a stage slot of ring 1, with completion object at 0x80. -/
def xfer (dstg : Bool) : List W64 := [0x100, 0x200, 64, if dstg then 9 else 0, 0x80, 1, 0, 1]

/-- The group with an entry in copy queue 0. -/
def queued (e : CqEntry) (g : Group) : Group := { g with cqs := ⟨[e], none, none⟩ :: g.cqs.drop 1 }

/-- A completion object at `va` receives its atomics. -/
def adds (s : State) (wins : List W64) (va : W64) (code : Nat) : Bool :=
  let s1 := if code = 0 then some s else match vaAtom s 0 0 0 wins (va + 8) .cas 1 0 with
    | (s1, .ok _) => some s1
    | _ => none
  match s1 with
  | some s1 => (match vaAtom s1 0 0 0 wins va .add 1 0 with | (_, .ok _) => true | _ => false)
  | none => false

theorem witness_copy_engine :
    grp0 (idle1 (queued (.xfer (xfer false)))) (fun g => !g.cfrozen && (g.cq 0).run.isNone && (g.cq 0).q == [.xfer (xfer false)]) = true ∧
    grp0 (idle1 (queued (.chain 64))) (fun g => !g.cfrozen && (g.cq 0).run.isNone && (g.cq 0).walk.isNone) = true ∧
    (let s := after (.copyEntryStart 0 0) (idle1 fun g => ring2 0 0 0 0 (queued (.xfer (xfer true)) { g with frontier := [] }))
     grp0 s fun g => !pipeDue s 0 g 0 && !pipeDue s 0 g 1 && match movingRun g 0, g.ring? 1 with
      | some c, some r => xDstg c.desc && c.claim.isNone && xSid c.desc == 1 && decide (0 < r.free) && c.total == 64 &&
          g.stgFirst (xSid c.desc) false (stgKey c.since 4096)
      | _, _ => false) = true ∧
    (let s := after (.copyEntryStart 0 0) (idle1 (queued (.xfer (xfer false))))
     grp0 s fun g => match movingRun g 0 with
      | some c => decide (c.pos < c.total) && !xDstg c.desc &&
          (match engRead s 0 g c.wins (blockOf g c).1 (blockOf g c).2.2 with
            | (s1, .ok bs) => (match engWrite s1 0 g c.wins (blockOf g c).2.1 bs with | (_, .ok ()) => true | _ => false)
            | _ => false)
      | none => false) = true ∧
    ([false, true] : List Bool).all (fun b =>
      let s := idle1 fun g => { g with cqs := ⟨[.chain 64], none, some ⟨64, false, b, 0⟩⟩ :: g.cqs.drop 1 }
      grp0 s fun g => idleWalk g 0 == some ⟨64, false, b, 0⟩ &&
        (match engRead s 0 g (s.core 0).wins 64 64 with | (_, .ok bs) => !xOwn (dwordsOf bs) | _ => false)) = true ∧
    (let s := idle1 fun g => { queued (.fence 5) g with fences := [⟨5, 1, 0x80⟩] }
     grp0 s fun g => fenceReady s 0 g ⟨5, 1, 0x80⟩ && adds s (s.core 0).wins 0x80 0) = true := by decide +kernel

/-- A block from the scratchpad while a pipe's word is due in the cycle (R210). -/
theorem witness_copy_waits_for_pipes :
    (let r : List W64 := (xfer false).set 0 0x01F0FFC000000000
     let s := after (.copyEntryStart 0 0) (on1 (queued (.xfer r)))
     grp0 s fun g => pipeDue s 0 g 0 && match movingRun g 0 with
      | some c => isPlace (blockOf g c).1
      | none => false) = true ∧
    (let r : List W64 := (xfer false).set 0 0x01F0FFC000000000
     let s := after (.copyEntryStart 0 0) (idle1 fun g => queued (.xfer r) { g with frontier := [] })
     grp0 s fun g => !pipeDue s 0 g 0 && !pipeDue s 0 g 1 && match movingRun g 0 with
      | some c => isPlace (blockOf g c).1
      | none => false) = true := by decide +kernel

theorem witness_completions :
    (let s := after (.copyBlock 0 0) (after (.copyEntryStart 0 0) (idle1 (queued (.xfer (xfer false)))))
     grp0 s fun g => (g.cq 0).walk.isNone && engineQuiet s 0 && (match (g.cq 0).run with
      | some c => c.over && c.faultWait.isNone && c.code.isNone && adds s c.wins (xComp c.desc) 0
      | none => false)) = true ∧
    (let w := (idle1 id).core 0 |>.wins
     let s := idle1 fun g => { g with mx := { g.mx with q := [⟨.mma [0, 0, 0, 0, 0, 0x80, 1, 0], .ended 0x0203, w⟩] } }
     grp0 s fun g => engineQuiet s 0 && !w.isEmpty && adds s w 0x80 0x0203 && g.mx.q.length == 1) = true := by decide +kernel

/-- The closing token has reached a rank whose entry heads its core's queue. -/
theorem witness_ring_completion :
    (let wins := ((idle1 id).core 0).wins
     let b : List W64 := [3, 0x100, 0x200, 0, 0x400000008, 0, 0, 0, 0x80, 0x700000001, 0, 0, 0, 0, 0, 0, 0, 0, 0]
     let s := idle1 fun g => { g with rq := [.coll b] }
     let x : CollRank := { newRank s 0 one b none with wins := wins, token := true }
     let s := { s with ranks := [x] }
     s.rankAt 0 == some x && x.failed.isNone && engineQuiet s 0 && x.key.part == 0 && adds s wins (cComp b) 0) = true := by
  decide +kernel

/-- Blocks of a product of one cell over two groups of signed 8-bit elements, and of a drain of its cell to the scratchpad. -/
def mmaBlk : List W64 := [0x100, 0x200, 0, 0x00400101, 0, 0, 0, 0]
def drainBlk : List W64 := [0x01F0FFC000000000, 0x0000010100000000, 0, 0, 0, 0, 0, 0]

/-- A group with those entries in its matrix queue. -/
def matrix (c : MqCmd) (g : Group) : Group :=
  { g with lrec := lrec0.set 16 0x080504, mx := { g.mx with q := [⟨c, .waiting, []⟩] } }

/-- The product has started. -/
def mmaOn : State := after (.mmaStart 0) (idle1 (matrix (.mma mmaBlk)))

/-- CLOCK is in window 0 for the first 190 cycles, whatever the skew. -/
theorem window_zero (s : State) (c : Nat) (g : Group) (h : s.now + g.clockOff < 190) : winOf s c g = 0 := by
  simp only [winOf, State.clock]
  omega

theorem witness_matrix_engine :
    grp0 (idle1 (matrix (.mma mmaBlk))) (fun g => !g.mx.frozen && g.mx.mma.isNone &&
      startable g.mx.q MqCmd.isMma == some (0, .mma mmaBlk) && mmaCheck (idle1 (matrix (.mma mmaBlk))) 0 g mmaBlk == none) = true ∧
    grp0 (idle1 (matrix (.mma (mmaBlk.set 3 0)))) (fun g => startable g.mx.q MqCmd.isMma == some (0, .mma (mmaBlk.set 3 0)) &&
      mmaCheck (idle1 (matrix (.mma (mmaBlk.set 3 0)))) 0 g (mmaBlk.set 3 0) == some 0x0203) = true ∧
    grp0 mmaOn (fun g => match mmaNow g with
      | some (_, m, b, r) => needsFetch g.mx b r 0 && r.pinWait.isNone && (match (takeSlots mmaOn 0 g b r).grp? 0 with
        | some g1 => (takePins (takeSlots mmaOn 0 g b r) r (tileLines g1 m b 0)).isSome &&
            (match sideRows (takeSlots mmaOn 0 g b r) 0 g1 m.wins (sideOf g1 b 0) g1.mx.collA r.slotA g1.mx.kgroup
                (tileSpan (tileRow 0) (mM b)) with
              | (s1, .ok _, _) => (match sideRows s1 0 g1 m.wins (sideOf g1 b 1) g1.mx.collB r.slotB g1.mx.kgroup
                  (tileSpan (tileCol 0) (mN b)) with | (_, .ok _, _) => true | _ => false)
              | _ => false)
        | none => false)
      | none => false) = true ∧
    (idle1 fun g => { g with mx := { g.mx with winNo := 1 } }).now + one.clockOff < 190 ∧
    (let s := (after (.operandFetch 0 0) mmaOn).modGrp 0 fun g => g.modMx fun m => { m with mma := m.mma.map fun r => { r with admitted := true } }
     decide (s.now < 190) && grp0 s fun g => g.mx.winNo == 0 && g.clockOff == 0 && g.mx.faults.isEmpty && !bit g.mx.done 0 && (match mmaNow g with
      | some (_, _, b, r) => r.admitted && (match r.fetched.find? fun d => d.tile == 0 with
        | some d => d.tile == 0 && tileCheck (tileOps (sideOf g b 0) (sideOf g b 1) r.wa r.wb d) [] 0 (sideOf g b 0).g
            (tilePartials (tileOps (sideOf g b 0) (sideOf g b 1) r.wa r.wb d) []) == .ok
        | none => false)
      | none => false)) = true ∧
    grp0 mmaOn (fun g => decide (mmaOn.now < 190) && g.clockOff == 0 && g.mx.winNo == 0 && (match g.mx.mma with
      | some r => !r.admitted && !r.held
      | none => false)) = true ∧
    grp0 (idle1 (matrix (.mprec 16 4))) (fun g => startable g.mx.q MqCmd.isMprec == some (0, .mprec 16 4)) = true ∧
    grp0 (idle1 (matrix (.mzero true))) (fun g =>
      startable g.mx.q (fun c => match c with | .mzero _ => true | _ => false) == some (0, .mzero true)) = true ∧
    grp0 (idle1 (matrix (.mdrain drainBlk))) (fun g => g.mx.drain.isNone &&
      startable g.mx.q MqCmd.isDrain == some (0, .mdrain drainBlk) && drainCheck (idle1 (matrix (.mdrain drainBlk))) 0 g drainBlk == none) = true ∧
    grp0 (idle1 (matrix (.mdrain (drainBlk.set 1 0)))) (fun g =>
      drainCheck (idle1 (matrix (.mdrain (drainBlk.set 1 0)))) 0 g (drainBlk.set 1 0) == some 0x0203) = true ∧
    (let s := after (.mdrainStart 0) (idle1 (matrix (.mdrain drainBlk)))
     grp0 s fun g => match runningItem g.mx.q MqCmd.isDrain, g.mx.drain with
      | some (_, m), some d => m.cmd == .mdrain drainBlk && d.issued.contains 0 && d.faultWait.isNone &&
          (match (cellsLeft d drainBlk 0)[(s.pick (cellsLeft d drainBlk 0).length).1]? with
            | some (r, c) => (match drainCell (s.pick (cellsLeft d drainBlk 0).length).2 0 g m.wins drainBlk (dAddr drainBlk r c)
                (bankCell (bankOf' g.mx (dBank drainBlk)) (128 * r + c)) with
              | (s1, .ok ()) => engineQuiet s1 0 && (s1.grp? 0).map (·.mx) == some g.mx
              | _ => false)
            | none => false)
      | _, _ => false) = true ∧
    grp0 (idle1 id) (fun g => match drainLoc (idle1 id) 0 g ((idle1 id).core 0).wins drainBlk 0x01F0FFC000000010 with
      | .ok a => a.loc == .spad 0 16 && !dRed drainBlk
      | .error _ => false) = true := by decide +kernel

/-- An operand in a stage ring whose filled slot the engine may take, first of those that wait (R270, R290). -/
theorem witness_matrix_take :
    (let g := ring2 1 1 0 0 one
     let x := sideOf g [0x100, 0x200, 0, 0x00400101, 0, 0, 0, 9] 0
     let x := { x with stg := true, sid := 1 }
     match g.ring? x.sid with
      | some r => r.has true && g.stgFirst x.sid true (mxStgKey 0)
      | none => false) = true := by decide +kernel

/-- A product of a row and a column, as the array takes them. -/
def ops1 : TileOps := ⟨[(0, some ⟨[1, -2], 0, 1, 0⟩)], [(0, some ⟨[3, 4], 1, 1, 0⟩)]⟩

theorem witness_tile_checksums :
    (ops1.a.map (·.1)).Nodup ∧ (ops1.b.map (·.1)).Nodup ∧
    (ops1.a ++ ops1.b).all (fun x => match x.2 with | some p => p.q.length == 2 | none => true) = true ∧
    (0 ∈ ops1.a.map (·.1) ∧ 0 ∈ ops1.b.map (·.1)) ∧
    tileCheck ops1 [.cell 0 0 7] 0 2 (tilePartials ops1 [.cell 0 0 7]) = .fix 0 0 7 := by decide +kernel


/-- The fetch of micro-tile 0 has waited 2000 cycles for lines of slice 0, all of which are pinned. -/
def mmaWaits : State :=
  let s := match mmaOn.grp? 0 with
    | some g => (match mmaNow g with | some (_, _, b, r) => takeSlots mmaOn 0 g b r | none => mmaOn)
    | none => mmaOn
  { (setMmaRun s 0 fun r => { r with pins := List.replicate 12288 (0, 2 ^ 41 - 1), pinWait := some (0, 0) }) with now := 2000 }

theorem witness_pin_wait_timeout :
    grp0 mmaWaits (fun g => match mmaNow g with
      | some (_, m, b, r) => r.pinWait == some (0, 0) && (takePins mmaWaits r (tileLines g m b 0)).isNone && decide (0 + 1024 ≤ mmaWaits.now) &&
          (match sideRows mmaWaits 0 g m.wins (sideOf g b 0) g.mx.collA r.slotA g.mx.kgroup (tileSpan (tileRow 0) (mM b)) with
            | (s1, .ok _, _) => (match sideRows s1 0 g m.wins (sideOf g b 1) g.mx.collB r.slotB g.mx.kgroup
                (tileSpan (tileCol 0) (mN b)) with | (_, .ok _, _) => true | _ => false)
            | _ => false)
      | none => false) = true := by decide +kernel
/-! ## Witnesses: collectives -/

/-- The block of a collective of operation `oper` on group 0: eight F32 elements at VA 0x100, to VA 0x200, with scratch memory
at VA 0x400 where it is used, in pieces of four elements; its tail holds the segment and the time of its placing. -/
def collBlk (oper : Nat) : List W64 :=
  [BitVec.ofNat 64 oper, 0x100, 0x200, if oper = 1 ∨ oper = 2 then 0x400 else 0, 0x400000008, 0, 0, 0, 0, 0x700000001, 0, 0, 0, 0, 0, 0, 0, 0, 0]

/-- A package whose group 0 of collectives has two members, logical segments 0 and 1 of partition 0. -/
def ring (f : Group → Group) : State :=
  let s := idle1 f
  { s with pmb := [(0x1000, 0x10001), (0x3050, 0x98), (0xE000, 0x1001), (0x20000, 5), (0x20008, 1), (0x20010, 5)],
           pkg := { s.pkg with segrdy := 3, stkrdy := 7, brgrdy := 1 } }

/-- The rank of a block on a core, matched. -/
def rankOn (core seg rank : Nat) (b : List W64) (m : Bool) : CollRank :=
  { newRank (ring id) core one b none with lseg := seg, rank := rank, matched := m, trig := true, copied := true }

def key7 : CollKey := ⟨0, 0, 7⟩

/-- Two ranks of a broadcast. -/
def twoRanks (m : Bool) : State :=
  { ring id with ranks := [rankOn 0 0 0 (collBlk 3) m, rankOn 64 1 1 (collBlk 3) m] }

/-- A rank that has failed. -/
def failedRank : CollRank :=
  { rankOn 64 1 1 (collBlk 3) true with failed := some 0x0404 }

/-- A trigger at VA 64 for the value 3. -/
def trigRank (wins : List W64) : CollRank :=
  { rankOn 0 0 0 (((collBlk 3).set 5 64).set 6 3) true with trig := false, wins := wins }

/-- Both ranks of a reduction run; rank 1 has seen its trigger or not, and pieces have landed at it. -/
def couches (b : List W64) (trig : Bool) (landed : List (Nat × Bool)) : State :=
  let wins := ((ring id).core 0).wins
  { ring id with
      ranks := [{ rankOn 0 0 0 b true with wins := wins }, { rankOn 64 1 1 b true with wins := wins, trig := trig, landed := landed }] }

/-- Piece `j` of rank 1's next step comes from rank 0 and lands: the state with it, the rank, the step, the block, the
first element, the bytes. -/
def couchAt (s : State) (j : Nat) : Option (State × CollRank × Nat × Nat × Nat × List Byte) :=
  match s.ranks.find? (CollRank.is key7 1), s.ranks.find? (CollRank.is key7 (prevRank 2 1 false)) with
  | some x, some q =>
    let st := nextStep x.blk 2 1 (x.pv j false) false
    let span := pieceSpan x.blk 2 j false
    let blk := sentBlock x.blk 2 q.rank st false
    if collSize s 0 0 == some 2 && couchOpen s key7 && decide (j < cPieces x.blk 2) && decide (j < x.pvA.length) &&
        decide (x.pv j false < lastStep x.blk 2 1 false) && x.inflight.isEmpty && q.trig && decide (st ≤ q.pv j false + 1) &&
        cOper x.blk != 0 && cChunkComp x.blk == 0 then
      match q.read s (sourceVa q.blk 2 q.rank st blk span.1) (span.2 * cElem x.blk) with
      | (s1, .ok bs, _) => (match landPiece s1 x 2 st blk span.1 bs with
        | (s2, .ok (), _) => some (s2, x, st, blk, span.1, bs)
        | _ => none)
      | _ => none
    else none
  | _, _ => none

/-- Landed bytes are combined with the rank's own block, and the result is written. -/
def folds (s : State) (x : CollRank) (st blk el : Nat) (bs : List Byte) : Bool :=
  match x.read s (sendVa x.blk 2 blk el) bs.length with
  | (s1, .ok own, _) => (match x.write s1 (foldedVa x.blk 2 st blk el) (combine x.blk (bs.length / cElem x.blk) bs own) with
    | (s2, .ok (), _) => cChunkComp x.blk == 0 && engineQuiet s2 x.core
    | _ => false)
  | _ => false

theorem witness_couches :
    (match couchAt (couches (collBlk 3) true []) 1 with
      | some (s2, x, st, _, _, _) => !reduces x.blk 2 st && x.landed == [] && engineQuiet s2 x.core
      | none => false) = true ∧
    (match couchAt (couches (collBlk 1) false []) 0 with
      | some (_, x, st, _, _, _) => reduces x.blk 2 st && x.landed == [] && !x.trig
      | none => false) = true ∧
    (match couchAt (couches (collBlk 1) true []) 0 with
      | some (s2, x, st, blk, el, bs) => reduces x.blk 2 st && x.landed == [] && x.trig &&
          folds s2 x st blk el bs
      | none => false) = true ∧
    (match couchAt (couches (collBlk 1) false [(0, false)]) 0 with
      | some (_, x, _, _, _, _) => x.landed == [(0, false)] && !x.trig
      | none => false) = true ∧
    (match couchAt (couches (collBlk 1) true [(0, false)]) 0 with
      | some (_, x, st, blk, el, bs) => x.landed == [(0, false)] && x.trig &&
          (match x.read (couches (collBlk 1) true [(0, false)]) (landingVa x.blk 2 blk el) bs.length with
            | (s1, .ok bs, _) => folds s1 x st blk el bs
            | _ => false)
      | none => false) = true := by decide +kernel

theorem witness_collectives :
    ((twoRanks true).runningAt 0).isSome = true ∧ (cOper ((collBlk 0).set 1 0) ≠ 3 ∧ cSend ((collBlk 0).set 1 0) = 0) ∧
    (let s := ring fun g => { g with rq := [.coll (collBlk 3)] }
     grp0 s fun g => g.rq == [.coll (collBlk 3)] && (s.runningAt 0).isNone && !s.ringFrozen 0 g.part && (s.ranks.filter fun r => !r.remote && segOf r.core == segOf 0).isEmpty && s.ranks.isEmpty && collCheck s 0 g (collBlk 3) == none) = true ∧
    (let s := twoRanks false
     collSize s 0 0 == some 2 && (remoteRanks s 0 0 2).isEmpty &&
      (match (ranksOf s key7).filter (fun x => !x.remote && x.failed.isNone) with
        | x :: l => !x.matched && (List.range 2).all (fun n => (x :: l).any fun y => y.rank == n) &&
            (x :: l).all fun y => collTerms y.blk == collTerms x.blk
        | [] => false)) = true ∧
    (let s := { twoRanks false with ranks := [rankOn 0 0 0 (collBlk 3) false, rankOn 64 1 1 (collBlk 4) false] }
     match (ranksOf s key7).filter (fun x => !x.remote && x.failed.isNone) with
      | x :: l => (List.range 2).all (fun n => (x :: l).any fun y => y.rank == n) &&
          (x :: l).any fun y => collTerms y.blk != collTerms x.blk
      | [] => false) = true ∧
    (let s := counted { ring id with ranks := [trigRank ((ring id).core 0).wins] }
     waitingTriggers s 0 true == s.ranks && s.ranks.all fun x => match x.read s (cTrigVa x.blk) 8 with
      | (_, .ok bs, _) => decide ((cTrigVal x.blk).toNat ≤ natOfBytes bs)
      | _ => false) = true ∧
    (let s := { twoRanks true with ranks := (twoRanks true).ranks.map fun r => { r with pvA := [1, 1] } }
     collSize s 0 0 == some 2 && (s.ranks.find? (CollRank.is key7 0)).isSome && allEnded s key7 2) = true ∧
    (let s := { twoRanks true with ranks := [rankOn 0 0 0 (collBlk 3) true, failedRank] }
     (match s.ranks.find? (CollRank.is key7 0) with | some x => x.matched && x.failed.isNone && !x.remote | none => false) &&
      s.ranks.any fun y => y.key == key7 && y.rank != 0 && y.failed.isSome && y.matched) = true ∧
    (let s := { twoRanks true with ranks := (twoRanks true).ranks.map fun r : CollRank => { r with agreeing := true } }
     !s.pkg.folding && s.ranks.any fun x => CollRank.memberOf key7 x && x.agreeing) = true := by decide +kernel

/-- A load of a host page behind a translation that the port holds and that grants the right to read. -/
theorem host_load (s : State) (hh : hme s 0 64 = some ⟨1, 0, 0, 0, 0, 0, false⟩) (hp : portLost s.pkg 0 0 (.host 0) = false)
    (hg : Config.portGranted 0 0 = true)
    (ha : atsAccess s 0 0 0 = some 0) (hz : (noteWalk s 0 0 64).poison = []) (hq : (noteWalk s 0 0 64).posted = [])
    (hi : (noteWalk s 0 0 64).invs = []) (hr : bit (Config.atsRights 0 0 0 0) 0 = true) :
    ∃ s1 bs, loadHome s 0 0 ⟨64, .ia 64, 8, .w, false, 0⟩ 64 none = (s1, .ok bs) := by
  have ht : askHome s 0 0 ⟨64, .ia 64, 8, .w, false, 0⟩ 64 .load = .ok ⟨1, hostAddr (Config.atsPage 0 0 0 0 * 65536 + 64), 8, none, true,
      bit (Config.atsRights 0 0 0 0) 1, bit (Config.atsRights 0 0 0 0) 2⟩ := by
    have hres : resolve s 0 0 0 64 = .other 1 (hostAddr (Config.atsPage 0 0 0 0 * 65536 + 64)) true (bit (Config.atsRights 0 0 0 0) 1)
        (bit (Config.atsRights 0 0 0 0) 2) := by simp [resolve, hh, hostSeg, hp, hg, ha, hr]
    unfold askHome target
    rw [hres]
    rfl
  unfold loadHome
  rw [ht]
  have hn : noteHot (noteWalk s 0 0 64) 0 0 8 64 = noteWalk s 0 0 64 := rfl
  simp only [hn, readHome, dropPoisoned, readAddr, poisoned, flushBefore, flushPosted, hq, lineBusy]
  simp [hz, hi]
  split <;> exact ⟨_, _, rfl⟩

/-- A rank whose trigger lies in host memory, behind a translation that the port holds. -/
def polled : State :=
  let s := ring id
  { s with hmc := [(0, 3)], ats := [⟨0, 0, 0, 0⟩], ranks := [{ trigRank (s.core 0).wins with blk := (collBlk 3).set 5 64 }] }

/-- That rank. -/
def polledRank : CollRank := polled.ranks.headD (trigRank [])

theorem polled_access : (match engAcc polledRank.wins .rd 64 8 with
    | .ok a => a == ⟨64, .ia 64, 8, .w, false, 0⟩
    | _ => false) = true := by decide +kernel

/-- The poll of a trigger in host memory; what the access table and the host grant is open (logs 9 and 11), and so is what the
host answers. -/
theorem witness_trigger_poll (hg : Config.portGranted 0 0 = true) (h : bit (Config.atsRights 0 0 0 0) 0 = true) :
    waitingTriggers polled 0 false = [polledRank] ∧ ∃ s1 bs va, polledRank.read polled (cTrigVa polledRank.blk) 8 = (s1, .ok bs, va) ∧
      (cTrigVal polledRank.blk).toNat ≤ natOfBytes bs := by
  refine ⟨by decide +kernel, ?_⟩
  obtain ⟨s1, bs, hl⟩ := host_load polled (by decide +kernel) (by decide +kernel) hg (by decide +kernel) (by decide +kernel)
    (by decide +kernel) (by decide +kernel) h
  have hr : polledRank.remote = false := by decide +kernel
  have hk : polledRank.key.part = 0 := by decide +kernel
  have hc : segOf polledRank.core = 0 := by decide +kernel
  have hv : cTrigVa polledRank.blk = 64 := by decide +kernel
  have ht : cTrigVal polledRank.blk = 0 := by decide +kernel
  have he : engAcc polledRank.wins .rd 64 8 = .ok ⟨64, .ia 64, 8, .w, false, 0⟩ := by
    have := polled_access
    split at this
    · rename_i a hq
      rw [hq]
      simp only [beq_iff_eq] at this
      rw [this]
    · cases this
  have hr2 : vaRead polled 0 0 polledRank.core polledRank.wins 64 8 = (s1, .ok bs) := by
    unfold vaRead unlessLate
    rw [he]
    exact hl
  refine ⟨s1, bs ++ [], 64 + BitVec.ofNat 64 8, ?_, ?_⟩
  · unfold CollRank.read
    rw [hv, hr, hk, hc]
    simp only [Bool.false_eq_true, if_false, spanRead]
    rw [show min 8 (128 - (64 : W64).toNat % 128) = 8 from rfl, hr2]
    rfl
  · rw [ht]
    exact Nat.zero_le _

/-! ## Witnesses: queues and commands -/

/-- The queues of the PF, enabled, of 16 entries. -/
def fn0 : Fn := { Fn.reset with sqlog := 4, sqen := true, mqlog := 4, mqen := true, cqlog := 4, cqen := true }

/-- An idle package with partition 0 enabled on slice 0, its frames, and a queue context 0 of the PF, with the windows of the
core and a table of four layout handles at 0x50000; the PF's queue registers are `f`. -/
def fnState (f : Fn) : State :=
  let s := idle1 id
  let m := memWrite64 0x40088 0xF00000000 (memWrite64 0x40080 0xF (memWrite64 0x40018 4 (memWrite64 0x40010 0x50000
    (memWrite64 0x40000 0x1003 s.mem))))
  let p := [(0x1000, 3), (0x1010, 1), (0x1020, 10), (0x1030, 0x100000000), (0x3050, 8), (0x3058, 0x40000), (0x3060, 2),
    (0x5000, 0x83828180)]
  { s with mem := m, pmb := p, fns := [(1024, f)] }

theorem witness_function_queues :
    doorbellBad fn0.sqlog fn0.sqhead fn0.sqtail 3 = false ∧
    (Machine.qOk fn0.sqen fn0.sqlog = true ∧ doorbellBad fn0.sqlog fn0.sqhead fn0.sqtail 17 = true) ∧
    (fn0.mqtail - fn0.mqhead).toNat < ((5 : W32) - fn0.mqhead).toNat ∧
    (((0 : W32) - fn0.mqhead).toNat ≤ (fn0.mqtail - fn0.mqhead).toNat ∧ fn0.held = []) ∧
    (Machine.qOk fn0.cqen fn0.cqlog = true ∧ fn0.cqerr = false ∧ doorbellBad fn0.cqlog fn0.cqhead fn0.cqtail 16 = false) ∧
    (let s := fnState fn0
     let r := dwordsOf (memReadN (memWrite64 (hostAddr 0) 3 s.mem) (hostAddr 0) 64)
     fn0.cmds == [] && cmdId r == 3 && !doorbellBad fn0.cqlog fn0.cqhead fn0.cqtail (fn0.cqhead + 1)) = true ∧
    doorbellBad fn0.cqlog fn0.cqhead fn0.cqtail 17 = true ∧ fn0.cqhead = fn0.cqtail := by decide +kernel

/-- A command on a context, with up to four arguments and a completion object at `comp`. -/
def cmd (id ctx : Nat) (a0 a1 a2 : W64) (comp : W64 := 0) : List W64 :=
  [BitVec.ofNat 64 id, BitVec.ofNat 64 ctx, a0, a1, a2, 0, comp, 1]

/-- The state whose PF has that one command. -/
def cmdState (r : List W64) : State := fnState { fn0 with cmds := [r] }

/-- The command is well formed, on partition 0, and its context is the function's where it needs one. -/
def cmdStands (s : State) (id : Nat) (owned : Bool) (r : List W64) : Bool :=
  (s.fn 1024).cmds == [r] && cmdId r == id && !cmdBad s 1024 r && cmdPart s 1024 r == some 0 &&
    (!owned || ctxOwned s 0 1024 (cmdCtx r)) && Memory.wf s.mem

/-- A launch of one gang of one core group, of a QOS class, with LAUNCHID 0. -/
def launch1 (qos : Nat) : Launch :=
  { lid := 0, fn := 1024, lrec := lrec0.set 9 (BitVec.ofNat 64 (qos * 65536)), entprio := 0, blocks := [], stages := [],
    cost := 0, charged := true, order := 0, gangs := 0, retired := 0, waitSince := 0, firstStop := none, places := [], waved := false }

/-- Launches of partition 0. -/
def withLaunches (ls : List Launch) (s : State) : State := { s with parts := [(0, { Part.reset with launches := ls, enabled := true })] }

theorem witness_commands :
    (let r := cmd 1 1 0x100000 4 0
     let s := cmdState r
     cmdStands s 1 false r && decide (cmdCtx r < ctxCount s 0) && !ctxValid s 0 (cmdCtx r) &&
      bits (cmdArg r 0) 21 43 == (0 : BitVec 43) && bits (cmdArg r 1) 16 48 == (0 : BitVec 48) &&
      decide (framesUsed s 0 + tableFrames 4 ≤ frameQuota s 0) && runExists s 0 (tableFrames 4) &&
      framesFree s 0 0x100000 (tableFrames 4)) = true ∧
    (let r := cmd 2 0 0 0 0
     cmdStands (cmdState r) 2 true r && !ctxInUse (cmdState r) 0 0) = true ∧
    (let r := cmd 3 0 1 0x10000F 0xF00000010
     cmdStands (cmdState r) 3 true r && !windowBad (cmdArg r 1) (cmdArg r 2) && bits (cmdArg r 0) 4 60 == (0 : BitVec 60)) = true ∧
    (let r := cmd 4 0 1 0 0
     cmdStands (cmdState r) 4 true r && bits (cmdArg r 0) 1 63 == (0 : BitVec 63)) = true ∧
    (let r := cmd 5 0 0x10003 7 8
     cmdStands (cmdState r) 5 true r && bits (cmdArg r 0) 17 47 == (0 : BitVec 47) && bits (cmdArg r 1) 32 32 == (0 : W32) &&
      (bits (cmdArg r 0) 0 16).toNat != 0 && decide ((bits (cmdArg r 0) 0 16).toNat < (bits (ctxDw (cmdState r) 0 0 24) 0 16).toNat)) = true ∧
    (let r := cmd 6 0 0x10000 0 0
     let m := idleMem openTail id
     let s := { cmdState r with xlat := m.xlat, frames := m.frames, tails := m.tails }
     cmdStands s 6 true r && s.freeing.isEmpty && cmdIa s 0 (cmdCtx r) (cmdArg r 0) == some 0x10000 && (match leafOf s 0 0x10000 with
      | some (_, l) => l.cls != 0
      | none => false)) = true ∧
    (let r := cmd 6 0 0x10000 0 0
     let m := idleMem openTail id
     let s := { cmdState r with xlat := m.xlat, frames := m.frames, tails := m.tails, freeing := [⟨0, 1, [1024], false⟩] }
     cmdStands s 6 true r && s.replicas == [] && (match tailOf s 0 1 with
      | some (_, l, k) => k.intended == [] && !pinned s 0 (1 * 65536) l.size
      | none => false)) = true ∧
    (let r := cmd 7 0 0 0 0
     let s := withLaunches [launch1 0] (cmdState r)
     cmdStands s 7 false r && s.launch? 0 0 == some (launch1 0) && bits (cmdArg r 0) 16 48 == (0 : BitVec 48) &&
      (match endLaunch s 0 0 with | .done _ => true | _ => false)) = true ∧
    (let r := cmd 8 0 0 0x100 0
     let s := withLaunches [launch1 0] ((cmdState r).modCore 0 fun c =>
       { c with grp := none, shadow := c.grp.map fun g => { g with st := .halted } })
     cmdStands s 8 true r && s.launch? 0 0 == some (launch1 0) && decide (0 < launchGroups (launch1 0).lrec) && (match haltedAt s 0 0 0 with
      | some g => g.threads.length == 1 && (cmdArg r 1).toNat % 64 == 0 && (bits (cmdArg r 2) 0 32).toNat == 0
      | none => false) &&
      (match writePieces s 0 0 (ctxWins s 0 0) 1 { s with fresh := s.fresh + 8 } 0x100 [] with | .done _ => true | _ => false)) = true ∧
    cmdComp (cmd 4 0 1 0 0) = 0 ∧
    (let r := cmd 4 0 1 0 0 0x80
     let s := cmdState r
     queueCtx s 1024 == some (0, 0) && adds s (ctxWins s 0 0) 0x80 0 && adds s (ctxWins s 0 0) 0x80 0x032B) = true := by
  decide +kernel

/-! ## Witnesses: launches, the package, pre-emption, registers -/

/-- A record of one core group with its descriptor at VA 0x3000, its entry at 0x2200, its completion at 0x9000. -/
def record : List W64 :=
  [0x2200, 0x3000, 0x0000010001110020, 0x10000000000, 0x0000040001010008, 0, 0, 0, 0x9000, 0x30000] ++ List.replicate 22 0

/-- Device memory with that record in the first slot of a submission queue at VA 0x8000, a descriptor, and an image at
VA 0x2000 whose one section is an empty list of priorities. -/
def launchMem (m : List Host.Cell) : List Host.Cell :=
  let w (a : Nat) (ds : List W64) (m : List Host.Cell) : List Host.Cell := memWriteN a (ds.flatMap fun d => bytesOf 8 d.toNat) m
  w 0x2000 [0x464C457F, 0, 0, 0, 0, 0x40, 0, 0x100000000] <|
  w 0x2040 [0x7000000400000000, 0, 0, 0x100, 8, 0, 0, 0] <|
  w 0x3000 [0x200, 0, 0x01110020, 0, 0x0000040000000008] <| w 0x8000 record m

/-- The state in which the PF's queue holds that record. -/
def launchState : State :=
  let s := fnState { fn0 with sqbase := 0x8000, sqtail := 1 }
  { s with mem := launchMem s.mem }

/-- A core whose NEXT holds the bind record of `launch1`. -/
def boundCore (ready : Bool) (s : State) : State :=
  (s.modCore 0 fun c => { c with grp := none }).modCore 0 fun c => { c with nxt := bindRec 0 (launch1 0) 0x100 0 0, gangwait := ready }

/-- Partition 0 has one free core, 0, and a launch to bind. -/
def oneFree (free : Bool) : State :=
  let s := withLaunches [launch1 0] (fnState fn0)
  let s := [1, 2, 3, 4, 5, 6, 7].foldl (fun s c => s.modCore c fun x => { x with outOfUse := true }) s
  if free then s.modCore 0 fun c => { c with grp := none, curempty := true }
  else { s.modGrp 0 fun g => { g with bind := ⟨0, 0x1800000000000, 0x100000000, 1⟩ } with now := 50000 }

theorem witness_launches :
    (let s := launchState
     (match queueCtx s 1024, freeLid s 0, readCtx s 0 0 (fn0.sqbase + 0x8000) 256 with
      | some (0, 0), some 0, (s1, .ok bs) => (match admission s1 0 1024 (dwordsOf bs) with | (_, .accepted _ _ _) => true | _ => false)
      | _, _, _ => false)) = true ∧
    ((fnState fn0).enabled 0 = true ∧ ((fnState fn0).part 0).launches = [] ∧
      ((fnState fn0).now - ((fnState fn0).part 0).creditAt) / 2500000 = 0 ∧
      (({ fnState fn0 with now := 2500000 } : State).now - ((fnState fn0).part 0).creditAt) / 2500000 = 1) ∧
    (let s := oneFree true
     nextBind s 0 == some (launch1 0) && placementOk s 0 (freeCore s 0) (launch1 0) [0]) = true ∧
    ((bindRec 0 (launch1 0) 0x100 0 0).valid = true ∧ ((idle1 id).core 0).nxt.valid = false ∧
      ((boundCore false (idle1 id)).core 0).nxt.valid = true) ∧
    (((idle1 id).core 0).promAt ≠ (idle1 id).now + 1 ∧
      (((idle1 id).modCore 0 fun c => { c with promAt := 1 }).core 0).promAt = (idle1 id).now + 1) ∧
    (let s := boundCore false (idle1 id)
     let c := s.core 0
     !c.gangwait && !c.testing && !c.outOfUse && s.grp? 0 == none) = true ∧
    (let s := (idle1 id).modCore 0 fun c => { c with nxt := { bindRec 0 (launch1 0) 0x100 0 0 with d3 := 3 } }
     let c := s.core 0
     c.nxt.valid && c.nxt.displace && !c.gangwait && !c.testing && !c.outOfUse && (s.grp? 0).isSome) = true ∧
    (let s := withLaunches [launch1 0] (boundCore true (idle1 id))
     readyCores s 0 0 == [0] && (s.core 0).nxt.gangn == 1 && s.launch? (s.core 0).nxt.part (s.core 0).nxt.lid == some (launch1 0)) = true ∧
    (let s := oneFree false
     lateQ0 s 0 == some (launch1 0) && takeVictims s 0 (launch1 0) (victims s 0) [] == some [0]) = true ∧
    (let s := idle1 (th0 fun t => { t with done := true })
     grp0 s fun g => g.st == .running && g.live == [] && enginesDone s g && g.rb == [] && g.pend == []) = true ∧
    (let l := { launch1 3 with retired := 1 }
     let s := withLaunches [l] (fnState fn0)
     s.launch? 0 0 == some l && decide (launchGroups l.lrec ≤ l.retired) && s.invs == [] && s.posted == [] && !bit (recDw l.lrec 9) 19 &&
      (match launchDone s 0 l.fn l.lrec 0 with | .done _ => true | _ => false)) = true ∧
    (let s := { fnState fn0 with pmb := [(0x1000, 3)] }
     !s.enabled 0 && !enableRefused s 0) = true ∧
    (State.reset.enabled 0 = false ∧ enableRefused State.reset 0 = true) := by decide +kernel

theorem witness_package_events :
    (funcThere (.stack 3) = true ∧ State.reset.pkg.outOfReach (.stack 3) = false) ∧
    (let f (p : Pkg) : Pkg := p.setReady (.stack 3) true
     State.reset.pkg.rdyAt ≠ State.reset.now + 1 ∧ (f State.reset.pkg).word0 ≠ State.reset.pkg.word0) ∧
    (State.reset.fns = [] ∧ Fn.reset.held = []) ∧
    (let pk := { State.reset.pkg with deadBr := 9 }
     !pk.down (.stack 4) && pk.outOfReach (.stack 4) && !pk.cut.contains (.stack 4) && funcThere (.stack 4)) = true ∧
    (Func.stack 3 ∉ State.reset.pkg.failed ∧ State.reset.replicas = []) ∧
    bridgeUp State.reset.pkg 2 = true ∧ bit State.reset.pkg.deadSeg 5 = false ∧
    (let s := after (.bridgeFailure 2) State.reset
     s.pkg.folding && !s.pkg.warmWaits) = true ∧
    State.reset.pkg.folding = false ∧ (List.range 64).all (fun p => !State.reset.enabled p) = true ∧
    State.reset.pkg.bootState.toNat < 2 := by decide +kernel

/-- A saved group in the core's shadow pool. -/
def saved1 : State := (fnState fn0).modCore 0 fun c => { c with grp := none, curempty := true, shadow := c.grp }

theorem witness_preemption :
    grp0 (idle1 fun g => { g with st := .halting 0x0501 0 }) (fun g => g.st == .halting 0x0501 0) = true ∧
    grp0 (idle1 id) (fun g => g.st == .running) = true ∧
    (let s := (idle1 id).modCore 0 fun c => { c with preq := true }
     grp0 s (fun g => g.st == .running && g.nopre == none && gangCores s 0 g == [0]) && ((s.core 0).preq) &&
      grp0 (quietGroup (endRuns s 0) 0) (fun g => g.quiet && g.mx.between) &&
      ((quietGroup (endRuns s 0) 0).core 0).shadow == none && writesDone (flushL1 (quietGroup (endRuns s 0) 0) 0 0) 0) = true ∧
    (match (saved1.core 0).shadow with
      | some g => takesSaved saved1 0 g && !betterWaits saved1 g
      | none => false) = true ∧
    (let c := State.reset.core 0
     State.reset.grp? 0 == none && !c.testing && !c.testDue && !c.outOfUse && !c.nxt.valid) = true ∧
    (let s := after (.infieldTestDue 0) State.reset
     (s.core 0).testing && (s.core 0).shadow == none) = true ∧
    (let s := fnState fn0
     let s := { s.modCore 0 fun c => { c with grp := none } with parts := [(0, { Part.reset with csa := [one], enabled := true, copying := true })] }
     s.enabled 0 && (s.part 0).copying && s.ranks == [] && s.serving == [] && (s.part 0).csa[0]? == some one &&
      s.cores.all fun e => match e.2.grp with | some g => !(g.part == 0 && g.st == .running) | none => true) = true := by decide +kernel

/-- A halted group that may be saved, and a core whose partition has a Q0 gang that waits, or none (R69, R403, R407). -/
theorem witness_halted_and_tests :
    (let s := idle1 fun g => { g with st := .halted, frontier := [] }
     grp0 s (fun g => g.st == .halted && enginesDone s g && g.quiet) && writesDone (flushL1 s 0 0) 0 &&
      ((flushL1 s 0 0).core 0).shadow == none) = true ∧
    (match (saved1.core 0).shadow with | some g => g.st == .running | none => false) = true ∧
    (let s := fnState fn0
     s.enabled 0 && s.owns 0 (0 / 4) && !q0Waits s 0 && !s.owns 1 0 && s.grp? 1 == none && !(s.core 1).nxt.valid) = true ∧
    (let s := (oneFree false).modCore 0 fun c => { c with grp := none }
     s.grp? 0 == none && s.enabled 0 && s.owns 0 (0 / 4) && q0Waits s 0) = true := by decide +kernel

/-- A partition that is being copied, with a group that runs (R408). -/
theorem witness_migration_copies :
    (let s := { fnState fn0 with parts := [(0, { Part.reset with copying := true, enabled := true })] }
     s.enabled 0 && (s.part 0).copying && grp0 s (fun g => g.part == 0 && g.st == .running) && !(s.core 0).preq) = true ∧
    ((fnState fn0).enabled 0 && !((fnState fn0).part 0).copying) = true := by decide +kernel

/-- With no window of NOPRE open, whatever the clock. -/
theorem witness_no_window (n : Nat) : one.nopreOpen n = false := rfl

theorem witness_registers :
    State.reset.enabled 5 = false ∧ (fnState fn0).enabled 0 = true ∧
    (let s := { State.reset with pmb := [(errReg 2 0, 1)], banks := [(32 * 2 + 3, 0)] }
     (bits (s.reg (errReg 2 0)) 0 16).toNat = 1 ∧ bankErrors s (32 * 2 + 3) = 1 ∧ bit (s.reg (errReg 2 8)) 3 = false ∧
      s.banks.all (fun b => b.1 != 512 + (32 * 2 + 3)) = true) ∧
    (let s := { State.reset with pkg := { State.reset.pkg with segrdy := 3, stkrdy := 7 }, banks := [(512 + 32 * 2 + 3, 0)] }
     (s.banks.any fun b => b.1 == 512 + 32 * 2 + 3) && reencodeFits s 2) = true ∧
    (let s := { State.reset with pmb := [(0x1000, 1), (0x1010, 0xFFFFFFFF), (0x1030, 0x100000000)], banks := [(512 + 32 * 2 + 3, 0)] }
     (s.banks.any fun b => b.1 == 512 + 32 * 2 + 3) && !reencodeFits s 2) = true := by decide +kernel

theorem witness_register_reads :
    (State.reset.enabled 5 = false ∧ bit (0x1F : W64) 32 = false ∧ bit (1 : W64) 0 = true) ∧
    readRegister ({ State.reset with fns := [(3, fn0)] } : State) 3 8 = 0x14 ∧
    readRegister ({ State.reset with fns := [(3, fn0)] } : State) 3 0x28 = 0x14 ∧
    readRegister ({ State.reset with fns := [(3, fn0)] } : State) 3 0x50 = 0x14 ∧
    (0x14 ∉ queueOffsets ∧ 0x68 ∉ queueOffsets ∧ 0xFF ∉ queueOffsets ∧ 0x60 ∈ queueOffsets) ∧
    readRegister ((idle1 id).modCore 0 fun c => { c with busy := true }) 1025 0x40040 = 1 := by decide +kernel

/-- Offsets at the ends of the gaps of the management block (R21). -/
theorem witness_gaps : pmbGap 0x18 ∧ ¬pmbGap 0x20 ∧ pmbGap 0x28 ∧ ¬pmbGap 0x1000 ∧ pmbGap 0xD400 ∧ ¬pmbGap 0xE000 ∧ pmbGap 0x40000 := by
  unfold pmbGap
  omega

/-! ## Witnesses: words, memory, the step -/

def addWord : Instr := .iadd ⟨⟨7, false, false⟩, 5, .s32, false, .w 1, .w 2⟩

theorem witness_encoded_words : wellFormed addWord = true ∧ (encode addWord).isSome = true := by decide +kernel

theorem witness_decoded_words : decode 0x0170140202000000 = .ok addWord := by decide +kernel

/-- The next act turns to the word `w`. -/
def turnOf (w : Nat) : State := State.reset.withFetchWord 64 w

/-- The fetch of that act gives a word of which `P` holds. -/
def fetches (s : State) (P : W64 → Bool) : Bool :=
  match nextWord { State.passTo { s with agenda := s.agenda.tail } s.now with sel := (0, 0) } 0 0 with
  | some (_, .word w) => P w
  | _ => false

theorem witness_step :
    ((turnOf 0x0170140202000000).agenda = [(0, .turn 0 0)] ∧
      fetches (turnOf 0x0170140202000000) (fun w => decode w == .ok addWord) = true) ∧
    fetches (turnOf 0xFF00000000000000) (fun w => match decode w with | .rej _ => true | .ok _ => false) = true ∧
    infoOf .foldComplete = none ∧
    (let s := (on1 id).modCore 0 fun c => { c with run1 := some ⟨[0], []⟩ }
     grp0 s fun g => (dueCycle s 0 g 0).isSome && (dueCycle s 0 g 1).isSome) = true ∧
    (State.reset.reports = [] ∧ State.reset.tails = []) ∧
    ((turnOf 0).grp? 0 = some probeGroup ∧ (turnOf 0).run 0 0 = some ⟨List.range 32, []⟩) ∧
    (State.reset.agenda = [] ∧ defaultAct State.reset = none) := by decide +kernel

theorem witness_memory_step : Memory.wf State.reset.mem = true ∧ step State.reset = .next (State.reset.passTo 1) :=
  ⟨rfl, rfl⟩

/-! ## Words written out from the encodings of the spec (R98 to R111) -/

/-- A word decodes to an instruction, and the instruction encodes to that word. -/
def isWord (w : W64) (i : Instr) : Bool := decode w == .ok i && encode i == some w && wellFormed i

/-- Each kind of word under "integer". -/
theorem test_words_of_integer :
    [(0x0088000000000000, .nop ⟨8, true⟩),
      (0x0170140202000000, .iadd ⟨hh, 5, .s32, false, .w 1, .w 2⟩),
      (0x02940C09A5000120, .isub ⟨⟨9, false, true⟩, 3, .n32, true, .w 4, .i 5⟩),
      (0x0370200D54000300, .imul ⟨hh, 8, .n64, false, .w 6, .k 20⟩),
      (0x0470220407000100, .imulhi ⟨hh, 8, .n32, .b 2, .w 7⟩),
      (0x0570280202018020, .imad ⟨hh, 10, .s32, true, .w 1, .w 2, .w 3⟩),
      (0x0670280580000200, .imin ⟨hh, 10, .s64, .w 2, .i (-32)⟩),
      (0x07702805BF000100, .imax ⟨hh, 10, .n32, .w 2, .i 31⟩),
      (0x0870241000001900, .iunary hh .popc 9 .n32 false (.w 8)),
      (0x0970241007002000, .logic hh .orn 9 .s32 (.w 8) (.w 7)),
      (0x0A70200807001200, .shift hh .sar 8 .s64 (.w 4) (.w 7)),
      (0x0B70200807000100, .bfx hh 8 .n32 (.w 4) (.w 7)),
      (0x0C70200807048100, .bfi hh 8 .n32 (.w 4) (.w 7) (.w 9)),
      (0x0D70200807A48000, .perm hh 8 (.w 4) (.w 7) (.k 9)),
      (0x0E701B43A0008100, .sel hh 6 (.int .n32) (.i 1) (.i 0) ⟨false, 1⟩),
      (0x0F70081004000200, .icmp gy .eq 2 .s64 (.w 8) (.w 4)),
      (0x10700C020A000000, .plogic gy .and 3 ⟨false, 1⟩ ⟨true, 2⟩),
      (0x11700A8800000202, .lea hh 2 true 2 (.k 4) (.w 0)),
      (0x1270134000000000, .mov hh 4 false (.i 0)),
      (0x1370500400000000, .kset gy 20 (.w 2)),
      (0x14700C0400000000, .sreg hh 3 .lane),
      (0x1570080600000000, .fmtq hh 2 3)].all (fun x : W64 × Instr => isWord x.1 x.2) = true := by decide +kernel

/-- Each kind of word under "lane operations". -/
theorem test_words_of_lane_operations :
    [(0x1870200200001000, .ballot hh .mask 8 ⟨false, 1⟩),
      (0x19701C0DA3000900, .shuf hh .up 7 (.int .n32) (.w 6) (.i 3)),
      (0x1A701C0C00000440, .redux hh .add 7 .f32 .rz (.w 6)),
      (0x1B701C0C00000800, .scan hh .exc 7 (.int .s32) .rn (.w 6))].all (fun x : W64 × Instr => isWord x.1 x.2) = true := by decide +kernel

/-- Each kind of word under "control words". -/
theorem test_words_of_control_words :
    [(0x201003FFFFEFE800, .bra ⟨1, false⟩ ⟨-5, 0xFA⟩ false),
      (0x2170200000000000, .brx gy 8),
      (0x22700000000D0800, .call gy ⟨3, 0x42⟩),
      (0x2370200000000000, .callx gy 8),
      (0x2420000000000000, .ret ⟨2, false⟩),
      (0x2570000000000000, .exit gy),
      (0x2678000000000000, .yield ⟨7, true⟩),
      (0x2770140000000000, .trap gy 5),
      (0x2870180000000000, .brk gy 6),
      (0x2970000000000000, .region false),
      (0x2A700C0000000000, .nopreOpen gy 3),
      (0x2A70000000000001, .nopreShut gy),
      (0x2B70000000000000, .eret gy),
      (0x2C70000001000000, .csrr hh 0 .tcause),
      (0x2D70000802000000, .csrw gy .tpc (.w 4))].all (fun x : W64 × Instr => isWord x.1 x.2) = true := by decide +kernel

/-- Each kind of word under "floating point". -/
theorem test_words_of_floating_point :
    [(0x3070040403000580, .fadd ⟨hh, 1, .f16, .ru, false, .w 2, .w 3⟩),
      (0x317004059F000620, .fmul ⟨hh, 1, .b16, .rn, true, .w 2, .i (-1)⟩),
      (0x32A0280901CE8460, .ffma ⟨⟨10, false, false⟩, 10, .f32, .rz, true, .w 4, .b 1, .i (-3)⟩),
      (0x3370040403000C00, .fminmax hh .max 1 .f32 (.w 2) (.w 3)),
      (0x3470040805002400, .fcmp gy .gt 1 .f32 (.w 4) (.w 5)),
      (0x3570140200002CC0, .funary hh .rint 5 .f32 .rd (.w 1)),
      (0x3670140200002400, .fspec hh .lg2 5 .f32 (.w 1)),
      (0x3770280805000400, .twosum hh 10 (.w 4) (.w 5)),
      (0x3870040403000500, .hadd2 ⟨hh, 1, .f16, .rn, false, .w 2, .w 3⟩),
      (0x3970040403000600, .hmul2 ⟨hh, 1, .b16, .rn, false, .w 2, .w 3⟩),
      (0x3A70040403020540, .hfma2 ⟨hh, 1, .f16, .rz, false, .w 2, .w 3, .w 4⟩),
      (0x3B70100A00000044, .cvt hh 4 (.int .s32) (.flt .f32) .rz false (.w 5)),
      (0x3C70280800008400, .qpack hh 10 (.w 4) 1),
      (0x3D7018140C058401, .qunpack hh 6 true false (.w 10) (.w 12) (.w 11)),
      (0x3E70181400000600, .fclass hh 6 .b16 (.w 10))].all (fun x : W64 × Instr => isWord x.1 x.2) = true := by decide +kernel

/-- Each kind of word under "pair words and long immediates". -/
theorem test_words_of_pair_words_and_long_immediates :
    [(0x820809003C181600, .pairWord false (.iadd 4 (.w 9)) (.fmul 6 (.w 11))),
      (0x8C03A70530080101, .pairWord true (.shli 1 (.i 7) 5) (.movi8 2 0x80)),
      (0x707018002468ACF0, .movi hh 6 0x12345678),
      (0x7170180BFFFFFFFE, .iaddi ⟨hh, 6, .w 5, 0xFFFFFFFF⟩),
      (0x7270180A000001FE, .andi ⟨hh, 6, .w 5, 0xFF⟩),
      (0x73701A82000001FE, .ori ⟨hh, 6, .k 1, 0xFF⟩),
      (0x7470180A00000002, .xori ⟨hh, 6, .w 5, 1⟩)].all (fun x : W64 × Instr => isWord x.1 x.2) = true := by decide +kernel

/-- Each kind of word under "memory words". -/
theorem test_words_of_memory_words :
    [(0x4070301000004050, .ld hh 12 ⟨.w 8, 0x40⟩ .b32 false .s),
      (0x4170002806010060, .st gy ⟨.w 20, 0x100⟩ (.w 6) .b64 .o),
      (0x427010100C000794, .atom hh .cas 4 ⟨.w 8, 0⟩ (.w 12) .b128 .sys),
      (0x437000100600464C, .red gy .fadd ⟨.w 8, 4⟩ (.w 6) .b32 .stack),
      (0x4470141010FFFC2C, .gather hh 5 ⟨.w 8, -4⟩ 16 .b16 true .w),
      (0x4570001010000058, .scatter gy ⟨.w 8, 0⟩ 16 .b32 .u),
      (0x4670028A20000048, .cst gy ⟨.k 5, 0⟩ 32 .b32 .w),
      (0x4770001000000050, .pref gy ⟨.w 8, 0⟩ .b32 .s),
      (0x4870101000000078, .pginfo hh 4 ⟨.w 8, 0⟩),
      (0x4970001005008058, .tagset gy ⟨.w 8, 0x80⟩ (.w 5) .b32),
      (0x4C70101006000000, .appendRes hh 4 (.w 8) (.w 6)),
      (0x4C70101000000800, .appendQuery hh 4 (.w 8)),
      (0x4D70101000000000, .sealPlain hh 4 (.w 8)),
      (0x4D70101000000800, .sealBcast hh 4 (.w 8)),
      (0x4E70141000000000, .tailq hh 5 (.w 8))].all (fun x : W64 × Instr => isWord x.1 x.2) = true := by decide +kernel

/-- Each kind of word under "synchronisation words". -/
theorem test_words_of_synchronisation_words :
    [(0x5070000000000011, .fence gy .rel .ring),
      (0x5170000000000001, .barSync gy .core 0),
      (0x5170140400000802, .barArrive hh 5 .slice 2),
      (0x5170000405001002, .barWait gy .slice 2 (.w 5)),
      (0x5270000000000000, .phaseAdv gy),
      (0x5270000403000800, .phaseWait gy (.w 2) (.w 3)),
      (0x5270180400001000, .phaseRead hh 6 (.w 2)),
      (0x5370003DA4000000, .waitge gy false false (.w 30) (.i 4)),
      (0x5470036000000000, .backoff gy (.i 16))].all (fun x : W64 × Instr => isWord x.1 x.2) = true := by decide +kernel

/-- Each kind of word under "engine words". -/
theorem test_words_of_engine_words :
    [(0x5870001000000001, .copy gy 1 (.w 8)),
      (0x5970001400000002, .chain gy 2 (.w 10)),
      (0x5A7000260C000000, .qfence gy 0x13 (.w 12)),
      (0x5B70100200000000, .stgClaim hh 4 1),
      (0x5B70000206000800, .stgFill gy 1 (.w 6)),
      (0x5B70100200001000, .stgTake hh 4 1),
      (0x5B70000206001800, .stgFree gy 1 (.w 6)),
      (0x5B70100200002000, .stgQuery hh 4 1),
      (0x6070001000000000, .mma gy (.w 8)),
      (0x6170001400000000, .mdrain gy (.w 10)),
      (0x6270000808000000, .mprec gy 4 8),
      (0x6370100200000000, .mstat hh 4 .corr),
      (0x6470000000000001, .mzero gy true),
      (0x6870001C00000000, .coll gy (.w 14)),
      (0x6970100406000000, .cprog hh 4 2 (.w 6))].all (fun x : W64 × Instr => isWord x.1 x.2) = true := by decide +kernel

/-! ## Ill-formed instructions are refused -/

theorem test_ill_formed_words :
    ([.iadd ⟨hh, 5, .s64, false, .w 2, .w 4⟩, .imin ⟨hh, 4, .n64, .w 3, .w 4⟩, .imad ⟨hh, 4, .s64, false, .w 2, .w 4, .w 7⟩,
      .iunary hh .popc 9 .n32 true (.w 8), .iunary hh .abs 9 .s64 false (.w 8), .logic hh .and 4 .s64 (.w 2) (.w 3),
      .shift hh .shl 4 .n64 (.w 1) (.w 2), .bfx hh 3 .n64 (.w 2) (.w 4), .bfi hh 4 .n64 (.w 2) (.w 3) (.w 4),
      .sel hh 3 (.int .s64) (.w 2) (.w 4) ⟨false, 0⟩, .icmp gy .eq 2 .s64 (.w 8) (.w 5), .plogic gy .not 3 ⟨false, 1⟩ ⟨false, 2⟩,
      .lea hh 3 true 0 (.w 2) (.w 1), .mov hh 3 true (.w 2), .kset gy 15 (.w 2), .sreg hh 3 .clock,
      .shuf hh .idx 3 (.int .n64) (.w 2) (.w 1), .redux hh .and 4 .f32 .rn (.w 1), .redux hh .max 4 (.int .s32) .rz (.w 1),
      .scan hh .max 4 .f32 .rz (.w 1), .brx gy 7, .callx gy 9, .csrr hh 1 .tpc, .csrw gy .tpc (.w 3), .region true] : List Instr).all
      (fun i => !wellFormed i) = true := by decide +kernel

theorem test_ill_formed_float_memory_engine_words :
    ([.funary hh .floor 5 .f32 .rz (.w 1), .twosum hh 9 (.w 1) (.w 2), .hadd2 ⟨hh, 1, .f32, .rn, false, .w 2, .w 3⟩,
      .hfma2 ⟨hh, 1, .f32, .rn, false, .w 2, .w 3, .w 4⟩, .cvt hh 3 (.int .s64) (.flt .f32) .rz false (.w 2),
      .cvt hh 4 (.flt .f32) (.flt .f16) .rz false (.w 2), .qpack hh 3 (.w 4) 1, .qpack hh 4 (.i 1) 1,
      .pairWord false (.iadd 4 (.w 9)) (.fmul 8 (.w 11)), .pairWord false (.iadd 4 (.w 8)) (.fmul 6 (.w 4)),
      .ld hh 12 ⟨.w 9, 0⟩ .b32 false .w, .ld hh 5 ⟨.w 8, 0⟩ .b64 false .w, .ld hh 6 ⟨.w 8, 0⟩ .b128 false .w,
      .ld hh 5 ⟨.w 8, 0⟩ .b32 true .w, .st gy ⟨.i 0, 0⟩ (.w 6) .b32 .w, .st gy ⟨.w 8, 0⟩ (.w 5) .b64 .w,
      .atom hh .add 5 ⟨.w 8, 0⟩ (.w 6) .b16 .ring, .atom hh .add 4 ⟨.w 8, 0⟩ (.w 8) .b128 .ring,
      .gather hh 4 ⟨.w 8, 0⟩ 15 .b32 false .w, .gather hh 4 ⟨.w 8, 0⟩ 16 .b128 false .w, .scatter gy ⟨.w 8, 0⟩ 17 .b32 .w,
      .pref gy ⟨.b 1, 0⟩ .b32 .w, .pginfo hh 5 ⟨.w 8, 0⟩, .tagset gy ⟨.w 9, 0⟩ (.w 5) .b32, .appendRes hh 4 (.w 7) (.w 6),
      .appendQuery hh 5 (.w 8), .sealPlain hh 4 (.b 0), .tailq hh 5 (.i 0), .waitge gy false false (.w 31) (.i 4),
      .copy gy 0 (.b 1), .chain gy 0 (.w 9), .qfence gy 0 (.w 12), .qfence gy 1 (.w 13), .mma gy (.b 0), .mdrain gy (.w 1),
      .mprec gy 17 0, .mprec gy 0 17, .mstat hh 5 .corr, .coll gy (.b 3), .cprog hh 5 2 (.w 6)] : List Instr).all
      (fun i => !wellFormed i) = true := by decide +kernel

theorem test_ill_formed_events :
    ([.pipeChoose 512 0, .pipeChoose 0 2, .resultLanding 512 0, .waitStoreRelease 0 2048, .laneConvergence 0 64,
      .pageServed 64 0 ⟨[], [], [], [], []⟩, .fillArrival 600 0, .hostCxlMemAccess 0 64 (some []), .priResponse 0 16,
      .copyBlock 0 4, .commandCompletion 0 (.copy 4), .qfencePerformed 512, .mmaTileUpdate 0 16, .collMatch ⟨64, 0, 0⟩,
      .couch ⟨0, 16, 0⟩ 0 0 false, .submissionDoorbell 1025 0, .bridgeFailure 8, .segmentFailure 8, .ceThreshold 16 0,
      .reencodeDone 0 32 true, .clrcnt 16, .agethrWrite 1024 64 0, .resetWriteFromVf 1024 0] : List Instr).all
      (fun i => !wellFormed i) = true := by decide +kernel

/-- Words that the decoder refuses: an opcode that is not in the map, a reserved field that is not zero, a reserved select, a
pair whose destinations share a bank (R98, R101, R110, R111). -/
theorem test_refused_words :
    ([0x1670000000000000, 0x7F70000000000000, 0x0170140202000001, 0x0170178002000000,
      0x0170140202000700, 0x2970000000000010, 0x2978000000000000, 0x820809003C201600] : List W64).all
      (fun w => match decode w with | .rej _ => true | .ok _ => false) = true := by decide +kernel

/-! ## Single words with the results that the spec states -/

/-- w1, w2 and w3 of the thread. -/
def r123 (a b c : W32) : Group → Group := th0 fun t => reg 3 c (reg 2 b (reg 1 a t))

/-- Register `d` after the word, from given w1 to w3. -/
def gives (i : Instr) (a b c : W32) (d : Nat) (v : W32) : Bool := thread0 (after i (on1 (r123 a b c))) fun t => t.r d == v

/-- R142, R143, R147: the results stated there. -/
theorem test_integer_examples :
    gives (.iadd ⟨hh, 5, .s32, true, .w 1, .w 2⟩) 0x7FFFFFFF 1 0 5 0x7FFFFFFF = true ∧
    gives (.isub ⟨hh, 5, .n32, true, .w 1, .w 2⟩) 3 5 0 5 0 = true ∧
    gives (.imulhi ⟨hh, 5, .n32, .w 1, .w 2⟩) 0xFFFFFFFF 2 0 5 1 = true ∧
    gives (.imulhi ⟨hh, 5, .s32, .w 1, .w 2⟩) 0xFFFFFFFF 2 0 5 0xFFFFFFFF = true ∧
    gives (.iunary hh .abs 5 .s32 true (.w 1)) 0x80000000 0 0 5 0x7FFFFFFF = true ∧
    gives (.iunary hh .abs 5 .s32 false (.w 1)) 0x80000000 0 0 5 0x80000000 = true ∧
    gives (.perm hh 5 (.w 1) (.w 2) (.w 3)) 0x44332211 0x88776655 0x8F40 5 0x00FF5511 = true ∧
    gives (.iadd ⟨hh, 5, .n32, false, .i (-1), .i 0⟩) 0 0 0 5 0xFFFFFFFF = true := by decide +kernel

/-- R191: 1.0 and 2^-30 give 1.0 and the error 2^-30. -/
theorem test_twosum_example :
    gives (.twosum hh 10 (.w 1) (.w 2)) 0x3F800000 0x30800000 0 10 0x3F800000 = true ∧
    gives (.twosum hh 10 (.w 1) (.w 2)) 0x3F800000 0x30800000 0 11 0x30800000 = true := by decide +kernel

/-- R191: −1.5 × 2^104 and the largest F32 give a finite sum and the error −2^103, by hand. -/
theorem test_twosum_near_overflow :
    gives (.twosum hh 10 (.w 1) (.w 2)) 0xF3C00000 0x7F7FFFFF 0 10 0x7F7FFFFE = true ∧
    gives (.twosum hh 10 (.w 1) (.w 2)) 0xF3C00000 0x7F7FFFFF 0 11 0xF3000000 = true := by decide +kernel

/-- R99: a thread whose guard is false keeps its registers; NW = 1 suppresses the write. -/
theorem test_guard_and_nw :
    gives (.iadd ⟨⟨15, false, false⟩, 5, .s32, false, .w 1, .w 2⟩) 1 2 0 5 0 = true ∧
    gives (.iadd ⟨⟨7, false, true⟩, 5, .s32, false, .w 1, .w 2⟩) 1 2 0 5 0 = true ∧
    gives (.iadd ⟨hh, 5, .s32, false, .w 1, .w 2⟩) 1 2 0 5 3 = true := by decide +kernel

/-- R108: both halves of a pair word read before either writes. -/
theorem test_pair_reads_first :
    gives (.pairWord false (.iadd 1 (.w 2)) (.shli 3 (.w 2) 4)) 5 7 0 1 12 = true ∧
    gives (.pairWord false (.iadd 1 (.w 2)) (.shli 3 (.w 2) 4)) 5 7 0 3 112 = true := by decide +kernel

/-- R158, R184: 1.5 × 2 − 3 = 0 with one rounding; −1 as an inline integer is exact in F32 (R101). -/
theorem test_float_words :
    gives (.ffma ⟨hh, 5, .f32, .rn, false, .w 1, .i 2, .i (-3)⟩) 0x3FC00000 0 0 5 0 = true ∧
    gives (.fadd ⟨hh, 5, .f32, .rn, false, .i (-1), .i 0⟩) 0 0 0 5 0xBF800000 = true := by decide +kernel

/-- R165: the target is the PC plus eight times the signed word offset. -/
theorem test_branch_backwards :
    thread0 (after (.bra gy ⟨-2, 0x33⟩ false) (on1 (th0 fun t => { t with pc := 0x100, rsPc := 0x100 })))
      (fun t => t.pc == 0xF0 && t.prio == 0x33) = true := by decide +kernel

/-- R169: TRAP takes cause 0x10 with the register as TVAL, and TPC is the next word. -/
theorem test_trap_entry :
    thread0 (after (.trap gy 1) (on1 (r123 0xABCD 0 0)))
      (fun t => t.tm && t.tcause == 0x10 && t.tval == 0xABCD && t.tpc == 8 && t.pc == 0x1000) = true := by decide +kernel

/-- A word that the decoder refuses traps at the word (R113). -/
theorem test_illegal_word_traps :
    thread0 (match step ((State.reset.withFetchWord 64 0x1670000000000000).setReg 0xE000 0x1001) with | .next t => t | _ => State.reset)
      (fun t => t.tm && t.tpc == 0 && t.pc == 0x1000) = true := by decide +kernel

end Sys2Proof.Tests
end

section
/-! SUPPORT. The canonical form of memory (R2, log 3) is kept by every operation on the state, in the order of the
model's files, and so by every step. A lemma `f_canon` says that `f` keeps it. -/

namespace Sys2Proof.Machine

/-! ## The canonical form of memory (R2, log 3) -/

/-- Memory is in its canonical form. -/
def State.Canon (s : State) : Prop := Memory.wf s.mem = true

/-- The state that an outcome brings, if any, has its memory in canonical form. -/
def Out.Canon : Out → Prop
  | .next s => s.Canon
  | _ => True

/-- A state that may be there has its memory in canonical form. -/
def CanonOpt : Option State → Prop
  | some s => s.Canon
  | none => True

def Comp.Canon : Comp → Prop
  | .done s | .wait s _ | .iso s _ => s.Canon
  | .held => True

def FwRes.Canon : FwRes → Prop
  | .done s | .partly s _ | .wait s => s.Canon
  | .fail _ => True

def Verdict.Canon : Verdict → Prop
  | .wait s => s.Canon
  | _ => True

def Adv.Canon : Adv → Prop
  | .go s | .bad s _ _ | .iso s _ => s.Canon

def Look.Canon : Look → Prop
  | .below s | .later s | .done s | .fault s _ _ | .err s _ => s.Canon
  | .bad _ => True

/-! ### Lists of cells -/

theorem memWfFrom_iff (lo : Nat) (m : List Host.Cell) : memWfFrom lo m = true ↔
    m.Pairwise (fun a b => a.1 < b.1) ∧ ∀ c ∈ m, lo ≤ c.1 ∧ c.2 ≠ memDefault := by
  induction m generalizing lo with
  | nil => simp [memWfFrom]
  | cons e r ih =>
    obtain ⟨k, v⟩ := e
    simp only [memWfFrom, Bool.and_eq_true, decide_eq_true_eq, bne_iff_ne, ih, List.pairwise_cons, List.forall_mem_cons]
    constructor
    · rintro ⟨⟨hk, hv⟩, hp, hr⟩
      exact ⟨⟨fun c hc => (hr c hc).1, hp⟩, ⟨hk, hv⟩, fun c hc => ⟨by have := (hr c hc).1; omega, (hr c hc).2⟩⟩
    · rintro ⟨⟨hlt, hp⟩, ⟨hk, hv⟩, hr⟩
      exact ⟨⟨hk, hv⟩, hp, fun c hc => ⟨hlt c hc, (hr c hc).2⟩⟩

/-- The canonical form: addresses rise along the list, and no cell holds the default. -/
theorem wf_iff (m : List Host.Cell) :
    Memory.wf m = true ↔ m.Pairwise (fun a b => a.1 < b.1) ∧ ∀ c ∈ m, c.2 ≠ memDefault := by
  simp [Memory.wf, memWfFrom_iff]

theorem wf_filter (p : Host.Cell → Bool) {m : List Host.Cell} (h : Memory.wf m = true) :
    Memory.wf (m.filter p) = true := by
  obtain ⟨hp, hv⟩ := (wf_iff m).mp h
  exact (wf_iff _).mpr ⟨hp.filter p, fun c hc => hv c (List.mem_filter.mp hc).1⟩

theorem wf_append {l r : List Host.Cell} (hl : Memory.wf l = true) (hr : Memory.wf r = true)
    (h : ∀ a ∈ l, ∀ b ∈ r, a.1 < b.1) : Memory.wf (l ++ r) = true := by
  obtain ⟨hlp, hlv⟩ := (wf_iff l).mp hl
  obtain ⟨hrp, hrv⟩ := (wf_iff r).mp hr
  refine (wf_iff _).mpr ⟨List.pairwise_append.mpr ⟨hlp, hrp, h⟩, fun c hc => ?_⟩
  exact (List.mem_append.mp hc).elim (hlv c) (hrv c)

/-- Cells moved so that their addresses keep their order. -/
theorem wf_move (f : Nat → Nat) {m : List Host.Cell} (h : Memory.wf m = true)
    (hf : ∀ a ∈ m, ∀ b ∈ m, a.1 < b.1 → f a.1 < f b.1) : Memory.wf (m.map fun c => (f c.1, c.2)) = true := by
  obtain ⟨hp, hv⟩ := (wf_iff m).mp h
  refine (wf_iff _).mpr ⟨List.pairwise_map.mpr (hp.imp_of_mem fun ha hb hab => hf _ ha _ hb hab), fun c hc => ?_⟩
  obtain ⟨d, hd, rfl⟩ := List.mem_map.mp hc
  exact hv d hd

section
variable {s t : State}

theorem canon_of_mem_eq (e : t.mem = s.mem) (h : s.Canon) : t.Canon := by
  rw [State.Canon, e]; exact h

theorem canon_mem (h : Memory.wf s.mem = true) : s.Canon := h

theorem canon_ite {c : Prop} [Decidable c] {a b : State} (ha : a.Canon) (hb : b.Canon) :
    (if c then a else b).Canon := by
  split
  · exact ha
  · exact hb

theorem canon_foldl {α : Type} {f : State → α → State} {l : List α} (hf : ∀ s a, s.Canon → (f s a).Canon)
    (h : s.Canon) : (l.foldl f s).Canon := by
  induction l generalizing s with
  | nil => exact h
  | cons a l ih => exact ih (hf s a h)

theorem wf_foldl {α : Type} {f : List Host.Cell → α → List Host.Cell} {l : List α} {m : List Host.Cell}
    (hf : ∀ m a, Memory.wf m = true → Memory.wf (f m a) = true) (h : Memory.wf m = true) :
    Memory.wf (l.foldl f m) = true := by
  induction l generalizing m with
  | nil => exact h
  | cons a l ih => exact ih (hf m a h)

theorem canonEff_foldl {α : Type} {f : Eff → α → Eff} {l : List α} {e : Eff}
    (hf : ∀ e a, e.s.Canon → (f e a).s.Canon) (h : e.s.Canon) : (l.foldl f e).s.Canon := by
  induction l generalizing e with
  | nil => exact h
  | cons a l ih => exact ih (hf e a h)

theorem canon_getD {o : Option State} (ho : CanonOpt o) (h : s.Canon) : (o.getD s).Canon := by
  cases o with
  | none => exact h
  | some t => exact ho

theorem canon_fst {α : Type} {x : State × α} {a : α} (e : x = (t, a)) (h : x.1.Canon) : t.Canon := by
  subst e; exact h

theorem canon_snd {α : Type} {x : α × State} {a : α} (e : x = (a, t)) (h : x.2.Canon) : t.Canon := by
  subst e; exact h

theorem canon_some {x : Option State} (e : x = some t) (h : CanonOpt x) : t.Canon := by
  subst e; exact h

theorem Comp.canon_done {x : Comp} (e : x = .done t) (h : x.Canon) : t.Canon := by
  subst e; exact h

theorem Comp.canon_wait {x : Comp} {n} (e : x = .wait t n) (h : x.Canon) : t.Canon := by
  subst e; exact h

theorem Comp.canon_iso {x : Comp} {v} (e : x = .iso t v) (h : x.Canon) : t.Canon := by
  subst e; exact h

theorem FwRes.canon_done {x : FwRes} (e : x = .done t) (h : x.Canon) : t.Canon := by
  subst e; exact h

theorem FwRes.canon_wait {x : FwRes} (e : x = .wait t) (h : x.Canon) : t.Canon := by
  subst e; exact h

theorem Verdict.canon_wait {x : Verdict} (e : x = .wait t) (h : x.Canon) : t.Canon := by
  subst e; exact h

theorem Adv.canon_go {x : Adv} (e : x = .go t) (h : x.Canon) : t.Canon := by
  subst e; exact h

theorem Adv.canon_bad {x : Adv} {c v} (e : x = .bad t c v) (h : x.Canon) : t.Canon := by
  subst e; exact h

theorem Adv.canon_iso {x : Adv} {v} (e : x = .iso t v) (h : x.Canon) : t.Canon := by
  subst e; exact h

theorem Look.canon_below {x : Look} (e : x = .below t) (h : x.Canon) : t.Canon := by
  subst e; exact h

theorem Look.canon_later {x : Look} (e : x = .later t) (h : x.Canon) : t.Canon := by
  subst e; exact h

theorem Look.canon_done {x : Look} (e : x = .done t) (h : x.Canon) : t.Canon := by
  subst e; exact h

theorem Look.canon_fault {x : Look} {f a} (e : x = .fault t f a) (h : x.Canon) : t.Canon := by
  subst e; exact h

theorem Look.canon_err {x : Look} {v} (e : x = .err t v) (h : x.Canon) : t.Canon := by
  subst e; exact h

theorem Out.canon_next {x : Out} (e : x = .next t) (h : x.Canon) : t.Canon := by
  subst e; exact h

/-! ### The named operations on the state -/

theorem setCore_canon {c x} (hs : s.Canon) : (State.setCore s c x).Canon :=
  hs

theorem modCore_canon {c f} (hs : s.Canon) : (State.modCore s c f).Canon :=
  setCore_canon hs

theorem setGrp_canon {c g} (hs : s.Canon) : (State.setGrp s c g).Canon :=
  modCore_canon hs

theorem modGrp_canon {c f} (hs : s.Canon) : (State.modGrp s c f).Canon := by
  unfold State.modGrp
  split
  · exact hs
  · exact setGrp_canon hs

theorem setPart_canon {p x} (hs : s.Canon) : (State.setPart s p x).Canon :=
  hs

theorem modPart_canon {p f} (hs : s.Canon) : (State.modPart s p f).Canon :=
  setPart_canon hs

theorem setFn_canon {f x} (hs : s.Canon) : (State.setFn s f x).Canon :=
  hs

theorem modFn_canon {f g} (hs : s.Canon) : (State.modFn s f g).Canon :=
  setFn_canon hs

theorem setReg_canon {off v} (hs : s.Canon) : (State.setReg s off v).Canon :=
  hs

theorem draw_canon (hs : s.Canon) : (State.draw s).2.Canon :=
  hs

/-! ### Translation -/

theorem cacheEntry_canon {e} (hs : s.Canon) : (cacheEntry s e).Canon :=
  canon_ite hs (canon_ite hs hs)

theorem cacheWalk_canon {p h ia} (hs : s.Canon) : (cacheWalk s p h ia).Canon :=
  canon_foldl (fun _ _ hs => cacheEntry_canon hs) hs

theorem noteAts_canon {p pasid page} (hs : s.Canon) : (noteAts s p pasid page).Canon := by
  unfold noteAts
  split
  · exact canon_ite hs hs
  · exact hs

theorem keepHme_canon {p ia} (hs : s.Canon) : (keepHme s p ia).Canon := by
  unfold keepHme
  split
  · exact canon_ite hs (canon_ite hs hs)
  · exact hs

theorem noteWalk_canon {p pasid ia} (hs : s.Canon) : (noteWalk s p pasid ia).Canon := by
  unfold noteWalk
  dsimp only
  split
  · refine canon_ite (noteAts_canon (keepHme_canon hs)) ?_
    refine canon_ite (keepHme_canon hs) ?_
    split
    · exact canon_of_mem_eq rfl (canon_ite (cacheWalk_canon (keepHme_canon hs))
        (memWrite64_wf _ _ (cacheWalk_canon (keepHme_canon hs))))
    · exact keepHme_canon hs
  · exact keepHme_canon hs

theorem noteDirty_canon {l} (hs : s.Canon) : (noteDirty s l).Canon :=
  canon_ite hs (memWrite64_wf _ _ hs)

/-! ### Homes -/

theorem setHomeLine_canon {p ia h} (hs : s.Canon) : (State.setHomeLine s p ia h).Canon :=
  hs

theorem setTail_canon {l t} (hs : s.Canon) : (State.setTail s l t).Canon :=
  hs

theorem halveDue_canon (hs : s.Canon) : (halveDue s).Canon :=
  canon_ite hs hs

theorem putHot_canon {h} (hs : s.Canon) : (putHot s h).Canon :=
  canon_ite hs hs

theorem bumpHot_canon {p ia src port fb thr} (hs : s.Canon) : (bumpHot s p ia src port fb thr).Canon :=
  canon_ite hs (putHot_canon hs)

theorem noteHot_canon {p seg hseg ia} (hs : s.Canon) : (noteHot s p seg hseg ia).Canon :=
  canon_ite hs (bumpHot_canon (canon_foldl (fun _ _ hs => bumpHot_canon hs) (halveDue_canon hs)))

theorem bumpLine_canon {p ia writer} (hs : s.Canon) : (bumpLine s p ia writer).Canon := by
  unfold bumpLine
  extract_lets h seq out keep s1 s2
  have h1 : s1.Canon := setHomeLine_canon hs
  exact canon_ite (modCore_canon h1) h1

theorem joinSharers_canon {p ia core} (hs : s.Canon) : (joinSharers s p ia core).Canon :=
  canon_ite hs (canon_ite (setHomeLine_canon hs) (setHomeLine_canon hs))

theorem wroteWords_canon {p core line addr ws} (hs : s.Canon) : (wroteWords s p core line addr ws).Canon :=
  hs

theorem takeOwned_canon {p core line addr m} (hs : s.Canon) : (takeOwned s p core line addr m).Canon := by
  unfold takeOwned
  split
  · exact hs
  · exact canon_ite hs
      (joinSharers_canon (setHomeLine_canon
      (modCore_canon (wroteWords_canon (wf_foldl (fun _ _ hs => memWriteN_wf _ _ hs) hs)))))

theorem writeBackWords_canon {p core line addr m} (hs : s.Canon) : (writeBackWords s p core line addr m).Canon :=
  canon_ite (takeOwned_canon hs) (bumpLine_canon (takeOwned_canon hs))

theorem recallMask_canon {p ia m} (hs : s.Canon) : (recallMask s p ia m).Canon := by
  unfold recallMask
  split
  · exact hs
  · exact canon_foldl (fun _ _ hs => writeBackWords_canon hs) hs

theorem clearPoison_canon {addr n} (hs : s.Canon) : (clearPoison s addr n).Canon :=
  hs

theorem performPosted_canon {x} (hs : s.Canon) : (performPosted s x).Canon := by
  unfold performPosted
  extract_lets s1 s2
  have h1 : s1.Canon := clearPoison_canon (memWriteN_wf _ _ hs)
  have h2 : s2.Canon := canon_ite (bumpLine_canon h1) h1
  exact canon_ite (modGrp_canon h2) h2

theorem flushPosted_canon {f} (hs : s.Canon) : (flushPosted s f).Canon :=
  canon_foldl (fun _ _ hs => performPosted_canon hs) hs

theorem flushBefore_canon {p t ia} (hs : s.Canon) : (flushBefore s p t ia).Canon :=
  canon_ite (flushPosted_canon hs) (canon_ite (flushPosted_canon hs) hs)

theorem postStore_canon {p writer t ia bs} (hs : s.Canon) : (postStore s p writer t ia bs).Canon :=
  canon_ite (modCore_canon hs) hs

theorem writeAt_canon {p writer t ia bs} (hs : s.Canon) : (writeAt s p writer t ia bs).Canon := by
  unfold writeAt
  refine canon_ite (clearPoison_canon (memWriteN_wf _ _ hs)) ?_
  split
  · exact bumpLine_canon (clearPoison_canon (memWriteN_wf _ _ hs))
  · dsimp only
    split
    · exact noteDirty_canon (bumpLine_canon (clearPoison_canon (memWriteN_wf _ _ hs)))
    · exact setTail_canon (noteDirty_canon (bumpLine_canon (clearPoison_canon (memWriteN_wf _ _ hs))))

theorem storeAt_canon {p writer t ia bs} (hs : s.Canon) : (storeAt s p writer t ia bs).Canon :=
  canon_ite (writeAt_canon hs) (postStore_canon hs)

theorem learnReps_canon {p l ia core} (hs : s.Canon) : (learnReps s p l ia core).Canon :=
  canon_ite hs hs

theorem lowerRepl_canon {l n} (hs : s.Canon) : (lowerRepl s l n).Canon := by
  unfold lowerRepl
  split
  · exact setTail_canon hs
  · exact hs

theorem unlearn_canon {p page stack} (hs : s.Canon) : (unlearn s p page stack).Canon :=
  hs

theorem startDraining_canon {p page l out} (hs : s.Canon) : (startDraining s p page l out).Canon :=
  lowerRepl_canon (canon_of_mem_eq rfl (canon_foldl (fun _ _ hs => unlearn_canon hs) hs))

theorem keepL2_canon {p f slice} (hs : s.Canon) : (keepL2 s p f slice).Canon :=
  hs

theorem dropPoisoned_canon {p seg t ia n who} (hs : s.Canon) : (dropPoisoned s p seg t ia n who).Canon := by
  unfold dropPoisoned
  split
  · exact hs
  · exact canon_ite hs (startDraining_canon hs)

theorem readHome_canon {p seg t ia n who} (hs : s.Canon) : (readHome s p seg t ia n who).1.Canon := by
  unfold readHome
  split
  · dsimp only
    split
    · exact recallMask_canon hs
    · split <;> exact dropPoisoned_canon (recallMask_canon hs)
  · dsimp only
    split
    · exact flushBefore_canon hs
    · split <;> exact dropPoisoned_canon (flushBefore_canon hs)

theorem loadHome_canon {p seg a ia who} (hs : s.Canon) : (loadHome s p seg a ia who).1.Canon := by
  unfold loadHome
  split
  · exact hs
  · split <;> try exact hs
    refine readHome_canon ?_
    split
    · exact learnReps_canon (noteHot_canon (noteWalk_canon hs))
    · exact noteHot_canon (noteWalk_canon hs)

theorem engineStore_canon {p seg core a ia bs} (hs : s.Canon) : (engineStore s p seg core a ia bs).1.Canon := by
  unfold engineStore
  split <;> try exact hs
  exact storeAt_canon
    (canon_ite (recallMask_canon (noteHot_canon (noteWalk_canon hs))) (noteHot_canon (noteWalk_canon hs)))

theorem atomAt_canon {p writer t ia n op b d returns} (hs : s.Canon) :
    (atomAt s p writer t ia n op b d returns).1.Canon := by
  unfold atomAt
  extract_lets s1 bad s2
  have h1 : s1.Canon := canon_ite (recallMask_canon hs) (flushBefore_canon hs)
  have h2 : s2.Canon := canon_ite h1 h1
  clear_value bad
  split
  · exact h1
  · cases bad with
    | some c => exact h2
    | none => exact writeAt_canon h2

theorem engineAtom_canon {p seg core a ia op b d} (hs : s.Canon) : (engineAtom s p seg core a ia op b d).1.Canon := by
  unfold engineAtom
  split <;> try exact hs
  exact atomAt_canon (noteHot_canon (noteWalk_canon hs))

theorem spadWrite_canon {core off bs} (hs : s.Canon) : (spadWrite s core off bs).Canon :=
  modGrp_canon hs

/-! ### Regions -/

theorem setRun_canon {core pipe r} (hs : s.Canon) : (State.setRun s core pipe r).Canon :=
  modCore_canon hs

theorem endRun_canon {core pipe fall} (hs : s.Canon) : (endRun s core pipe fall).Canon := by
  unfold endRun
  split
  · exact setRun_canon (setGrp_canon hs)
  · exact setRun_canon hs

theorem quitRun_canon {core tid} (hs : s.Canon) : (quitRun s core tid).Canon := by
  unfold quitRun
  split
  · split
    · dsimp only
      split
      · exact canon_ite (endRun_canon (endRun_canon hs)) (endRun_canon hs)
      · exact endRun_canon hs
    · dsimp only
      split
      · exact canon_ite (endRun_canon hs) hs
      · exact hs
  · dsimp only
    split
    · exact canon_ite (endRun_canon hs) hs
    · exact hs

theorem makeRoom_canon {core line} (hs : s.Canon) : (makeRoom s core line).Canon := by
  unfold makeRoom
  split
  · exact hs
  · refine canon_ite hs ?_
    split
    · exact hs
    · refine modCore_canon ?_
      split
      · exact writeBackWords_canon hs
      · exact hs

theorem ownStore_canon {p core t ia bs} (hs : s.Canon) : (ownStore s p core t ia bs).Canon := by
  unfold ownStore
  refine modCore_canon ?_
  split
  · exact noteDirty_canon (setHomeLine_canon (makeRoom_canon (recallMask_canon hs)))
  · exact setHomeLine_canon (makeRoom_canon (recallMask_canon hs))

theorem setTags_canon {p core t ia n tag} (hs : s.Canon) : (setTags s p core t ia n tag).Canon := by
  unfold setTags
  refine canon_ite hs ?_
  refine canon_foldl (fun _ _ hs => bumpLine_canon hs) ?_
  refine modCore_canon ?_
  split
  · exact noteDirty_canon (canon_of_mem_eq rfl (canon_foldl (fun _ _ hs => recallMask_canon hs) hs))
  · exact canon_of_mem_eq rfl (canon_foldl (fun _ _ hs => recallMask_canon hs) hs)

theorem homeStore_canon {core g e ia t u} (hs : s.Canon) : (homeStore s core g e ia t u).Canon := by
  unfold homeStore
  extract_lets p m fresh s1 s2
  have h2 : s2.Canon := storeAt_canon (canon_ite (recallMask_canon (takeOwned_canon hs)) hs)
  exact canon_ite (modCore_canon h2) (canon_ite (modCore_canon h2) h2)

theorem performStore_canon {core g e} (hs : s.Canon) : (performStore s core g e).Canon := by
  unfold performStore
  split <;> try exact hs
  · exact spadWrite_canon hs
  · split
    · exact hs
    · split
      · exact setTags_canon (noteHot_canon hs)
      · dsimp only
        split
        · exact ownStore_canon (noteHot_canon hs)
        · exact homeStore_canon (noteHot_canon hs)
        · exact homeStore_canon (noteHot_canon hs)

theorem freeApplied_canon {core} (hs : s.Canon) : (freeApplied s core).Canon :=
  modGrp_canon hs

theorem storeEntry_canon {core g e} (hs : s.Canon) : (storeEntry s core g e).Canon :=
  freeApplied_canon (modGrp_canon (performStore_canon hs))

theorem showStore_canon {core e} (hs : s.Canon) : (showStore s core e).Canon := by
  unfold showStore
  split
  · exact canon_ite (modGrp_canon (setCore_canon hs)) hs
  · exact hs

theorem showBehind_canon {core e} (hs : s.Canon) : (showBehind s core e).Canon := by
  unfold showBehind
  split
  · exact hs
  · exact canon_foldl (fun _ _ hs => showStore_canon hs) hs

theorem startDrain_canon {core e} (hs : s.Canon) : (startDrain s core e).Canon := by
  unfold startDrain
  split
  · exact hs
  · exact canon_foldl (fun _ _ hs => showStore_canon hs) (setGrp_canon hs)

theorem drainRegion_canon {core tid} (hs : s.Canon) : (drainRegion s core tid).Canon := by
  unfold drainRegion
  split
  · exact hs
  · exact canon_foldl (fun _ _ hs => startDrain_canon hs) hs

theorem withdraw_canon {core g e} (hs : s.Canon) : (withdraw s core g e).Canon := by
  unfold withdraw
  split
  · split
    · split
      · exact setTail_canon hs
      · exact hs
    · exact hs
  · exact hs

theorem dropSi_canon {core host} (hs : s.Canon) : (dropSi s core host).Canon := by
  unfold dropSi
  split
  · exact hs
  · exact modCore_canon hs

theorem discardRegion_canon {core tid} (hs : s.Canon) : (discardRegion s core tid).Canon := by
  unfold discardRegion
  split
  · exact hs
  · exact modGrp_canon (dropSi_canon (canon_foldl (fun _ _ hs => withdraw_canon hs) hs))

theorem dropStale_canon {p core ia n} (hs : s.Canon) : (dropStale s p core ia n).Canon :=
  modCore_canon hs

theorem expire_canon {core unit p ia} (hs : s.Canon) : CanonOpt (expire s core unit p ia) := by
  unfold expire
  split
  · exact hs
  · exact trivial

theorem sendWaiting_canon {n} (hs : s.Canon) : (sendWaiting n s).Canon := by
  induction n generalizing s with
  | zero => exact hs
  | succ n ih =>
    unfold sendWaiting
    split
    · exact hs
    · exact ih hs

theorem askPri_canon {p ctx page} (hs : s.Canon) : (askPri s p ctx page).Canon :=
  canon_ite hs (sendWaiting_canon hs)

theorem startService_canon {p ctx page} (hs : s.Canon) : (startService s p ctx page).Canon :=
  canon_ite (askPri_canon (canon_ite hs hs)) (canon_ite hs hs)

theorem noteAsk_canon {p page w} (hs : s.Canon) : (State.noteAsk s p page w).Canon :=
  canon_ite hs hs

theorem State.settle_canon {p w} (hs : s.Canon) : (State.settle s p w).Canon :=
  hs

/-! ### Functions, contexts and completions -/

theorem unlessLate_canon {α : Type} {core p ia} {f : Unit → State × HAns α} (hs : s.Canon) (hf : (f ()).1.Canon) :
    (unlessLate s core p ia f).1.Canon := by
  unfold unlessLate
  split
  · exact canon_some ‹_› (expire_canon hs)
  · exact hf

theorem vaRead_canon {p seg core wins va n} (hs : s.Canon) : (vaRead s p seg core wins va n).1.Canon := by
  unfold vaRead
  split
  · exact hs
  · exact unlessLate_canon hs (loadHome_canon hs)

theorem vaWrite_canon {p seg core wins va bs} (hs : s.Canon) : (vaWrite s p seg core wins va bs).1.Canon := by
  unfold vaWrite
  split
  · exact hs
  · exact unlessLate_canon hs (engineStore_canon hs)

theorem vaAtom_canon {p seg core wins va op b d} (hs : s.Canon) : (vaAtom s p seg core wins va op b d).1.Canon := by
  unfold vaAtom
  split
  · exact hs
  · exact unlessLate_canon hs (engineAtom_canon hs)

theorem mqTry_canon {fn e} (hs : s.Canon) : CanonOpt (mqTry s fn e) := by
  unfold mqTry
  split
  · exact setFn_canon hs
  · dsimp only
    split
    · exact setFn_canon (canon_fst ‹_› (vaWrite_canon hs))
    · exact trivial
    · exact setFn_canon hs

theorem mqWrite_canon {fn e} (hs : s.Canon) : (mqWrite s fn e).Canon :=
  canon_getD (mqTry_canon hs) (modFn_canon hs)

theorem flushHeld_canon {n fn} (hs : s.Canon) : (flushHeld n s fn).Canon := by
  induction n generalizing s with
  | zero => exact hs
  | succ n ih =>
    unfold flushHeld
    dsimp only
    split
    · exact hs
    · split
      · exact hs
      · split
        · exact ih (canon_some ‹_› (mqTry_canon (setFn_canon hs)))
        · exact hs

theorem post_canon {fn kind code seq detail lid} (hs : s.Canon) : (post s fn kind code seq detail lid).Canon :=
  canon_ite (setFn_canon hs)
    (canon_ite (mqWrite_canon hs) (canon_ite (flushHeld_canon (setFn_canon hs)) (setFn_canon hs)))

theorem retryHeld_canon (hs : s.Canon) : (retryHeld s).Canon :=
  canon_foldl (fun _ _ hs => flushHeld_canon hs) hs

theorem completeAt_canon {p seg core wins compva weight code engine cseq mq} (hs : s.Canon) :
    (completeAt s p seg core wins compva weight code engine cseq mq).Canon := by
  unfold completeAt
  split
  · split
    · exact post_canon (State.settle_canon hs)
    · dsimp only
      split
      · exact trivial
      · split
        · exact noteAsk_canon hs
        · exact post_canon (State.settle_canon (canon_fst ‹_› (vaAtom_canon hs)))
      · exact State.settle_canon (canon_fst ‹_› (vaAtom_canon hs))
      · exact State.settle_canon (canon_fst ‹_› (vaAtom_canon hs))
  · split
    · exact post_canon (State.settle_canon hs)
    · dsimp only
      split
      · exact trivial
      · split
        · exact noteAsk_canon hs
        · exact post_canon (State.settle_canon (canon_fst ‹_› (vaAtom_canon hs)))
      · exact State.settle_canon (canon_fst ‹_› (vaAtom_canon hs))
      · split
        · exact trivial
        · split
          · exact noteAsk_canon hs
          · exact post_canon (State.settle_canon (canon_fst ‹_› (vaAtom_canon (canon_fst ‹_› (vaAtom_canon hs)))))
        · exact State.settle_canon (canon_fst ‹_› (vaAtom_canon (canon_fst ‹_› (vaAtom_canon hs))))
        · exact State.settle_canon (canon_fst ‹_› (vaAtom_canon (canon_fst ‹_› (vaAtom_canon hs))))

theorem complete_canon {p seg core wins compva weight code engine cseq mq} (hs : s.Canon) :
    (complete s p seg core wins compva weight code engine cseq mq).Canon := by
  unfold complete
  split
  · exact hs
  · exact completeAt_canon hs

theorem noteStop_canon {p lid code} (hs : s.Canon) : (noteStop s p lid code).Canon :=
  modPart_canon hs

theorem freezeGroup_canon {core addr} (hs : s.Canon) : (freezeGroup s core addr).Canon := by
  unfold freezeGroup
  split
  · exact hs
  · exact post_canon (post_canon (noteStop_canon (modCore_canon (modGrp_canon (endRun_canon (endRun_canon hs))))))

theorem reportFn_canon {fn addr} (hs : s.Canon) : (reportFn s fn addr).Canon :=
  canon_ite (post_canon hs) (post_canon (post_canon hs))

theorem reportFreeze_canon {g code addr} (hs : s.Canon) : (reportFreeze s g code addr).Canon :=
  post_canon (post_canon (noteStop_canon hs))

/-! ### Issue -/

theorem fetchAt_canon {core g pc} (hs : s.Canon) : (fetchAt s core g pc).1.Canon := by
  unfold fetchAt
  dsimp only
  split
  · exact hs
  · split
    · exact hs
    · split
      · exact canon_some ‹_› (expire_canon hs)
      · split <;> try exact hs
        · split
          · split
            · exact draw_canon (dropPoisoned_canon (noteWalk_canon hs))
            · exact dropPoisoned_canon (noteWalk_canon hs)
          · split
            · exact modCore_canon (noteHot_canon (dropPoisoned_canon (noteWalk_canon hs)))
            · split
              · exact dropPoisoned_canon (noteWalk_canon hs)
              · exact draw_canon (dropPoisoned_canon (noteWalk_canon hs))
        · split <;> exact hs

theorem passTo_canon {c} (hs : s.Canon) : (State.passTo s c).Canon :=
  canon_ite hs hs

theorem leaveWaits_canon {core tids f} (hs : s.Canon) : (leaveWaits s core tids f).Canon := by
  unfold leaveWaits
  split
  · exact hs
  · exact modGrp_canon (modCore_canon (canon_ite (passTo_canon hs) hs))

theorem moveOut_canon {core tid f} (hs : s.Canon) : (moveOut s core tid f).Canon := by
  unfold moveOut
  split
  · exact leaveWaits_canon hs
  · exact modGrp_canon hs

theorem abortRegion_canon {core tid} (hs : s.Canon) : (abortRegion s core tid).Canon :=
  moveOut_canon (discardRegion_canon (quitRun_canon hs))

theorem trapNow_canon {core tid} (hs : s.Canon) : (trapNow s core tid).Canon := by
  unfold trapNow
  split
  · exact hs
  · exact canon_ite (moveOut_canon hs) hs

theorem faultWait_canon {core tid x} (hs : s.Canon) : (faultWait s core tid x).Canon := by
  unfold faultWait
  split
  · exact hs
  · exact modGrp_canon (startService_canon hs)

theorem faultTrap_canon {core tid x} (hs : s.Canon) : (faultTrap s core tid x).Canon := by
  unfold faultTrap
  split
  · exact hs
  · exact moveOut_canon hs

theorem settle_canon {core tid} (hs : s.Canon) : (settle s core tid).Canon := by
  unfold settle
  split
  · exact hs
  · split
    · exact hs
    · exact canon_ite hs
        (canon_ite (faultWait_canon (discardRegion_canon (quitRun_canon hs)))
        (faultTrap_canon (discardRegion_canon (quitRun_canon hs))))

theorem setFree_canon {core pipe c} (hs : s.Canon) : (setFree s core pipe c).Canon :=
  modCore_canon hs

theorem chooseOne_canon {core pipe} (hs : s.Canon) : (chooseOne s core pipe).Canon := by
  unfold chooseOne
  split
  · exact hs
  · refine canon_ite hs ?_
    dsimp only
    split
    · exact setGrp_canon hs
    · exact canon_ite (setFree_canon (setGrp_canon (setGrp_canon hs))) (setRun_canon (setGrp_canon (setGrp_canon hs)))

theorem choose_canon {core pipe} (hs : s.Canon) : (choose s core pipe).Canon := by
  unfold choose
  split
  · exact hs
  · exact canon_ite hs
      (canon_ite (chooseOne_canon (canon_ite (passTo_canon hs) (chooseOne_canon (passTo_canon hs))))
      (canon_ite (passTo_canon hs) (chooseOne_canon (passTo_canon hs))))

theorem regEff_canon {x : Ctx} {puts} (hx : x.s.Canon) : (regEff x puts).s.Canon :=
  setGrp_canon hx

theorem perThread_canon {f} {x : Ctx} (hx : x.s.Canon) : (perThread f x).s.Canon :=
  regEff_canon hx

theorem serveFates_canon {core fs} (hs : s.Canon) : (serveFates s core fs).Canon := by
  unfold serveFates
  refine canon_foldl (fun _ _ hs => ?_) hs
  split
  split
  · exact startService_canon hs
  · exact hs

theorem finish_canon {x : Ctx} {bad} {e : Eff} (he : e.s.Canon) : (finish x bad e).Canon := by
  unfold finish
  split
  · dsimp only
    split
    · exact serveFates_canon he
    · exact canon_ite (freezeGroup_canon (endRun_canon (setGrp_canon (serveFates_canon he))))
        (setRun_canon (setGrp_canon (serveFates_canon he)))
  · dsimp only
    split
    · exact serveFates_canon he
    · exact canon_ite (endRun_canon (setGrp_canon (serveFates_canon he)))
        (setRun_canon (setGrp_canon (serveFates_canon he)))

theorem stopBefore_canon {core pipe g r i} (hs : s.Canon) : (stopBefore s core pipe g r i).Canon :=
  canon_ite (setRun_canon (setGrp_canon hs)) (endRun_canon (setGrp_canon hs))

theorem issueCtx_canon {i raw rej g r} (hs : s.Canon) : (issueCtx i raw rej s g r).1.s.Canon :=
  setGrp_canon (setFree_canon (passTo_canon hs))

theorem issueWith_canon {i raw rej} {body : Ctx → Eff} (hs : s.Canon) (hb : ∀ x, x.s.Canon → (body x).s.Canon) :
    (issueWith i raw rej body s).Canon := by
  unfold issueWith
  split
  · refine canon_ite hs (canon_ite (stopBefore_canon hs) ?_)
    exact finish_canon (hb _ (issueCtx_canon hs))
  · exact hs

theorem issue_canon {i} {body : Ctx → Eff} (hs : s.Canon) (hb : ∀ x, x.s.Canon → (body x).s.Canon) :
    (issue i body s).Canon := by
  unfold issue
  split
  · exact issueWith_canon hs hb
  · exact hs

theorem issueBad_canon {raw rej} (hs : s.Canon) : (issueBad raw rej s).Canon :=
  issueWith_canon hs (fun _ hs => hs)

theorem issueUnfetched_canon {f} (hs : s.Canon) : (issueUnfetched f s).Canon := by
  unfold issueUnfetched
  refine issueWith_canon hs (fun _ hs => ?_)
  split <;> try exact hs
  dsimp only
  split <;> exact hs

theorem nextWord_canon {core pipe} {t : State} {f} (e : nextWord s core pipe = some (t, f)) (hs : s.Canon) :
    t.Canon := by
  unfold nextWord at e
  split at e
  · split at e
    · cases e
    · exact canon_fst (Option.some.inj e) (fetchAt_canon hs)
  · cases e

/-! ### Integer words -/

theorem execNop_canon {h} (hs : s.Canon) : (execNop h s).Canon :=
  issue_canon hs (fun _ hs => hs)

theorem execIadd_canon {o} (hs : s.Canon) : (execIadd o s).Canon :=
  issue_canon hs (fun _ hs => perThread_canon hs)

theorem execIsub_canon {o} (hs : s.Canon) : (execIsub o s).Canon :=
  issue_canon hs (fun _ hs => perThread_canon hs)

theorem execImul_canon {o} (hs : s.Canon) : (execImul o s).Canon :=
  issue_canon hs (fun _ hs => perThread_canon hs)

theorem execImulhi_canon {o} (hs : s.Canon) : (execImulhi o s).Canon :=
  issue_canon hs (fun _ hs => perThread_canon hs)

theorem execImad_canon {o} (hs : s.Canon) : (execImad o s).Canon :=
  issue_canon hs (fun _ hs => perThread_canon hs)

theorem execImin_canon {o} (hs : s.Canon) : (execImin o s).Canon :=
  issue_canon hs (fun _ hs => perThread_canon hs)

theorem execImax_canon {o} (hs : s.Canon) : (execImax o s).Canon :=
  issue_canon hs (fun _ hs => perThread_canon hs)

theorem execIunary_canon {h op d ty sat a} (hs : s.Canon) : (execIunary h op d ty sat a s).Canon :=
  issue_canon hs (fun _ hs => perThread_canon hs)

theorem execLogic_canon {h op d ty a b} (hs : s.Canon) : (execLogic h op d ty a b s).Canon :=
  issue_canon hs (fun _ hs => perThread_canon hs)

theorem execShift_canon {h op d ty a b} (hs : s.Canon) : (execShift h op d ty a b s).Canon :=
  issue_canon hs (fun _ hs => perThread_canon hs)

theorem execBfx_canon {h d ty a b} (hs : s.Canon) : (execBfx h d ty a b s).Canon :=
  issue_canon hs (fun _ hs => perThread_canon hs)

theorem execBfi_canon {h d ty a b c} (hs : s.Canon) : (execBfi h d ty a b c s).Canon :=
  issue_canon hs (fun _ hs => perThread_canon hs)

theorem execPerm_canon {h d a b c} (hs : s.Canon) : (execPerm h d a b c s).Canon :=
  issue_canon hs (fun _ hs => perThread_canon hs)

theorem execSel_canon {h d ty a b c} (hs : s.Canon) : (execSel h d ty a b c s).Canon :=
  issue_canon hs (fun _ hs => perThread_canon hs)

theorem execIcmp_canon {h op d ty a b} (hs : s.Canon) : (execIcmp h op d ty a b s).Canon :=
  issue_canon hs (fun _ hs => perThread_canon hs)

theorem execPlogic_canon {h op d a b} (hs : s.Canon) : (execPlogic h op d a b s).Canon :=
  issue_canon hs (fun _ hs => perThread_canon hs)

theorem execLea_canon {h d signed sh a b} (hs : s.Canon) : (execLea h d signed sh a b s).Canon :=
  issue_canon hs (fun _ hs => perThread_canon hs)

theorem execMov_canon {h d w64 a} (hs : s.Canon) : (execMov h d w64 a s).Canon :=
  issue_canon hs (fun _ hs => perThread_canon hs)

theorem ksetEff_canon {d a} {x : Ctx} (hx : x.s.Canon) : (ksetEff d a x).s.Canon := by
  unfold ksetEff
  split
  · exact hx
  · exact setGrp_canon hx

theorem execKset_canon {h d a} (hs : s.Canon) : (execKset h d a s).Canon :=
  issue_canon hs (fun _ hs => ksetEff_canon hs)

theorem execSreg_canon {h d r} (hs : s.Canon) : (execSreg h d r s).Canon :=
  issue_canon hs (fun _ hs => perThread_canon hs)

theorem execFmtq_canon {h d f} (hs : s.Canon) : (execFmtq h d f s).Canon :=
  issue_canon hs (fun _ hs => perThread_canon hs)

theorem execMovi_canon {h d imm} (hs : s.Canon) : (execMovi h d imm s).Canon :=
  issue_canon hs (fun _ hs => perThread_canon hs)

theorem execIaddi_canon {o} (hs : s.Canon) : (execIaddi o s).Canon :=
  issue_canon hs (fun _ hs => perThread_canon hs)

theorem execAndi_canon {o} (hs : s.Canon) : (execAndi o s).Canon :=
  issue_canon hs (fun _ hs => perThread_canon hs)

theorem execOri_canon {o} (hs : s.Canon) : (execOri o s).Canon :=
  issue_canon hs (fun _ hs => perThread_canon hs)

theorem execXori_canon {o} (hs : s.Canon) : (execXori o s).Canon :=
  issue_canon hs (fun _ hs => perThread_canon hs)

/-! ### Floating-point words -/

theorem execFadd_canon {o} (hs : s.Canon) : (execFadd o s).Canon :=
  issue_canon hs (fun _ hs => perThread_canon hs)

theorem execFmul_canon {o} (hs : s.Canon) : (execFmul o s).Canon :=
  issue_canon hs (fun _ hs => perThread_canon hs)

theorem execFfma_canon {o} (hs : s.Canon) : (execFfma o s).Canon :=
  issue_canon hs (fun _ hs => perThread_canon hs)

theorem execFminmax_canon {h op d ty a b} (hs : s.Canon) : (execFminmax h op d ty a b s).Canon :=
  issue_canon hs (fun _ hs => perThread_canon hs)

theorem execFcmp_canon {h op d ty a b} (hs : s.Canon) : (execFcmp h op d ty a b s).Canon :=
  issue_canon hs (fun _ hs => perThread_canon hs)

theorem execFunary_canon {h op d ty rnd a} (hs : s.Canon) : (execFunary h op d ty rnd a s).Canon :=
  issue_canon hs (fun _ hs => perThread_canon hs)

theorem execFspec_canon {h op d ty a} (hs : s.Canon) : (execFspec h op d ty a s).Canon :=
  issue_canon hs (fun _ hs => perThread_canon hs)

theorem execTwosum_canon {h d a b} (hs : s.Canon) : (execTwosum h d a b s).Canon :=
  issue_canon hs (fun _ hs => perThread_canon hs)

theorem execHadd2_canon {o} (hs : s.Canon) : (execHadd2 o s).Canon :=
  issue_canon hs (fun _ hs => perThread_canon hs)

theorem execHmul2_canon {o} (hs : s.Canon) : (execHmul2 o s).Canon :=
  issue_canon hs (fun _ hs => perThread_canon hs)

theorem execHfma2_canon {o} (hs : s.Canon) : (execHfma2 o s).Canon :=
  issue_canon hs (fun _ hs => perThread_canon hs)

theorem execCvt_canon {h d dst src rnd sat a} (hs : s.Canon) : (execCvt h d dst src rnd sat a s).Canon :=
  issue_canon hs (fun _ hs => perThread_canon hs)

theorem execQunpack_canon {h d q4 zp0 a b c} (hs : s.Canon) : (execQunpack h d q4 zp0 a b c s).Canon :=
  issue_canon hs (fun _ hs => perThread_canon hs)

theorem execFclass_canon {h d ty a} (hs : s.Canon) : (execFclass h d ty a s).Canon :=
  issue_canon hs (fun _ hs => perThread_canon hs)

theorem execPairWord_canon {y x z} (hs : s.Canon) : (execPairWord y x z s).Canon :=
  issue_canon hs (fun _ hs => perThread_canon hs)

/-! ### Lane operations -/

theorem qpackEff_canon {h d a f} {x : Ctx} (hx : x.s.Canon) : (qpackEff h d a f x).s.Canon := by
  unfold qpackEff
  dsimp only
  split
  · exact hx
  · exact regEff_canon hx

theorem execBallot_canon {h op d a} (hs : s.Canon) : (execBallot h op d a s).Canon :=
  issue_canon hs (fun _ hs => perThread_canon hs)

theorem execShuf_canon {h op d ty a b} (hs : s.Canon) : (execShuf h op d ty a b s).Canon :=
  issue_canon hs (fun _ hs => perThread_canon hs)

theorem execRedux_canon {h op d ty rnd a} (hs : s.Canon) : (execRedux h op d ty rnd a s).Canon :=
  issue_canon hs (fun _ hs => perThread_canon hs)

theorem execScan_canon {h op d ty rnd a} (hs : s.Canon) : (execScan h op d ty rnd a s).Canon :=
  issue_canon hs (fun _ hs => regEff_canon hs)

theorem execQpack_canon {h d a f} (hs : s.Canon) : (execQpack h d a f s).Canon := by
  unfold execQpack
  refine issue_canon hs (fun _ hs => ?_)
  split
  · exact qpackEff_canon hs
  · exact hs

/-! ### Accesses of threads -/

theorem askMiss_canon {core line rt} (hs : s.Canon) : (askMiss s core line rt).Canon := by
  unfold askMiss
  refine canon_ite hs ?_
  split
  · exact hs
  · exact modGrp_canon (modCore_canon hs)

theorem loadAt_canon {core t pc dsts sx use a ia} (hs : s.Canon) : CanonOpt (loadAt s core t pc dsts sx use a ia) := by
  unfold loadAt
  split
  · exact hs
  · split
    · exact setGrp_canon hs
    · split
      · exact askMiss_canon (setGrp_canon hs)
      · split
        · exact askMiss_canon (setGrp_canon hs)
        · split
          · exact modCore_canon (setGrp_canon hs)
          · exact trivial

theorem pressAbort_canon {x : Ctx} {u} {e : Eff} (he : e.s.Canon) : (pressAbort x u e).s.Canon := by
  unfold pressAbort
  split
  · exact modGrp_canon (discardRegion_canon he)
  · exact abortRegion_canon he

theorem withRoom_canon {x k t n} {f : Eff → Eff} {e : Eff} (he : e.s.Canon) (hf : ∀ e, e.s.Canon → (f e).s.Canon) :
    (withRoom x k t n f e).s.Canon := by
  induction n generalizing e with
  | zero => exact he
  | succ n ih =>
    unfold withRoom
    dsimp only
    split
    · exact hf e he
    · split
      · exact ih (pressAbort_canon he)
      · exact setGrp_canon he

theorem loadNow_canon {core t g a} (hs : s.Canon) : (loadNow s core t g a).1.Canon := by
  unfold loadNow
  split
  · split
    · exact hs
    · split
      · exact dropStale_canon (canon_fst ‹_› (loadHome_canon hs))
      · exact loadHome_canon hs
  · exact hs

theorem blockNow.blockMiss_canon {core t g a ia} (hs : s.Canon) : (blockNow.blockMiss s core t g a ia).1.Canon := by
  unfold blockNow.blockMiss
  dsimp only
  split
  · split
    · exact askMiss_canon hs
    · exact loadNow_canon hs
  · exact loadNow_canon hs

theorem blockNow_canon {core t g a} (hs : s.Canon) : (blockNow s core t g a).1.Canon := by
  unfold blockNow
  split
  · split
    · split
      · split
        · exact modCore_canon hs
        · exact hs
      · exact blockNow.blockMiss_canon hs
    · exact blockNow.blockMiss_canon hs
  · exact loadNow_canon hs

/-! ### What joins threads -/

theorem flushLine_canon {p core l} (hs : s.Canon) : (flushLine s p core l).Canon := by
  unfold flushLine
  refine canon_ite hs ?_
  split
  · exact writeBackWords_canon hs
  · exact hs

theorem flushOwned_canon {p core} (hs : s.Canon) : (flushOwned s p core).Canon :=
  canon_foldl (fun _ _ hs => flushLine_canon hs) hs

theorem release_canon {p core sys} (hs : s.Canon) : (release s p core sys).1.Canon := by
  unfold release
  split
  · exact hs
  · exact flushOwned_canon hs

theorem arDone_canon {core tid} (hs : s.Canon) : (arDone s core tid).1.Canon := by
  unfold arDone
  split
  · exact hs
  · split
    · exact hs
    · split
      · exact hs
      · split
        · exact modGrp_canon (canon_fst ‹_› (release_canon hs))
        · exact release_canon hs

theorem drainHeld_canon {core tid} (hs : s.Canon) : (drainHeld s core tid).Canon := by
  unfold drainHeld
  split
  · exact drainRegion_canon (canon_fst ‹_› (arDone_canon hs))
  · exact canon_fst ‹_› (arDone_canon hs)

theorem acquire_canon {core sys} (hs : s.Canon) : (acquire s core sys).Canon := by
  unfold acquire
  refine canon_ite (dropSi_canon hs) ?_
  split
  exact dropSi_canon (canon_snd ‹_› (draw_canon hs))

theorem setBar_canon {b} (hs : s.Canon) : (State.setBar s b).Canon :=
  hs

theorem settleBar_canon {b} (hs : s.Canon) : (settleBar s b).Canon :=
  canon_ite (setBar_canon hs) hs

theorem settleBars_canon {p lid} (hs : s.Canon) : (settleBars s p lid).Canon :=
  canon_foldl (fun _ _ hs => settleBar_canon hs) hs

theorem publish_canon {p lid} (hs : s.Canon) : (publish s p lid).Canon :=
  canon_foldl (fun _ _ hs => hs) hs

theorem settlePhases_canon {core} (hs : s.Canon) : (settlePhases s core).Canon := by
  unfold settlePhases
  split
  · exact hs
  · exact canon_ite hs (publish_canon (setGrp_canon hs))

theorem afterExit_canon {core} (hs : s.Canon) : (afterExit s core).Canon := by
  unfold afterExit
  split
  · exact hs
  · exact settlePhases_canon (settleBars_canon hs)

/-! ### Control words -/

theorem callThread_canon {x : Ctx} {dest} {e : Eff} {t} (he : e.s.Canon) : (callThread x dest e t).s.Canon := by
  unfold callThread
  split
  · exact he
  · dsimp only
    split
    · exact modGrp_canon he
    · split
      · exact he
      · split
        · exact he
        · exact withRoom_canon he (fun _ hs => modGrp_canon hs)

theorem retThread_canon {x : Ctx} {e : Eff} {t} (he : e.s.Canon) : (retThread x e t).s.Canon := by
  unfold retThread
  split
  · exact he
  · dsimp only
    split
    · exact he
    · split
      · exact modGrp_canon he
      · split
        · exact he
        · split
          · exact he
          · exact modGrp_canon (canon_some ‹_› (loadAt_canon he))

theorem execBra_canon {h t close} (hs : s.Canon) : (execBra h t close s).Canon :=
  issue_canon hs (fun _ hs => hs)

theorem execBrx_canon {h aux} (hs : s.Canon) : (execBrx h aux s).Canon :=
  issue_canon hs (fun _ hs => hs)

theorem execCall_canon {h t} (hs : s.Canon) : (execCall h t s).Canon := by
  unfold execCall
  refine issue_canon hs (fun _ hs => ?_)
  split
  · exact hs
  · exact canonEff_foldl (fun _ _ hs => callThread_canon hs) hs

theorem execCallx_canon {h aux} (hs : s.Canon) : (execCallx h aux s).Canon :=
  issue_canon hs (fun _ hs => canonEff_foldl (fun _ _ hs => callThread_canon hs) hs)

theorem execRet_canon {h} (hs : s.Canon) : (execRet h s).Canon :=
  issue_canon hs (fun _ hs => canonEff_foldl (fun _ _ hs => retThread_canon hs) hs)

theorem execExit_canon {h} (hs : s.Canon) : (execExit h s).Canon :=
  afterExit_canon (issue_canon hs (fun _ hs => hs))

theorem execYield_canon {h} (hs : s.Canon) : (execYield h s).Canon :=
  issue_canon hs (fun _ hs => hs)

theorem execTrap_canon {h aux} (hs : s.Canon) : (execTrap h aux s).Canon :=
  issue_canon hs (fun _ hs => hs)

theorem execBrk_canon {h aux} (hs : s.Canon) : (execBrk h aux s).Canon :=
  issue_canon hs (fun _ hs => hs)

theorem execRegion_canon {y} (hs : s.Canon) : (execRegion y s).Canon :=
  issue_canon hs (fun _ hs => hs)

theorem nopreOpenEff_canon {aux} {x : Ctx} (hx : x.s.Canon) : (nopreOpenEff aux x).s.Canon := by
  unfold nopreOpenEff
  split
  · exact hx
  · exact setGrp_canon hx

theorem execNopreOpen_canon {h aux} (hs : s.Canon) : (execNopreOpen h aux s).Canon :=
  issue_canon hs (fun _ hs => nopreOpenEff_canon hs)

theorem execNopreShut_canon {h} (hs : s.Canon) : (execNopreShut h s).Canon :=
  issue_canon hs (fun _ hs => canon_ite hs (setGrp_canon hs))

theorem execEret_canon {h} (hs : s.Canon) : (execEret h s).Canon :=
  issue_canon hs (fun _ hs => hs)

theorem execCsrr_canon {h d c} (hs : s.Canon) : (execCsrr h d c s).Canon := by
  unfold execCsrr
  refine issue_canon hs (fun _ hs => ?_)
  split
  · exact hs
  · exact setGrp_canon hs

theorem ringshareWrite_canon {x : Ctx} {v} (hx : x.s.Canon) : (ringshareWrite x v).Canon :=
  canon_ite hx (modPart_canon (canon_ite (setCore_canon hx) hx))

theorem csrwEff_canon {c a} {x : Ctx} (hx : x.s.Canon) : (csrwEff c a x).s.Canon := by
  unfold csrwEff
  split
  · exact hx
  · split
    · exact setGrp_canon hx
    · split
      · exact ringshareWrite_canon hx
      · exact hx
    · exact setGrp_canon hx

theorem execCsrw_canon {h c a} (hs : s.Canon) : (execCsrw h c a s).Canon :=
  issue_canon hs (fun _ hs => csrwEff_canon hs)

/-! ### Memory words -/

theorem effFate_canon {e : Eff} {t f} (he : e.s.Canon) : (Eff.fate e t f).s.Canon :=
  he

theorem effBadAcc_canon {e : Eff} {t b} (he : e.s.Canon) : (Eff.badAcc e t b).s.Canon := by
  unfold Eff.badAcc
  split
  · exact he
  · exact effFate_canon he

theorem effSetGrp_canon {x : Ctx} {e : Eff} {g} (he : e.s.Canon) : (Eff.setGrp x e g).s.Canon :=
  setGrp_canon he

theorem ldMem_canon {x : Ctx} {dsts sx a ia t} {e : Eff} (he : e.s.Canon) : (ldMem x dsts sx a ia t e).s.Canon := by
  unfold ldMem
  split
  · exact canon_some ‹_› (loadAt_canon he)
  · exact effFate_canon he

theorem ldHalves_canon {x : Ctx} {dsts sx a ia t} {e : Eff} (he : e.s.Canon) :
    (ldHalves x dsts sx a ia t e).s.Canon := by
  unfold ldHalves
  refine canonEff_foldl (fun _ _ hs => ?_) he
  split
  split
  · exact hs
  · exact ldMem_canon hs

theorem ldAcc_canon {x : Ctx} {lat dsts sx a t} {e : Eff} (he : e.s.Canon) : (ldAcc x lat dsts sx a t e).s.Canon := by
  unfold ldAcc
  split
  · exact ldHalves_canon he
  · split <;> exact effSetGrp_canon he
  · exact effSetGrp_canon he

theorem ldEff_canon {h d m sz sx rt} {x : Ctx} (hx : x.s.Canon) : (ldEff h d m sz sx rt x).s.Canon := by
  unfold ldEff
  refine canonEff_foldl (fun _ _ hs => ?_) hx
  split
  split
  · exact effBadAcc_canon hs
  · exact ldAcc_canon hs

theorem execLd_canon {h d m sz sx rt} (hs : s.Canon) : (execLd h d m sz sx rt s).Canon :=
  issue_canon hs (fun _ hs => ldEff_canon hs)

theorem storeThread_canon {x : Ctx} {a place k t} {e : Eff} (he : e.s.Canon) :
    (storeThread x a place k t e).s.Canon := by
  unfold storeThread
  split
  · exact he
  · split
    · exact effBadAcc_canon he
    · split
      · exact effFate_canon he
      · exact withRoom_canon he (fun _ hs => effSetGrp_canon hs)

theorem execSt_canon {h m b sz rt} (hs : s.Canon) : (execSt h m b sz rt s).Canon :=
  issue_canon hs (fun _ hs => canonEff_foldl (fun _ _ hs => storeThread_canon hs) hs)

theorem execTagset_canon {h m b sz} (hs : s.Canon) : (execTagset h m b sz s).Canon :=
  issue_canon hs (fun _ hs => canonEff_foldl (fun _ _ hs => storeThread_canon hs) hs)

theorem prefHome_canon {core p ia t} (hs : s.Canon) : (prefHome s core p ia t).Canon := by
  unfold prefHome
  dsimp only
  split
  · exact keepL2_canon (noteWalk_canon hs)
  · exact noteWalk_canon hs

theorem prefLine_canon {x : Ctx} {rt va} {e : Eff} (he : e.s.Canon) : (prefLine x rt va e).s.Canon := by
  unfold prefLine
  split
  · exact he
  · split
    · exact he
    · split
      · split
        · split
          · exact he
          · split
            · exact prefHome_canon he
            · split
              · exact he
              · exact askMiss_canon he
        · exact he
      · exact he

theorem execPref_canon {h m sz rt} (hs : s.Canon) : (execPref h m sz rt s).Canon :=
  issue_canon hs (fun _ hs => canonEff_foldl (fun _ _ hs => canonEff_foldl (fun _ _ hs => prefLine_canon hs) hs) hs)

theorem pginfoAt_canon {p seg ia} (hs : s.Canon) : (pginfoAt s p seg ia).2.Canon := by
  unfold pginfoAt
  split
  · split
    exact canon_snd ‹_› (draw_canon hs)
  · exact hs

theorem pginfoThread_canon {x : Ctx} {dsts t ia ea} {e : Eff} (he : e.s.Canon) :
    (pginfoThread x dsts t ia ea e).s.Canon := by
  unfold pginfoThread
  split
  · exact effSetGrp_canon he
  · split
    exact effSetGrp_canon (canon_snd ‹_› (pginfoAt_canon he))

theorem execPginfo_canon {h d m} (hs : s.Canon) : (execPginfo h d m s).Canon := by
  unfold execPginfo
  refine issue_canon hs (fun _ hs => ?_)
  refine canonEff_foldl (fun _ _ hs => ?_) hs
  split
  · dsimp only
    split
    · exact effFate_canon hs
    · split
      · exact effSetGrp_canon hs
      · split
        · exact effBadAcc_canon hs
        · exact pginfoThread_canon hs
  · dsimp only
    split
    · exact effFate_canon hs
    · split
      · exact effSetGrp_canon hs
      · split
        · exact effBadAcc_canon hs
        · exact pginfoThread_canon hs

theorem atomThread_canon {x : Ctx} {op isRed sc dsts ea sz k t} {e : Eff} (he : e.s.Canon) :
    (atomThread x op isRed sc dsts ea sz k t e).s.Canon := by
  unfold atomThread
  split
  · exact effBadAcc_canon he
  · split
    · exact effSetGrp_canon he
    · exact effFate_canon he

theorem execAtom_canon {h op d m b sz sc} (hs : s.Canon) : (execAtom h op d m b sz sc s).Canon :=
  issue_canon hs (fun _ hs => canonEff_foldl (fun _ _ hs => atomThread_canon hs) hs)

theorem execRed_canon {h op m b sz sc} (hs : s.Canon) : (execRed h op m b sz sc s).Canon :=
  issue_canon hs (fun _ hs => canonEff_foldl (fun _ _ hs => atomThread_canon hs) hs)

theorem appendThread_canon {x : Ctx} {r a dsts k t} {e : Eff} (he : e.s.Canon) :
    (appendThread x r a dsts k t e).s.Canon := by
  unfold appendThread
  split
  · exact effBadAcc_canon he
  · exact effSetGrp_canon he

theorem appendEff_canon {r a nw d n k} {x : Ctx} (hx : x.s.Canon) : (appendEff r a nw d n k x).s.Canon :=
  canonEff_foldl (fun _ _ hs => appendThread_canon hs) hx

theorem execAppendRes_canon {h d a b} (hs : s.Canon) : (execAppendRes h d a b s).Canon := by
  unfold execAppendRes
  refine issue_canon hs (fun _ hs => ?_)
  refine canonEff_foldl (fun _ _ hs => ?_) hs
  split
  · dsimp only
    split
    · exact effFate_canon hs
    · exact appendThread_canon hs
  · dsimp only
    split
    · exact effFate_canon hs
    · exact appendThread_canon hs

theorem execAppendQuery_canon {h d a} (hs : s.Canon) : (execAppendQuery h d a s).Canon :=
  issue_canon hs (fun _ hs => appendEff_canon hs)

theorem execSealPlain_canon {h d a} (hs : s.Canon) : (execSealPlain h d a s).Canon :=
  issue_canon hs (fun _ hs => appendEff_canon hs)

theorem execSealBcast_canon {h d a} (hs : s.Canon) : (execSealBcast h d a s).Canon :=
  issue_canon hs (fun _ hs => appendEff_canon hs)

theorem execTailq_canon {h d a} (hs : s.Canon) : (execTailq h d a s).Canon :=
  issue_canon hs (fun _ hs => appendEff_canon hs)

/-! ### Long instructions -/

theorem commitElem_canon {core t} (hs : s.Canon) : (commitElem s core t).Canon :=
  modGrp_canon hs

theorem endLong_canon {core t} (hs : s.Canon) : (endLong s core t).Canon :=
  modGrp_canon hs

theorem startElem_canon {core t g o j} (hs : s.Canon) : (startElem s core t g o j).Canon := by
  unfold startElem
  extract_lets th va right
  split
  · split <;> exact hs
  · split
    · extract_lets
      split
      · split
        · exact canon_some ‹_› (loadAt_canon hs)
        · exact hs
      · exact setGrp_canon hs
    · split <;> exact setGrp_canon hs

theorem advanceLong_canon {core t n} (hs : s.Canon) : (advanceLong core t n s).Canon := by
  induction n generalizing s with
  | zero => exact hs
  | succ n ih =>
    unfold advanceLong
    split
    · exact hs
    · dsimp only
      split
      · exact hs
      · split
        · exact endLong_canon hs
        · split
          · exact startElem_canon hs
          · exact ih (commitElem_canon hs)

theorem elemTrap_canon {core t cause val} (hs : s.Canon) : (elemTrap s core t cause val).Canon :=
  moveOut_canon (quitRun_canon hs)

theorem longOn_canon {core t} (hs : s.Canon) : (longOn s core t).Canon := by
  unfold longOn
  split
  · exact Adv.canon_go ‹_› (advanceLong_canon hs)
  · exact elemTrap_canon (Adv.canon_bad ‹_› (advanceLong_canon hs))
  · exact freezeGroup_canon (Adv.canon_iso ‹_› (advanceLong_canon hs))

theorem commitStore_canon {core g e} (hs : s.Canon) : (commitStore s core g e).Canon :=
  longOn_canon (commitElem_canon (storeEntry_canon hs))

theorem stopLong_canon {core t} (hs : s.Canon) : (stopLong s core t).Canon :=
  modGrp_canon hs

theorem longThread_canon {x : Ctx} {o m b sz rt} {r : Eff} {t} (he : r.s.Canon) :
    (longThread x o m b sz rt r t).s.Canon := by
  unfold longThread
  dsimp only
  split
  · exact endLong_canon he
  · split
    · exact effFate_canon he
    · split
      · exact Adv.canon_go ‹_› (advanceLong_canon (modGrp_canon he))
      · exact effFate_canon (stopLong_canon (Adv.canon_bad ‹_› (advanceLong_canon (modGrp_canon he))))
      · exact stopLong_canon (Adv.canon_iso ‹_› (advanceLong_canon (modGrp_canon he)))

theorem execGather_canon {h d m b sz sx rt} (hs : s.Canon) : (execGather h d m b sz sx rt s).Canon :=
  issue_canon hs (fun _ hs => canonEff_foldl (fun _ _ hs => longThread_canon hs) hs)

theorem execScatter_canon {h m b sz rt} (hs : s.Canon) : (execScatter h m b sz rt s).Canon :=
  issue_canon hs (fun _ hs => canonEff_foldl (fun _ _ hs => longThread_canon hs) hs)

theorem execCst_canon {h m b sz rt} (hs : s.Canon) : (execCst h m b sz rt s).Canon :=
  issue_canon hs (fun _ hs => canonEff_foldl (fun _ _ hs => longThread_canon hs) hs)

/-! ### Synchronisation words -/

theorem acquireAt_canon {p core sc} (hs : s.Canon) : (acquireAt s p core sc).1.Canon := by
  unfold acquireAt
  split
  · split
    · exact acquire_canon (canon_fst ‹_› (release_canon hs))
    · exact canon_fst ‹_› (release_canon hs)
  · split
    · exact acquire_canon (canon_fst ‹_› (release_canon hs))
    · exact canon_fst ‹_› (release_canon hs)
  · exact acquire_canon hs

theorem fenceDo_canon {p core k sc} (hs : s.Canon) : (fenceDo s p core k sc).1.Canon := by
  unfold fenceDo
  split
  · exact acquireAt_canon hs
  · exact release_canon hs
  · split
    · exact acquire_canon (canon_fst ‹_› (release_canon hs))
    · exact canon_fst ‹_› (release_canon hs)
  · split
    · exact acquire_canon (canon_fst ‹_› (release_canon hs))
    · exact canon_fst ‹_› (release_canon hs)

theorem fenceAr_canon {x : Ctx} {sc} (hx : x.s.Canon) : (fenceAr x sc).s.Canon := by
  unfold fenceAr
  split
  split
  · split <;> exact modGrp_canon (canon_fst ‹_› (acquireAt_canon (canon_snd ‹_› (draw_canon hx))))
  · exact modGrp_canon (canon_snd ‹_› (draw_canon hx))

theorem execFence_canon {h kind sc} (hs : s.Canon) : (execFence h kind sc s).Canon := by
  unfold execFence
  refine issue_canon hs (fun _ hs => ?_)
  split
  · exact hs
  · split
    · exact fenceAr_canon hs
    · split
      · exact canon_fst ‹_› (fenceDo_canon hs)
      · exact modGrp_canon (canon_fst ‹_› (fenceDo_canon hs))

theorem serveFence_canon {core g x k sc} (hs : s.Canon) : (serveFence s core g x k sc).Canon := by
  unfold serveFence
  refine canon_ite hs ?_
  split
  · exact modGrp_canon (canon_fst ‹_› (fenceDo_canon hs))
  · exact canon_fst ‹_› (fenceDo_canon hs)

theorem barArrive_canon {g lv n t} (hs : s.Canon) : (barArrive s g lv n t).Canon :=
  settleBar_canon (setBar_canon hs)

theorem bumpGen_canon {core t} (hs : s.Canon) : (bumpGen s core t).Canon :=
  modGrp_canon hs

theorem barWaitThread_canon {x : Ctx} {lv n k t} {e : Eff} (he : e.s.Canon) : (barWaitThread x lv n k t e).s.Canon := by
  unfold barWaitThread
  split
  · split
    · exact bumpGen_canon (canon_fst ‹_› (acquireAt_canon he))
    · exact effFate_canon (canon_fst ‹_› (acquireAt_canon he))
  · exact effFate_canon he

theorem barEff_canon {lv n} {f : Ctx → W32 → Nat → Eff → Eff} {x : Ctx} (hx : x.s.Canon)
    (hf : ∀ k t e, e.s.Canon → (f x k t e).s.Canon) : (barEff lv n f x).s.Canon := by
  unfold barEff
  dsimp only
  split
  · exact hx
  · split
    · exact canon_fst ‹_› (release_canon hx)
    · exact canonEff_foldl (fun _ _ he => hf _ _ _ he)
        (canon_foldl (fun _ _ hs => barArrive_canon hs) (canon_fst ‹_› (release_canon hx)))

theorem execBarSync_canon {h lv n} (hs : s.Canon) : (execBarSync h lv n s).Canon :=
  issue_canon hs (fun _ hs => barEff_canon hs (fun _ _ _ hs => barWaitThread_canon hs))

theorem execBarArrive_canon {h d lv n} (hs : s.Canon) : (execBarArrive h d lv n s).Canon :=
  issue_canon hs (fun _ hs => barEff_canon hs (fun _ _ _ hs => effSetGrp_canon hs))

theorem execBarWait_canon {h lv n b} (hs : s.Canon) : (execBarWait h lv n b s).Canon := by
  unfold execBarWait
  refine issue_canon hs (fun _ hs => ?_)
  refine canonEff_foldl (fun _ _ hs => ?_) hs
  split
  · exact effFate_canon hs
  · dsimp only
    split
    · exact effFate_canon hs
    · exact barWaitThread_canon hs

theorem bumpPhase_canon {core t} (hs : s.Canon) : (bumpPhase s core t).Canon :=
  modGrp_canon hs

theorem phaseAdvThread_canon {x : Ctx} {t} {e : Eff} (he : e.s.Canon) : (phaseAdvThread x t e).s.Canon := by
  unfold phaseAdvThread
  split
  · split
    exact effFate_canon (canon_snd ‹_› (draw_canon he))
  · split
    · exact effFate_canon he
    · split
      · exact bumpPhase_canon (canon_fst ‹_› (release_canon he))
      · exact effFate_canon (canon_fst ‹_› (release_canon he))

theorem execPhaseAdv_canon {h} (hs : s.Canon) : (execPhaseAdv h s).Canon :=
  settlePhases_canon (issue_canon hs (fun _ hs => canonEff_foldl (fun _ _ hs => phaseAdvThread_canon hs) hs))

theorem execPhaseWait_canon {h a b} (hs : s.Canon) : (execPhaseWait h a b s).Canon := by
  unfold execPhaseWait
  refine issue_canon hs (fun _ hs => ?_)
  refine canonEff_foldl (fun _ _ hs => ?_) hs
  split
  · exact effFate_canon hs
  · split
    · dsimp only
      split
      · exact canon_fst ‹_› (acquireAt_canon hs)
      · exact effFate_canon hs
    · dsimp only
      split
      · exact effFate_canon (canon_fst ‹_› (acquireAt_canon hs))
      · exact effFate_canon hs

theorem execPhaseRead_canon {h d a} (hs : s.Canon) : (execPhaseRead h d a s).Canon := by
  unfold execPhaseRead
  refine issue_canon hs (fun _ hs => ?_)
  refine canonEff_foldl (fun _ _ hs => ?_) hs
  split
  · exact effFate_canon hs
  · exact effSetGrp_canon hs

theorem readCount_canon {core t g a} (hs : s.Canon) : (readCount s core t g a).1.Canon := by
  unfold readCount
  split <;> exact canon_fst ‹_› (loadNow_canon hs)

theorem lookErr_canon {core t g a} (hs : s.Canon) : (lookErr s core t g a).Canon := by
  unfold lookErr
  split
  · exact trivial
  · split
    · split <;> exact canon_fst ‹_› (readCount_canon hs)
    · exact canon_fst ‹_› (readCount_canon hs)
    · exact canon_fst ‹_› (readCount_canon hs)
    · exact trivial

theorem lookCount_canon {core t g a target err sys} (hs : s.Canon) : (lookCount s core t g a target err sys).Canon := by
  unfold lookCount
  split
  · exact canon_fst ‹_› (readCount_canon hs)
  · exact canon_fst ‹_› (readCount_canon hs)
  · exact trivial
  · split
    · exact canon_fst ‹_› (readCount_canon hs)
    · split
      · exact canon_fst ‹_› (acquireAt_canon (canon_fst ‹_› (readCount_canon hs)))
      · split
        · exact lookErr_canon (canon_fst ‹_› (acquireAt_canon (canon_fst ‹_› (readCount_canon hs))))
        · exact canon_fst ‹_› (acquireAt_canon (canon_fst ‹_› (readCount_canon hs)))

theorem waitgeThread_canon {x : Ctx} {err sys a b t} {e : Eff} (he : e.s.Canon) :
    (waitgeThread x err sys a b t e).s.Canon := by
  unfold waitgeThread
  split
  · exact effBadAcc_canon he
  · split
    · dsimp only
      split
      · exact effFate_canon (modGrp_canon (Look.canon_below ‹_› (lookCount_canon he)))
      · exact effFate_canon (Look.canon_later ‹_› (lookCount_canon he))
      · exact Look.canon_done ‹_› (lookCount_canon he)
      · exact effFate_canon (Look.canon_fault ‹_› (lookCount_canon he))
      · exact effBadAcc_canon he
      · exact effFate_canon (Look.canon_err ‹_› (lookCount_canon he))
    · exact effFate_canon he

theorem execWaitge_canon {h err sys a b} (hs : s.Canon) : (execWaitge h err sys a b s).Canon :=
  issue_canon hs (fun _ hs => canonEff_foldl (fun _ _ hs => waitgeThread_canon hs) hs)

theorem execBackoff_canon {h a} (hs : s.Canon) : (execBackoff h a s).Canon :=
  issue_canon hs (fun _ hs => setGrp_canon hs)

/-! ### Stage rings -/

theorem stgGetThread_canon {x : Ctx} {h d sid take t} {e : Eff} (he : e.s.Canon) :
    (stgGetThread x h d sid take t e).s.Canon := by
  unfold stgGetThread
  split
  · exact effFate_canon he
  · dsimp only
    split
    · exact he
    · split
      · exact effSetGrp_canon he
      · exact effFate_canon he

theorem stgPutThread_canon {x : Ctx} {sid b ok f t} {e : Eff} (he : e.s.Canon) :
    (stgPutThread x sid b ok f t e).s.Canon := by
  unfold stgPutThread
  dsimp only
  split
  · exact effFate_canon he
  · split
    · exact effSetGrp_canon he
    · exact effFate_canon he

theorem execStgClaim_canon {h d ring} (hs : s.Canon) : (execStgClaim h d ring s).Canon :=
  issue_canon hs (fun _ hs => canonEff_foldl (fun _ _ hs => stgGetThread_canon hs) hs)

theorem execStgTake_canon {h d ring} (hs : s.Canon) : (execStgTake h d ring s).Canon :=
  issue_canon hs (fun _ hs => canonEff_foldl (fun _ _ hs => stgGetThread_canon hs) hs)

theorem execStgFill_canon {h ring b} (hs : s.Canon) : (execStgFill h ring b s).Canon :=
  issue_canon hs (fun _ hs => canonEff_foldl (fun _ _ hs => stgPutThread_canon hs) hs)

theorem execStgFree_canon {h ring b} (hs : s.Canon) : (execStgFree h ring b s).Canon :=
  issue_canon hs (fun _ hs => canonEff_foldl (fun _ _ hs => stgPutThread_canon hs) hs)

theorem execStgQuery_canon {h d ring} (hs : s.Canon) : (execStgQuery h d ring s).Canon := by
  unfold execStgQuery
  refine issue_canon hs (fun _ hs => ?_)
  refine canonEff_foldl (fun _ _ hs => ?_) hs
  split
  · exact effFate_canon hs
  · exact effSetGrp_canon hs

/-! ### The copy engine -/

theorem readBlock_error {x : Ctx} {e e' : Eff} {t va n} (he : e.s.Canon) (h : readBlock x e t va n = .error e') :
    e'.s.Canon := by
  unfold readBlock at h
  split at h
  · cases h; exact he
  · split at h
    · cases h; exact effBadAcc_canon he
    · split at h <;> cases h
      · exact canon_fst ‹_› (blockNow_canon he)
      · exact he
      · exact he

theorem readBlock_ok {x : Ctx} {e : Eff} {t va n} {s : State} {b} (he : e.s.Canon)
    (h : readBlock x e t va n = .ok (s, b)) : s.Canon := by
  unfold readBlock at h
  split at h
  · cases h
  · split at h
    · cases h
    · split at h <;> cases h
      exact canon_fst ‹_› (blockNow_canon he)

theorem effWaitRoom_canon {e : Eff} {x : Ctx} {t b} (he : e.s.Canon) : (Eff.waitRoom e x t b).s.Canon :=
  effFate_canon (effSetGrp_canon he)

theorem effHasRoom_canon {e : Eff} {x : Ctx} {t} (he : e.s.Canon) : (Eff.hasRoom e x t).s.Canon :=
  effSetGrp_canon he

theorem placeThread_canon {x : Ctx} {role a n full put} {e : Eff} {t} (he : e.s.Canon) :
    (placeThread x role a n full put e t).s.Canon := by
  unfold placeThread
  split
  · exact he
  · cases hq : (x.g.thread t).qblk with
    | some b =>
      dsimp only
      split
      · exact he
      · exact effHasRoom_canon he
    | none =>
      dsimp only
      split
      · exact readBlock_error he ‹_›
      · have := readBlock_ok he ‹_›
        split
        · exact this
        · exact this

theorem execCopy_canon {h q a} (hs : s.Canon) : (execCopy h q a s).Canon :=
  issue_canon hs (fun _ hs => canonEff_foldl (fun _ _ hs => placeThread_canon hs) hs)

theorem chainThread_canon {x : Ctx} {q a} {e : Eff} {t} (he : e.s.Canon) : (chainThread x q a e t).s.Canon := by
  unfold chainThread
  split
  · exact effFate_canon he
  · dsimp only
    split
    · exact effSetGrp_canon he
    · split
      · exact effFate_canon he
      · split
        · exact effHasRoom_canon (effSetGrp_canon he)
        · split
          · exact effWaitRoom_canon he
          · exact effHasRoom_canon (effSetGrp_canon he)

theorem execChain_canon {h q a} (hs : s.Canon) : (execChain h q a s).Canon :=
  issue_canon hs (fun _ hs => canonEff_foldl (fun _ _ hs => chainThread_canon hs) hs)

theorem placeOnce_canon {x : Ctx} {role full put} (hx : x.s.Canon) : (placeOnce x role full put).s.Canon := by
  unfold placeOnce
  split
  split
  · exact hx
  · split
    · exact canonEff_foldl (fun _ _ hs => effWaitRoom_canon hs) hx
    · exact canonEff_foldl (fun _ _ hs => effHasRoom_canon hs) (effSetGrp_canon hx)

theorem execQfence_canon {h mask b} (hs : s.Canon) : (execQfence h mask b s).Canon :=
  issue_canon hs (fun _ hs => placeOnce_canon hs)

theorem execMma_canon {h a} (hs : s.Canon) : (execMma h a s).Canon :=
  issue_canon hs (fun _ hs => canonEff_foldl (fun _ _ hs => placeThread_canon hs) hs)

theorem execMdrain_canon {h a} (hs : s.Canon) : (execMdrain h a s).Canon :=
  issue_canon hs (fun _ hs => canonEff_foldl (fun _ _ hs => placeThread_canon hs) hs)

theorem execMprec_canon {h wa wb} (hs : s.Canon) : (execMprec h wa wb s).Canon :=
  issue_canon hs (fun _ hs => placeOnce_canon hs)

theorem execMzero_canon {h bank} (hs : s.Canon) : (execMzero h bank s).Canon :=
  issue_canon hs (fun _ hs => placeOnce_canon hs)

theorem execMstat_canon {h d r} (hs : s.Canon) : (execMstat h d r s).Canon :=
  issue_canon hs (fun _ hs => setGrp_canon hs)

theorem execColl_canon {h a} (hs : s.Canon) : (execColl h a s).Canon :=
  issue_canon hs (fun _ hs => canonEff_foldl (fun _ _ hs => placeThread_canon hs) hs)

theorem execCprog_canon {h d group b} (hs : s.Canon) : (execCprog h d group b s).Canon := by
  unfold execCprog
  refine issue_canon hs (fun _ hs => ?_)
  refine canonEff_foldl (fun _ _ hs => ?_) hs
  split
  · exact effFate_canon hs
  · exact effSetGrp_canon hs

theorem engRead_canon {core g wins va n} (hs : s.Canon) : (engRead s core g wins va n).1.Canon := by
  unfold engRead
  split
  · split <;> exact hs
  · split
    · exact unlessLate_canon hs (loadHome_canon hs)
    · exact hs

theorem engWrite_canon {core g wins va bs} (hs : s.Canon) : (engWrite s core g wins va bs).1.Canon := by
  unfold engWrite
  split
  · split <;> exact hs
  · split
    · exact unlessLate_canon hs (engineStore_canon hs)
    · exact spadWrite_canon hs
    · exact hs

theorem execCopyEntryStart_canon {core q} (hs : s.Canon) : (execCopyEntryStart core q s).Canon := by
  unfold execCopyEntryStart
  split
  · exact hs
  · refine canon_ite ?_ hs
    split
    · exact setGrp_canon hs
    · exact canon_ite hs (setGrp_canon hs)
    · exact hs

theorem execCopyStageClaim_canon {core q} (hs : s.Canon) : (execCopyStageClaim core q s).Canon := by
  unfold execCopyStageClaim
  split
  · exact hs
  · split
    · exact hs
    · split
      · exact hs
      · exact canon_ite (setGrp_canon hs) hs

theorem engFault_canon {g wins va c v} {wait : State → Nat → State} {stop : State → State} (hs : s.Canon)
    (hw : ∀ s n, s.Canon → (wait s n).Canon) (hp : ∀ s, s.Canon → (stop s).Canon) :
    (engFault s g wins va c v wait stop).Canon :=
  canon_ite (hw _ _ (startService_canon hs)) (hp _ hs)

theorem setRunOf_canon {core q f} (hs : s.Canon) : (setRunOf s core q f).Canon :=
  modGrp_canon hs

theorem pieceFault_canon {core q g c va cause servable isSrc} (hs : s.Canon) :
    (pieceFault s core q g c va cause servable isSrc).Canon :=
  engFault_canon hs (fun _ _ hs => setRunOf_canon hs) (fun _ hs => setRunOf_canon hs)

theorem copyFreeze_canon {core q g va} (hs : s.Canon) : (copyFreeze s core q g va).Canon :=
  reportFreeze_canon (modGrp_canon (setRunOf_canon hs))

theorem execCopyBlock_canon {core q} (hs : s.Canon) : (execCopyBlock core q s).Canon := by
  unfold execCopyBlock
  split
  · exact hs
  · split
    · exact hs
    · refine canon_ite hs ?_
      split
      refine canon_ite hs ?_
      split
      · exact canon_fst ‹_› (engRead_canon hs)
      · exact copyFreeze_canon (canon_fst ‹_› (engRead_canon hs))
      · exact pieceFault_canon (canon_fst ‹_› (engRead_canon hs))
      · split
        · exact canon_fst ‹_› (engWrite_canon (canon_fst ‹_› (engRead_canon hs)))
        · exact copyFreeze_canon (canon_fst ‹_› (engWrite_canon (canon_fst ‹_› (engRead_canon hs))))
        · exact pieceFault_canon (canon_fst ‹_› (engWrite_canon (canon_fst ‹_› (engRead_canon hs))))
        · exact canon_ite (setRunOf_canon (canon_fst ‹_› (engWrite_canon (canon_fst ‹_› (engRead_canon hs)))))
            (modGrp_canon (setRunOf_canon (canon_fst ‹_› (engWrite_canon (canon_fst ‹_› (engRead_canon hs))))))

theorem endChain_canon {core q} (hs : s.Canon) : (endChain s core q).Canon :=
  modGrp_canon hs

theorem badChain_canon {core q g p} (hs : s.Canon) : (badChain s core q g p).Canon :=
  endChain_canon (post_canon hs)

theorem readChain_canon {core q g w} (hs : s.Canon) : (readChain s core q g w).Canon := by
  unfold readChain
  refine canon_ite (badChain_canon hs) ?_
  split
  · exact canon_fst ‹_› (engRead_canon hs)
  · exact reportFreeze_canon (badChain_canon (modGrp_canon (canon_fst ‹_› (engRead_canon hs))))
  · exact canon_ite (badChain_canon (State.settle_canon (canon_fst ‹_› (engRead_canon hs))))
      (engFault_canon (canon_fst ‹_› (engRead_canon hs)) (fun _ _ hs => noteAsk_canon hs)
      (fun _ hs => badChain_canon hs))
  · exact canon_ite (modGrp_canon (State.settle_canon (canon_fst ‹_› (engRead_canon hs))))
      (modGrp_canon (State.settle_canon (canon_fst ‹_› (engRead_canon hs))))

theorem execChainRecordRead_canon {core q} (hs : s.Canon) : (execChainRecordRead core q s).Canon := by
  unfold execChainRecordRead
  split
  · exact hs
  · split
    · exact canon_ite hs (readChain_canon hs)
    · exact hs

theorem execChainRereadTimer_canon {core q} (hs : s.Canon) : (execChainRereadTimer core q s).Canon := by
  unfold execChainRereadTimer
  split
  · exact hs
  · split
    · exact canon_ite (readChain_canon hs) hs
    · exact hs

theorem nextRecord_canon {core q g w c} (hs : s.Canon) : (nextRecord s core q g w c).1.Canon := by
  unfold nextRecord
  split
  · split
    · exact endChain_canon (canon_fst ‹_› (engWrite_canon hs))
    · exact modGrp_canon (canon_fst ‹_› (engWrite_canon hs))
  · exact canon_fst ‹_› (engWrite_canon hs)
  · dsimp only
    split
    · exact canon_fst ‹_› (engWrite_canon hs)
    · exact badChain_canon (State.settle_canon (canon_fst ‹_› (engWrite_canon hs)))
  · exact badChain_canon (canon_fst ‹_› (engWrite_canon hs))

theorem completeCopy_canon {core q} (hs : s.Canon) : (completeCopy s core q).Canon := by
  unfold completeCopy
  split
  · exact hs
  · split
    · exact hs
    · refine canon_ite hs ?_
      split
      · exact hs
      · exact setRunOf_canon (startService_canon (Comp.canon_wait ‹_› (complete_canon hs)))
      · exact modGrp_canon (reportFreeze_canon (modGrp_canon (Comp.canon_iso ‹_› (complete_canon hs))))
      · split
        · exact modGrp_canon (Comp.canon_done ‹_› (complete_canon hs))
        · split
          · exact canon_fst ‹_› (nextRecord_canon (Comp.canon_done ‹_› (complete_canon hs)))
          · exact setRunOf_canon (startService_canon (noteAsk_canon hs))
          · exact hs

theorem execQfencePerformed_canon {core} (hs : s.Canon) : (execQfencePerformed core s).Canon := by
  unfold execQfencePerformed
  split
  · exact hs
  · split
    · exact hs
    · split
      · exact hs
      · exact startService_canon (Comp.canon_wait ‹_› (complete_canon hs))
      · exact reportFreeze_canon (modGrp_canon (Comp.canon_iso ‹_› (complete_canon hs)))
      · exact modGrp_canon (Comp.canon_done ‹_› (complete_canon hs))

/-! ### The matrix engine -/

theorem modMx_canon {core f} (hs : s.Canon) : (modMx s core f).Canon :=
  modGrp_canon hs

theorem execMmaStart_canon {core} (hs : s.Canon) : (execMmaStart core s).Canon := by
  unfold execMmaStart
  split
  · exact hs
  · refine canon_ite hs ?_
    split
    · split <;> exact modMx_canon hs
    · exact hs

theorem engSpan_canon {core g wins f va n} (hs : s.Canon) : (engSpan s core g wins f va n).1.Canon := by
  induction f generalizing s va n with
  | zero => exact hs
  | succ f ih =>
    unfold engSpan
    split
    · exact hs
    · dsimp only
      split
      · split
        · exact canon_fst ‹_› (ih (canon_fst ‹_› (engRead_canon hs)))
        · exact ih (canon_fst ‹_› (engRead_canon hs))
      · exact canon_fst ‹_› (engRead_canon hs)

theorem fetchRows_canon {core g wins x t rows} (hs : s.Canon) : (fetchRows s core g wins x t rows).1.Canon := by
  induction rows generalizing s with
  | nil => exact hs
  | cons i r ih =>
    unfold fetchRows
    split
    · split
      · exact canon_fst ‹_› (ih (canon_fst ‹_› (engSpan_canon hs)))
      · exact ih (canon_fst ‹_› (engSpan_canon hs))
    all_goals exact canon_fst ‹_› (engSpan_canon hs)

theorem sideRows_canon {core g wins x c slot t rows} (hs : s.Canon) :
    (sideRows s core g wins x c slot t rows).1.Canon := by
  unfold sideRows
  split
  · exact hs
  · split
    · split <;> exact hs
    · exact fetchRows_canon hs

theorem setMmaRun_canon {core f} (hs : s.Canon) : (setMmaRun s core f).Canon :=
  modMx_canon hs

theorem mxFreeze_canon {core g va f} (hs : s.Canon) : (mxFreeze s core g va f).Canon :=
  reportFreeze_canon (modMx_canon hs)

theorem fetchTile_canon {core tile g i m b pins} (hs : s.Canon) : (fetchTile s core tile g i m b pins).Canon := by
  unfold fetchTile
  split
  · exact hs
  · dsimp only
    split
    · exact canon_fst ‹_› (sideRows_canon hs)
    · exact engFault_canon (canon_fst ‹_› (sideRows_canon hs)) (fun _ _ hs => setMmaRun_canon hs)
        (fun _ hs => modMx_canon hs)
    · exact mxFreeze_canon (canon_fst ‹_› (sideRows_canon hs))
    · split
      · exact canon_fst ‹_› (sideRows_canon (canon_fst ‹_› (sideRows_canon hs)))
      · exact engFault_canon (canon_fst ‹_› (sideRows_canon (canon_fst ‹_› (sideRows_canon hs))))
          (fun _ _ hs => setMmaRun_canon hs) (fun _ hs => modMx_canon hs)
      · exact mxFreeze_canon (canon_fst ‹_› (sideRows_canon (canon_fst ‹_› (sideRows_canon hs))))
      · exact setMmaRun_canon (canon_fst ‹_› (sideRows_canon (canon_fst ‹_› (sideRows_canon hs))))

theorem takeSlots_canon {core g b r} (hs : s.Canon) : (takeSlots s core g b r).Canon :=
  setGrp_canon hs

theorem execOperandFetch_canon {core tile} (hs : s.Canon) : (execOperandFetch core tile s).Canon := by
  unfold execOperandFetch
  split
  · exact hs
  · split
    · exact hs
    · refine canon_ite hs ?_
      dsimp only
      split
      · exact takeSlots_canon hs
      · split
        · exact setMmaRun_canon (takeSlots_canon hs)
        · exact fetchTile_canon (takeSlots_canon hs)

theorem execPinWaitTimeout_canon {core} (hs : s.Canon) : (execPinWaitTimeout core s).Canon := by
  unfold execPinWaitTimeout
  split
  · exact hs
  · split
    · exact hs
    · split
      · exact hs
      · split
        · dsimp only
          split <;> exact fetchTile_canon hs
        · dsimp only
          split
          · exact fetchTile_canon hs
          · exact hs

theorem execGovernorWindow_canon {core} (hs : s.Canon) : (execGovernorWindow core s).Canon := by
  unfold execGovernorWindow
  split
  · exact hs
  · exact setGrp_canon hs

theorem execMmaTileUpdate_canon {core tile} (hs : s.Canon) : (execMmaTileUpdate core tile s).Canon := by
  unfold execMmaTileUpdate
  split
  · exact hs
  · split
    · exact hs
    · dsimp only
      split
      · exact hs
      · split
        · exact hs
        · exact canon_ite (setGrp_canon hs) (setGrp_canon hs)

theorem execMprecEffect_canon {core} (hs : s.Canon) : (execMprecEffect core s).Canon := by
  unfold execMprecEffect
  split
  · exact hs
  · refine canon_ite hs ?_
    split
    · exact setGrp_canon hs
    · exact hs

theorem execMzeroEffect_canon {core} (hs : s.Canon) : (execMzeroEffect core s).Canon := by
  unfold execMzeroEffect
  split
  · exact hs
  · refine canon_ite hs ?_
    split
    · exact setGrp_canon hs
    · exact hs

theorem execMdrainStart_canon {core} (hs : s.Canon) : (execMdrainStart core s).Canon := by
  unfold execMdrainStart
  split
  · exact hs
  · refine canon_ite hs ?_
    split
    · split <;> exact modMx_canon hs
    · exact hs

theorem drainCell_canon {core g wins b va c} (hs : s.Canon) : (drainCell s core g wins b va c).1.Canon := by
  unfold drainCell
  split
  · split <;> exact hs
  · split
    · split <;> exact spadWrite_canon hs
    · split
      · exact hs
      · dsimp only
        split <;> exact canon_fst ‹_› (unlessLate_canon hs (engineAtom_canon hs))
    · exact hs

theorem setDrain_canon {core f} (hs : s.Canon) : (setDrain s core f).Canon :=
  modMx_canon hs

theorem drainOne_canon {core g i wins b r c} (hs : s.Canon) : (drainOne s core g i wins b r c).Canon := by
  unfold drainOne
  dsimp only
  split
  · exact setDrain_canon (canon_fst ‹_› (drainCell_canon hs))
  · exact canon_fst ‹_› (drainCell_canon hs)
  · exact mxFreeze_canon (canon_fst ‹_› (drainCell_canon hs))
  · exact engFault_canon (canon_fst ‹_› (drainCell_canon hs)) (fun _ _ hs => setDrain_canon hs)
      (fun _ hs => modMx_canon hs)

theorem pick_canon {n} (hs : s.Canon) : (State.pick s n).2.Canon := by
  unfold State.pick
  split <;> exact hs

theorem markTile_canon {core i u b} (hs : s.Canon) : (markTile s core i u b).Canon :=
  modMx_canon hs

theorem execDrainTileAck_canon {core tile} (hs : s.Canon) : (execDrainTileAck core tile s).Canon := by
  unfold execDrainTileAck
  split
  · exact hs
  · split
    · split
      · refine canon_ite hs ?_
        dsimp only
        split
        · refine canon_ite ?_ ?_
          · refine markTile_canon ?_
            split
            · exact drainOne_canon (pick_canon hs)
            · exact pick_canon hs
          · split
            · exact drainOne_canon (pick_canon hs)
            · exact pick_canon hs
        · split
          · exact drainOne_canon (pick_canon hs)
          · exact pick_canon hs
      · exact hs
    · exact hs

theorem completeMatrix_canon {core} (hs : s.Canon) : (completeMatrix s core).Canon := by
  unfold completeMatrix
  split
  · exact hs
  · split
    · refine canon_ite hs ?_
      split
      split
      · dsimp only
        split
        · exact hs
        · exact startService_canon (Comp.canon_wait ‹_› (complete_canon hs))
        · exact mxFreeze_canon (Comp.canon_iso ‹_› (complete_canon hs))
        · exact modMx_canon (Comp.canon_done ‹_› (complete_canon hs))
      · dsimp only
        split
        · exact hs
        · exact startService_canon (Comp.canon_wait ‹_› (complete_canon hs))
        · exact mxFreeze_canon (Comp.canon_iso ‹_› (complete_canon hs))
        · exact modMx_canon (Comp.canon_done ‹_› (complete_canon hs))
    · exact hs

/-! ### Collectives -/

theorem modRank_canon {p f} (hs : s.Canon) : (State.modRank s p f).Canon :=
  hs

theorem execCollStart_canon {core} (hs : s.Canon) : (execCollStart core s).Canon := by
  unfold execCollStart
  split
  · exact hs
  · refine canon_ite hs ?_
    split <;> exact hs

theorem execCollMatch_canon {k} (hs : s.Canon) : (execCollMatch k s).Canon := by
  unfold execCollMatch
  dsimp only
  split
  · exact hs
  · split
    · exact hs
    · refine canon_ite hs (canon_ite (modRank_canon hs) (canon_ite (modRank_canon hs) ?_))
      apply canon_mem
      dsimp only
      exact modRank_canon hs

theorem spanRead_canon {p seg core wins f va n} (hs : s.Canon) : (spanRead s p seg core wins f va n).1.Canon := by
  induction f generalizing s va n with
  | zero => exact hs
  | succ f ih =>
    unfold spanRead
    split
    · exact hs
    · dsimp only
      split
      · split
        · exact canon_fst ‹_› (ih (canon_fst ‹_› (vaRead_canon hs)))
        · exact ih (canon_fst ‹_› (vaRead_canon hs))
      · exact canon_fst ‹_› (vaRead_canon hs)

theorem spanWrite_canon {p seg core wins f va bs} (hs : s.Canon) : (spanWrite s p seg core wins f va bs).1.Canon := by
  induction f generalizing s va bs with
  | zero => exact hs
  | succ f ih =>
    unfold spanWrite
    split
    · exact hs
    · dsimp only
      split
      · exact ih (canon_fst ‹_› (vaWrite_canon hs))
      · exact canon_fst ‹_› (vaWrite_canon hs)

theorem CollRank.read_canon {x va n} (hs : s.Canon) : (CollRank.read s x va n).1.Canon := by
  unfold CollRank.read
  split
  · exact hs
  · exact spanRead_canon hs

theorem CollRank.write_canon {x va bs} (hs : s.Canon) : (CollRank.write s x va bs).1.Canon := by
  unfold CollRank.write
  split
  · exact hs
  · exact spanWrite_canon hs

theorem ringFreeze_canon {x va} (hs : s.Canon) : (ringFreeze s x va).Canon :=
  post_canon (post_canon (noteStop_canon hs))

theorem rankFault_canon {x rd va a} (hs : s.Canon) : (rankFault s x rd va a).Canon := by
  unfold rankFault
  split <;> try exact hs
  · exact ringFreeze_canon (modRank_canon hs)
  · exact canon_ite (modRank_canon (startService_canon hs)) (modRank_canon hs)

theorem lookTrigger_canon {s0 : State} {x home} (hs0 : s0.Canon) : (lookTrigger s0 x home).Canon := by
  unfold lookTrigger
  split
  · exact canon_ite hs0 (modRank_canon (canon_fst ‹_› (CollRank.read_canon hs0)))
  · exact canon_fst ‹_› (CollRank.read_canon hs0)
  · exact rankFault_canon (canon_fst ‹_› (CollRank.read_canon hs0))
  · exact rankFault_canon (canon_fst ‹_› (CollRank.read_canon hs0))

theorem lookTriggers_canon {core dev} (hs : s.Canon) : (lookTriggers s core dev).Canon := by
  unfold lookTriggers
  refine canon_getD ?_ hs
  cases h : List.findSome? _ _ with
  | none => trivial
  | some t =>
    obtain ⟨x, -, hx⟩ := List.exists_of_findSome?_eq_some h
    dsimp only at hx
    split at hx <;> cases hx
    exact lookTrigger_canon hs

theorem execTriggerSeen_canon {core} (hs : s.Canon) : (execTriggerSeen core s).Canon :=
  lookTriggers_canon hs

theorem execTriggerPoll_canon {core} (hs : s.Canon) : (execTriggerPoll core s).Canon :=
  lookTriggers_canon hs

theorem commitPiece_canon {x j k ringB} (hs : s.Canon) : (commitPiece s x j k ringB).Canon := by
  unfold commitPiece
  refine canon_ite (modRank_canon hs) ?_
  split
  · exact modRank_canon (Comp.canon_done ‹_› (complete_canon hs))
  · exact modRank_canon hs
  · exact modRank_canon (startService_canon (Comp.canon_wait ‹_› (complete_canon hs)))
  · exact rankFault_canon (Comp.canon_iso ‹_› (complete_canon hs))

theorem gatherCopy_canon {x r} (hs : s.Canon) : (gatherCopy s x r).Canon := by
  unfold gatherCopy
  dsimp only
  split
  · split
    · exact modRank_canon (canon_fst ‹_› (CollRank.write_canon (canon_fst ‹_› (CollRank.read_canon hs))))
    · exact rankFault_canon (canon_fst ‹_› (CollRank.write_canon (canon_fst ‹_› (CollRank.read_canon hs))))
  · exact canon_fst ‹_› (CollRank.read_canon hs)
  · exact rankFault_canon (canon_fst ‹_› (CollRank.read_canon hs))
  · exact rankFault_canon (canon_fst ‹_› (CollRank.read_canon hs))

theorem landPiece_canon {x r k blk el bs} (hs : s.Canon) : (landPiece s x r k blk el bs).1.Canon :=
  CollRank.write_canon hs

theorem madePiece_canon {x k j ringB} (hs : s.Canon) : (madePiece s x k j ringB).Canon :=
  canon_ite (commitPiece_canon hs) (modRank_canon hs)

theorem foldPiece_canon {x r k blk el j ringB bs} (hs : s.Canon) : (foldPiece s x r k blk el j ringB bs).Canon := by
  unfold foldPiece
  refine canon_ite ?_ (modRank_canon hs)
  split
  · exact canon_fst ‹_› (CollRank.read_canon hs)
  · exact rankFault_canon (canon_fst ‹_› (CollRank.read_canon hs))
  · exact rankFault_canon (canon_fst ‹_› (CollRank.read_canon hs))
  · split
    · exact madePiece_canon (canon_fst ‹_› (CollRank.write_canon (canon_fst ‹_› (CollRank.read_canon hs))))
    · exact rankFault_canon (canon_fst ‹_› (CollRank.write_canon (canon_fst ‹_› (CollRank.read_canon hs))))

theorem couchPiece_canon {q x r k j ringB} (hs : s.Canon) : (couchPiece s q x r k j ringB).Canon := by
  unfold couchPiece
  dsimp only
  split
  · exact canon_fst ‹_› (CollRank.read_canon hs)
  · exact rankFault_canon (canon_fst ‹_› (CollRank.read_canon hs))
  · exact rankFault_canon (canon_fst ‹_› (CollRank.read_canon hs))
  · split
    · exact canon_ite (foldPiece_canon (canon_fst ‹_› (landPiece_canon (canon_fst ‹_› (CollRank.read_canon hs)))))
        (madePiece_canon (canon_fst ‹_› (landPiece_canon (canon_fst ‹_› (CollRank.read_canon hs)))))
    · exact rankFault_canon (canon_fst ‹_› (landPiece_canon (canon_fst ‹_› (CollRank.read_canon hs))))

theorem landedPiece_canon {q x r k j ringB} (hs : s.Canon) : (landedPiece s q x r k j ringB).Canon := by
  unfold landedPiece
  dsimp only
  split
  · exact canon_fst ‹_› (CollRank.read_canon hs)
  · exact rankFault_canon (canon_fst ‹_› (CollRank.read_canon hs))
  · exact rankFault_canon (canon_fst ‹_› (CollRank.read_canon hs))
  · exact foldPiece_canon (canon_fst ‹_› (CollRank.read_canon hs))

theorem execCouch_canon {k rank piece ringB} (hs : s.Canon) : (execCouch k rank piece ringB s).Canon := by
  unfold execCouch
  split
  · exact hs
  · split
    · exact canon_ite hs
        (canon_ite (canon_ite (commitPiece_canon hs) hs)
        (canon_ite (canon_ite (landedPiece_canon hs) hs)
        (canon_ite hs (canon_ite (gatherCopy_canon hs) (couchPiece_canon hs)))))
    · exact hs

theorem execClosingToken_canon {k rank} (hs : s.Canon) : (execClosingToken k rank s).Canon := by
  unfold execClosingToken
  split
  · exact canon_ite (canon_ite (canon_of_mem_eq rfl (canon_ite hs (canon_ite (modRank_canon hs) hs)))
      (modRank_canon (canon_ite hs (canon_ite (modRank_canon hs) hs)))) (canon_ite hs (canon_ite (modRank_canon hs) hs))
  · exact hs

theorem execCollAbort_canon {k rank} (hs : s.Canon) : (execCollAbort k rank s).Canon := by
  unfold execCollAbort
  split
  · exact canon_ite (canon_ite hs (modRank_canon hs)) hs
  · exact hs

theorem execPvAgreement_canon {k} (hs : s.Canon) : (execPvAgreement k s).Canon :=
  canon_ite hs (modRank_canon hs)

theorem noteDone_canon {x} (hs : s.Canon) : (noteDone s x).Canon :=
  modCore_canon hs

theorem popEntry_canon {core} (hs : s.Canon) : (popEntry s core).Canon :=
  canon_ite (modGrp_canon hs) hs

theorem fixBusy_canon (hs : s.Canon) : (fixBusy s).Canon :=
  hs

theorem mapGroups_canon {f} (hs : s.Canon) : (State.mapGroups s f).Canon :=
  hs

theorem completeRing_canon {core} (hs : s.Canon) : (completeRing s core).Canon := by
  unfold completeRing
  split
  · exact hs
  · rename_i x _
    extract_lets ends
    have hends {s : State} (hs : s.Canon) : (ends s).Canon := by
      have h1 : State.Canon { noteDone (popEntry s core) x with ranks := s.ranks.filter fun y => y != x } := by
        apply canon_mem
        dsimp only
        exact noteDone_canon (popEntry_canon hs)
      exact canon_ite (modRank_canon (fixBusy_canon h1)) (fixBusy_canon h1)
    refine canon_ite hs ?_
    split
    · exact hs
    · exact startService_canon (Comp.canon_wait ‹_› (complete_canon hs))
    · exact hends (ringFreeze_canon (Comp.canon_iso ‹_› (complete_canon hs)))
    · exact hends (Comp.canon_done ‹_› (complete_canon hs))

theorem execCommandCompletion_canon {core e} (hs : s.Canon) : (execCommandCompletion core e s).Canon := by
  unfold execCommandCompletion
  split
  · exact completeCopy_canon hs
  · exact completeMatrix_canon hs
  · exact completeRing_canon hs

/-! ### Events of issue, wait store and region buffer -/

theorem execPipeChoose_canon {core pipe} (hs : s.Canon) : (execPipeChoose core pipe s).Canon :=
  canon_ite (choose_canon hs) hs

theorem landResult_canon {core g p v} (hs : s.Canon) : (landResult s core g p v).Canon := by
  unfold landResult
  split
  · exact setGrp_canon hs
  · exact longOn_canon (commitElem_canon (setGrp_canon hs))
  · exact setGrp_canon hs

theorem execResultLanding_canon {core id} (hs : s.Canon) : (execResultLanding core id s).Canon := by
  unfold execResultLanding
  split
  · exact hs
  · split
    · exact hs
    · split
      · exact hs
      · exact canon_ite hs (landResult_canon hs)
      · exact settle_canon hs

theorem wakeAll_canon {core tids} (hs : s.Canon) : (wakeAll s core tids).Canon :=
  leaveWaits_canon hs

theorem wake_canon {core tid} (hs : s.Canon) : (wake s core tid).Canon :=
  wakeAll_canon hs

theorem wakeStg_canon {core tid g sid take dst since} (hs : s.Canon) :
    (wakeStg s core tid g sid take dst since).Canon := by
  unfold wakeStg
  split
  · exact hs
  · exact canon_ite (wake_canon (setGrp_canon hs)) hs

theorem execWaitStoreRelease_canon {core tid} (hs : s.Canon) : (execWaitStoreRelease core tid s).Canon := by
  unfold execWaitStoreRelease
  split
  · exact hs
  · split
    · exact hs
    · split
      · refine canon_ite ?_ hs
        split
        · exact wake_canon (bumpGen_canon (canon_fst ‹_› (acquireAt_canon hs)))
        · exact canon_fst ‹_› (acquireAt_canon hs)
      · refine canon_ite ?_ hs
        split
        · exact wake_canon (canon_fst ‹_› (acquireAt_canon hs))
        · exact canon_fst ‹_› (acquireAt_canon hs)
      · refine canon_ite hs ?_
        split
        · exact settlePhases_canon (wake_canon (modGrp_canon (bumpPhase_canon (canon_fst ‹_› (release_canon hs)))))
        · exact canon_fst ‹_› (release_canon hs)
      · exact wakeStg_canon hs
      · exact hs

theorem execLaneConvergence_canon {core gang} (hs : s.Canon) : (execLaneConvergence core gang s).Canon := by
  unfold execLaneConvergence
  split
  · exact hs
  · dsimp only
    split
    · exact hs
    · exact canon_ite (wakeAll_canon hs) hs

theorem acceptElem_canon {core e} (hs : s.Canon) : (acceptElem s core e).Canon := by
  unfold acceptElem
  dsimp only
  split
  · exact startDrain_canon hs
  · split
    · exact canon_ite (commitStore_canon (startDrain_canon hs)) (startDrain_canon hs)
    · exact startDrain_canon hs

theorem ackProbe_canon {core id g e ia t} (hs : s.Canon) : (ackProbe s core id g e ia t).Canon := by
  unfold ackProbe
  refine canon_ite ?_ ?_
  · refine acceptElem_canon ?_
    refine modGrp_canon ?_
    split
    · split
      · exact setTail_canon (noteWalk_canon hs)
      · exact noteWalk_canon hs
    · exact noteWalk_canon hs
  · refine modGrp_canon ?_
    split
    · split
      · exact setTail_canon (noteWalk_canon hs)
      · exact noteWalk_canon hs
    · exact noteWalk_canon hs

theorem probeFault_canon {core e c v f} (hs : s.Canon) : (probeFault s core e c v f).Canon :=
  settle_canon (modGrp_canon hs)

theorem execProbeAnswer_canon {core id} (hs : s.Canon) : (execProbeAnswer core id s).Canon := by
  unfold execProbeAnswer
  split
  · exact hs
  · split
    · exact hs
    · split
      · split
        · exact canon_ite (probeFault_canon hs) (ackProbe_canon hs)
        · exact hs
        · exact probeFault_canon hs
        · exact freezeGroup_canon hs
      · exact settle_canon hs
      · exact hs

theorem execRegionComplete_canon {core tid} (hs : s.Canon) : (execRegionComplete core tid s).Canon := by
  unfold execRegionComplete
  split
  · exact hs
  · exact canon_ite (trapNow_canon (drainHeld_canon (setGrp_canon hs))) hs

theorem execStoreEntryRetry_canon {core tid} (hs : s.Canon) : (execStoreEntryRetry core tid s).Canon := by
  unfold execStoreEntryRetry
  split
  · exact hs
  · refine canon_ite hs ?_
    refine canon_ite (canon_ite (longOn_canon (setGrp_canon hs)) (setGrp_canon hs)) ?_
    split
    · exact abortRegion_canon hs
    · exact hs

theorem copyFrame_canon {src dst} (hs : s.Canon) : (copyFrame s src dst).Canon := by
  have hp (p : Nat → Bool) {c : Host.Cell} (hc : c ∈ s.mem.filter fun c => p c.1) : p c.1 = true :=
    (List.mem_filter.mp hc).2
  have below {c} := hp (fun a => decide (a < dst)) (c := c)
  have above {c} := hp (fun a => decide (dst + 65536 ≤ a)) (c := c)
  have inSrc {c} := hp (fun a => decide (src ≤ a) && decide (a < src + 65536)) (c := c)
  simp only [Bool.and_eq_true, decide_eq_true_eq] at below above inSrc
  have moves : ∀ a ∈ s.mem.filter fun c => decide (src ≤ c.1) && decide (c.1 < src + 65536),
      dst ≤ dst + (a.1 - src) ∧ dst + (a.1 - src) < dst + 65536 := fun a ha => by
    have := inSrc ha; omega
  refine wf_append (wf_append (wf_filter _ hs) (wf_move (fun a => dst + (a - src)) (wf_filter _ hs) ?_) ?_)
    (wf_filter _ hs) ?_
  · intro a ha b hb hab
    have := inSrc ha
    omega
  · intro a ha b hb
    obtain ⟨c, hc, rfl⟩ := List.mem_map.mp hb
    exact Nat.lt_of_lt_of_le (below ha) (moves c hc).1
  · intro a ha b hb
    refine Nat.lt_of_lt_of_le ?_ (above hb)
    rcases List.mem_append.mp ha with ha | ha
    · exact Nat.lt_add_right _ (below ha)
    · obtain ⟨c, hc, rfl⟩ := List.mem_map.mp ha
      exact (moves c hc).2

theorem applyFw_canon {p fw} (hs : s.Canon) : (applyFw s p fw).Canon := by
  unfold applyFw
  extract_lets frames s0 s1 s2 s3 s4
  have h1 : s1.Canon := canon_foldl (fun _ _ hs => copyFrame_canon hs) hs
  have h2 : s2.Canon := canon_foldl (fun _ _ hs => canon_ite (memWrite64_wf _ _ hs) hs) h1
  have h3 : s3.Canon := canon_ite h2 h2
  exact canon_foldl (fun _ _ hs => hs) (canon_foldl (fun _ _ hs => hs) h3)

theorem grantFw_canon {p fw} (hs : s.Canon) : CanonOpt (grantFw s p fw) := by
  unfold grantFw
  dsimp only
  split
  · exact applyFw_canon hs
  · exact trivial

theorem serveCore_canon {part page core} (hs : s.Canon) : (serveCore part page s core).Canon := by
  unfold serveCore
  split
  · exact hs
  · split
    · exact hs
    · exact wakeAll_canon (dropSi_canon hs)

theorem servePage_canon {part page} (hs : s.Canon) : (servePage s part page).Canon := by
  unfold servePage
  extract_lets s1 s2 s3
  have h1 : s1.Canon := canon_foldl (fun _ _ hs => serveCore_canon hs) hs
  have h3 : s3.Canon := modRank_canon (mapGroups_canon h1)
  exact h3

theorem execPageServed_canon {part page fw} (hs : s.Canon) : (execPageServed part page fw s).Canon := by
  unfold execPageServed
  refine canon_ite hs ?_
  split
  · exact hs
  · exact canon_ite hs (servePage_canon (canon_some ‹_› (grantFw_canon hs)))

theorem declineCore_canon {part page prifail core} (hs : s.Canon) : (declineCore part page prifail s core).Canon := by
  unfold declineCore
  split
  · exact hs
  · exact canon_ite (leaveWaits_canon hs) hs

theorem declinePage_canon {part page prifail} (hs : s.Canon) : (declinePage s part page prifail).Canon := by
  unfold declinePage
  extract_lets s1 tvec s2 s3
  have h1 : s1.Canon := canon_foldl (fun _ _ hs => declineCore_canon hs) hs
  have h3 : s3.Canon := modRank_canon (mapGroups_canon h1)
  exact h3

theorem execFaultDeclined_canon {part page} (hs : s.Canon) : (execFaultDeclined part page s).Canon :=
  canon_ite (declinePage_canon hs) hs

theorem waitTrap_canon {core tid cause val trec} (hs : s.Canon) : (waitTrap s core tid cause val trec).Canon :=
  moveOut_canon hs

theorem lookAgain_canon {core tid g a target err sys} (hs : s.Canon) :
    (lookAgain s core tid g a target err sys).Canon := by
  unfold lookAgain
  split
  · exact hs
  · exact Look.canon_later ‹_› (lookCount_canon hs)
  · exact wake_canon (modGrp_canon (Look.canon_done ‹_› (lookCount_canon hs)))
  · exact canon_ite (modGrp_canon (startService_canon (Look.canon_fault ‹_› (lookCount_canon hs))))
      (waitTrap_canon (Look.canon_fault ‹_› (lookCount_canon hs)))
  · exact canon_ite (freezeGroup_canon hs) (waitTrap_canon hs)
  · exact waitTrap_canon (Look.canon_err ‹_› (lookCount_canon hs))

theorem execWaitgeWake_canon {core tid} (hs : s.Canon) : (execWaitgeWake core tid s).Canon := by
  unfold execWaitgeWake
  split
  · exact hs
  · split
    · split
      · exact canon_ite (lookAgain_canon hs) hs
      · exact hs
    · exact hs

theorem execWaitgePoll_canon {core tid} (hs : s.Canon) : (execWaitgePoll core tid s).Canon := by
  unfold execWaitgePoll
  split
  · exact hs
  · split
    · split
      · refine canon_ite hs ?_
        dsimp only
        split
        · exact lookAgain_canon (modGrp_canon hs)
        · exact modGrp_canon hs
      · exact hs
    · exact hs

theorem execBackoffExpiry_canon {core tid} (hs : s.Canon) : (execBackoffExpiry core tid s).Canon := by
  unfold execBackoffExpiry
  split
  · exact hs
  · exact canon_ite (setGrp_canon hs) hs

theorem execNopreDeadline_canon {core} (hs : s.Canon) : (execNopreDeadline core s).Canon := by
  unfold execNopreDeadline
  split
  · exact hs
  · split
    · exact canon_ite (setGrp_canon hs) hs
    · exact hs

/-! ### Events of homes and L1s -/

theorem setPend_canon {core id f} (hs : s.Canon) : (setPend s core id f).Canon :=
  modGrp_canon hs

theorem pendFault_canon {core id f} (hs : s.Canon) : (pendFault s core id f).Canon :=
  modGrp_canon hs

theorem pendReady_canon {core id v} (hs : s.Canon) : (pendReady s core id v).Canon :=
  setPend_canon hs

theorem readFill_canon {core g m t} (hs : s.Canon) : (readFill s core g m t).Canon := by
  unfold readFill
  extract_lets p ia s1 s2 s3 s4 f s5 s6
  have h1 : s1.Canon := canon_ite (recallMask_canon hs) (flushBefore_canon hs)
  have h2 : s2.Canon := noteHot_canon (noteWalk_canon h1)
  have h3 : s3.Canon := by
    unfold s3
    split
    · exact learnReps_canon h2
    · exact h2
  have h4 : s4.Canon := dropPoisoned_canon h3
  have h5 : s5.Canon := canon_ite (joinSharers_canon h4) h4
  have h6 : s6.Canon := canon_ite (canon_foldl (fun _ _ hs => keepL2_canon hs) h5) h5
  exact canon_ite h1 (modCore_canon h6)

theorem dropMiss_canon {core id} (hs : s.Canon) : (dropMiss s core id).Canon :=
  modCore_canon hs

theorem missToHome_canon {core m ws} (hs : s.Canon) : (missToHome s core m ws).Canon :=
  modGrp_canon (dropMiss_canon hs)

theorem serveMiss_canon {core g m} (hs : s.Canon) : (serveMiss s core g m).Canon := by
  unfold serveMiss
  dsimp only
  split
  · exact modCore_canon hs
  · refine canon_ite (missToHome_canon hs) ?_
    split
    · exact freezeGroup_canon (dropMiss_canon hs)
    · split
      · exact hs
      · split
        · exact hs
        · refine canon_foldl (fun _ _ hs => settle_canon hs) ?_
          split
          · exact canon_ite (dropMiss_canon (canon_foldl (fun _ _ hs => pendFault_canon hs) hs))
              (canon_ite (readFill_canon (canon_foldl (fun _ _ hs => pendFault_canon hs) hs))
              (missToHome_canon (canon_foldl (fun _ _ hs => pendFault_canon hs) hs)))
          · exact dropMiss_canon (canon_foldl (fun _ _ hs => pendFault_canon hs) hs)

theorem serveLoad_canon {core g x a sx own} (hs : s.Canon) : (serveLoad s core g x a sx own).Canon := by
  unfold serveLoad
  refine canon_ite hs ?_
  split
  · exact pendReady_canon (dropStale_canon (canon_fst ‹_› (loadHome_canon hs)))
  · exact canon_fst ‹_› (loadHome_canon hs)
  · exact settle_canon (pendFault_canon (canon_fst ‹_› (loadHome_canon hs)))
  · exact freezeGroup_canon (canon_fst ‹_› (loadHome_canon hs))

theorem serveQuery_canon {core g x a f} (hs : s.Canon) : (serveQuery s core g x a f).Canon := by
  unfold serveQuery
  split
  · exact pendReady_canon (noteHot_canon (noteWalk_canon hs))
  · exact hs
  · exact settle_canon (pendFault_canon hs)
  · exact freezeGroup_canon hs

theorem servePginfo_canon {core g x a} (hs : s.Canon) : (servePginfo s core g x a).Canon := by
  unfold servePginfo
  refine canon_ite hs ?_
  split
  exact pendReady_canon (canon_snd ‹_› (pginfoAt_canon hs))

theorem execHomeLoad_canon {core id} (hs : s.Canon) : (execHomeLoad core id s).Canon := by
  unfold execHomeLoad
  split
  · exact hs
  · split
    · exact canon_ite hs (serveMiss_canon hs)
    · split
      · exact hs
      · split
        · exact serveLoad_canon hs
        · exact canon_ite hs (serveQuery_canon hs)
        · exact canon_ite hs (serveQuery_canon hs)
        · exact servePginfo_canon hs
        · exact serveFence_canon hs
        · exact hs

theorem answerLoad_canon {core l x a ia} (hs : s.Canon) : (answerLoad s core l x a ia).Canon := by
  unfold answerLoad
  split
  · split
    · split
      · dsimp only
        split
        · exact pendReady_canon hs
        · exact setPend_canon hs
      · dsimp only
        split
        · exact settle_canon (pendFault_canon hs)
        · exact setPend_canon hs
    · split
      · dsimp only
        split
        · exact pendReady_canon hs
        · exact setPend_canon hs
      · dsimp only
        split
        · exact settle_canon (pendFault_canon hs)
        · exact setPend_canon hs
  · exact hs

theorem dropFill_canon {core id} (hs : s.Canon) : (dropFill s core id).Canon :=
  modCore_canon hs

theorem execFillArrival_canon {core line} (hs : s.Canon) : (execFillArrival core line s).Canon := by
  unfold execFillArrival
  split
  · split
    · exact dropFill_canon hs
    · refine canon_ite (dropFill_canon hs) ?_
      refine canon_ite (makeRoom_canon hs) ?_
      refine canon_foldl (fun _ _ hs => ?_)
        (modGrp_canon (dropMiss_canon (dropFill_canon (modCore_canon (makeRoom_canon hs)))))
      split
      exact answerLoad_canon hs
  · exact hs

theorem freeEntry_canon {core id} (hs : s.Canon) : (freeEntry s core id).Canon :=
  modGrp_canon hs

theorem reportStore_canon {g va} (hs : s.Canon) : (reportStore s g va).Canon :=
  post_canon hs

theorem loseStore_canon {core g e} (hs : s.Canon) : (loseStore s core g e).Canon :=
  canon_ite (longOn_canon (commitElem_canon (reportStore_canon (freeEntry_canon hs))))
    (reportStore_canon (freeEntry_canon hs))

theorem landStore_canon {core g e} (hs : s.Canon) : (landStore s core g e).Canon :=
  canon_ite (commitStore_canon hs) (storeEntry_canon hs)

theorem drainStore_canon {core g e} (hs : s.Canon) : (drainStore s core g e).Canon := by
  unfold drainStore
  split
  · split
    · exact loseStore_canon hs
    · split
      · exact hs
      · exact loseStore_canon hs
      · exact canon_ite (reportStore_canon (landStore_canon hs)) (landStore_canon hs)
  · exact landStore_canon hs

theorem execHomeWrite_canon {core id} (hs : s.Canon) : (execHomeWrite core id s).Canon := by
  unfold execHomeWrite
  split
  · exact canon_ite hs (performPosted_canon hs)
  · split
    · exact hs
    · split
      · exact hs
      · exact canon_ite (showBehind_canon (drainStore_canon hs)) hs

theorem atomDone_canon {core x n old} (hs : s.Canon) : (atomDone s core x n old).Canon :=
  pendReady_canon hs

theorem serveAtom_canon {core g x op a b d sc raw} (hs : s.Canon) : (serveAtom s core g x op a b d sc raw).Canon := by
  unfold serveAtom
  split
  · exact atomDone_canon (spadWrite_canon hs)
  · split
    · refine canon_ite hs ?_
      refine canon_ite (settle_canon (pendFault_canon hs)) ?_
      dsimp only
      split
      · exact atomDone_canon (dropStale_canon (canon_fst ‹_› (atomAt_canon (noteHot_canon (noteWalk_canon hs)))))
      · exact settle_canon (pendFault_canon (canon_fst ‹_› (atomAt_canon (noteHot_canon (noteWalk_canon hs)))))
      · exact canon_fst ‹_› (atomAt_canon (noteHot_canon (noteWalk_canon hs)))
    · exact hs
    · exact settle_canon (pendFault_canon hs)
    · exact freezeGroup_canon hs
  · exact hs

theorem serveRes_canon {core g x a n} (hs : s.Canon) : (serveRes s core g x a n).Canon := by
  unfold serveRes
  split
  · exact hs
  · exact settle_canon (pendFault_canon hs)
  · exact freezeGroup_canon hs
  · refine canon_ite (settle_canon (pendFault_canon hs)) ?_
    refine canon_ite (settle_canon (pendFault_canon hs)) ?_
    refine canon_ite (pendReady_canon (noteHot_canon (noteWalk_canon hs))) ?_
    split
    · exact pendReady_canon (setTail_canon (noteHot_canon (noteWalk_canon hs)))
    · exact noteHot_canon (noteWalk_canon hs)
  · exact settle_canon (pendFault_canon hs)

theorem execHomeAtomic_canon {core id} (hs : s.Canon) : (execHomeAtomic core id s).Canon := by
  unfold execHomeAtomic
  split
  · exact hs
  · split
    · exact hs
    · split
      · exact serveAtom_canon hs
      · exact serveAtom_canon hs
      · exact canon_ite hs (serveRes_canon hs)
      · exact hs

theorem ackInv_canon {i} (hs : s.Canon) : (ackInv s i).Canon :=
  canon_ite (freeApplied_canon hs) hs

theorem execInvalidation_canon {core line} (hs : s.Canon) : (execInvalidation core line s).Canon := by
  unfold execInvalidation
  dsimp only
  split
  · exact hs
  · refine ackInv_canon ?_
    split
    · exact hs
    · exact canon_ite hs (modCore_canon hs)

theorem backLine_canon {core line m} (hs : s.Canon) : (backLine s core line m).Canon := by
  unfold backLine
  split
  · split
    · exact writeBackWords_canon hs
    · exact hs
  · exact hs

theorem execRecall_canon {core line} (hs : s.Canon) : (execRecall core line s).Canon :=
  backLine_canon hs

theorem execWriteBack_canon {core line} (hs : s.Canon) : (execWriteBack core line s).Canon :=
  backLine_canon hs

theorem execHostSnoop_canon {part line} (hs : s.Canon) : (execHostSnoop part line s).Canon :=
  canon_ite hs hs

theorem hostAccess_canon {addr data} (hs : s.Canon) : (hostAccess s addr data).Canon := by
  unfold hostAccess
  split
  · refine canon_foldl (fun _ _ hs => ?_) hs
    split
    exact recallMask_canon hs
  · refine canon_ite ?_ ?_
    · refine canon_foldl (fun _ _ hs => ?_) hs
      split
      exact recallMask_canon hs
    · refine canon_foldl (fun _ _ hs => ?_) ?_
      · split
        exact bumpLine_canon hs
      · refine clearPoison_canon ?_
        refine memWriteN_wf _ _ ?_
        refine canon_foldl (fun _ _ hs => ?_) hs
        split
        exact recallMask_canon hs

theorem execHostCxlMemAccess_canon {addr len data} (hs : s.Canon) : (execHostCxlMemAccess addr len data s).Canon := by
  unfold execHostCxlMemAccess
  split
  · exact hs
  · exact canon_ite hs (hostAccess_canon hs)
  · exact trivial

theorem timeOutMiss_canon {core g m} (hs : s.Canon) : (timeOutMiss s core g m).Canon := by
  unfold timeOutMiss
  refine canon_ite hs ?_
  refine canon_foldl (fun _ _ hs => settle_canon hs) ?_
  refine dropMiss_canon ?_
  refine canon_foldl (fun _ _ hs => ?_) hs
  split
  exact pendFault_canon hs

theorem execAccessTimeout_canon {core id} (hs : s.Canon) : (execAccessTimeout core id s).Canon := by
  unfold execAccessTimeout
  refine canon_ite hs ?_
  refine canon_ite hs ?_
  split
  · exact hs
  · split
    · exact timeOutMiss_canon hs
    · split
      · split
        · exact canon_ite (settle_canon (pendFault_canon hs)) hs
        · exact hs
      · split
        · exact canon_ite (probeFault_canon hs) hs
        · exact hs

/-! ### Events of pages -/

theorem placeReplica_canon {p page stack size frame} (hs : s.Canon) :
    (placeReplica s p page stack size frame).Canon := by
  unfold placeReplica
  split
  · exact hs
  · exact canon_ite hs hs

theorem placeAll_canon {p page h l} (hs : s.Canon) : (placeAll s p page h l).Canon :=
  canon_foldl (fun _ _ hs => placeReplica_canon hs) hs

theorem answerSeals_canon {p page r} (hs : s.Canon) : (answerSeals s p page r).Canon :=
  mapGroups_canon hs

theorem answerIfPlaced_canon {p page} (hs : s.Canon) : (answerIfPlaced s p page).Canon := by
  unfold answerIfPlaced
  split
  · exact canon_ite (answerSeals_canon hs) hs
  · exact hs

theorem serveSeal_canon {core g x a bcast} (hs : s.Canon) : (serveSeal s core g x a bcast).Canon := by
  unfold serveSeal
  split
  · exact hs
  · exact settle_canon (pendFault_canon hs)
  · exact freezeGroup_canon hs
  · exact settle_canon (pendFault_canon hs)
  · split
    · exact canon_ite (answerIfPlaced_canon
        (canon_ite (placeAll_canon (setPend_canon (setTail_canon (noteHot_canon (noteWalk_canon hs)))))
        (setPend_canon (setTail_canon (noteHot_canon (noteWalk_canon hs))))))
        (setPend_canon (setTail_canon (noteHot_canon (noteWalk_canon hs))))
    · exact hs

theorem execSealAtHome_canon {core id} (hs : s.Canon) : (execSealAtHome core id s).Canon := by
  unfold execSealAtHome
  split
  · exact hs
  · split
    · exact hs
    · split
      · exact serveSeal_canon hs
      · exact hs

theorem dropXlat_canon {p page size} (hs : s.Canon) : (dropXlat s p page size).Canon :=
  hs

theorem writeLeaf_canon {l d0 d1} (hs : s.Canon) : (writeLeaf s l d0 d1).Canon :=
  memWrite64_wf _ _ (memWrite64_wf _ _ hs)

theorem execSealComplete_canon {part page} (hs : s.Canon) : (execSealComplete part page s).Canon := by
  unfold execSealComplete
  split
  · exact hs
  · refine canon_ite ?_ hs
    extract_lets _ s1 s2 s3
    have h3 : s3.Canon := by
      apply canon_mem
      dsimp only [s3]
      exact dropXlat_canon (writeLeaf_canon hs)
    exact answerIfPlaced_canon (canon_ite (placeAll_canon h3) h3)

theorem copyPage_canon {src dst size} (hs : s.Canon) : (copyPage s src dst size).Canon :=
  canon_foldl (fun _ _ hs => copyFrame_canon hs) hs

theorem execReplicaPlaced_canon {part page stack} (hs : s.Canon) : (execReplicaPlaced part page stack s).Canon := by
  unfold execReplicaPlaced
  split
  · exact canon_ite hs (answerIfPlaced_canon (setTail_canon (canon_of_mem_eq rfl (copyPage_canon hs))))
  · exact hs

theorem execReplicaDrop_canon {part page stack} (hs : s.Canon) : (execReplicaDrop part page stack s).Canon := by
  unfold execReplicaDrop
  split
  · exact canon_ite hs (startDraining_canon hs)
  · exact hs

theorem execReplicaDrained_canon {part page stack} (hs : s.Canon) : (execReplicaDrained part page stack s).Canon := by
  unfold execReplicaDrained
  split
  · exact canon_ite hs hs
  · exact hs

theorem execReplicationByHotness_canon {part page stack frame} (hs : s.Canon) :
    (execReplicationByHotness part page stack frame s).Canon := by
  unfold execReplicationByHotness
  split
  · exact hs
  · dsimp only
    split
    · exact canon_ite hs (placeReplica_canon hs)
    · exact hs

theorem execPageWalk_canon {part ia} (hs : s.Canon) : (execPageWalk part ia s).Canon :=
  canon_ite (noteWalk_canon hs) hs

theorem recallRange_canon {p ia size} (hs : s.Canon) : (recallRange s p ia size).Canon :=
  canon_foldl (fun _ _ hs => recallMask_canon hs) hs

theorem dropLines_canon {p ia size} (hs : s.Canon) : (dropLines s p ia size).Canon :=
  hs

theorem waitStores_canon {p page pages l posted} (hs : s.Canon) : (waitStores s p page pages l posted).Canon :=
  canon_ite hs hs

theorem endShoot_canon {x} (hs : s.Canon) : (endShoot s x).Canon :=
  canon_ite hs hs

theorem execShootdown_canon {part ia d0 d1} (hs : s.Canon) : (execShootdown part ia d0 d1 s).Canon := by
  unfold execShootdown
  split
  · exact canon_ite (endShoot_canon hs) hs
  · split
    · exact hs
    · exact waitStores_canon
        (canon_ite (dropXlat_canon (writeLeaf_canon (recallRange_canon hs)))
        (dropLines_canon (dropXlat_canon (writeLeaf_canon (recallRange_canon hs)))))

theorem bumpAts_canon {p page} (hs : s.Canon) : (bumpAts s p page).Canon :=
  hs

theorem execAtsInvalidation_canon {part page} (hs : s.Canon) : (execAtsInvalidation part page s).Canon := by
  unfold execAtsInvalidation
  split
  · exact canon_ite hs (endShoot_canon hs)
  · exact canon_ite hs (waitStores_canon (dropLines_canon (bumpAts_canon hs)))

theorem sendPris_canon (hs : s.Canon) : (sendPris s).Canon :=
  sendWaiting_canon hs

theorem hostPageThere_canon {p pasid page} (hs : s.Canon) : (hostPageThere s p pasid page).Canon :=
  hs

theorem stopPris_canon {fn} (hs : s.Canon) : (stopPris s fn).Canon :=
  canon_foldl (fun _ _ hs => declinePage_canon hs) (canon_ite hs hs)

theorem execPriResponse_canon {idx code} (hs : s.Canon) : (execPriResponse idx code s).Canon := by
  unfold execPriResponse
  split
  · exact hs
  · exact sendPris_canon
      (canon_ite hs (canon_ite (servePage_canon (hostPageThere_canon hs))
      (declinePage_canon (canon_ite (stopPris_canon hs) hs))))

theorem enablePris_canon {fn} (hs : s.Canon) : (enablePris s fn).Canon :=
  hs

theorem moveTails_canon {copies} (hs : s.Canon) : (moveTails s copies).Canon := by
  unfold moveTails
  refine canon_foldl (fun _ _ hs => ?_) hs
  split
  split <;> exact hs

theorem execMigrateRegion_canon {part ia seg stk fw} (hs : s.Canon) :
    (execMigrateRegion part ia seg stk fw s).Canon := by
  unfold execMigrateRegion
  split
  · exact canon_ite hs
      (canon_ite (recallRange_canon hs)
      (memWriteN_wf _ _ (dropLines_canon
      (dropXlat_canon (canon_of_mem_eq rfl (moveTails_canon (applyFw_canon (recallRange_canon hs))))))))
  · exact hs

theorem execHeldRequestMoved_canon {part ia} (hs : s.Canon) : (execHeldRequestMoved part ia s).Canon := by
  unfold execHeldRequestMoved
  extract_lets key
  split
  · exact canon_ite (retryHeld_canon hs) hs
  · exact hs

theorem writeTail_canon {frame r} (hs : s.Canon) : (writeTail s frame r).Canon := by
  unfold writeTail
  split
  · exact hs
  · split
    · exact memWriteN_wf _ _ hs
    · exact memWriteN_wf _ _ (memWriteN_wf _ _ hs)

theorem clearTail_canon {frame} (hs : s.Canon) : (clearTail s frame).Canon := by
  unfold clearTail
  split
  · exact hs
  · exact memWriteN_wf _ _ hs

theorem syncTails_canon {old : State} (hs : s.Canon) : (syncTails old s).Canon :=
  canon_foldl (fun _ _ hs => writeTail_canon hs) (canon_foldl (fun _ _ hs => clearTail_canon hs) hs)

theorem execHotnessHalving_canon (hs : s.Canon) : (execHotnessHalving s).Canon :=
  halveDue_canon hs

/-! ### Stopping core groups -/

theorem endRuns_canon {core} (hs : s.Canon) : (endRuns s core).Canon :=
  endRun_canon (endRun_canon hs)

theorem discardEntry_canon {core g e} (hs : s.Canon) : (discardEntry s core g e).Canon := by
  unfold discardEntry
  split <;> try exact hs
  · exact withdraw_canon hs
  · exact withdraw_canon hs

theorem discardStores_canon {core g} (hs : s.Canon) : (discardStores s core g).Canon :=
  modGrp_canon (canon_foldl (fun _ _ hs => discardEntry_canon hs) hs)

theorem flushL1_canon {p core} (hs : s.Canon) : (flushL1 s p core).Canon :=
  modCore_canon (flushOwned_canon hs)

theorem disownCore_canon {core} (hs : s.Canon) : (disownCore s core).Canon :=
  hs

theorem abortRanks_canon {g} (hs : s.Canon) : (abortRanks s g).Canon :=
  modRank_canon (fixBusy_canon hs)

theorem endGroupAt_canon {back core} (hs : s.Canon) : (endGroupAt s back core).Canon := by
  unfold endGroupAt
  split
  · exact hs
  · exact modCore_canon
      (abortRanks_canon (canon_ite (flushL1_canon (discardStores_canon (endRuns_canon hs)))
      (disownCore_canon (discardStores_canon (endRuns_canon hs)))))

theorem endGroups_canon {p lid back} (hs : s.Canon) : (endGroups s p lid back).Canon :=
  modPart_canon (canon_of_mem_eq rfl (canon_foldl (fun _ _ hs => abortRanks_canon hs)
    (canon_foldl (fun _ _ hs => endGroupAt_canon hs) hs)))

theorem dropLaunch_canon {p lid} (hs : s.Canon) : (dropLaunch s p lid).Canon :=
  modPart_canon hs

theorem launchDone_canon {p fn r code} (hs : s.Canon) : (launchDone s p fn r code).Canon :=
  completeAt_canon hs

theorem waitComp_canon {p ctx} {x : Comp} (hs : s.Canon) (hx : x.Canon) : (waitComp s p ctx x).Canon := by
  cases x with
  | done s => exact hx
  | held => exact hs
  | wait s page => exact startService_canon hx
  | iso s va => exact reportFn_canon hx

theorem closeLaunch_canon {p lid} (hs : s.Canon) : (closeLaunch s p lid).Canon :=
  modPart_canon hs

theorem endLaunch_canon {p lid} (hs : s.Canon) : (endLaunch s p lid).Canon := by
  unfold endLaunch
  split
  · exact trivial
  · dsimp only
    split
    · exact dropLaunch_canon
        (post_canon (FwRes.canon_done ‹_›
        (waitComp_canon (closeLaunch_canon (endGroups_canon hs))
        (launchDone_canon (closeLaunch_canon (endGroups_canon hs))))))
    · exact waitComp_canon (closeLaunch_canon (endGroups_canon hs))
        (launchDone_canon (closeLaunch_canon (endGroups_canon hs)))

theorem freeLeaf_canon {p x} (hs : s.Canon) : (freeLeaf p s x).Canon :=
  memWrite64_wf _ _ (memWrite64_wf _ _ hs)

theorem raiseGens_canon {p} (hs : s.Canon) : (raiseGens s p).Canon :=
  canon_foldl (fun _ _ hs => canon_ite (memWrite64_wf _ _ hs) hs) hs

theorem freePages_canon {p} (hs : s.Canon) : (freePages s p).Canon := by
  unfold freePages
  apply canon_mem
  dsimp only
  exact canon_foldl (fun _ _ hs => freeLeaf_canon hs) hs

theorem clearHomes_canon {p} (hs : s.Canon) : (clearHomes s p).Canon :=
  hs

theorem killPart_canon {p} (hs : s.Canon) : (killPart s p).Canon := by
  unfold killPart
  extract_lets s1 s2 s3 s4 s5 s6 s7
  have h2 : s2.Canon := dropLaunch_canon (endGroups_canon (flushPosted_canon hs))
  have h3 : s3.Canon := clearHomes_canon (freePages_canon (raiseGens_canon h2))
  have h4 : s4.Canon := canon_mem (s := s4) (by dsimp only [s4]; exact h3)
  have h5 : s5.Canon := setReg_canon h4
  have h7 : s7.Canon := modPart_canon (fixBusy_canon (canon_mem (by dsimp only; exact h5)))
  exact canon_foldl (fun _ _ hs => post_canon hs) h7

theorem execCoreGroupRetire_canon {core} (hs : s.Canon) : (execCoreGroupRetire core s).Canon := by
  unfold execCoreGroupRetire
  split
  · exact hs
  · exact canon_ite hs
      (modPart_canon (modCore_canon
      (flushL1_canon (publish_canon (settleBars_canon (modGrp_canon (endRuns_canon hs)))))))

theorem execLaunchRetire_canon {part lid} (hs : s.Canon) : (execLaunchRetire part lid s).Canon := by
  unfold execLaunchRetire
  split
  · exact hs
  · refine canon_ite hs ?_
    split
    · exact dropLaunch_canon
        (canon_ite (post_canon (FwRes.canon_done ‹_› (waitComp_canon hs (launchDone_canon hs))))
        (FwRes.canon_done ‹_› (waitComp_canon hs (launchDone_canon hs))))
    · exact FwRes.canon_wait ‹_› (waitComp_canon hs (launchDone_canon hs))
    · exact hs

theorem quietThread_canon {core t} (hs : s.Canon) : (quietThread core s t).Canon := by
  unfold quietThread
  split
  · exact hs
  · exact canon_ite (abortRegion_canon hs)
      (canon_ite (trapNow_canon (drainHeld_canon (setGrp_canon hs))) (trapNow_canon hs))

theorem quietGroup_canon {core} (hs : s.Canon) : (quietGroup s core).Canon := by
  unfold quietGroup
  split
  · exact hs
  · exact canon_ite hs (canon_foldl (fun _ _ hs => quietThread_canon hs) hs)

theorem landReady_canon {core} (hs : s.Canon) : (landReady s core).Canon := by
  unfold landReady
  split
  · exact hs
  · refine canon_foldl (fun _ _ hs => ?_) hs
    split
    · exact landResult_canon hs
    · exact hs

theorem reportHalt_canon {g code detail} (hs : s.Canon) : (reportHalt s g code detail).Canon :=
  post_canon (noteStop_canon hs)

theorem haltSaved_canon {core a} (hs : s.Canon) : (haltSaved s core a).Canon := by
  unfold haltSaved
  split
  · exact hs
  · exact canon_ite (reportHalt_canon (modCore_canon hs)) hs

theorem execCoreGroupHalt_canon {core storage} (hs : s.Canon) : (execCoreGroupHalt core storage s).Canon := by
  unfold execCoreGroupHalt
  refine canon_ite (haltSaved_canon hs) ?_
  split
  · exact hs
  · extract_lets stop
    clear_value stop
    split
    · exact hs
    · refine reportHalt_canon (modCore_canon (modGrp_canon
        (canon_foldl (fun s t hs => ?_) (landReady_canon (endRuns_canon hs)))))
      split
      · exact canon_ite (abortRegion_canon hs) (quietThread_canon hs)
      · exact hs

/-! ### Queues of the functions -/

theorem execSubmissionDoorbell_canon {fn v} (hs : s.Canon) : (execSubmissionDoorbell fn v s).Canon :=
  canon_ite hs (canon_ite (setFn_canon hs) (post_canon (setFn_canon hs)))

theorem execSqerrClear_canon {fn} (hs : s.Canon) : (execSqerrClear fn s).Canon :=
  canon_ite (modFn_canon hs) hs

theorem execMqheadWrite_canon {fn v} (hs : s.Canon) : (execMqheadWrite fn v s).Canon :=
  canon_ite hs (flushHeld_canon (setFn_canon hs))

theorem execMqlostClear_canon {fn} (hs : s.Canon) : (execMqlostClear fn s).Canon :=
  canon_ite (modFn_canon hs) hs

theorem takeCmds_canon {n fn} (hs : s.Canon) : (takeCmds n s fn).Canon := by
  induction n generalizing s with
  | zero => exact hs
  | succ n ih => exact canon_ite hs (ih (setFn_canon hs))

theorem cmdComplete_canon {s0 : State} {fn r code} (hs0 : s0.Canon) (hs : s.Canon) :
    (cmdComplete s0 s fn r code).Canon := by
  unfold cmdComplete
  split
  · exact hs
  · split
    · exact hs
    · split
      · exact Comp.canon_done ‹_› (complete_canon hs)
      · exact startService_canon hs0
      · exact hs0
      · exact reportFn_canon (Comp.canon_iso ‹_› (complete_canon hs))

theorem popCmd_canon {fn} (hs : s.Canon) : (popCmd s fn).Canon :=
  modFn_canon hs

theorem cmdFail_canon {s0 : State} {fn r code} (hs0 : s0.Canon) (hs : s.Canon) : (cmdFail s0 s fn r code).Canon := by
  unfold cmdFail
  split
  · exact popCmd_canon (post_canon (FwRes.canon_done ‹_› (cmdComplete_canon hs0 hs)))
  · exact FwRes.canon_wait ‹_› (cmdComplete_canon hs0 hs)
  · exact hs0

theorem endCmd_canon {s0 : State} {fn r} {x : FwRes} (hs : s0.Canon) (hx : x.Canon) : (endCmd s0 fn r x).Canon := by
  cases x with
  | wait s => exact hx
  | fail code => exact cmdFail_canon hs hs
  | partly s code => exact cmdFail_canon hs hx
  | done s =>
    have hc : (cmdComplete s0 s fn r 0).Canon := cmdComplete_canon hs hx
    unfold endCmd
    dsimp only
    split
    · exact popCmd_canon (FwRes.canon_done ‹_› hc)
    · exact FwRes.canon_wait ‹_› hc
    · exact hs

theorem failUnknown_canon {n fn} (hs : s.Canon) : (failUnknown n s fn).Canon := by
  induction n generalizing s with
  | zero => exact hs
  | succ n ih =>
    unfold failUnknown
    split
    · exact hs
    · exact canon_ite hs (canon_ite (cmdFail_canon hs hs) (ih (cmdFail_canon hs hs)))

theorem runCq_canon {fn} (hs : s.Canon) : (runCq s fn).Canon :=
  failUnknown_canon (takeCmds_canon hs)

theorem execCommandDoorbell_canon {fn v} (hs : s.Canon) : (execCommandDoorbell fn v s).Canon :=
  canon_ite hs (canon_ite (runCq_canon (setFn_canon hs)) (post_canon (setFn_canon hs)))

theorem execCqerrClear_canon {fn} (hs : s.Canon) : (execCqerrClear fn s).Canon :=
  canon_ite (runCq_canon (modFn_canon hs)) hs

theorem runCmd_canon {id fn needCtx} {body : State → Nat → List W64 → FwRes} (hs : s.Canon)
    (hb : ∀ p r, (body s p r).Canon) : (runCmd id fn needCtx body s).Canon := by
  unfold runCmd
  dsimp only
  split
  · exact hs
  · refine canon_ite hs (failUnknown_canon (endCmd_canon hs ?_))
    split
    · trivial
    · split
      · trivial
      · split
        · trivial
        · exact hb _ _

theorem zeroRange_canon {a n} (hs : s.Canon) : (zeroRange s a n).Canon := wf_filter _ hs

theorem writeCtx_canon {p ctx d0 d1 d2 d3} (hs : s.Canon) : (writeCtx s p ctx d0 d1 d2 d3).Canon := by
  unfold writeCtx
  apply canon_mem
  dsimp only
  exact memWrite64_wf _ _ (memWrite64_wf _ _ (memWrite64_wf _ _ (memWrite64_wf _ _ (zeroRange_canon hs))))

theorem dropQueue_canon {fn} (hs : s.Canon) : (dropQueue s fn).Canon := by
  unfold dropQueue
  split
  · exact memWrite64_wf _ _ hs
  · exact hs

theorem installShare_canon {p} (hs : s.Canon) : (installShare s p).Canon :=
  canon_ite hs (modPart_canon hs)

theorem ctxCreate_canon {fn lhbase p r} (hs : s.Canon) : (ctxCreate fn lhbase s p r).Canon := by
  unfold ctxCreate
  split
  · dsimp only
    split <;> exact trivial
  · dsimp only
    split
    · exact trivial
    · split
      · exact trivial
      · split
        · exact trivial
        · split
          · exact hs
          · exact writeCtx_canon
              (installShare_canon (canon_of_mem_eq rfl (zeroRange_canon (canon_ite (dropQueue_canon hs) hs))))

theorem execCtxcreate_canon {fn lhbase} (hs : s.Canon) : (execCtxcreate fn lhbase s).Canon :=
  runCmd_canon hs (fun _ _ => ctxCreate_canon hs)

theorem ctxDestroy_canon {p r} (hs : s.Canon) : (ctxDestroy s p r).Canon := by
  unfold ctxDestroy
  dsimp only
  split
  · exact trivial
  · exact memWrite64_wf _ _ hs

theorem execCtxdestroy_canon {fn} (hs : s.Canon) : (execCtxdestroy fn s).Canon :=
  runCmd_canon hs (fun _ _ => ctxDestroy_canon hs)

theorem changeCopies_canon {p ctx f} (hs : s.Canon) : (changeCopies s p ctx f).Canon :=
  hs

theorem winSet_canon {p r} (hs : s.Canon) : (winSet s p r).Canon := by
  unfold winSet
  split
  · exact trivial
  · dsimp only
    split
    · exact trivial
    · exact changeCopies_canon (memWrite64_wf _ _ (memWrite64_wf _ _ hs))

theorem execWinset_canon {fn} (hs : s.Canon) : (execWinset fn s).Canon :=
  runCmd_canon hs (fun _ _ => winSet_canon hs)

theorem permSet_canon {p r} (hs : s.Canon) : (permSet s p r).Canon := by
  unfold permSet
  dsimp only
  split
  · exact trivial
  · exact changeCopies_canon (memWrite64_wf _ _ hs)

theorem execPermset_canon {fn} (hs : s.Canon) : (execPermset fn s).Canon :=
  runCmd_canon hs (fun _ _ => permSet_canon hs)

theorem lhSet_canon {p r} (hs : s.Canon) : (lhSet s p r).Canon := by
  unfold lhSet
  extract_lets ctx h
  split
  · trivial
  · apply canon_mem
    dsimp only
    exact memWrite64_wf _ _ (memWrite64_wf _ _ (memWrite64_wf _ _ (memWrite64_wf _ _ hs)))

theorem execLhset_canon {fn} (hs : s.Canon) : (execLhset fn s).Canon :=
  runCmd_canon hs (fun _ _ => lhSet_canon hs)

theorem refuseSeals_canon {p page core} (hs : s.Canon) : (refuseSeals p page s core).Canon := by
  unfold refuseSeals
  split
  · exact hs
  · refine canon_ite hs ?_
    refine canon_foldl (fun _ _ hs => ?_) hs
    split
    · exact settle_canon (pendFault_canon hs)
    · exact hs

theorem drainReplicas_canon {p page l} (hs : s.Canon) : (drainReplicas s p page l).Canon :=
  startDraining_canon hs

theorem advanceFree_canon {p page} (hs : s.Canon) : (advanceFree s p page).2.Canon := by
  unfold advanceFree
  split
  · exact hs
  · split
    · exact hs
    · extract_lets s1 s2
      have h2 : s2.Canon := drainReplicas_canon (canon_foldl (fun _ _ hs => refuseSeals_canon hs) hs)
      split
      · exact h2
      · apply canon_mem
        dsimp only
        exact dropXlat_canon (writeLeaf_canon (dropLines_canon h2))

theorem leaveFree_canon {fn} (hs : s.Canon) : (leaveFree s fn).Canon :=
  hs

theorem goFree_canon {p fn f} (hs : s.Canon) : (goFree s p fn f).Canon := by
  unfold goFree
  split
  · exact leaveFree_canon hs
  · split
    · exact canon_snd ‹_› (advanceFree_canon hs)
    · have ht := canon_snd ‹_› (advanceFree_canon hs)
      exact leaveFree_canon ht

theorem startFree_canon {p fn page l} (hs : s.Canon) : (startFree s p fn page l).Canon := by
  unfold startFree
  split <;> exact hs

theorem pageFree_canon {fn p r} (hs : s.Canon) : (pageFree fn s p r).Canon := by
  unfold pageFree
  split
  · exact goFree_canon hs
  · split
    · exact trivial
    · split
      · exact trivial
      · split
        · exact trivial
        · exact startFree_canon hs

theorem execPagefree_canon {fn} (hs : s.Canon) : (execPagefree fn s).Canon :=
  runCmd_canon hs (fun _ _ => pageFree_canon hs)

theorem launchEnd_canon {p r} (hs : s.Canon) : (launchEnd s p r).Canon := by
  unfold launchEnd
  split
  · exact trivial
  · exact endLaunch_canon hs

theorem execLaunchend_canon {fn} (hs : s.Canon) : (execLaunchend fn s).Canon :=
  runCmd_canon hs (fun _ _ => launchEnd_canon hs)

theorem writePieces_canon {s0 : State} {p ctx wins n va bs} (h0 : s0.Canon) (hs : s.Canon) :
    (writePieces s0 p ctx wins n s va bs).Canon := by
  induction n generalizing s va bs with
  | zero => exact hs
  | succ n ih =>
    unfold writePieces
    split
    · exact hs
    · extract_lets page
      clear_value page
      split
      · exact ih (canon_fst ‹_› (vaWrite_canon hs))
      · exact h0
      · split
        · exact startService_canon (noteAsk_canon h0)
        · exact State.settle_canon (canon_fst ‹_› (vaWrite_canon hs))
      · exact canon_fst (t := _) ‹_› (vaWrite_canon hs)

theorem groupRead_canon {p r} (hs : s.Canon) : (groupRead s p r).Canon := by
  unfold groupRead
  dsimp only
  split
  · exact trivial
  · split
    · exact trivial
    · split
      · exact trivial
      · split
        · split
          · exact hs
          · exact trivial
        · exact writePieces_canon hs hs

theorem execGroupread_canon {fn} (hs : s.Canon) : (execGroupread fn s).Canon :=
  runCmd_canon hs (fun _ _ => groupRead_canon hs)

/-! ### Launches -/

theorem readVa_canon {p wins f va n} (hs : s.Canon) : (readVa p wins f s va n).1.Canon := by
  induction f generalizing s va n with
  | zero =>
    unfold readVa
    split <;> exact hs
  | succ f ih =>
    unfold readVa
    split
    · exact hs
    · dsimp only
      split
      · split
        · exact canon_fst ‹_› (ih (canon_fst ‹_› (vaRead_canon hs)))
        · exact ih (canon_fst ‹_› (vaRead_canon hs))
      all_goals exact canon_fst ‹_› (vaRead_canon hs)

theorem readCtx_canon {p ctx va n} (hs : s.Canon) : (readCtx s p ctx va n).1.Canon :=
  readVa_canon hs

theorem thenRead_canon {α β : Type} {x : State × Except RdErr α} {f : State → α → State × Except RdErr β}
    (hx : x.1.Canon) (hf : ∀ s a, s.Canon → (f s a).1.Canon) : (thenRead x f).1.Canon := by
  unfold thenRead
  split
  · exact hf _ _ hx
  · exact hx

theorem readSections_canon {p ctx base} (hs : s.Canon) : (readSections s p ctx base).1.Canon := by
  unfold readSections
  refine thenRead_canon (readCtx_canon hs) (fun _ _ hs => ?_)
  split
  · exact hs
  · exact thenRead_canon (readCtx_canon hs) (fun _ _ hs => hs)

theorem readSect_canon {p ctx base ss ty} (hs : s.Canon) : (readSect s p ctx base ss ty).1.Canon := by
  unfold readSect
  split
  · exact hs
  · exact thenRead_canon (readCtx_canon hs) (fun _ _ hs => hs)

theorem readImage_canon {p ctx entry kd} (hs : s.Canon) : (readImage s p ctx entry kd).1.Canon := by
  unfold readImage
  refine thenRead_canon (readSections_canon hs) (fun _ _ hs => ?_)
  refine thenRead_canon (readSect_canon hs) (fun _ _ hs => ?_)
  refine thenRead_canon (readSect_canon hs) (fun _ _ hs => ?_)
  refine thenRead_canon (readSect_canon hs) (fun _ _ hs => ?_)
  refine thenRead_canon (readSect_canon hs) (fun _ _ hs => ?_)
  split
  · exact hs
  · dsimp only
    split <;> exact hs

theorem admitRead_canon {α : Type} {p ctx w} {x : State × Except RdErr α} {f : State → α → State × Verdict}
    (hx : x.1.Canon) (hf : ∀ s a, s.Canon → (f s a).1.Canon ∧ (f s a).2.Canon) :
    (admitRead p ctx w x f).1.Canon ∧ (admitRead p ctx w x f).2.Canon := by
  unfold admitRead
  split
  · exact hf _ _ hx
  · split
    · exact ⟨State.settle_canon hx, trivial⟩
    · exact ⟨hx, startService_canon (noteAsk_canon hx)⟩
  · exact ⟨hx, hx⟩
  · exact ⟨hx, trivial⟩

theorem admission_canon {p fn r} (hs : s.Canon) : (admission s p fn r).1.Canon ∧ (admission s p fn r).2.Canon := by
  unfold admission
  dsimp only
  split
  · exact ⟨hs, trivial⟩
  · split
    · exact ⟨hs, trivial⟩
    · split
      · exact ⟨hs, trivial⟩
      · refine admitRead_canon (readCtx_canon hs) fun s kb hs => ?_
        split
        · exact ⟨hs, trivial⟩
        · refine admitRead_canon (readImage_canon hs) fun s x hs => ?_
          obtain ⟨blocks, stages⟩ := x
          dsimp only
          split
          · exact ⟨hs, trivial⟩
          · exact ⟨hs, trivial⟩

theorem rejectLaunch_canon {p fn lid r code} (hs : s.Canon) : (rejectLaunch s p fn lid r code).Canon := by
  unfold rejectLaunch
  dsimp only
  split
  · refine post_canon ?_
    refine FwRes.canon_done ‹_› ?_
    split
    · exact waitComp_canon hs (launchDone_canon hs)
    · exact hs
  · split
    · exact waitComp_canon hs (launchDone_canon hs)
    · exact hs

theorem creditDue_canon {p} (hs : s.Canon) : (creditDue s p).Canon :=
  canon_ite hs (modPart_canon hs)

theorem chargeLaunch_canon {p l} (hs : s.Canon) : (chargeLaunch s p l).Canon :=
  canon_ite hs (modPart_canon hs)

theorem addLaunch_canon {p fn lid r k blocks stages} (hs : s.Canon) : (addLaunch s p fn lid r k blocks stages).Canon :=
  chargeLaunch_canon (modPart_canon (creditDue_canon hs))

theorem execLaunchConsume_canon {fn} (hs : s.Canon) : (execLaunchConsume fn s).Canon := by
  unfold execLaunchConsume
  refine canon_ite hs ?_
  split
  · exact hs
  · split
    · have h1 := canon_fst ‹_› (readCtx_canon hs)
      dsimp only
      split
      · exact Verdict.canon_wait (congrArg Prod.snd ‹_›) (admission_canon h1).2
      · have h2 := canon_fst ‹_› (admission_canon h1).1
        split
        · exact modFn_canon (FwRes.canon_done ‹_› (rejectLaunch_canon h2))
        · exact FwRes.canon_wait ‹_› (rejectLaunch_canon h2)
        · exact hs
      · exact modFn_canon (addLaunch_canon (canon_fst ‹_› (admission_canon h1).1))
    · have h1 := canon_fst ‹_› (readCtx_canon hs)
      exact canon_ite (startService_canon h1) h1
    · exact hs

theorem execBudgetCredit_canon {part} (hs : s.Canon) : (execBudgetCredit part s).Canon :=
  canon_ite hs (canon_foldl (fun _ _ hs => chargeLaunch_canon hs) (creditDue_canon hs))

theorem markWaves_canon {p} (hs : s.Canon) : (markWaves s p).Canon :=
  modPart_canon hs

theorem execGangBind_canon {part lrec cores} (hs : s.Canon) : (execGangBind part lrec cores s).Canon := by
  unfold execGangBind
  split
  · exact hs
  · refine canon_ite hs ?_
    refine markWaves_canon ?_
    refine modPart_canon ?_
    refine canon_foldl (fun _ _ hs => ?_) hs
    split
    exact modCore_canon hs

theorem writeNext_canon {core r} (hs : s.Canon) : (writeNext s core r).Canon :=
  canon_ite (modPart_canon (modCore_canon (modCore_canon hs))) (modCore_canon hs)

theorem execNextWrite_canon {core r} (hs : s.Canon) : (execNextWrite core r s).Canon :=
  canon_ite (writeNext_canon hs) hs

theorem execNextCancel_canon {core} (hs : s.Canon) : (execNextCancel core s).Canon :=
  canon_ite (writeNext_canon hs) hs

theorem writeSlot_canon {core off v} (hs : s.Canon) : (writeSlot s core off v).Canon :=
  canon_ite (canon_ite (modCore_canon hs) hs)
    (canon_ite (canon_ite (writeNext_canon hs) (canon_ite (modCore_canon hs) (modCore_canon hs))) hs)

theorem execGangReady_canon {core} (hs : s.Canon) : (execGangReady core s).Canon := by
  unfold execGangReady
  refine canon_ite hs ?_
  split
  · exact canon_ite (modCore_canon hs) hs
  · exact canon_ite (canon_foldl (fun _ _ hs => modCore_canon hs) hs) hs

theorem promoteCore_canon {core} (hs : s.Canon) : (promoteCore s core).Canon := by
  unfold promoteCore
  dsimp only
  split
  · exact hs
  · exact modCore_canon hs

theorem execPromotion_canon {part gang} (hs : s.Canon) : (execPromotion part gang s).Canon :=
  canon_ite hs (canon_foldl (fun _ _ hs => promoteCore_canon hs) hs)

theorem execQ0PreemptTimeout_canon {part} (hs : s.Canon) : (execQ0PreemptTimeout part s).Canon := by
  unfold execQ0PreemptTimeout
  split
  · exact hs
  · split
    · exact hs
    · exact canon_foldl (fun _ _ hs => modCore_canon hs) hs

theorem execPartitionEnable_canon {part} (hs : s.Canon) : (execPartitionEnable part s).Canon :=
  canon_ite hs (canon_ite (post_canon hs) (modPart_canon (setReg_canon hs)))

theorem execPartitionKill_canon {part} (hs : s.Canon) : (execPartitionKill part s).Canon :=
  canon_ite (killPart_canon hs) hs

/-! ### The package -/

theorem modPkg_canon {f} (hs : s.Canon) : (modPkg s f).Canon :=
  canon_ite hs hs

theorem execFunctionReady_canon {f} (hs : s.Canon) : (execFunctionReady f s).Canon :=
  canon_ite hs (canon_ite (canon_ite hs (retryHeld_canon hs)) (retryHeld_canon (modPkg_canon hs)))

theorem failRoutes_canon (hs : s.Canon) : (failRoutes s).Canon :=
  modRank_canon hs

theorem failAndFold_canon {f} (hs : s.Canon) : (failAndFold s f).Canon :=
  failRoutes_canon (modRank_canon (canon_foldl (fun _ _ hs => killPart_canon hs) (modPkg_canon hs)))

theorem execBridgeFailure_canon {b} (hs : s.Canon) : (execBridgeFailure b s).Canon :=
  canon_ite hs (canon_ite hs (failAndFold_canon hs))

theorem execSegmentFailure_canon {y} (hs : s.Canon) : (execSegmentFailure y s).Canon :=
  canon_ite hs (failAndFold_canon hs)

theorem execFunctionFailure_canon {f} (hs : s.Canon) : (execFunctionFailure f s).Canon := by
  unfold execFunctionFailure
  refine canon_ite hs ?_
  split <;> try exact hs
  · refine canon_foldl (fun _ _ hs => ?_) (modPkg_canon hs)
    refine answerIfPlaced_canon ?_
    split
    · exact startDraining_canon hs
    · exact hs
  · exact failRoutes_canon (modPkg_canon hs)

theorem killAll_canon (hs : s.Canon) : (killAll s).Canon :=
  canon_foldl (fun _ _ hs => killPart_canon hs) hs

theorem warmReset_canon (hs : s.Canon) : (warmReset s).Canon :=
  canon_of_mem_eq rfl (killAll_canon hs)

theorem execWarm_canon (hs : s.Canon) : (execWarm s).Canon :=
  canon_ite hs (warmReset_canon hs)

theorem execCold_canon (hs : s.Canon) : (execCold s).Canon :=
  killAll_canon hs

theorem execFirmwareVerify_canon {ed ml version} (hs : s.Canon) : (execFirmwareVerify ed ml version s).Canon :=
  canon_ite hs (canon_ite hs (modPkg_canon hs))

theorem execFoldComplete_canon (hs : s.Canon) : (execFoldComplete s).Canon :=
  canon_ite hs (canon_ite (warmReset_canon (modPkg_canon hs)) (modPkg_canon hs))

theorem execPreemptRequest_canon {core} (hs : s.Canon) : (execPreemptRequest core s).Canon := by
  unfold execPreemptRequest
  split
  · exact hs
  · exact canon_ite hs (canon_foldl (fun _ _ hs => modCore_canon hs) hs)

theorem saveHalted_canon {core g} (hs : s.Canon) : (saveHalted s core g).Canon :=
  canon_ite hs (canon_ite (quietGroup_canon hs) (canon_ite (flushL1_canon hs) (modCore_canon (flushL1_canon hs))))

theorem saveGroup_canon {core} (hs : s.Canon) : (saveGroup s core).Canon := by
  unfold saveGroup
  dsimp only
  split
  · exact quietGroup_canon (endRuns_canon hs)
  · exact canon_ite (quietGroup_canon (endRuns_canon hs))
      (canon_ite (flushL1_canon (quietGroup_canon (endRuns_canon hs)))
      (modCore_canon (flushL1_canon (quietGroup_canon (endRuns_canon hs)))))

theorem execPreemptSave_canon {core} (hs : s.Canon) : (execPreemptSave core s).Canon := by
  unfold execPreemptSave
  split
  · exact hs
  · split
    · exact saveHalted_canon hs
    · exact canon_ite hs (saveGroup_canon hs)
    · exact hs

theorem execShadowPoolEvict_canon {core} (hs : s.Canon) : (execShadowPoolEvict core s).Canon := by
  unfold execShadowPoolEvict
  split
  · exact hs
  · exact modPart_canon (modCore_canon hs)

theorem putBack_canon {core g} (hs : s.Canon) : (putBack s core g).Canon :=
  modCore_canon (modPart_canon hs)

theorem execRestore_canon {core fromArea} (hs : s.Canon) : (execRestore core fromArea s).Canon := by
  unfold execRestore
  split
  · split
    · exact hs
    · exact canon_ite (putBack_canon hs) hs
  · dsimp only
    split
    · exact hs
    · exact canon_ite (putBack_canon (modPart_canon hs)) hs

theorem execInfieldTestDue_canon {core} (hs : s.Canon) : (execInfieldTestDue core s).Canon := by
  unfold execInfieldTestDue
  refine canon_ite hs ?_
  split
  · exact canon_ite hs (modCore_canon hs)
  · exact canon_ite hs (modCore_canon (canon_foldl (fun _ _ hs => modCore_canon hs) hs))

theorem execInfieldTestEnd_canon {core pass} (hs : s.Canon) : (execInfieldTestEnd core pass s).Canon := by
  unfold execInfieldTestEnd
  refine canon_ite hs ?_
  refine canon_ite ?_ ?_
  · dsimp only
    split
    · exact canon_ite (putBack_canon (modCore_canon hs)) (modCore_canon hs)
    · exact modCore_canon hs
  · refine post_canon ?_
    refine modCore_canon ?_
    split
    · exact modPart_canon (modCore_canon hs)
    · exact hs

theorem clearDirty_canon {p} (hs : s.Canon) : (clearDirty s p).Canon := by
  unfold clearDirty
  apply canon_mem
  dsimp only
  exact wf_foldl (fun _ _ hm => memWrite64_wf _ _ hm) hs

theorem restartHost_canon {p} (hs : s.Canon) : (restartHost s p).Canon :=
  canon_foldl (fun _ _ hs => servePage_canon hs) hs

theorem migrateNow_canon {p} (hs : s.Canon) : (migrateNow s p).Canon := by
  unfold migrateNow
  extract_lets mine moved all gone frames s1 s2 by_ s3
  have h1 : s1.Canon := by
    refine canon_foldl (fun _ _ hs => ?_) hs
    split
    · exact lowerRepl_canon hs
    · exact hs
  have h2 : s2.Canon := clearDirty_canon (raiseGens_canon h1)
  have h3 : s3.Canon := canon_mem (by dsimp only [s3]; exact h2)
  exact restartHost_canon (modPart_canon (passTo_canon h3))

theorem execLiveMigration_canon {part} (hs : s.Canon) : (execLiveMigration part s).Canon := by
  unfold execLiveMigration
  refine canon_ite hs ?_
  refine canon_ite (modPart_canon (clearDirty_canon hs)) ?_
  refine canon_ite ?_ (canon_ite hs (migrateNow_canon hs))
  refine canon_foldl (fun _ _ hs => ?_) hs
  split
  exact modCore_canon hs

theorem countError_canon {stack ue} (hs : s.Canon) : (countError s stack ue).Canon :=
  setReg_canon hs

theorem upset_canon {addr ue} (hs : s.Canon) : (upset s addr ue).Canon := by
  unfold upset
  extract_lets stack gr s1 s2
  have h1 : s1.Canon := countError_canon hs
  have h2 : s2.Canon := setReg_canon (countError_canon hs)
  exact canon_ite (canon_ite hs hs) (canon_ite h1 (canon_ite h2 h2))

theorem execCeThreshold_canon {stack bank} (hs : s.Canon) : (execCeThreshold stack bank s).Canon :=
  canon_ite hs hs

theorem execReencodeDone_canon {stack bank freed} (hs : s.Canon) : (execReencodeDone stack bank freed s).Canon :=
  canon_ite hs (canon_ite hs (canon_ite (post_canon (setReg_canon hs)) (post_canon hs)))

theorem execClrcnt_canon {stack} (hs : s.Canon) : (execClrcnt stack s).Canon :=
  canon_ite (setReg_canon (setReg_canon hs)) hs

theorem reportVf_canon {vf off} (hs : s.Canon) : (reportVf s vf off).Canon :=
  post_canon (post_canon hs)

theorem writeBlock_canon {fn part off v} (hs : s.Canon) : (writeBlock s fn part off v).Canon :=
  canon_ite hs (canon_ite (setReg_canon hs) (reportVf_canon hs))

theorem execAgethrWrite_canon {fn part v} (hs : s.Canon) : (execAgethrWrite fn part v s).Canon :=
  writeBlock_canon hs

theorem execMbudgetWrite_canon {fn part v} (hs : s.Canon) : (execMbudgetWrite fn part v s).Canon :=
  writeBlock_canon hs

theorem execTvecWrite_canon {fn part v} (hs : s.Canon) : (execTvecWrite fn part v s).Canon :=
  writeBlock_canon hs

theorem execResetWriteFromVf_canon {vf v} (hs : s.Canon) : (execResetWriteFromVf vf v s).Canon :=
  canon_ite (reportVf_canon hs) hs

theorem nextOf_canon {d : State} {o : Out} (hd : d.Canon) (ho : o.Canon) : (nextOf d o).Canon := by
  unfold nextOf
  split
  · exact ho
  · exact hd

theorem writeQueueReg_canon {fn off v} (hs : s.Canon) : (writeQueueReg s fn off v).Canon := by
  unfold writeQueueReg
  extract_lets ctx w
  split
  · exact modFn_canon hs
  · exact modFn_canon hs
  · exact nextOf_canon hs (execSubmissionDoorbell_canon hs)
  · exact modFn_canon hs
  · exact flushHeld_canon (modFn_canon hs)
  · exact nextOf_canon hs (execMqheadWrite_canon hs)
  · rename_i s1 s2 _
    have h1 : s1.Canon := canon_ite (nextOf_canon hs (execSqerrClear_canon hs)) hs
    have h2 : s2.Canon := canon_ite (nextOf_canon h1 (execMqlostClear_canon h1)) h1
    exact canon_ite (nextOf_canon h2 (execCqerrClear_canon h2)) h2
  · exact modFn_canon hs
  · exact runCq_canon (modFn_canon hs)
  · exact nextOf_canon hs (execCommandDoorbell_canon hs)
  · exact hs

theorem writePartReg_canon {off v} (hs : s.Canon) : (writePartReg s off v).Canon :=
  canon_ite (canon_ite (nextOf_canon hs (execPartitionKill_canon hs)) hs)
    (canon_ite (nextOf_canon (setReg_canon hs) (execPartitionEnable_canon (setReg_canon hs))) (setReg_canon hs))

theorem writePmb_canon {off v} (hs : s.Canon) : (writePmb s off v).Canon :=
  canon_ite (canon_ite (nextOf_canon hs (execCold_canon hs)) (canon_ite (nextOf_canon hs (execWarm_canon hs)) hs))
    (canon_ite (writePartReg_canon hs)
    (canon_ite (canon_ite hs (setReg_canon hs))
    (canon_ite (canon_ite hs (setReg_canon hs))
    (canon_ite (canon_ite (setReg_canon hs) (canon_ite (nextOf_canon hs (execClrcnt_canon hs)) hs))
    (canon_ite (canon_ite (nextOf_canon hs (execTvecWrite_canon hs)) hs)
    (canon_ite (canon_ite (nextOf_canon hs (execAgethrWrite_canon hs)) hs)
    (canon_ite (canon_ite (nextOf_canon hs (execMbudgetWrite_canon hs)) hs)
    (canon_ite (writeQueueReg_canon hs) (canon_ite (canon_ite hs (setReg_canon hs)) hs)))))))))

theorem execRegisterWrite_canon {fn off v} (hs : s.Canon) : (execRegisterWrite fn off v s).Canon :=
  canon_ite hs (canon_ite (canon_ite (writeSlot_canon hs) hs) (canon_ite (writePmb_canon hs) (writeQueueReg_canon hs)))

/-! ### Every instruction -/

theorem exec_canon {i} (hs : s.Canon) : Out.Canon (exec i s) := by
  unfold exec
  split
  · exact execNop_canon hs
  · exact execIadd_canon hs
  · exact execIsub_canon hs
  · exact execImul_canon hs
  · exact execImulhi_canon hs
  · exact execImad_canon hs
  · exact execImin_canon hs
  · exact execImax_canon hs
  · exact execIunary_canon hs
  · exact execLogic_canon hs
  · exact execShift_canon hs
  · exact execBfx_canon hs
  · exact execBfi_canon hs
  · exact execPerm_canon hs
  · exact execSel_canon hs
  · exact execIcmp_canon hs
  · exact execPlogic_canon hs
  · exact execLea_canon hs
  · exact execMov_canon hs
  · exact execKset_canon hs
  · exact execSreg_canon hs
  · exact execFmtq_canon hs
  · exact execBallot_canon hs
  · exact execShuf_canon hs
  · exact execRedux_canon hs
  · exact execScan_canon hs
  · exact execBra_canon hs
  · exact execBrx_canon hs
  · exact execCall_canon hs
  · exact execCallx_canon hs
  · exact execRet_canon hs
  · exact execExit_canon hs
  · exact execYield_canon hs
  · exact execTrap_canon hs
  · exact execBrk_canon hs
  · exact execRegion_canon hs
  · exact execNopreOpen_canon hs
  · exact execNopreShut_canon hs
  · exact execEret_canon hs
  · exact execCsrr_canon hs
  · exact execCsrw_canon hs
  · exact execFadd_canon hs
  · exact execFmul_canon hs
  · exact execFfma_canon hs
  · exact execFminmax_canon hs
  · exact execFcmp_canon hs
  · exact execFunary_canon hs
  · exact execFspec_canon hs
  · exact execTwosum_canon hs
  · exact execHadd2_canon hs
  · exact execHmul2_canon hs
  · exact execHfma2_canon hs
  · exact execCvt_canon hs
  · exact execQpack_canon hs
  · exact execQunpack_canon hs
  · exact execFclass_canon hs
  · exact execPairWord_canon hs
  · exact execMovi_canon hs
  · exact execIaddi_canon hs
  · exact execAndi_canon hs
  · exact execOri_canon hs
  · exact execXori_canon hs
  · exact execLd_canon hs
  · exact execSt_canon hs
  · exact execAtom_canon hs
  · exact execRed_canon hs
  · exact execGather_canon hs
  · exact execScatter_canon hs
  · exact execCst_canon hs
  · exact execPref_canon hs
  · exact execPginfo_canon hs
  · exact execTagset_canon hs
  · exact execAppendRes_canon hs
  · exact execAppendQuery_canon hs
  · exact execSealPlain_canon hs
  · exact execSealBcast_canon hs
  · exact execTailq_canon hs
  · exact execFence_canon hs
  · exact execBarSync_canon hs
  · exact execBarArrive_canon hs
  · exact execBarWait_canon hs
  · exact execPhaseAdv_canon hs
  · exact execPhaseWait_canon hs
  · exact execPhaseRead_canon hs
  · exact execWaitge_canon hs
  · exact execBackoff_canon hs
  · exact execCopy_canon hs
  · exact execChain_canon hs
  · exact execQfence_canon hs
  · exact execStgClaim_canon hs
  · exact execStgFill_canon hs
  · exact execStgTake_canon hs
  · exact execStgFree_canon hs
  · exact execStgQuery_canon hs
  · exact execMma_canon hs
  · exact execMdrain_canon hs
  · exact execMprec_canon hs
  · exact execMstat_canon hs
  · exact execMzero_canon hs
  · exact execColl_canon hs
  · exact execCprog_canon hs
  · exact execPipeChoose_canon hs
  · exact execResultLanding_canon hs
  · exact execWaitStoreRelease_canon hs
  · exact execLaneConvergence_canon hs
  · exact execProbeAnswer_canon hs
  · exact execRegionComplete_canon hs
  · exact execStoreEntryRetry_canon hs
  · exact execPageServed_canon hs
  · exact execFaultDeclined_canon hs
  · exact execPageWalk_canon hs
  · exact execHomeLoad_canon hs
  · exact execHomeWrite_canon hs
  · exact execHomeAtomic_canon hs
  · exact execInvalidation_canon hs
  · exact execFillArrival_canon hs
  · exact execRecall_canon hs
  · exact execWriteBack_canon hs
  · exact execHostSnoop_canon hs
  · exact execHostCxlMemAccess_canon hs
  · exact execAtsInvalidation_canon hs
  · exact execPriResponse_canon hs
  · exact execAccessTimeout_canon hs
  · exact execShootdown_canon hs
  · exact execMigrateRegion_canon hs
  · exact execHeldRequestMoved_canon hs
  · exact execHotnessHalving_canon hs
  · exact execSealAtHome_canon hs
  · exact execSealComplete_canon hs
  · exact execReplicaPlaced_canon hs
  · exact execReplicaDrop_canon hs
  · exact execReplicaDrained_canon hs
  · exact execCopyEntryStart_canon hs
  · exact execCopyBlock_canon hs
  · exact execCopyStageClaim_canon hs
  · exact execChainRecordRead_canon hs
  · exact execChainRereadTimer_canon hs
  · exact execCommandCompletion_canon hs
  · exact execQfencePerformed_canon hs
  · exact execMmaStart_canon hs
  · exact execMmaTileUpdate_canon hs
  · exact execOperandFetch_canon hs
  · exact execPinWaitTimeout_canon hs
  · exact execGovernorWindow_canon hs
  · exact execMprecEffect_canon hs
  · exact execMzeroEffect_canon hs
  · exact execMdrainStart_canon hs
  · exact execDrainTileAck_canon hs
  · exact execCollStart_canon hs
  · exact execCollMatch_canon hs
  · exact execTriggerSeen_canon hs
  · exact execTriggerPoll_canon hs
  · exact execCouch_canon hs
  · exact execClosingToken_canon hs
  · exact execCollAbort_canon hs
  · exact execPvAgreement_canon hs
  · exact execWaitgeWake_canon hs
  · exact execWaitgePoll_canon hs
  · exact execBackoffExpiry_canon hs
  · exact execNopreDeadline_canon hs
  · exact execSubmissionDoorbell_canon hs
  · exact execSqerrClear_canon hs
  · exact execMqheadWrite_canon hs
  · exact execMqlostClear_canon hs
  · exact execCommandDoorbell_canon hs
  · exact execCqerrClear_canon hs
  · exact execCtxcreate_canon hs
  · exact execCtxdestroy_canon hs
  · exact execWinset_canon hs
  · exact execPermset_canon hs
  · exact execLhset_canon hs
  · exact execPagefree_canon hs
  · exact execLaunchend_canon hs
  · exact execGroupread_canon hs
  · exact execLaunchConsume_canon hs
  · exact execBudgetCredit_canon hs
  · exact execGangBind_canon hs
  · exact execNextWrite_canon hs
  · exact execNextCancel_canon hs
  · exact execGangReady_canon hs
  · exact execPromotion_canon hs
  · exact execQ0PreemptTimeout_canon hs
  · exact execCoreGroupRetire_canon hs
  · exact execLaunchRetire_canon hs
  · exact execPartitionEnable_canon hs
  · exact execPartitionKill_canon hs
  · exact execWarm_canon hs
  · exact execCold_canon hs
  · exact execFirmwareVerify_canon hs
  · exact execFunctionReady_canon hs
  · exact execBridgeFailure_canon hs
  · exact execSegmentFailure_canon hs
  · exact execFoldComplete_canon hs
  · exact execCoreGroupHalt_canon hs
  · exact execPreemptRequest_canon hs
  · exact execPreemptSave_canon hs
  · exact execShadowPoolEvict_canon hs
  · exact execRestore_canon hs
  · exact execInfieldTestDue_canon hs
  · exact execInfieldTestEnd_canon hs
  · exact execLiveMigration_canon hs
  · exact execCeThreshold_canon hs
  · exact execReencodeDone_canon hs
  · exact execClrcnt_canon hs
  · exact execAgethrWrite_canon hs
  · exact execMbudgetWrite_canon hs
  · exact execTvecWrite_canon hs
  · exact execResetWriteFromVf_canon hs
  · exact execRegisterWrite_canon hs
  · exact execFunctionFailure_canon hs
  · exact execReplicationByHotness_canon hs

/-! ### Acts of the schedule -/

theorem turnOf_canon {core pipe} (hs : s.Canon) : (turnOf core pipe s).Canon := by
  unfold turnOf
  extract_lets pipe s1
  have h1 : s1.Canon := hs
  split
  · split
    · exact h1
    · exact execPipeChoose_canon h1
  · have ht := nextWord_canon ‹_› h1
    split
    · exact exec_canon ht
    · exact issueBad_canon ht
  · exact issueUnfetched_canon (nextWord_canon ‹_› h1)

theorem eventOf_canon {i} (hs : s.Canon) : (eventOf i s).Canon := by
  unfold eventOf
  split
  · exact hs
  · exact exec_canon hs

theorem postReport_canon {r} (hs : s.Canon) : (postReport s r).Canon := by
  unfold postReport
  split
  exact post_canon hs

theorem postReports_canon (hs : s.Canon) : (postReports s).Canon :=
  canon_foldl (fun _ _ hs => postReport_canon hs) hs

theorem settled_canon {old : State} {o : Out} (ho : o.Canon) : (settled old o).Canon := by
  unfold settled
  split
  · exact syncTails_canon (postReports_canon ho)
  · exact ho

theorem act_canon {a} (hs : s.Canon) : (act a s).Canon := by
  unfold act
  split
  · exact turnOf_canon hs
  · exact eventOf_canon hs
  · exact memWriteN_wf _ _ hs
  · exact upset_canon hs
  · exact modMx_canon hs
  · exact enablePris_canon hs

theorem perform_canon {a} (hs : s.Canon) : (perform a s).Canon :=
  settled_canon (act_canon hs)

/-! ### The step -/

theorem step_canon (hs : s.Canon) : Out.Canon (step s) := by
  unfold step
  split
  · exact perform_canon (passTo_canon hs)
  · split
    · exact perform_canon hs
    · exact passTo_canon hs

end

/-- Settles O58: the acts of the schedule keep the canonical form, and so does time that passes. -/
theorem memoryStaysCanonical : Obligations.MemoryStaysCanonical := by
  unfold Obligations.MemoryStaysCanonical Safety.Kept
  intro s t hs ht
  exact Out.canon_next ht (step_canon hs)

end Sys2Proof.Machine
end

section
/-! SUPPORT. What a report of an event leaves alone: the management block, readiness, the partitions and the errors of
the banks (R52, R55, R94). A lemma `f_sameRegs` says that `f` leaves them alone. -/

namespace Sys2Proof.Machine

/-- A state has the management block, the readiness, the partitions and the banks' errors of another. -/
def SameRegs (r s : State) : Prop := s.pmb = r.pmb ∧ s.pkg = r.pkg ∧ s.parts = r.parts ∧ s.banks = r.banks

/-- So has a state that may be there. -/
def SameRegsOpt (r : State) : Option State → Prop
  | some s => SameRegs r s
  | none => True

section
variable {r s t : State}

theorem sameRegs_refl (s : State) : SameRegs s s := ⟨rfl, rfl, rfl, rfl⟩

theorem sameRegs_of_eq (hp : t.pmb = s.pmb) (hk : t.pkg = s.pkg) (ha : t.parts = s.parts) (hb : t.banks = s.banks)
    (h : SameRegs r s) : SameRegs r t := by
  unfold SameRegs
  rw [hp, hk, ha, hb]; exact h

theorem sameRegs_ite {c : Prop} [Decidable c] {a b : State} (ha : SameRegs r a) (hb : SameRegs r b) :
    SameRegs r (if c then a else b) := by
  split
  · exact ha
  · exact hb

theorem sameRegs_foldl {α : Type} {f : State → α → State} {l : List α} (hf : ∀ s a, SameRegs r s → SameRegs r (f s a))
    (h : SameRegs r s) : SameRegs r (l.foldl f s) := by
  induction l generalizing s with
  | nil => exact h
  | cons a l ih => exact ih (hf s a h)

theorem sameRegs_getD {o : Option State} (ho : SameRegsOpt r o) (h : SameRegs r s) : SameRegs r (o.getD s) := by
  cases o with
  | none => exact h
  | some t => exact ho

theorem sameRegs_fst {α : Type} {x : State × α} {a : α} (e : x = (t, a)) (h : SameRegs r x.1) : SameRegs r t := by
  subst e; exact h

theorem sameRegs_some {x : Option State} (e : x = some t) (h : SameRegsOpt r x) : SameRegs r t := by
  subst e; exact h

/-! ## Each operation of a report -/

theorem setCore_sameRegs {c x} (hs : SameRegs r s) : SameRegs r (State.setCore s c x) :=
  hs

theorem modCore_sameRegs {c f} (hs : SameRegs r s) : SameRegs r (State.modCore s c f) :=
  setCore_sameRegs hs

theorem setFn_sameRegs {f x} (hs : SameRegs r s) : SameRegs r (State.setFn s f x) :=
  hs

theorem modFn_sameRegs {f g} (hs : SameRegs r s) : SameRegs r (State.modFn s f g) :=
  setFn_sameRegs hs

theorem cacheEntry_sameRegs {e} (hs : SameRegs r s) : SameRegs r (cacheEntry s e) :=
  sameRegs_ite hs (sameRegs_ite hs hs)

theorem cacheWalk_sameRegs {p h ia} (hs : SameRegs r s) : SameRegs r (cacheWalk s p h ia) :=
  sameRegs_foldl (fun _ _ hs => cacheEntry_sameRegs hs) hs

theorem noteAts_sameRegs {p pasid page} (hs : SameRegs r s) : SameRegs r (noteAts s p pasid page) := by
  unfold noteAts
  split
  · exact sameRegs_ite hs hs
  · exact hs

theorem keepHme_sameRegs {p ia} (hs : SameRegs r s) : SameRegs r (keepHme s p ia) := by
  unfold keepHme
  split
  · exact sameRegs_ite hs (sameRegs_ite hs hs)
  · exact hs

theorem noteWalk_sameRegs {p pasid ia} (hs : SameRegs r s) : SameRegs r (noteWalk s p pasid ia) := by
  unfold noteWalk
  dsimp only
  split
  · refine sameRegs_ite (noteAts_sameRegs (keepHme_sameRegs hs)) ?_
    refine sameRegs_ite (keepHme_sameRegs hs) ?_
    split
    · exact sameRegs_of_eq rfl rfl rfl rfl (sameRegs_ite (cacheWalk_sameRegs (keepHme_sameRegs hs))
        (sameRegs_of_eq rfl rfl rfl rfl (cacheWalk_sameRegs (keepHme_sameRegs hs))))
    · exact keepHme_sameRegs hs
  · exact keepHme_sameRegs hs

theorem noteDirty_sameRegs {l} (hs : SameRegs r s) : SameRegs r (noteDirty s l) :=
  sameRegs_ite hs hs

theorem setHomeLine_sameRegs {p ia h} (hs : SameRegs r s) : SameRegs r (State.setHomeLine s p ia h) :=
  hs

theorem setTail_sameRegs {l t} (hs : SameRegs r s) : SameRegs r (State.setTail s l t) :=
  hs

theorem halveDue_sameRegs (hs : SameRegs r s) : SameRegs r (halveDue s) :=
  sameRegs_ite hs hs

theorem putHot_sameRegs {h} (hs : SameRegs r s) : SameRegs r (putHot s h) :=
  sameRegs_ite hs hs

theorem bumpHot_sameRegs {p ia src port fb thr} (hs : SameRegs r s) : SameRegs r (bumpHot s p ia src port fb thr) :=
  sameRegs_ite hs (putHot_sameRegs hs)

theorem noteHot_sameRegs {p seg hseg ia} (hs : SameRegs r s) : SameRegs r (noteHot s p seg hseg ia) :=
  sameRegs_ite hs (bumpHot_sameRegs (sameRegs_foldl (fun _ _ hs => bumpHot_sameRegs hs) (halveDue_sameRegs hs)))

theorem bumpLine_sameRegs {p ia writer} (hs : SameRegs r s) : SameRegs r (bumpLine s p ia writer) := by
  unfold bumpLine
  extract_lets h seq out keep s1 s2
  have h1 : SameRegs r s1 := setHomeLine_sameRegs hs
  exact sameRegs_ite (modCore_sameRegs h1) h1

theorem joinSharers_sameRegs {p ia core} (hs : SameRegs r s) : SameRegs r (joinSharers s p ia core) :=
  sameRegs_ite hs (sameRegs_ite (setHomeLine_sameRegs hs) (setHomeLine_sameRegs hs))

theorem wroteWords_sameRegs {p core line addr ws} (hs : SameRegs r s) : SameRegs r (wroteWords s p core line addr ws) :=
  hs

theorem takeOwned_sameRegs {p core line addr m} (hs : SameRegs r s) : SameRegs r (takeOwned s p core line addr m) := by
  unfold takeOwned
  split
  · exact hs
  · exact sameRegs_ite hs (joinSharers_sameRegs (setHomeLine_sameRegs (modCore_sameRegs (wroteWords_sameRegs hs))))

theorem writeBackWords_sameRegs {p core line addr m} (hs : SameRegs r s) :
    SameRegs r (writeBackWords s p core line addr m) :=
  sameRegs_ite (takeOwned_sameRegs hs) (bumpLine_sameRegs (takeOwned_sameRegs hs))

theorem recallMask_sameRegs {p ia m} (hs : SameRegs r s) : SameRegs r (recallMask s p ia m) := by
  unfold recallMask
  split
  · exact hs
  · exact sameRegs_foldl (fun _ _ hs => writeBackWords_sameRegs hs) hs

theorem clearPoison_sameRegs {addr n} (hs : SameRegs r s) : SameRegs r (clearPoison s addr n) :=
  hs

theorem postStore_sameRegs {p writer t ia bs} (hs : SameRegs r s) : SameRegs r (postStore s p writer t ia bs) :=
  sameRegs_ite (modCore_sameRegs hs) hs

theorem writeAt_sameRegs {p writer t ia bs} (hs : SameRegs r s) : SameRegs r (writeAt s p writer t ia bs) := by
  unfold writeAt
  refine sameRegs_ite (clearPoison_sameRegs hs) ?_
  split
  · exact bumpLine_sameRegs (clearPoison_sameRegs hs)
  · dsimp only
    split
    · exact noteDirty_sameRegs (bumpLine_sameRegs (clearPoison_sameRegs hs))
    · exact setTail_sameRegs (noteDirty_sameRegs (bumpLine_sameRegs (clearPoison_sameRegs hs)))

theorem storeAt_sameRegs {p writer t ia bs} (hs : SameRegs r s) : SameRegs r (storeAt s p writer t ia bs) :=
  sameRegs_ite (writeAt_sameRegs hs) (postStore_sameRegs hs)

theorem engineStore_sameRegs {p seg core a ia bs} (hs : SameRegs r s) :
    SameRegs r (engineStore s p seg core a ia bs).1 := by
  unfold engineStore
  split <;> try exact hs
  exact storeAt_sameRegs
    (sameRegs_ite (recallMask_sameRegs (noteHot_sameRegs (noteWalk_sameRegs hs)))
    (noteHot_sameRegs (noteWalk_sameRegs hs)))

theorem expire_sameRegs {core unit p ia} (hs : SameRegs r s) : SameRegsOpt r (expire s core unit p ia) := by
  unfold expire
  split
  · exact hs
  · exact trivial

theorem unlessLate_sameRegs {α : Type} {core p ia} {f : Unit → State × HAns α} (hs : SameRegs r s) (hf :
    SameRegs r (f ()).1) :
    SameRegs r (unlessLate s core p ia f).1 := by
  unfold unlessLate
  split
  · exact sameRegs_some ‹_› (expire_sameRegs hs)
  · exact hf

theorem vaWrite_sameRegs {p seg core wins va bs} (hs : SameRegs r s) :
    SameRegs r (vaWrite s p seg core wins va bs).1 := by
  unfold vaWrite
  split
  · exact hs
  · exact unlessLate_sameRegs hs (engineStore_sameRegs hs)

theorem mqTry_sameRegs {fn e} (hs : SameRegs r s) : SameRegsOpt r (mqTry s fn e) := by
  unfold mqTry
  split
  · exact setFn_sameRegs hs
  · dsimp only
    split
    · exact setFn_sameRegs (sameRegs_fst ‹_› (vaWrite_sameRegs hs))
    · exact trivial
    · exact setFn_sameRegs hs

theorem mqWrite_sameRegs {fn e} (hs : SameRegs r s) : SameRegs r (mqWrite s fn e) :=
  sameRegs_getD (mqTry_sameRegs hs) (modFn_sameRegs hs)

theorem flushHeld_sameRegs {n fn} (hs : SameRegs r s) : SameRegs r (flushHeld n s fn) := by
  induction n generalizing s with
  | zero => exact hs
  | succ n ih =>
    unfold flushHeld
    dsimp only
    split
    · exact hs
    · split
      · exact hs
      · split
        · exact ih (sameRegs_some ‹_› (mqTry_sameRegs (setFn_sameRegs hs)))
        · exact hs

theorem post_sameRegs {fn kind code seq detail lid} (hs : SameRegs r s) :
    SameRegs r (post s fn kind code seq detail lid) :=
  sameRegs_ite (setFn_sameRegs hs)
    (sameRegs_ite (mqWrite_sameRegs hs) (sameRegs_ite (flushHeld_sameRegs (setFn_sameRegs hs)) (setFn_sameRegs hs)))

end

end Sys2Proof.Machine
end

section
/-! SUPPORT. Reads and writes of registers (R3, R19, R21, R52, R66, R72, R413): the fields of the words that a read
brings, what each range of offsets reads, and the state that a write leaves. -/

namespace Sys2Proof.Machine
open Claims

/-! ## Fields of the words that a read brings -/

section
variable {m n : Nat} (x : BitVec m) (y : BitVec n)

theorem bits_append_low {lo k : Nat} (h : lo + k ≤ n) : bits (x ++ y) lo k = bits y lo k := by
  ext i hi
  simp [bits, BitVec.getLsbD_append, show lo + i < n by omega]

theorem bits_append_high (lo k : Nat) : bits (x ++ y) (n + lo) k = bits x lo k := by
  ext i hi
  simp [bits, BitVec.getLsbD_append, Nat.add_assoc]

theorem bit_append_low {i : Nat} (h : i < n) : bit (x ++ y) i = bit y i := by
  simp [bit, BitVec.getLsbD_append, h]

theorem bit_append_high (i : Nat) : bit (x ++ y) (n + i) = bit x i := by
  simp [bit, BitVec.getLsbD_append]

@[simp] theorem bits_all : bits x 0 m = x := by
  ext i hi
  simp [bits]

@[simp] theorem bits_zero (lo k : Nat) : bits (0 : BitVec m) lo k = 0 := by
  ext i hi
  simp [bits]

@[simp] theorem bit_b1 (b : Bool) : bit (b1 b) 0 = b := by simp [bit, b1]

end

/-- A word of 32 bits and zeros above them. -/
theorem setWidth_fields (x : W32) :
    bits (x.setWidth 64 : W64) 0 32 = x ∧ (bits (x.setWidth 64 : W64) 32 32 : W32) = 0 := by
  constructor <;> ext i hi
  · rw [bits, BitVec.getElem_extractLsb', Nat.zero_add, BitVec.getLsbD_setWidth, decide_eq_true (show i < 64 by omega)]
    simp [hi]
  · simp [bits]

/-- LOG and EN of a queue's configuration (R52). -/
theorem queueCfg_fields (log : BitVec 4) (en : Bool) :
    bits ((0 : BitVec 59) ++ b1 en ++ log) 0 4 = log ∧ bit ((0 : BitVec 59) ++ b1 en ++ log) 4 = en ∧
      bits ((0 : BitVec 59) ++ b1 en ++ log) 5 59 = 0 := by
  refine ⟨?_, ?_, ?_⟩
  · rw [bits_append_low _ _ (by decide), bits_all]
  · rw [bit_append_high _ _ 0, bit_append_low _ _ (by decide), bit_b1]
  · rw [bits_append_high _ _ 1, bits_append_high _ _ 0, bits_zero]

/-- STATUS of a function (R52). -/
theorem queueStatus_fields (lost : BitVec 8) (c m q : Bool) :
    let w := (0 : BitVec 48) ++ lost ++ (0 : BitVec 5) ++ b1 c ++ b1 m ++ b1 q
    bit w 0 = q ∧ bit w 1 = m ∧ bit w 2 = c ∧ bits w 3 5 = 0 ∧ bits w 8 8 = lost ∧ bits w 16 48 = 0 := by
  refine ⟨?_, ?_, ?_, ?_, ?_, ?_⟩
  · rw [bit_append_low _ _ (by decide), bit_b1]
  · rw [bit_append_high _ _ 0, bit_append_low _ _ (by decide), bit_b1]
  · rw [bit_append_high _ _ 1, bit_append_high _ _ 0, bit_append_low _ _ (by decide), bit_b1]
  · rw [bits_append_high _ _ 2, bits_append_high _ _ 1, bits_append_high _ _ 0, bits_append_low _ _ (by decide),
      bits_zero]
  · rw [bits_append_high _ _ 7, bits_append_high _ _ 6, bits_append_high _ _ 5, bits_append_high _ _ 0,
      bits_append_low _ _ (by decide), bits_all]
  · rw [bits_append_high _ _ 15, bits_append_high _ _ 14, bits_append_high _ _ 13, bits_append_high _ _ 8,
      bits_append_high _ _ 0, bits_zero]

/-- The boot register (R24). -/
theorem bootWord_fields (reason state : BitVec 4) :
    let w := (0 : BitVec 56) ++ reason ++ state
    bits w 0 4 = state ∧ bits w 4 4 = reason ∧ bits w 8 56 = 0 := by
  refine ⟨?_, ?_, ?_⟩
  · rw [bits_append_low _ _ (by decide), bits_all]
  · rw [bits_append_high _ _ 0, bits_append_low _ _ (by decide), bits_all]
  · rw [bits_append_high _ _ 4, bits_append_high _ _ 0, bits_zero]

/-- SLOTST (R72). -/
theorem slotst_fields (c : Core) :
    let w := (0 : BitVec 60) ++ b1 c.stopped ++ b1 c.gangwait ++ b1 c.curempty ++ b1 c.busy
    bit w 0 = c.busy ∧ bit w 1 = c.curempty ∧ bit w 2 = c.gangwait ∧ bit w 3 = c.stopped ∧ bits w 4 60 = 0 := by
  refine ⟨?_, ?_, ?_, ?_, ?_⟩
  · rw [bit_append_low _ _ (by decide), bit_b1]
  · rw [bit_append_high _ _ 0, bit_append_low _ _ (by decide), bit_b1]
  · rw [bit_append_high _ _ 1, bit_append_high _ _ 0, bit_append_low _ _ (by decide), bit_b1]
  · rw [bit_append_high _ _ 2, bit_append_high _ _ 1, bit_append_high _ _ 0, bit_append_low _ _ (by decide), bit_b1]
  · rw [bits_append_high _ _ 3, bits_append_high _ _ 2, bits_append_high _ _ 1, bits_append_high _ _ 0, bits_zero]

/-! ## What each range of offsets reads -/

theorem readRegister_vf (s : State) {f : Nat} (hf : f < 1024) (off : Nat) :
    readRegister s f off = (s.fn f).readReg off := by
  simp [readRegister, pfn, show ¬ 1024 < f by omega, show f ≠ 1024 by omega]

theorem readRegister_pf (s : State) (off : Nat) : readRegister s 1024 off = readPmb s off := by
  simp [readRegister, pfn]

/-- The queue registers of a function, of a VF at 0 and of the PF at 10000h (R21, R52). -/
theorem readRegister_queue (s : State) {f base : Nat} (h : (f < 1024 ∧ base = 0) ∨ (f = 1024 ∧ base = 0x10000))
    {o : Nat} (ho : o < 0x100) : readRegister s f (base + o) = (s.fn f).readReg o := by
  rcases h with ⟨hf, rfl⟩ | ⟨rfl, rfl⟩
  · rw [readRegister_vf s hf, Nat.zero_add]
  · rw [readRegister_pf, readPmb, if_neg (by omega), if_neg (by omega), if_neg (by omega), if_neg (by omega),
      if_pos (by omega), Nat.add_sub_cancel_left]
    rfl

theorem readPmb_listed (s : State) {off : Nat} (h : pmbListed off = true) (hq : off < 0x10000 ∨ 0x10100 ≤ off) :
    readPmb s off = s.reg off := by
  have h1 : 0x1000 ≤ off := by
    simp only [pmbListed, Bool.or_eq_true, Bool.and_eq_true, decide_eq_true_eq] at h
    omega
  simp [readPmb, h, show off ≠ 0 by omega, show off ≠ 8 by omega, show off ≠ 0x10 by omega, show off ≠ 0x20 by omega,
    show ¬ (0x10000 ≤ off ∧ off < 0x10100) by omega]

theorem readPmb_unlisted (s : State) {off : Nat} (h : pmbListed off = false) (h0 : 0x18 ≤ off) (h1 : off ≠ 0x20)
    (hq : off < 0x10000 ∨ 0x10100 ≤ off) : readPmb s off = 0 := by
  simp [readPmb, h, show off ≠ 0 by omega, show off ≠ 8 by omega, show off ≠ 0x10 by omega, h1,
    show ¬ (0x10000 ≤ off ∧ off < 0x10100) by omega]

/-- The slot table of a core (R72). -/
theorem readRegister_slot (s : State) {seg n o : Nat} (hs : seg < 8) (hn : n < 64) (ho : o < 128) :
    readRegister s (1025 + seg) (0x40000 + 128 * n + o) = (s.core (64 * seg + n)).readSlot o := by
  have hc : 64 * (1025 + seg - 1025) + (0x40000 + 128 * n + o - 0x40000) / 128 = 64 * seg + n := by omega
  have hm : (0x40000 + 128 * n + o) % 128 = o := by omega
  rw [readRegister, if_pos (show pfn < 1025 + seg by unfold pfn; omega), if_pos (by omega), hc, hm]

theorem readReg_of_not_listed (f : Fn) {o : Nat} (h : o ∉ queueOffsets) : f.readReg o = 0 := by
  simp only [queueOffsets, List.mem_cons, not_or] at h
  simp only [Fn.readReg]
  split <;> simp_all

/-! ## What a write leaves -/

/-- The PF's write of a dword of a partition's block stands as it is (R21). -/
theorem writeBlock_pf (s : State) {part : Nat} (hp : part < 64) (off : Nat) (v : W64) :
    writeBlock s 1024 part off v = s.setReg off v := by
  rw [writeBlock, if_neg (by simp [isFn, hp]), if_pos (show 1024 = pfn from rfl)]

/-- Such a write of a VF is dropped (R22). -/
theorem writeBlock_vf (s : State) {fn part : Nat} (hf : fn < 1024) (hp : part < 64) (off : Nat) (v : W64) :
    writeBlock s fn part off v = reportVf s fn off := by
  rw [writeBlock, if_neg (by simp [isFn, hp, Nat.le_of_lt hf]), if_neg (show fn ≠ pfn by unfold pfn; omega)]

theorem reportVf_sameRegs (s : State) (vf off : Nat) : SameRegs s (reportVf s vf off) :=
  post_sameRegs (post_sameRegs (sameRegs_refl s))

theorem exec_agethrWrite_pf (s : State) {part : Nat} (hp : part < 64) (v : W64) :
    exec (.agethrWrite 1024 part v) s = .next (s.setReg (0xE400 + 16 * part) (v &&& 0xFFFF)) :=
  congrArg Host.Outcome.next (writeBlock_pf s hp _ _)

theorem exec_mbudgetWrite_pf (s : State) {part : Nat} (hp : part < 64) (v : W64) :
    exec (.mbudgetWrite 1024 part v) s = .next (s.setReg (0xE800 + 16 * part) (v &&& 0xFFFFFFFF)) :=
  congrArg Host.Outcome.next (writeBlock_pf s hp _ _)

theorem exec_tvecWrite_pf (s : State) {part : Nat} (hp : part < 64) (v : W64) :
    exec (.tvecWrite 1024 part v) s = .next (s.setReg (0xE000 + 16 * part) (v &&& ~~~6)) :=
  congrArg Host.Outcome.next (writeBlock_pf s hp _ _)

/-- A VF's write of what only the PF may write is reported, and does nothing else (R22, R130, R292, R398). -/
theorem exec_write_vf (s : State) {fn part : Nat} (hf : fn < 1024) (hp : part < 64) {v : W64} {i : Instr}
    (hi : i = .agethrWrite fn part v ∨ i = .mbudgetWrite fn part v ∨ i = .tvecWrite fn part v ∨
      i = .resetWriteFromVf fn v) :
    ∃ off, exec i s = .next (reportVf s fn off) := by
  rcases hi with rfl | rfl | rfl | rfl
  · exact ⟨_, congrArg Host.Outcome.next (writeBlock_vf s hf hp _ _)⟩
  · exact ⟨_, congrArg Host.Outcome.next (writeBlock_vf s hf hp _ _)⟩
  · exact ⟨_, congrArg Host.Outcome.next (writeBlock_vf s hf hp _ _)⟩
  · exact ⟨_, congrArg Host.Outcome.next (if_pos hf)⟩

theorem exec_registerWrite_unaligned (s : State) (fn : Nat) {off : Nat} (h : off % 8 ≠ 0) (v : W64) :
    exec (.registerWrite fn off v) s = .next s :=
  congrArg Host.Outcome.next (if_pos (.inl h))

theorem exec_registerWrite_vf (s : State) {fn off : Nat} (hf : fn < 1024) (ho : off % 8 = 0) (v : W64) :
    exec (.registerWrite fn off v) s = .next (writeQueueReg s fn off v) := by
  show Host.Outcome.next _ = _
  rw [if_neg (by omega), if_neg (show ¬ pfn < fn by unfold pfn; omega), if_neg (show fn ≠ pfn by unfold pfn; omega)]

theorem exec_registerWrite_pf (s : State) {off : Nat} (ho : off % 8 = 0) (v : W64) :
    exec (.registerWrite 1024 off v) s = .next (writePmb s off v) := by
  show Host.Outcome.next _ = _
  rw [if_neg (by omega), if_neg (show ¬ pfn < 1024 by decide), if_pos (show 1024 = pfn from rfl)]

/-- The slot table of a core, written by its segment's controller (R72). -/
theorem exec_registerWrite_slot (s : State) {seg n o : Nat} (hs : seg < 8) (hn : n < 64) (ho : o < 128) (h8 : o % 8 = 0)
    (v : W64) : exec (.registerWrite (1025 + seg) (0x40000 + 128 * n + o) v) s =
      .next (writeSlot s (64 * seg + n) o v) := by
  have hc : 64 * (1025 + seg - 1025) + (0x40000 + 128 * n + o - 0x40000) / 128 = 64 * seg + n := by omega
  have hm : (0x40000 + 128 * n + o) % 128 = o := by omega
  show Host.Outcome.next _ = _
  rw [if_neg (by omega), if_pos (show pfn < 1025 + seg by unfold pfn; omega), if_pos (by omega), hc, hm]

/-- A dword of a partition record is written by way of `writePartReg` (R66). -/
theorem writePmb_partRec (s : State) {part o : Nat} (hp : part < 64) (ho : o < 64) (v : W64) :
    writePmb s (0x1000 + 64 * part + o) v = writePartReg s (0x1000 + 64 * part + o) v := by
  rw [writePmb, if_neg (by omega), if_pos (by omega)]

/-- The record of a partition that is not enabled takes the bits that it has (R66). -/
theorem writePartReg_disabled (s : State) {part o : Nat} (ho : o < 64) {v : W64} (he : s.enabled part = false)
    (hv : o = 0x30 → bit v 32 = false) : writePartReg s (0x1000 + 64 * part + o) v =
      s.setReg (0x1000 + 64 * part + o) (v &&& partMask o) := by
  have hp : (0x1000 + 64 * part + o - 0x1000) / 64 = part := by omega
  have hm : (0x1000 + 64 * part + o) % 64 = o := by omega
  simp only [writePartReg, hp, hm, he, Bool.false_eq_true, if_false]
  exact if_neg fun h => by simp [hv h.1] at h

/-- That of an enabled one does not change, but for a write that ends the partition (R65, R66). -/
theorem writePartReg_enabled (s : State) {part o : Nat} (ho : o < 64) {v : W64} (he : s.enabled part = true)
    (hv : o = 0x30 → bit v 32 = true) : writePartReg s (0x1000 + 64 * part + o) v = s := by
  have hp : (0x1000 + 64 * part + o - 0x1000) / 64 = part := by omega
  have hm : (0x1000 + 64 * part + o) % 64 = o := by omega
  simp only [writePartReg, hp, hm, he, if_true]
  exact if_neg fun h => by simp [hv h.1] at h

theorem exec_registerWrite_partRec_disabled (s : State) {part o : Nat} (hp : part < 64) (ho : o < 64) (h8 : o % 8 = 0)
    {v : W64} (he : s.enabled part = false) (hv : o = 0x30 → bit v 32 = false) :
    exec (.registerWrite 1024 (0x1000 + 64 * part + o) v) s =
      .next (s.setReg (0x1000 + 64 * part + o) (v &&& partMask o)) := by
  rw [exec_registerWrite_pf s (by omega), writePmb_partRec s hp ho, writePartReg_disabled s ho he hv]

theorem exec_registerWrite_partRec_enabled (s : State) {part o : Nat} (hp : part < 64) (ho : o < 64) (h8 : o % 8 = 0)
    {v : W64} (he : s.enabled part = true) (hv : o = 0x30 → bit v 32 = true) :
    exec (.registerWrite 1024 (0x1000 + 64 * part + o) v) s = .next s := by
  rw [exec_registerWrite_pf s (by omega), writePmb_partRec s hp ho, writePartReg_enabled s ho he hv]

/-! ## The error registers of a stack (R413) -/

theorem exec_clrcnt (s : State) {stack : Nat} (h : stack < 16) :
    exec (.clrcnt stack) s = .next ((s.setReg (errReg stack 0x10) 0).setReg (errReg stack 0x18) 0) :=
  congrArg Host.Outcome.next (if_pos h)

/-- A bank reaches the threshold of corrected errors, and its re-encoding begins. -/
theorem exec_ceThreshold (s : State) {stack bank : Nat} (hs : stack < 16) (hb : bank < 32)
    (h0 : (bits (s.reg (errReg stack 0)) 0 16).toNat ≠ 0)
    (hn : (bits (s.reg (errReg stack 0)) 0 16).toNat ≤ bankErrors s (32 * stack + bank))
    (hc : bit (s.reg (errReg stack 8)) bank = false) (hk : ∀ b ∈ s.banks, b.1 ≠ 512 + (32 * stack + bank)) :
    exec (.ceThreshold stack bank) s =
      .next { s with banks := s.banks ++ [(512 + (32 * stack + bank), s.now)] } := by
  have hany : s.banks.any (fun b => b.1 == 512 + (32 * stack + bank)) = false := by simpa using hk
  refine congrArg Host.Outcome.next (if_neg ?_)
  rw [hc, hany]
  simp only [Bool.false_eq_true, or_false, not_or]
  exact ⟨by omega, by omega, h0, by omega⟩

/-- The end of a re-encoding that answers other than the frames allow does nothing (log 17). -/
theorem exec_reencodeDone_unfit (s : State) {stack : Nat} (bank : Nat) {freed : Bool}
    (h : freed ≠ reencodeFits s stack) : exec (.reencodeDone stack bank freed) s = .next s := by
  show Host.Outcome.next _ = _
  dsimp only
  rw [if_pos (show (freed != reencodeFits s stack) = true by simpa using h), ite_self]

section
variable (s : State) {stack bank : Nat} {b : Nat × Nat} (hs : stack < 16) (hk : bank < 32) (hb : b ∈ s.banks)
  (h1 : b.1 = 512 + 32 * stack + bank)

include hs hk hb h1

/-- A bank whose re-encoding is under way is not passed over. -/
theorem reencodeDone_due : ¬ (!(s.banks.any fun b => b.1 == 512 + 32 * stack + bank) || decide (16 ≤ stack) ||
    decide (32 ≤ bank)) = true := by
  have hany : (s.banks.any fun b => b.1 == 512 + 32 * stack + bank) = true :=
    List.any_eq_true.2 ⟨b, hb, by simp [h1]⟩
  simp [hany, hs, hk]

/-- The frames are freed: the bank runs under the stronger code. -/
theorem exec_reencodeDone_freed (hf : reencodeFits s stack = true) : exec (.reencodeDone stack bank true) s =
    .next (post (({ s with banks := s.banks.filter fun b => b.1 != 512 + 32 * stack + bank } : State).setReg
      (errReg stack 8) (putBit (s.reg (errReg stack 8)) bank true)) pfn 3 0x0328 0 0 0xFFFF) := by
  show Host.Outcome.next _ = _
  rw [if_neg (reencodeDone_due s hs hk hb h1), if_neg (by simp [hf]), if_pos rfl]
  rfl

/-- They cannot be: the re-encoding waits. -/
theorem exec_reencodeDone_deferred (hf : reencodeFits s stack = false) : exec (.reencodeDone stack bank false) s =
    .next (post s pfn 3 0x0329 0 0 0xFFFF) := by
  show Host.Outcome.next _ = _
  rw [if_neg (reencodeDone_due s hs hk hb h1), if_neg (by simp [hf]), if_neg (by decide)]

end

theorem bit_putBit_true {w : Nat} (x : BitVec w) {n : Nat} (h : n < w) : bit (putBit x n true) n = true := by
  simp [bit, putBit, h]

/-- A register reads the same in a state with the same management block. -/
theorem SameRegs.reg {r s : State} (h : SameRegs r s) (o : Nat) : s.reg o = r.reg o := by
  obtain ⟨hp, -⟩ := h
  rw [State.reg, State.reg, hp]

/-! ## What the registers of a range read -/

/-- The package's registers in the PF's BAR 0 (R19, R22, R24). -/
theorem readRegister_package (s : State) :
    readRegister s 1024 0 = s.pkg.word0 ∧ readRegister s 1024 8 = s.pkg.word1 ∧
      readRegister s 1024 0x10 = s.pkg.rdyseq.setWidth 64 ∧ readRegister s 1024 0x18 = 0 ∧
      bits (readRegister s 1024 0x20) 0 4 = s.pkg.bootState ∧ bits (readRegister s 1024 0x20) 4 4 = s.pkg.bootReason ∧
      (bits (readRegister s 1024 0x20) 8 56 : BitVec 56) = 0 :=
  ⟨rfl, rfl, rfl, rfl, bootWord_fields s.pkg.bootReason s.pkg.bootState⟩

/-- A function's configuration registers (R52). -/
theorem readReg_cfg_fields (f : Fn) :
    (bits (f.readReg 8) 0 4 = f.sqlog ∧ bit (f.readReg 8) 4 = f.sqen ∧ bits (f.readReg 8) 5 59 = 0) ∧
      (bits (f.readReg 0x28) 0 4 = f.mqlog ∧ bit (f.readReg 0x28) 4 = f.mqen ∧ bits (f.readReg 0x28) 5 59 = 0) ∧
      bits (f.readReg 0x50) 0 4 = f.cqlog ∧ bit (f.readReg 0x50) 4 = f.cqen ∧ bits (f.readReg 0x50) 5 59 = 0 :=
  ⟨queueCfg_fields _ _, queueCfg_fields _ _, queueCfg_fields _ _⟩

/-- The upper half of a function's heads and tails is zero (R52). -/
theorem readReg_pointer_high (f : Fn) {o : Nat}
    (ho : o = 0x10 ∨ o = 0x18 ∨ o = 0x30 ∨ o = 0x38 ∨ o = 0x58 ∨ o = 0x60) : (bits (f.readReg o) 32 32 : W32) = 0 := by
  rcases ho with rfl | rfl | rfl | rfl | rfl | rfl <;> exact (setWidth_fields _).2

/-- In a partition's record, a dword reads as it was written (R21). -/
theorem readRegister_partRec (s : State) {part o : Nat} (hp : part < 64) (ho : o < 64) :
    readRegister s 1024 (0x1000 + 64 * part + o) = s.partRec part o := by
  rw [readRegister_pf]
  exact readPmb_listed s (by simp [pmbListed]; omega) (by omega)

theorem readRegister_agethr (s : State) {part : Nat} (hp : part < 64) :
    readRegister s 1024 (0xE400 + 16 * part) = s.reg (0xE400 + 16 * part) := by
  rw [readRegister_pf]
  exact readPmb_listed s (by simp [pmbListed]; omega) (by omega)

theorem readRegister_gap (s : State) {off : Nat} (h : pmbGap off) : readRegister s 1024 off = 0 := by
  rw [readRegister_pf]
  unfold pmbGap at h
  exact readPmb_unlisted s (by simp [pmbListed]; omega) (by omega) (by omega) (by omega)

/-- CLRCNT is write-only (R413). -/
theorem readRegister_clrcnt (s : State) {stack : Nat} (h : stack < 16) :
    readRegister s 1024 (errReg stack 0x28) = 0 := by
  rw [readRegister_pf, errReg]
  exact readPmb_unlisted s (by simp [pmbListed]; omega) (by omega) (by omega) (by omega)

/-! ## O53 and O54 -/

/-- CUR and NEXT of a core's slot table (R72). -/
theorem readSlot_cur (c : Core) {i : Nat} (hi : i < 4) : c.readSlot (8 * i) = bindDw c.cur i := by
  rw [Core.readSlot, if_pos (by omega), Nat.mul_div_cancel_left i (by decide)]

theorem readSlot_nxt (c : Core) {i : Nat} (hi : i < 4) : c.readSlot (0x20 + 8 * i) = bindDw c.nxt i := by
  rw [Core.readSlot, if_neg (by omega), if_pos (by omega), Nat.add_sub_cancel_left,
    Nat.mul_div_cancel_left i (by decide)]

/-- A 1 written to BUSY clears it (R72). -/
theorem writeSlot_busy (s : State) (core : Nat) {v : W64} (hv : bit v 0 = true) :
    writeSlot s core 0x40 v = s.modCore core fun c => { c with busy := false } := by
  rw [writeSlot, if_pos rfl, if_pos hv]

/-- CUR takes no write (R72). -/
theorem writeSlot_cur (s : State) (core : Nat) {o : Nat} (ho : o < 0x20) (v : W64) : writeSlot s core o v = s := by
  rw [writeSlot, if_neg (by omega), if_neg (by omega)]

/-- Settles O53, by what each range of offsets reads and by the state that each write leaves. -/
theorem registerReads : Obligations.RegisterReads := by
  unfold Obligations.RegisterReads
  refine ⟨readRegister_package, fun s f base h => ?_, fun s f off hf hn => ?_, fun s off => readRegister_gap s,
    fun s stack => readRegister_clrcnt s, fun part v s hp => ?_, fun part o v s hp ho h8 he hv => ?_,
    fun s seg n hs hn => ?_, fun s seg n v hs hn hv => ?_, fun s seg n v i hs hn hi => ?_⟩
  · have hq : ∀ o, o < 0x100 → readRegister s f (base + o) = (s.fn f).readReg o := fun o => readRegister_queue s h
    have h0 : readRegister s f base = (s.fn f).readReg 0 := hq 0 (by decide)
    obtain ⟨⟨hsl, hse, hsz⟩, ⟨hml, hme, hmz⟩, hcl, hce, hcz⟩ := readReg_cfg_fields (s.fn f)
    obtain ⟨hsq, hlost, hcq, hz3, hcnt, hz16⟩ :=
      queueStatus_fields (s.fn f).lostcnt (s.fn f).cqerr (s.fn f).mqlost (s.fn f).sqerr
    rw [h0, hq 8 (by decide), hq 0x10 (by decide), hq 0x18 (by decide), hq 0x20 (by decide), hq 0x28 (by decide),
      hq 0x30 (by decide), hq 0x38 (by decide), hq 0x40 (by decide), hq 0x48 (by decide), hq 0x50 (by decide),
      hq 0x58 (by decide), hq 0x60 (by decide)]
    refine ⟨rfl, hsl, hse, hml, hme, hcl, hce, fun o ho => ?_, fun o ho => ?_, hz3, hz16, fun o ho hn => ?_,
      (setWidth_fields _).1, (setWidth_fields _).1, rfl, (setWidth_fields _).1, (setWidth_fields _).1, hsq, hlost, hcq,
      hcnt, rfl, (setWidth_fields _).1, (setWidth_fields _).1⟩
    · rcases ho with rfl | rfl | rfl
      · rw [hq 8 (by decide), hsz]
      · rw [hq 0x28 (by decide), hmz]
      · rw [hq 0x50 (by decide), hcz]
    · rw [hq o (by omega), readReg_pointer_high _ ho]
    · rw [hq o ho, readReg_of_not_listed _ hn]
  · rw [readRegister_vf s hf, readReg_of_not_listed _ hn]
  · exact ⟨_, exec_agethrWrite_pf s hp v, (readRegister_agethr _ hp).trans (reg_setReg_self ..)⟩
  · exact ⟨_, exec_registerWrite_partRec_disabled s hp ho h8 he hv,
      (readRegister_partRec _ hp ho).trans (reg_setReg_self ..)⟩
  · have hst : readRegister s (1025 + seg) (0x40000 + 128 * n + 0x40) = (s.core (64 * seg + n)).slotst :=
      readRegister_slot s hs hn (by decide)
    obtain ⟨hbusy, hempty, hgang, hstop, hz⟩ := slotst_fields (s.core (64 * seg + n))
    dsimp only
    rw [hst]
    refine ⟨hbusy, hempty, hgang, hstop, hz, fun i hi => ⟨?_, ?_⟩⟩
    · exact (readRegister_slot s hs hn (by omega)).trans (readSlot_cur _ hi)
    · rw [Nat.add_assoc (0x40000 + 128 * n)]
      exact (readRegister_slot s hs hn (by omega)).trans (readSlot_nxt _ hi)
  · refine ⟨_, exec_registerWrite_slot s hs hn (by decide) (by decide) v, ?_⟩
    rw [writeSlot_busy s _ hv]
    exact ⟨core_modCore_self s _ _, fun c hc => core_modCore_ne s hc _⟩
  · rw [exec_registerWrite_slot s hs hn (by omega) (by omega), writeSlot_cur s _ (by omega)]

/-- Settles O54, by the state that each write leaves; a report leaves the registers alone. -/
theorem registers : Obligations.Registers := by
  unfold Obligations.Registers
  refine ⟨fun part v s hp => ⟨_, exec_agethrWrite_pf s hp v, reg_setReg_self .., rfl⟩,
    fun part v s hp => ⟨_, exec_mbudgetWrite_pf s hp v, reg_setReg_self .., rfl⟩,
    fun part v s hp => ⟨_, exec_tvecWrite_pf s hp v, reg_setReg_self .., rfl⟩,
    fun fn part v s i hf hp hi => ?_, fun fn off v s _ h => exec_registerWrite_unaligned s fn h v,
    fun fn v s hf => ⟨_, exec_registerWrite_vf s hf rfl v, fn_modFn_self s fn _⟩,
    fun part o v s hp ho h8 he hv =>
      ⟨_, exec_registerWrite_partRec_disabled s hp ho h8 he hv, reg_setReg_self .., rfl⟩,
    fun part o v s hp ho h8 he hv => exec_registerWrite_partRec_enabled s hp ho h8 he hv, fun stack s hs => ?_,
    fun stack bank s hs hk h0 hn hc hb => exec_ceThreshold s hs hk h0 hn hc hb, fun stack bank s b hs hk hb h1 hf => ?_,
    fun stack bank s b hs hk hb h1 hf => ?_, fun stack bank freed s h => exec_reencodeDone_unfit s bank h⟩
  · obtain ⟨off, he⟩ := exec_write_vf s hf hp hi
    obtain ⟨hpmb, hpkg, hparts, -⟩ := reportVf_sameRegs s fn off
    exact ⟨_, he, hpmb, hpkg, hparts⟩
  · have hne : 0xD010 + 64 * stack ≠ errReg stack 0x18 := by unfold errReg; omega
    refine ⟨_, exec_clrcnt s hs, ?_, ?_⟩
    · rw [reg_setReg_ne _ hne, show 0xD010 + 64 * stack = errReg stack 0x10 by unfold errReg; omega, reg_setReg_self]
    · rw [show 0xD018 + 64 * stack = errReg stack 0x18 by unfold errReg; omega, reg_setReg_self]
  · refine ⟨_, exec_reencodeDone_freed s hs hk hb h1 hf, ?_, fun c hc => ?_⟩
    · rw [(post_sameRegs (sameRegs_refl _)).reg, reg_setReg_self, bit_putBit_true _ (by omega)]
    · obtain ⟨-, -, -, hbanks⟩ := post_sameRegs (fn := pfn) (kind := 3) (code := 0x0328) (seq := 0) (detail := 0)
        (lid := 0xFFFF) (sameRegs_refl _)
      rw [hbanks] at hc
      simpa using (List.mem_filter.1 hc).2
  · obtain ⟨hpmb, -, -, hbanks⟩ := post_sameRegs (fn := pfn) (kind := 3) (code := 0x0329) (seq := 0) (detail := 0)
      (lid := 0xFFFF) (sameRegs_refl s)
    exact ⟨_, exec_reencodeDone_deferred s hs hk hb h1 hf, hpmb, hbanks⟩

end Sys2Proof.Machine
end

section
/-! SUPPORT. What the kill of a partition leaves alone (R23, R415): the package's state, the cores that the list holds, and
which of them are out of use. A lemma `f_sameUse` says that `f` leaves them alone. -/

namespace Sys2Proof.Machine

/-! ## Keys of the sparse lists -/

section
variable {α β : Type} {d : α} {l : List (Nat × α)} {k : Nat}

theorem alGet_of_not_mem (h : k ∉ l.map (·.1)) : alGet d l k = d := by
  induction l with
  | nil => rfl
  | cons e r ih =>
    simp only [List.map_cons, List.mem_cons, not_or] at h
    simpa [alGet, Ne.symm h.1] using ih h.2

/-- The value at a listed key of a list whose values have changed in place. -/
theorem alGet_map_of_mem {d' : β} {g : Nat × α → Nat × β} (hg : ∀ x, (g x).1 = x.1) (h : k ∈ l.map (·.1)) :
    alGet d' (l.map g) k = (g (k, alGet d l k)).2 := by
  induction l with
  | nil => simp at h
  | cons e r ih =>
    obtain ⟨n, v⟩ := e
    have hn : (g (n, v)).1 = n := hg (n, v)
    by_cases hk : n = k
    · subst hk; simp [alGet, hn]
    · simp only [List.map_cons, List.mem_cons, Ne.symm hk, false_or] at h
      simp [alGet, hn, hk, ih h]

theorem keys_map {g : Nat × α → Nat × β} (hg : ∀ x, (g x).1 = x.1) : (l.map g).map (·.1) = l.map (·.1) := by
  simp [hg]

theorem mem_keys_alSet (n : Nat) (x : α) (h : k ∈ l.map (·.1)) : k ∈ (alSet n x l).map (·.1) := by
  induction l with
  | nil => simp at h
  | cons e r ih =>
    simp only [List.map_cons, List.mem_cons] at h
    simp only [alSet]
    split
    · exact List.mem_cons_of_mem _ (List.mem_cons.2 h)
    · split
      · next hn => simpa [hn] using h
      · simpa using h.imp_right ih

end

/-- A list of cores lists those that another does, and has the same out of use. -/
structure KeepsUse (l m : List (Nat × Core)) : Prop where
  use : ∀ c, (alGet Core.reset m c).outOfUse = (alGet Core.reset l c).outOfUse
  listed : ∀ c ∈ l.map (·.1), c ∈ m.map (·.1)

/-- A state has the package's state of another, lists its cores, and has the same out of use. -/
def SameUse (r s : State) : Prop := s.pkg = r.pkg ∧ KeepsUse r.cores s.cores

/-- So does a state that may be there. -/
def SameUseOpt (r : State) : Option State → Prop
  | some s => SameUse r s
  | none => True

section
variable {r s t : State}

theorem sameUse_refl (s : State) : SameUse s s := ⟨rfl, fun _ => rfl, fun _ h => h⟩

theorem sameUse_of_eq (h : SameUse r s) (hk : t.pkg = s.pkg) (hc : t.cores = s.cores) : SameUse r t := by
  unfold SameUse
  rw [hk, hc]; exact h

theorem sameUse_ite {c : Prop} [Decidable c] {a b : State} (ha : SameUse r a) (hb : SameUse r b) :
    SameUse r (if c then a else b) := by
  split
  · exact ha
  · exact hb

theorem sameUse_foldl {α : Type} {f : State → α → State} {l : List α} (hf : ∀ s a, SameUse r s → SameUse r (f s a))
    (h : SameUse r s) : SameUse r (l.foldl f s) := by
  induction l generalizing s with
  | nil => exact h
  | cons a l ih => exact ih (hf s a h)

theorem sameUse_getD {o : Option State} (ho : SameUseOpt r o) (h : SameUse r s) : SameUse r (o.getD s) := by
  cases o with
  | none => exact h
  | some t => exact ho

theorem sameUse_fst {α : Type} {x : State × α} {a : α} (e : x = (t, a)) (h : SameUse r x.1) : SameUse r t := by
  subst e; exact h

theorem sameUse_some {x : Option State} (e : x = some t) (h : SameUseOpt r x) : SameUse r t := by
  subst e; exact h

/-! ## Updates of cores -/

theorem modCore_sameUse {c : Nat} {f : Core → Core} (hf : ∀ x, (f x).outOfUse = x.outOfUse) (hs : SameUse r s) :
    SameUse r (s.modCore c f) := by
  obtain ⟨hp, hu, hl⟩ := hs
  refine ⟨hp, fun d => ?_, fun d hd => mem_keys_alSet _ _ (hl d hd)⟩
  rw [← hu d]
  by_cases h : d = c
  · subst h; exact (congrArg Core.outOfUse (core_modCore_self s d f)).trans (hf _)
  · exact congrArg Core.outOfUse (core_modCore_ne s h f)

theorem mapCores_sameUse {g : Nat × Core → Nat × Core} (hg : ∀ x, (g x).1 = x.1)
    (hf : ∀ x, (g x).2.outOfUse = x.2.outOfUse) (hs : SameUse r s) : SameUse r { s with cores := s.cores.map g } := by
  obtain ⟨hp, hu, hl⟩ := hs
  refine ⟨hp, fun c => ?_, fun c hc => ?_⟩
  · rw [← hu c]
    by_cases h : c ∈ s.cores.map (·.1)
    · exact (congrArg Core.outOfUse (alGet_map_of_mem hg h)).trans (hf _)
    · have h' : c ∉ (s.cores.map g).map (·.1) := by rwa [keys_map hg]
      exact congrArg Core.outOfUse ((alGet_of_not_mem h').trans (alGet_of_not_mem h).symm)
  · exact (keys_map (l := s.cores) hg).symm ▸ hl c hc

theorem setGrp_sameUse {c g} (hs : SameUse r s) : SameUse r (State.setGrp s c g) :=
  modCore_sameUse (fun _ => rfl) hs

theorem modGrp_sameUse {c f} (hs : SameUse r s) : SameUse r (State.modGrp s c f) := by
  unfold State.modGrp
  split
  · exact hs
  · exact setGrp_sameUse hs

theorem setRun_sameUse {c p x} (hs : SameUse r s) : SameUse r (State.setRun s c p x) :=
  modCore_sameUse (fun _ => by split <;> rfl) hs

/-! ## A report -/

theorem setFn_sameUse {f x} (hs : SameUse r s) : SameUse r (State.setFn s f x) :=
  hs

theorem setHomeLine_sameUse {p ia h} (hs : SameUse r s) : SameUse r (State.setHomeLine s p ia h) :=
  hs

theorem setTail_sameUse {l t} (hs : SameUse r s) : SameUse r (State.setTail s l t) :=
  hs

theorem cacheEntry_sameUse {e} (hs : SameUse r s) : SameUse r (cacheEntry s e) :=
  sameUse_ite hs (sameUse_ite hs hs)

theorem cacheWalk_sameUse {p h ia} (hs : SameUse r s) : SameUse r (cacheWalk s p h ia) :=
  sameUse_foldl (fun _ _ hs => cacheEntry_sameUse hs) hs

theorem noteAts_sameUse {p pasid page} (hs : SameUse r s) : SameUse r (noteAts s p pasid page) := by
  unfold noteAts
  split
  · exact sameUse_ite hs hs
  · exact hs

theorem keepHme_sameUse {p ia} (hs : SameUse r s) : SameUse r (keepHme s p ia) := by
  unfold keepHme
  split
  · exact sameUse_ite hs (sameUse_ite hs hs)
  · exact hs

theorem noteWalk_sameUse {p pasid ia} (hs : SameUse r s) : SameUse r (noteWalk s p pasid ia) := by
  unfold noteWalk
  extract_lets s1
  have h1 : SameUse r s1 := keepHme_sameUse hs
  split
  · refine sameUse_ite (noteAts_sameUse h1) (sameUse_ite h1 ?_)
    split
    · have h2 := fun h => cacheWalk_sameUse (p := p) (h := h) (ia := ia) h1
      exact (sameUse_ite (h2 _) (h2 _))
    · exact h1
  · exact h1

theorem noteDirty_sameUse {l} (hs : SameUse r s) : SameUse r (noteDirty s l) :=
  sameUse_ite hs hs

theorem halveDue_sameUse (hs : SameUse r s) : SameUse r (halveDue s) :=
  sameUse_ite hs hs

theorem putHot_sameUse {h} (hs : SameUse r s) : SameUse r (putHot s h) :=
  sameUse_ite hs hs

theorem bumpHot_sameUse {p ia src port fb thr} (hs : SameUse r s) : SameUse r (bumpHot s p ia src port fb thr) :=
  sameUse_ite hs (putHot_sameUse hs)

theorem noteHot_sameUse {p seg hseg ia} (hs : SameUse r s) : SameUse r (noteHot s p seg hseg ia) :=
  sameUse_ite hs (bumpHot_sameUse (sameUse_foldl (fun _ _ hs => bumpHot_sameUse hs) (halveDue_sameUse hs)))

theorem bumpLine_sameUse {p ia writer} (hs : SameUse r s) : SameUse r (bumpLine s p ia writer) := by
  unfold bumpLine
  extract_lets h seq out keep s1 s2
  have h2 : SameUse r s2 := hs
  exact sameUse_ite (modCore_sameUse (fun _ => rfl) h2) h2

theorem joinSharers_sameUse {p ia core} (hs : SameUse r s) : SameUse r (joinSharers s p ia core) :=
  sameUse_ite hs (sameUse_ite (setHomeLine_sameUse hs) (setHomeLine_sameUse hs))

theorem setLine_outOfUse (c : Core) (l : L1Line) : (c.setLine l).outOfUse = c.outOfUse := by
  unfold Core.setLine
  split <;> rfl

theorem takeOwned_sameUse {p core line addr m} (hs : SameUse r s) : SameUse r (takeOwned s p core line addr m) := by
  unfold takeOwned
  split
  · exact hs
  · refine sameUse_ite hs (joinSharers_sameUse (setHomeLine_sameUse (modCore_sameUse (fun c => ?_) ?_)))
    · exact setLine_outOfUse c _
    · exact hs

theorem writeBackWords_sameUse {p core line addr m} (hs : SameUse r s) :
    SameUse r (writeBackWords s p core line addr m) :=
  sameUse_ite (takeOwned_sameUse hs) (bumpLine_sameUse (takeOwned_sameUse hs))

theorem recallMask_sameUse {p ia m} (hs : SameUse r s) : SameUse r (recallMask s p ia m) := by
  unfold recallMask
  split
  · exact hs
  · exact sameUse_foldl (fun _ _ hs => writeBackWords_sameUse hs) hs

theorem postStore_sameUse {p writer t ia bs} (hs : SameUse r s) : SameUse r (postStore s p writer t ia bs) :=
  sameUse_ite (modCore_sameUse (fun _ => rfl) hs) hs

theorem writeAt_sameUse {p writer t ia bs} (hs : SameUse r s) : SameUse r (writeAt s p writer t ia bs) := by
  unfold writeAt
  extract_lets s1 s2
  have h1 : SameUse r s1 := hs
  have h2 : SameUse r s2 := bumpLine_sameUse h1
  refine sameUse_ite h1 ?_
  split
  · exact h2
  · extract_lets s3
    have h3 : SameUse r s3 := noteDirty_sameUse h2
    split
    · exact h3
    · exact setTail_sameUse h3

theorem storeAt_sameUse {p writer t ia bs} (hs : SameUse r s) : SameUse r (storeAt s p writer t ia bs) :=
  sameUse_ite (writeAt_sameUse hs) (postStore_sameUse hs)

theorem engineStore_sameUse {p seg core a ia bs} (hs : SameUse r s) :
    SameUse r (engineStore s p seg core a ia bs).1 := by
  unfold engineStore
  split
  · have h1 := fun {t : Tgt} => noteHot_sameUse (hseg := t.hseg) (seg := seg) (p := p) (ia := ia)
      (noteWalk_sameUse (p := p) (pasid := a.pasid) (ia := ia) hs)
    exact storeAt_sameUse (sameUse_ite (recallMask_sameUse h1) h1)
  · exact hs
  · exact hs
  · exact hs

theorem expire_sameUse {core unit p ia} (hs : SameUse r s) : SameUseOpt r (expire s core unit p ia) := by
  unfold expire
  split
  · exact hs
  · exact trivial

theorem vaWrite_sameUse {p seg core wins va bs} (hs : SameUse r s) :
    SameUse r (vaWrite s p seg core wins va bs).1 := by
  unfold vaWrite unlessLate
  split
  · exact hs
  · split
    · exact sameUse_some ‹_› (expire_sameUse hs)
    · exact engineStore_sameUse hs

theorem mqTry_sameUse {fn e} (hs : SameUse r s) : SameUseOpt r (mqTry s fn e) := by
  unfold mqTry
  split
  · exact setFn_sameUse hs
  · dsimp only
    split
    · exact setFn_sameUse (sameUse_fst ‹_› (vaWrite_sameUse hs))
    · exact trivial
    · exact setFn_sameUse hs

theorem mqWrite_sameUse {fn e} (hs : SameUse r s) : SameUse r (mqWrite s fn e) :=
  sameUse_getD (mqTry_sameUse hs) (setFn_sameUse hs)

theorem flushHeld_sameUse {n fn} (hs : SameUse r s) : SameUse r (flushHeld n s fn) := by
  induction n generalizing s with
  | zero => exact hs
  | succ n ih =>
    unfold flushHeld
    dsimp only
    split
    · exact hs
    · split
      · exact hs
      · split
        · exact ih (sameUse_some ‹_› (mqTry_sameUse (setFn_sameUse hs)))
        · exact hs

theorem post_sameUse {fn kind code seq detail lid} (hs : SameUse r s) :
    SameUse r (post s fn kind code seq detail lid) :=
  sameUse_ite (setFn_sameUse hs)
    (sameUse_ite (mqWrite_sameUse hs) (sameUse_ite (flushHeld_sameUse (setFn_sameUse hs)) (setFn_sameUse hs)))

/-! ## Core groups that end -/

theorem performPosted_sameUse {x} (hs : SameUse r s) : SameUse r (performPosted s x) := by
  unfold performPosted
  extract_lets s1 s2
  have h1 : SameUse r s1 := hs
  have h2 : SameUse r s2 := sameUse_ite (bumpLine_sameUse h1) h1
  exact sameUse_ite (modGrp_sameUse h2) h2

theorem flushPosted_sameUse {f} (hs : SameUse r s) : SameUse r (flushPosted s f) :=
  sameUse_foldl (fun _ _ hs => performPosted_sameUse hs) hs

theorem endRun_sameUse {core pipe fall} (hs : SameUse r s) : SameUse r (endRun s core pipe fall) := by
  unfold endRun
  split
  · exact setRun_sameUse (setGrp_sameUse hs)
  · exact setRun_sameUse hs

theorem endRuns_sameUse {core} (hs : SameUse r s) : SameUse r (endRuns s core) :=
  endRun_sameUse (endRun_sameUse hs)

theorem withdraw_sameUse {core g e} (hs : SameUse r s) : SameUse r (withdraw s core g e) := by
  unfold withdraw
  split
  · split
    · split
      · exact setTail_sameUse hs
      · exact hs
    · exact hs
  · exact hs

theorem discardEntry_sameUse {core g e} (hs : SameUse r s) : SameUse r (discardEntry s core g e) := by
  unfold discardEntry
  split
  · exact hs
  · exact hs
  · exact withdraw_sameUse hs
  · exact withdraw_sameUse hs

theorem discardStores_sameUse {core g} (hs : SameUse r s) : SameUse r (discardStores s core g) :=
  modGrp_sameUse (sameUse_foldl (fun _ _ hs => discardEntry_sameUse hs) hs)

theorem fixBusy_sameUse (hs : SameUse r s) : SameUse r (fixBusy s) :=
  mapCores_sameUse (fun _ => rfl) (fun _ => rfl) hs

theorem modRank_sameUse {p f} (hs : SameUse r s) : SameUse r (State.modRank s p f) :=
  hs

theorem abortRanks_sameUse {g} (hs : SameUse r s) : SameUse r (abortRanks s g) :=
  modRank_sameUse (fixBusy_sameUse hs)

/-- A core group ends with a kill: what its core owned is discarded (R415). -/
theorem endGroupAt_discard_sameUse {core} (hs : SameUse r s) : SameUse r (endGroupAt s false core) := by
  unfold endGroupAt
  split
  · exact hs
  · have h1 := fun g => discardStores_sameUse (core := core) (g := g) (endRuns_sameUse (core := core) hs)
    exact modCore_sameUse (fun _ => rfl) (abortRanks_sameUse (h1 _))

theorem cancelNext_outOfUse (c : Core) (p : Nat) (lid : Nat → Bool) : (c.cancelNext p lid).outOfUse = c.outOfUse := by
  unfold Core.cancelNext
  split <;> rfl

theorem release_outOfUse (c : Core) (p : Nat) (lid : Nat → Bool) : (c.release p lid).outOfUse = c.outOfUse := by
  unfold Core.release
  split <;> rfl

theorem endGroups_discard_sameUse {p lid} (hs : SameUse r s) : SameUse r (endGroups s p lid false) := by
  unfold endGroups
  extract_lets mine on saved s1 s2 s3
  have h1 : SameUse r s1 := sameUse_foldl (fun _ _ hs => endGroupAt_discard_sameUse hs) hs
  have h2 : SameUse r s2 := sameUse_foldl (fun _ _ hs => abortRanks_sameUse hs) h1
  have h3 : SameUse r s3 := mapCores_sameUse (fun _ => rfl)
    (fun x => (release_outOfUse _ p lid).trans (cancelNext_outOfUse _ p lid)) h2
  exact h3

/-! ## The kill of a partition -/

theorem dropLaunch_sameUse {p lid} (hs : SameUse r s) : SameUse r (dropLaunch s p lid) :=
  hs

theorem clearHomes_sameUse {p} (hs : SameUse r s) : SameUse r (clearHomes s p) :=
  hs

theorem raiseGens_sameUse {p} (hs : SameUse r s) : SameUse r (raiseGens s p) :=
  sameUse_foldl (fun _ _ hs => sameUse_ite hs hs) hs

theorem freePages_sameUse {p} (hs : SameUse r s) : SameUse r (freePages s p) := by
  unfold freePages
  extract_lets reps s1
  have h1 : SameUse r s1 := sameUse_foldl (fun _ _ hs => hs) hs
  clear_value s1
  exact h1

theorem killPart_sameUse {p} (hs : SameUse r s) : SameUse r (killPart s p) := by
  unfold killPart
  extract_lets s1 s2 s3 s4 s5 s6 s7
  have h2 : SameUse r s2 := dropLaunch_sameUse (endGroups_discard_sameUse (flushPosted_sameUse hs))
  have h3 : SameUse r s3 := clearHomes_sameUse (freePages_sameUse (raiseGens_sameUse h2))
  clear_value s3
  have h4 : SameUse r s4 := mapCores_sameUse (fun _ => rfl) (fun _ => rfl) h3
  have h6 : SameUse r s6 := fixBusy_sameUse h4
  exact sameUse_foldl (fun _ _ hs => post_sameUse hs) h6

end

end Sys2Proof.Machine
end

section
/-! SUPPORT. Readiness, folds, resets and boot (R11 to R24): what a change of the package's state leaves, the bits of the
map that a settled package holds, and the collectives that a fold stops. -/

namespace Sys2Proof.Machine
open Claims

/-! ## The map of readiness (R19, R20) -/

/-- A change of the package is what the change says, but for the count of the map's updates, and of that alone. -/
theorem modPkg_cases (s : State) (f : Pkg → Pkg) :
    ∃ pk, modPkg s f = { s with pkg := pk } ∧ mapOf pk = mapOf (f s.pkg) := by
  unfold modPkg
  extract_lets pk changed
  split
  · exact ⟨_, rfl, rfl⟩
  · exact ⟨_, rfl, rfl⟩

/-- What such a change brings where an event does nothing else. -/
theorem exec_modPkg_cases {i : Instr} {s : State} {f : Pkg → Pkg} (h : exec i s = .next (modPkg s f)) :
    ∃ pk, exec i s = .next { s with pkg := pk } ∧ mapOf pk = mapOf (f s.pkg) := by
  obtain ⟨pk, hm, hpk⟩ := modPkg_cases s f
  exact ⟨pk, h.trans (congrArg _ hm), hpk⟩

/-- The map's first update in a cycle is counted (R20). -/
theorem modPkg_rdyseq (s : State) {f : Pkg → Pkg} (hat : s.pkg.rdyAt ≠ s.now + 1) (hf : ∀ p, (f p).rdyseq = p.rdyseq)
    (h : (f s.pkg).word0 ≠ s.pkg.word0 ∨ (f s.pkg).word1 ≠ s.pkg.word1) :
    (modPkg s f).pkg.rdyseq = s.pkg.rdyseq + 1 := by
  have hc : (((f s.pkg).word0 != s.pkg.word0 || (f s.pkg).word1 != s.pkg.word1) && s.pkg.rdyAt != s.now + 1) = true := by
    simpa [hat] using h
  simp [modPkg, hc, hf]

theorem mem_allFuncs {f : Func} (h : funcThere f = true) : f ∈ allFuncs := by
  cases f <;> simpa [allFuncs, funcThere] using h

theorem bit_putBit_false {w : Nat} (x : BitVec w) (n : Nat) : bit (putBit x n false) n = false := by
  simp only [bit, putBit, Bool.false_eq_true, if_false, BitVec.getLsbD_and, BitVec.getLsbD_not]
  by_cases h : n < w <;> simp [h]

/-- A bit that is clear stays clear where another is cleared. -/
theorem bit_putBit_false_of {w : Nat} {x : BitVec w} {m : Nat} (n : Nat) (h : bit x m = false) :
    bit (putBit x n false) m = false := by
  have hx : x.getLsbD m = false := h
  simp [bit, putBit, hx]

theorem isReady_setReady_false (pk : Pkg) (f : Func) : (pk.setReady f false).isReady f = false := by
  cases f <;> exact bit_putBit_false _ _

theorem isReady_setReady_false_of {pk : Pkg} {g : Func} (f : Func) (h : pk.isReady g = false) :
    (pk.setReady f false).isReady g = false := by
  cases g with
  | segment n => cases f with | segment m => exact bit_putBit_false_of m h | _ => exact h
  | stack n => cases f with | stack m => exact bit_putBit_false_of m h | _ => exact h
  | bridge n => cases f with | bridge m => exact bit_putBit_false_of m h | _ => exact h
  | host n => cases f with | host m => exact bit_putBit_false_of m h | _ => exact h
  | cxl n => cases f with | cxl m => exact bit_putBit_false_of m h | _ => exact h
  | fabric n => cases f with | fabric m => exact bit_putBit_false_of m h | _ => exact h

/-- Functions whose bits are cleared one after another are not ready in the end. -/
theorem isReady_clearAll {l : List Func} {g : Func} (pk : Pkg) (h : g ∈ l ∨ pk.isReady g = false) :
    (l.foldl (fun q f => q.setReady f false) pk).isReady g = false := by
  induction l generalizing pk with
  | nil => exact h.resolve_left (by simp)
  | cons f r ih =>
    refine ih _ ?_
    rcases h with hm | h
    · rcases List.mem_cons.1 hm with rfl | hm
      · exact .inr (isReady_setReady_false pk _)
      · exact .inl hm
    · exact .inr (isReady_setReady_false_of f h)

/-- A package has the dead bridges and segments of another, its fold and its boot state. -/
structure SameFold (p q : Pkg) : Prop where
  deadBr : q.deadBr = p.deadBr
  deadSeg : q.deadSeg = p.deadSeg
  folding : q.folding = p.folding
  bootState : q.bootState = p.bootState
  bootReason : q.bootReason = p.bootReason

theorem setReady_sameFold (pk : Pkg) (f : Func) (v : Bool) : SameFold pk (pk.setReady f v) := by
  cases f <;> exact ⟨rfl, rfl, rfl, rfl, rfl⟩

theorem clearAll_sameFold {p : Pkg} (l : List Func) {q : Pkg} (h : SameFold p q) :
    SameFold p (l.foldl (fun q f => q.setReady f false) q) := by
  induction l generalizing q with
  | nil => exact h
  | cons f r ih =>
    obtain ⟨hb, hs, hf, ht, hr⟩ := setReady_sameFold q f false
    obtain ⟨gb, gs, gf, gt, gr⟩ := h
    exact ih ⟨hb.trans gb, hs.trans gs, hf.trans gf, ht.trans gt, hr.trans gr⟩

theorem settle_sameFold (pk : Pkg) : SameFold pk pk.settle :=
  clearAll_sameFold _ ⟨rfl, rfl, rfl, rfl, rfl⟩

theorem isReady_settle {pk : Pkg} {f : Func} (hf : funcThere f = true) (hd : pk.down f = true) :
    pk.settle.isReady f = false := by
  refine isReady_clearAll _ (.inl (List.mem_filter.2 ⟨mem_allFuncs hf, ?_⟩))
  exact Bool.or_eq_true_iff.2 (.inl hd)

theorem isReady_mapOf (pk : Pkg) (f : Func) : (mapOf pk).isReady f = pk.isReady f := by
  cases f <;> rfl

/-- A package that has settled: no function that is down is ready (R11, R24). -/
theorem settled_of_mapOf {p q : Pkg} (h : mapOf q = mapOf p.settle) :
    SameFold p q ∧ ∀ f, funcThere f = true → p.down f = true → q.isReady f = false := by
  obtain ⟨hb, hs, hf, ht, hr⟩ := settle_sameFold p
  refine ⟨⟨(congrArg Pkg.deadBr h).trans hb, (congrArg Pkg.deadSeg h).trans hs, (congrArg Pkg.folding h).trans hf,
    (congrArg Pkg.bootState h).trans ht, (congrArg Pkg.bootReason h).trans hr⟩, fun f hthere hd => ?_⟩
  rw [← isReady_mapOf, h, isReady_mapOf, isReady_settle hthere hd]

/-! ## Functions that become ready or fail (R14, R18, R19) -/

/-- Where no entry is held, none is tried again. -/
theorem retryHeld_of_none {s : State} (h : ∀ n, (s.fn n).held = []) : retryHeld s = s := by
  have hf : ∀ n, flushHeld 17 s n = s := fun n => by rw [flushHeld]; simp only [h n]
  unfold retryHeld
  induction s.fns.map (·.1) with
  | nil => rfl
  | cons n r ih => rw [List.foldl_cons, hf, ih]

theorem down_of_outOfReach {pk : Pkg} {f : Func} (h : pk.outOfReach f = false) : pk.down f = false :=
  (Bool.or_eq_false_iff.1 h).1

theorem exec_functionReady {f : Func} {s : State} (hf : funcThere f = true) (hr : s.pkg.outOfReach f = false) :
    exec (.functionReady f) s = .next (retryHeld (modPkg s fun pk => pk.setReady f true)) := by
  show Host.Outcome.next _ = _
  rw [if_neg (by simp [hf, down_of_outOfReach hr]), if_neg (by simp [hr])]

/-- One that the package controller does not reach is noted, and its bit stays clear (R14). -/
theorem exec_functionReady_cut {f : Func} {s : State} (hf : funcThere f = true) (hd : s.pkg.down f = false)
    (hr : s.pkg.outOfReach f = true) (hc : f ∉ s.pkg.cut) :
    exec (.functionReady f) s = .next (retryHeld { s with pkg := { s.pkg with cut := s.pkg.cut ++ [f] } }) := by
  show Host.Outcome.next _ = _
  rw [if_neg (by simp [hf, hd]), if_pos hr, if_neg (by simpa using hc)]

/-- A stack without replicas or a port fails: the package says so, and collectives may end (R18, R382). -/
theorem exec_functionFailure {f : Func} {s : State} (hf : funcThere f = true) (hn : f ∉ s.pkg.failed)
    (hseg : ∀ n, f ≠ .segment n) (hbr : ∀ n, f ≠ .bridge n) (hr : s.replicas = []) :
    ∃ ranks, exec (.functionFailure f) s = .next { modPkg s fun pk => pk.fails f with ranks := ranks } := by
  have hgo : ¬ (!funcThere f || s.pkg.failed.contains f) = true := by simpa [hf] using hn
  obtain ⟨pk, hm, -⟩ := modPkg_cases s fun pk => pk.fails f
  cases f with
  | segment n => exact absurd rfl (hseg n)
  | bridge n => exact absurd rfl (hbr n)
  | stack n =>
    refine ⟨s.ranks, (congrArg Host.Outcome.next (if_neg hgo)).trans ?_⟩
    dsimp only
    rw [hm]
    simp [hr]
  | host n => exact ⟨_, congrArg Host.Outcome.next (if_neg hgo)⟩
  | cxl n => exact ⟨_, congrArg Host.Outcome.next (if_neg hgo)⟩
  | fabric n => exact ⟨_, congrArg Host.Outcome.next (if_neg hgo)⟩

/-! ## Folds (R11 to R14, R384) -/

/-- A rank that has matched and is not closed stops until the members agree. -/
def CollRank.stops (x : CollRank) : Prop := x.matched = true → x.closed = false → x.agreeing = true

/-- A rank that has matched takes part, and so is told to stop. -/
theorem CollRank.stops_agreeing (x : CollRank) :
    CollRank.stops (if x.takesPart && !x.closed then { x with agreeing := true } else x) := by
  split
  · exact fun _ _ => rfl
  · next h => exact fun hm hc => absurd (by simp [CollRank.takesPart, hm, hc]) h

theorem CollRank.stops_failed {x : CollRank} (h : x.stops) (b : Bool) (code : Nat) :
    CollRank.stops (if b then { x with failed := some code } else x) := by
  split
  · exact h
  · exact h

/-- A fold begins: the package is settled with the failure in it, and kills change nothing of that. -/
theorem failAndFold_pkg (s : State) (f : Pkg → Pkg) :
    mapOf (failAndFold s f).pkg = mapOf (f { s.pkg with folding := true }).settle := by
  obtain ⟨pk, hm, hpk⟩ := modPkg_cases s fun pk => (f { pk with folding := true }).settle
  obtain ⟨hkill, -⟩ := sameUse_foldl (l := (List.range 64).filter (partLost { s with pkg := pk }))
    (fun _ _ hs => killPart_sameUse hs) (sameUse_refl { s with pkg := pk })
  unfold failAndFold
  rw [hm]
  exact (congrArg mapOf hkill).trans hpk

theorem failAndFold_stops (s : State) (f : Pkg → Pkg) : ∀ x ∈ (failAndFold s f).ranks, x.stops := by
  intro x hx
  unfold failAndFold failRoutes at hx
  obtain ⟨y, hy, rfl⟩ := List.mem_map.1 hx
  obtain ⟨z, -, rfl⟩ := List.mem_map.1 hy
  exact CollRank.stops_failed (CollRank.stops_agreeing z) _ _

theorem exec_bridgeFailure {b : Nat} {s : State} (hb : b < 8) (h : bridgeUp s.pkg b = true) :
    exec (.bridgeFailure b) s = .next (failAndFold s fun pk => { pk with deadBr := putBit pk.deadBr b true }) := by
  have hd : bit s.pkg.deadBr b = false := by
    simp only [bridgeUp, Bool.and_eq_true, Bool.not_eq_true'] at h
    obtain ⟨⟨hd, -⟩, -⟩ := h
    exact hd
  show Host.Outcome.next _ = _
  rw [if_neg (by simp [hb, hd]), if_neg (by simp [h])]

theorem exec_segmentFailure {y : Nat} {s : State} (hy : y < 8) (h : bit s.pkg.deadSeg y = false) :
    exec (.segmentFailure y) s = .next (failAndFold s fun pk => { pk with deadSeg := putBit pk.deadSeg y true }) :=
  congrArg Host.Outcome.next (if_neg (by simp [hy, h]))

theorem down_bridge {pk : Pkg} {b : Nat} (h : bit pk.deadBr b = true) : pk.down (.bridge b) = true := by
  simp [Pkg.down, bridgeUp, h]

theorem down_segment {pk : Pkg} {y : Nat} (h : bit pk.deadSeg y = true) : pk.down (.segment y) = true := by
  simp [Pkg.down, funcSeg, h]

theorem exec_foldComplete {s : State} (hf : s.pkg.folding = true) (hw : s.pkg.warmWaits = false) :
    exec .foldComplete s = .next (modPkg s fun pk => { pk with folding := false, folded := true }) := by
  obtain ⟨pk, hm, hpk⟩ := modPkg_cases s fun pk => { pk with folding := false, folded := true }
  have hw' : pk.warmWaits = false := (congrArg Pkg.warmWaits hpk).trans hw
  show Host.Outcome.next _ = _
  rw [if_neg (by simp [hf])]
  dsimp only
  rw [hm]
  exact congrArg Host.Outcome.next (if_neg (by simp [hw']))

/-! ## Resets and boot (R22 to R24) -/

theorem killAll_sameUse (s : State) : SameUse s (killAll s) :=
  sameUse_foldl (fun _ _ hs => killPart_sameUse hs) (sameUse_refl s)

/-- With no partition enabled, none is killed. -/
theorem killAll_of_none {s : State} (h : ∀ p, p < 64 → s.enabled p = false) : killAll s = s := by
  unfold killAll
  rw [List.filter_eq_nil_iff.2 fun p hp => by simp [h p (List.mem_range.1 hp)]]
  rfl

/-- A listed core as a warm reset leaves it, with what the L1s keep. -/
def warmCore (l1 : Nat → List L1Line) (x : Nat × Core) : Nat × Core :=
  (x.1, { Core.reset with outOfUse := x.2.outOfUse, l1 := l1 x.1 })

theorem warmReset_cores (s : State) :
    (warmReset s).cores = (killAll s).cores.map (warmCore fun n => (s.core n).l1.map L1Line.kept) := rfl

theorem warmCore_key (l1 : Nat → List L1Line) (x : Nat × Core) : (warmCore l1 x).1 = x.1 := rfl

/-- A core after a warm reset: empty, out of use where it was, with what its L1 held and did not own (R23). -/
theorem core_warmReset (s : State) (c : Nat) : (warmReset s).core c =
    { Core.reset with outOfUse := (s.core c).outOfUse, l1 := (s.core c).l1.map L1Line.kept } := by
  obtain ⟨-, huse, hlisted⟩ := killAll_sameUse s
  rw [State.core, warmReset_cores]
  by_cases h : c ∈ (killAll s).cores.map (·.1)
  · rw [alGet_map_of_mem (d := Core.reset) (warmCore_key _) h, warmCore, huse c]
    rfl
  · have hs : s.core c = Core.reset := alGet_of_not_mem fun hc => h (hlisted c hc)
    rw [hs, alGet_of_not_mem (by rwa [keys_map (warmCore_key _)])]
    rfl

theorem exec_warm {s : State} (h : s.pkg.folding = false) : exec .warm s = .next (warmReset s) :=
  congrArg Host.Outcome.next (if_neg (by simp [h]))

/-- During a fold it waits (R23). -/
theorem exec_warm_folding {s : State} (h : s.pkg.folding = true) :
    exec .warm s = .next { s with pkg := { s.pkg with warmWaits := true } } :=
  congrArg Host.Outcome.next (if_pos h)

theorem exec_cold {s : State} (h : ∀ p, p < 64 → s.enabled p = false) :
    exec .cold s = .next { State.reset with
      agenda := s.agenda, fresh := s.fresh, mem := s.mem, tags := s.tags, poison := s.poison } := by
  show Host.Outcome.next _ = _
  rw [killAll_of_none h]

theorem exec_firmwareVerify_good {s : State} (h : s.pkg.bootState.toNat < 2) :
    exec (.firmwareVerify true true true) s = .next { s with pkg := { s.pkg with bootState := 2, bootReason := 0 } } :=
  congrArg Host.Outcome.next (if_neg (by omega))

theorem exec_firmwareVerify_bad {s : State} {ed ml v : Bool} (h : s.pkg.bootState.toNat < 2)
    (hv : (ed && ml && v) = false) :
    exec (.firmwareVerify ed ml v) s = .next (modPkg s fun pk => ({ pk with
      bootState := 3,
      bootReason := if !ed && !ml then 3 else if !ed then 1 else if !ml then 2 else 4 } : Pkg).settle) := by
  show Host.Outcome.next _ = _
  rw [if_neg (by omega), if_neg (by simp [hv])]

/-! ## O51 -/

/-- Settles O51, by what each event leaves of the package; a kill leaves its state, and the cores that are out of use. -/
theorem packageEvents : Obligations.PackageEvents := by
  unfold Obligations.PackageEvents
  refine ⟨fun f s hf hr => exec_functionReady hf hr, fun f s hf hr hh => ?_, fun f s hf hd hr hc hh => ?_,
    fun s f hat hf h => modPkg_rdyseq s hat hf h, fun f s hf hn hseg hbr hr => ?_, fun b s hb h => ?_, fun y s hy h => ?_,
    fun s hf hw => ?_, fun s hf => ?_, fun s hf => exec_warm_folding hf, fun s h => exec_cold h,
    fun s h => exec_firmwareVerify_good h, fun s ed ml v h hv => ?_⟩
  · obtain ⟨pk, hm, hpk⟩ := modPkg_cases s fun pk => pk.setReady f true
    have hexec := exec_functionReady hf hr
    rw [hm] at hexec
    exact ⟨_, hexec.trans (congrArg _ (retryHeld_of_none (by exact hh))), hpk, rfl, rfl⟩
  · exact ⟨_, (exec_functionReady_cut hf hd hr hc).trans (congrArg _ (retryHeld_of_none (by exact hh))), rfl, rfl, rfl⟩
  · obtain ⟨ranks, hexec⟩ := exec_functionFailure hf hn hseg hbr hr
    obtain ⟨pk, hm, hpk⟩ := modPkg_cases s fun pk => pk.fails f
    rw [hm] at hexec
    exact ⟨_, hexec, hpk, rfl, rfl⟩
  · obtain ⟨hfold, hready⟩ := settled_of_mapOf (failAndFold_pkg s fun pk => { pk with deadBr := putBit pk.deadBr b true })
    have hdead := bit_putBit_true s.pkg.deadBr hb
    exact ⟨_, exec_bridgeFailure hb h, hfold.folding, (congrArg (bit · b) hfold.deadBr).trans hdead,
      hready (.bridge b) (decide_eq_true hb) (down_bridge hdead), failAndFold_stops s _⟩
  · obtain ⟨hfold, hready⟩ := settled_of_mapOf (failAndFold_pkg s fun pk => { pk with deadSeg := putBit pk.deadSeg y true })
    have hdead := bit_putBit_true s.pkg.deadSeg hy
    exact ⟨_, exec_segmentFailure hy h, hfold.folding, (congrArg (bit · y) hfold.deadSeg).trans hdead,
      hready (.segment y) (decide_eq_true hy) (down_segment hdead), failAndFold_stops s _⟩
  · obtain ⟨pk, hexec, hpk⟩ := exec_modPkg_cases (exec_foldComplete hf hw)
    exact ⟨_, hexec, congrArg Pkg.folding hpk, congrArg Pkg.folded hpk, rfl, rfl⟩
  · obtain ⟨hpkg, -⟩ := killAll_sameUse s
    refine ⟨_, exec_warm hf, ?_, rfl, rfl, rfl, rfl, core_warmReset s⟩
    exact congrArg (fun pk : Pkg => { pk with warmWaits := false }) hpkg
  · obtain ⟨pk, hexec, hpk⟩ := exec_modPkg_cases (exec_firmwareVerify_bad h hv)
    obtain ⟨hfold, -⟩ := settled_of_mapOf hpk
    exact ⟨_, hexec, hfold.bootState, hfold.bootReason, rfl⟩

/-! ## The machine after a cold reset (R21, R66, R130, R292, R413) -/

theorem reg_reset (off : Nat) : State.reset.reg off = pmbReset off := rfl

theorem pmbReset_partRec {p o : Nat} (hp : p < 64) (ho : o < 64) :
    pmbReset (0x1000 + 64 * p + o) = if o = 0x18 then 0x30000 else 0 := by
  have h : (0x1000 + 64 * p + o) % 64 = o := by omega
  rw [pmbReset, h, if_neg (show ¬ (0xD000 ≤ 0x1000 + 64 * p + o ∧ _) by omega),
    if_neg (show ¬ (0xE400 ≤ 0x1000 + 64 * p + o ∧ _) by omega),
    if_neg (show ¬ (0xE800 ≤ 0x1000 + 64 * p + o ∧ _) by omega)]
  simp only [show 0x1000 ≤ 0x1000 + 64 * p + o by omega, show 0x1000 + 64 * p + o < 0x2000 by omega, true_and]

theorem pmbReset_tvec {p : Nat} (hp : p < 64) : pmbReset (0xE000 + 16 * p) = 0 := by
  rw [pmbReset, if_neg (by omega), if_neg (by omega), if_neg (by omega), if_neg (by omega)]

theorem pmbReset_agethr {p : Nat} (hp : p < 64) : pmbReset (0xE400 + 16 * p) = 0x1000 := by
  rw [pmbReset, if_neg (by omega), if_neg (by omega), if_pos (by omega)]

theorem pmbReset_mbudget {p : Nat} (hp : p < 64) : pmbReset (0xE800 + 16 * p) = 0x8000000 := by
  rw [pmbReset, if_neg (by omega), if_neg (by omega), if_neg (by omega), if_pos (by omega)]

/-- The error registers of a stack: the threshold of corrected errors alone is not zero. -/
theorem pmbReset_errReg {k o : Nat} (hk : k < 16) (ho : o < 64) :
    pmbReset (errReg k o) = if o = 0 then 0x100 else 0 := by
  have h : (0xD000 + 64 * k + o) % 64 = o := by omega
  rw [errReg, pmbReset, h, if_neg (by omega), if_neg (show ¬ (0xE400 ≤ 0xD000 + 64 * k + o ∧ _) by omega),
    if_neg (show ¬ (0xE800 ≤ 0xD000 + 64 * k + o ∧ _) by omega)]
  simp only [show 0xD000 ≤ 0xD000 + 64 * k + o by omega, show 0xD000 + 64 * k + o < 0xD400 by omega, true_and]

/-- Settles O59, by the reset value of each register. -/
theorem resetState : Obligations.ResetState := by
  unfold Obligations.ResetState
  refine ⟨rfl, rfl, fun c => ⟨rfl, rfl, rfl, rfl, rfl, show BindRec.empty.valid = false by decide⟩,
    fun f => rfl, fun p hp => ?_, fun p hp => ⟨?_, ?_, ?_, ?_, rfl⟩, fun k hk => ⟨?_, ?_, ?_⟩, by decide, by decide, rfl⟩
  · rw [State.enabled, State.partRec, reg_reset, pmbReset_partRec hp (by decide)]
    decide
  · rw [State.agethr, reg_reset, pmbReset_agethr hp]
    decide
  · rw [State.mbudget, reg_reset, pmbReset_mbudget hp]
    decide
  · rw [State.tvec, reg_reset, pmbReset_tvec hp]
  · rw [State.partRec, reg_reset, pmbReset_partRec hp (by decide), if_pos rfl]
  · rw [reg_reset, pmbReset_errReg hk (by decide), if_pos rfl]
  · rw [reg_reset, pmbReset_errReg hk (by decide), if_neg (by decide)]
  · rw [reg_reset, pmbReset_errReg hk (by decide), if_neg (by decide)]

end Sys2Proof.Machine
end

section
/-! SUPPORT. Doorbells, heads and the copying of commands (R52 to R56): what accesses of memory leave of the functions, what a
report and a completion leave of a function's queue registers, and how far the firmware copies. -/

namespace Sys2Proof.Machine

/-! ## Accesses of memory leave the functions alone

A lemma `f_fns` says that `f` does, in the order of the model's files. -/

theorem foldl_fns {α : Type} {f : State → α → State} (hf : ∀ s a, (f s a).fns = s.fns) (l : List α) (s : State) :
    (l.foldl f s).fns = s.fns := by
  induction l generalizing s with
  | nil => rfl
  | cons a l ih => exact (ih _).trans (hf s a)

theorem ite_fns {c : Prop} [Decidable c] {a b s : State} (ha : a.fns = s.fns) (hb : b.fns = s.fns) :
    (if c then a else b).fns = s.fns := by
  split
  · exact ha
  · exact hb

section
variable (s : State) (p : Nat)

theorem modGrp_fns (c : Nat) (f : Group → Group) : (s.modGrp c f).fns = s.fns := by
  unfold State.modGrp
  split <;> rfl

/-! ### Walks and their caches -/

theorem cacheEntry_fns (e : Nat × W128) : (cacheEntry s e).fns = s.fns :=
  ite_fns rfl (ite_fns rfl rfl)

theorem cacheWalk_fns (h : Hme) (ia : Nat) : (cacheWalk s p h ia).fns = s.fns :=
  foldl_fns cacheEntry_fns _ s

theorem noteAts_fns (pasid page : Nat) : (noteAts s p pasid page).fns = s.fns := by
  unfold noteAts
  split
  · exact ite_fns rfl rfl
  · rfl

theorem keepHme_fns (ia : Nat) : (keepHme s p ia).fns = s.fns := by
  unfold keepHme
  split
  · exact ite_fns rfl (ite_fns rfl rfl)
  · rfl

theorem noteWalk_fns (pasid ia : Nat) : (noteWalk s p pasid ia).fns = s.fns := by
  unfold noteWalk
  extract_lets s1
  have h1 : s1.fns = s.fns := keepHme_fns s p ia
  split
  · next h _ =>
    refine ite_fns ((noteAts_fns s1 p pasid _).trans h1) (ite_fns h1 ?_)
    split
    · have h2 := (cacheWalk_fns s1 p h ia).trans h1
      exact ite_fns h2 h2
    · exact h1
  · exact h1

theorem noteDirty_fns (l : Leaf) : (noteDirty s l).fns = s.fns :=
  ite_fns rfl rfl

/-! ### Counts of accesses -/

theorem halveDue_fns : (halveDue s).fns = s.fns :=
  ite_fns rfl rfl

theorem putHot_fns (h : Hot) : (putHot s h).fns = s.fns :=
  ite_fns rfl rfl

theorem bumpHot_fns (ia src port : Nat) (fb : Bool) (thr : Nat) : (bumpHot s p ia src port fb thr).fns = s.fns :=
  ite_fns rfl (putHot_fns _ _)

theorem noteHot_fns (seg hseg ia : Nat) : (noteHot s p seg hseg ia).fns = s.fns :=
  ite_fns rfl ((bumpHot_fns _ ..).trans ((foldl_fns (fun _ _ => bumpHot_fns _ ..) _ _).trans (halveDue_fns s)))

/-! ### Writes, recalls, stores on their way -/

theorem bumpLine_fns (ia writer : Nat) : (bumpLine s p ia writer).fns = s.fns :=
  ite_fns rfl rfl

theorem joinSharers_fns (ia core : Nat) : (joinSharers s p ia core).fns = s.fns :=
  ite_fns rfl (ite_fns rfl rfl)

theorem takeOwned_fns (core line addr : Nat) (m : BitVec 32) : (takeOwned s p core line addr m).fns = s.fns := by
  unfold takeOwned
  split
  · rfl
  · exact ite_fns rfl (joinSharers_fns ..)

theorem writeBackWords_fns (core line addr : Nat) (m : BitVec 32) : (writeBackWords s p core line addr m).fns = s.fns :=
  ite_fns (takeOwned_fns ..) ((bumpLine_fns ..).trans (takeOwned_fns ..))

theorem recallMask_fns (ia : Nat) (m : BitVec 32) : (recallMask s p ia m).fns = s.fns := by
  unfold recallMask
  split
  · rfl
  · exact foldl_fns (fun _ _ => writeBackWords_fns ..) _ s

theorem performPosted_fns (x : Posted) : (performPosted s x).fns = s.fns := by
  unfold performPosted
  extract_lets s1 s2
  have h2 : s2.fns = s.fns := ite_fns (bumpLine_fns ..) rfl
  exact ite_fns ((modGrp_fns ..).trans h2) h2

theorem flushPosted_fns (f : Posted → Bool) : (flushPosted s f).fns = s.fns :=
  foldl_fns performPosted_fns _ s

theorem flushBefore_fns (t : Tgt) (ia : Nat) : (flushBefore s p t ia).fns = s.fns :=
  ite_fns (flushPosted_fns ..) (ite_fns (flushPosted_fns ..) rfl)

theorem writeAt_fns (writer : Nat) (t : Tgt) (ia : Nat) (bs : List Byte) : (writeAt s p writer t ia bs).fns = s.fns := by
  unfold writeAt
  extract_lets s1 s2
  have h2 : s2.fns = s.fns := bumpLine_fns ..
  refine ite_fns rfl ?_
  split
  · exact h2
  · extract_lets s3
    have h3 : s3.fns = s.fns := (noteDirty_fns ..).trans h2
    split <;> exact h3

theorem storeAt_fns (writer : Nat) (t : Tgt) (ia : Nat) (bs : List Byte) : (storeAt s p writer t ia bs).fns = s.fns :=
  ite_fns (writeAt_fns ..) (ite_fns rfl rfl)

/-! ### Requests of engines and of the firmware -/

theorem engineStore_fns (seg core : Nat) (a : Acc) (ia : Nat) (bs : List Byte) :
    (engineStore s p seg core a ia bs).1.fns = s.fns := by
  unfold engineStore
  split
  · have h1 := fun hseg => (noteHot_fns (noteWalk s p a.pasid ia) p seg hseg ia).trans (noteWalk_fns s p a.pasid ia)
    exact (storeAt_fns ..).trans (ite_fns ((recallMask_fns ..).trans (h1 _)) (h1 _))
  · rfl
  · rfl
  · rfl

theorem atomAt_fns (writer : Nat) (t : Tgt) (ia n : Nat) (op : AtomOp) (b d : Nat) (returns : Bool) :
    (atomAt s p writer t ia n op b d returns).1.fns = s.fns := by
  unfold atomAt
  extract_lets s1 bad s2
  have h1 : s1.fns = s.fns := ite_fns (recallMask_fns ..) (flushBefore_fns ..)
  have h2 : s2.fns = s.fns := ite_fns h1 h1
  clear_value bad
  split
  · exact h1
  · cases bad with
    | some c => exact h2
    | none => exact (writeAt_fns ..).trans h2

theorem engineAtom_fns (seg core : Nat) (a : Acc) (ia : Nat) (op : AtomOp) (b d : Nat) :
    (engineAtom s p seg core a ia op b d).1.fns = s.fns := by
  unfold engineAtom
  split
  · exact (atomAt_fns ..).trans ((noteHot_fns ..).trans (noteWalk_fns ..))
  · rfl
  · rfl
  · rfl

theorem unlessLate_fns {α : Type} (core ia : Nat) {f : Unit → State × HAns α} (hf : (f ()).1.fns = s.fns) :
    (unlessLate s core p ia f).1.fns = s.fns := by
  unfold unlessLate expire
  split
  · next h =>
    split at h
    · cases h; rfl
    · cases h
  · exact hf

theorem vaWrite_fns (seg core : Nat) (wins : List W64) (va : W64) (bs : List Byte) :
    (vaWrite s p seg core wins va bs).1.fns = s.fns := by
  unfold vaWrite
  split
  · rfl
  · exact unlessLate_fns s p core _ (engineStore_fns ..)

theorem vaAtom_fns (seg core : Nat) (wins : List W64) (va : W64) (op : AtomOp) (b d : Nat) :
    (vaAtom s p seg core wins va op b d).1.fns = s.fns := by
  unfold vaAtom
  split
  · rfl
  · exact unlessLate_fns s p core _ (engineAtom_fns ..)

theorem noteAsk_fns (page : Nat) (w : Asker) : (s.noteAsk p page w).fns = s.fns :=
  ite_fns rfl rfl

theorem sendWaiting_fns (n : Nat) : (sendWaiting n s).fns = s.fns := by
  induction n generalizing s with
  | zero => rfl
  | succ n ih =>
    unfold sendWaiting
    split
    · rfl
    · exact ih _

theorem askPri_fns (ctx page : Nat) : (askPri s p ctx page).fns = s.fns :=
  ite_fns rfl (sendWaiting_fns _ _)

theorem startService_fns (ctx page : Nat) : (startService s p ctx page).fns = s.fns := by
  unfold startService
  extract_lets s1
  have h1 : s1.fns = s.fns := ite_fns rfl rfl
  exact ite_fns ((askPri_fns ..).trans h1) h1

end

/-! ## What a report and a completion leave of a function (R55, R56, R58) -/

/-- A function without what reports change, its management queue, and without the commands copied. -/
def Fn.steady (f : Fn) : Fn := { f with mqtail := 0, mqlost := false, lostcnt := 0, held := [], cmds := [] }

/-- Every function is as in another state, but for what reports and the copying of commands change. -/
def Steady (r s : State) : Prop := ∀ k, (s.fn k).steady = (r.fn k).steady

/-- So is every state that a completion brings. -/
def Comp.Steady (r : State) : Comp → Prop
  | .done s | .wait s _ | .iso s _ => Machine.Steady r s
  | .held => True

/-- So is every state that an operation of the firmware brings. -/
def FwRes.Steady (r : State) : FwRes → Prop
  | .done s | .partly s _ | .wait s => Machine.Steady r s
  | .fail _ => True

section
variable {r s t : State}

theorem steady_refl (s : State) : Steady s s := fun _ => rfl

theorem steady_of_fns (e : t.fns = s.fns) (h : Steady r s) : Steady r t := fun k => by
  rw [State.fn, e]; exact h k

theorem steady_ite {c : Prop} [Decidable c] {a b : State} (ha : Steady r a) (hb : Steady r b) :
    Steady r (if c then a else b) := by
  split
  · exact ha
  · exact hb

theorem setFn_steady {fn : Nat} {f : Fn} (hf : f.steady = (r.fn fn).steady) (hs : Steady r s) : Steady r (s.setFn fn f) :=
  fun k => by
    by_cases h : k = fn
    · subst h; rw [fn_setFn_self, hf]
    · rw [fn_setFn_ne s h]; exact hs k

/-- A field that no report changes is as it was. -/
theorem Steady.field {α : Type} (h : Steady r s) (fn : Nat) (get : Fn → α) (hget : ∀ f : Fn, get f.steady = get f) :
    get (s.fn fn) = get (r.fn fn) := by
  rw [← hget, h fn, hget]

/-! ### Reports -/

theorem mqTry_steady {fn : Nat} {e : List W64} (hs : Steady r s) (h : mqTry s fn e = some t) : Steady r t := by
  unfold mqTry at h
  dsimp only at h
  split at h
  · cases h
    exact setFn_steady (hs fn) hs
  · split at h
    · next hw =>
      cases h
      have hfns := (congrArg (·.1.fns) hw).symm.trans (vaWrite_fns ..)
      exact setFn_steady (hs fn) (steady_of_fns hfns hs)
    · cases h
    · cases h
      exact setFn_steady (hs fn) hs

theorem mqWrite_steady {fn : Nat} {e : List W64} (hs : Steady r s) : Steady r (mqWrite s fn e) := by
  unfold mqWrite
  cases h : mqTry s fn e with
  | none => exact setFn_steady (hs fn) hs
  | some t => exact mqTry_steady hs h

theorem flushHeld_steady {n fn : Nat} (hs : Steady r s) : Steady r (flushHeld n s fn) := by
  induction n generalizing s with
  | zero => exact hs
  | succ n ih =>
    unfold flushHeld
    dsimp only
    split
    · exact hs
    · refine steady_ite hs ?_
      split
      · next h =>
        refine ih (mqTry_steady ?_ h)
        exact setFn_steady (hs fn) hs
      · exact hs

theorem post_steady {fn kind code : Nat} {seq : W32} {detail : W64} {lid : Nat} (hs : Steady r s) :
    Steady r (post s fn kind code seq detail lid) :=
  steady_ite (setFn_steady (hs fn) hs) (steady_ite (mqWrite_steady hs)
    (steady_ite (flushHeld_steady (setFn_steady (hs fn) hs)) (setFn_steady (hs fn) hs)))

theorem reportFn_steady {fn : Nat} {addr : W64} (hs : Steady r s) : Steady r (reportFn s fn addr) :=
  steady_ite (post_steady hs) (post_steady (post_steady hs))

/-! ### Completions -/

theorem completeAt_steady {p seg core : Nat} {wins : List W64} {compva : W64} {weight : W32} {code engine : Nat} {cseq : W32}
    {mq : Nat} (hs : Steady r s) : (completeAt s p seg core wins compva weight code engine cseq mq).Steady r := by
  unfold completeAt
  extract_lets me bad miss r1
  have hsettle {t : State} (ht : Steady r t) : Steady r (t.settle p me) := ht
  have hbad {t : State} (ht : Steady r t) : (bad t).Steady r := post_steady (hsettle ht)
  have hmiss {t : State} (va : W64) (v : Bool) (ht : Steady r t) : (miss t va v).Steady r := by
    show Comp.Steady r (if _ then Comp.wait _ _ else bad t)
    split
    · exact steady_of_fns (noteAsk_fns ..) hs
    · exact hbad ht
  have h1 : Steady r r1.1 := by
    refine steady_of_fns ?_ hs
    show (if code = 0 then (s, HAns.ok 0) else vaAtom ..).1.fns = s.fns
    split
    · rfl
    · exact vaAtom_fns ..
  have h2 : Steady r (vaAtom r1.1 p seg core wins compva .add weight.toNat 0).1 := steady_of_fns (vaAtom_fns ..) h1
  clear_value r1 bad miss
  obtain ⟨s1, a⟩ := r1
  split
  · exact hbad hs
  · cases a with
    | held => trivial
    | fault c v b => exact hmiss _ v h1
    | iso => exact hsettle h1
    | ok x =>
      dsimp only at h2 ⊢
      generalize vaAtom s1 p seg core wins compva .add weight.toNat 0 = r2 at h2
      obtain ⟨s2, a2⟩ := r2
      cases a2 with
      | held => trivial
      | fault c v b => exact hmiss _ v h2
      | iso => exact hsettle h2
      | ok x => exact hsettle h2

theorem complete_steady {p seg core : Nat} {wins : List W64} {compva : W64} {weight : W32} {code engine : Nat} {cseq : W32}
    {mq : Nat} (hs : Steady r s) : (complete s p seg core wins compva weight code engine cseq mq).Steady r := by
  unfold complete
  split
  · exact hs
  · exact completeAt_steady hs

theorem cmdComplete_steady {s0 : State} {fn : Nat} {c : List W64} {code : Nat} (h0 : Steady r s0) (hs : Steady r s) :
    (cmdComplete s0 s fn c code).Steady r := by
  unfold cmdComplete
  split
  · exact hs
  · next p ctx _ =>
    split
    · exact hs
    · have hc := complete_steady (p := p) (seg := fwSeg s p) (core := byHost) (wins := ctxWins s p ctx) (compva := cmdComp c)
        (weight := cmdWeight c) (code := code) (engine := 0x00FE) (cseq := cmdSeq c) (mq := fn) hs
      generalize complete s p (fwSeg s p) byHost (ctxWins s p ctx) (cmdComp c) (cmdWeight c) code 0x00FE (cmdSeq c) fn = x at hc
      cases x with
      | done t => exact hc
      | wait t page => exact steady_of_fns (startService_fns ..) h0
      | held => exact h0
      | iso t va => exact reportFn_steady hc

theorem popCmd_steady {fn : Nat} (hs : Steady r s) : Steady r (popCmd s fn) :=
  setFn_steady (hs fn) hs

theorem cmdFail_steady {fn : Nat} {c : List W64} {code : Nat} (hs : Steady r s) : Steady r (cmdFail s s fn c code) := by
  unfold cmdFail
  have hc := cmdComplete_steady (fn := fn) (c := c) (code := code) hs hs
  generalize cmdComplete s s fn c code = x at hc
  cases x with
  | done t => exact popCmd_steady (post_steady hc)
  | wait t => exact hc
  | fail code => exact hs
  | partly t code => exact hs

theorem failUnknown_steady {n fn : Nat} (hs : Steady r s) : Steady r (failUnknown n s fn) := by
  induction n generalizing s with
  | zero => exact hs
  | succ n ih =>
    unfold failUnknown
    split
    · exact hs
    · exact steady_ite hs (steady_ite (cmdFail_steady hs) (ih (cmdFail_steady hs)))

end

/-! ## Doorbells and heads (R53, R55, R56) -/

theorem doorbellBad_eq_false_iff (log : BitVec 4) (head tail v : W32) : doorbellBad log head tail v = false ↔
    (v - head).toNat ≤ 2 ^ log.toNat ∧ (v = tail ∨ 2 ^ 31 < (tail - v).toNat) := by
  have hv : v = tail ↔ (tail - v).toNat = 0 := by bv_omega
  simp only [doorbellBad, Bool.or_eq_false_iff, Bool.and_eq_false_iff, decide_eq_false_iff_not, hv]
  omega

/-- The queue of a doorbell without error has at most 4096 records submitted (R52, R53). -/
theorem submitted_le_of_good {en : Bool} {log : BitVec 4} {head tail v : W32} (hq : qOk en log = true)
    (h : doorbellBad log head tail v = false) : (v - head).toNat ≤ 4096 := by
  simp only [qOk, Bool.and_eq_true, decide_eq_true_eq] at hq
  calc (v - head).toNat ≤ 2 ^ log.toNat := ((doorbellBad_eq_false_iff ..).mp h).1
    _ ≤ 2 ^ 12 := Nat.pow_le_pow_right (by decide) hq.2
    _ = 4096 := by decide

section
variable {fn : Nat} (hf : fn ≤ 1024) (s : State)
include hf

theorem exec_submissionDoorbell_good {v : W32} (h : doorbellBad (s.fn fn).sqlog (s.fn fn).sqhead (s.fn fn).sqtail v = false) :
    exec (.submissionDoorbell fn v) s = .next (s.setFn fn { s.fn fn with sqtail := v }) := by
  show execSubmissionDoorbell fn v s = _
  simp [execSubmissionDoorbell, isFn, hf, h]

theorem exec_submissionDoorbell_bad {v : W32} (hq : qOk (s.fn fn).sqen (s.fn fn).sqlog = true)
    (h : doorbellBad (s.fn fn).sqlog (s.fn fn).sqhead (s.fn fn).sqtail v = true) :
    exec (.submissionDoorbell fn v) s = .next (post (s.setFn fn { s.fn fn with sqerr := true }) fn 3 0x0320 0 0 0xFFFF) := by
  show execSubmissionDoorbell fn v s = _
  simp [execSubmissionDoorbell, isFn, hf, hq, h]

theorem exec_sqerrClear : exec (.sqerrClear fn) s = .next (s.modFn fn fun f => { f with sqerr := false }) := by
  show execSqerrClear fn s = _
  simp [execSqerrClear, isFn, hf]

theorem exec_mqlostClear : exec (.mqlostClear fn) s = .next (s.modFn fn fun f => { f with mqlost := false, lostcnt := 0 }) := by
  show execMqlostClear fn s = _
  simp [execMqlostClear, isFn, hf]

/-- A head within the tail is taken; no entry is held that could go out. -/
theorem exec_mqheadWrite {v : W32} (h : (v - (s.fn fn).mqhead).toNat ≤ ((s.fn fn).mqtail - (s.fn fn).mqhead).toNat)
    (hh : (s.fn fn).held = []) : exec (.mqheadWrite fn v) s = .next (s.setFn fn { s.fn fn with mqhead := v }) := by
  show execMqheadWrite fn v s = _
  simp [execMqheadWrite, isFn, hf, -BitVec.toNat_sub, Nat.not_lt.mpr h, flushHeld, hh]

theorem exec_commandDoorbell_good {v : W32} (h : doorbellBad (s.fn fn).cqlog (s.fn fn).cqhead (s.fn fn).cqtail v = false) :
    exec (.commandDoorbell fn v) s = .next (runCq (s.setFn fn { s.fn fn with cqtail := v }) fn) := by
  show execCommandDoorbell fn v s = _
  simp [execCommandDoorbell, isFn, hf, h]

theorem exec_commandDoorbell_bad {v : W32} (hq : qOk (s.fn fn).cqen (s.fn fn).cqlog = true)
    (h : doorbellBad (s.fn fn).cqlog (s.fn fn).cqhead (s.fn fn).cqtail v = true) :
    exec (.commandDoorbell fn v) s = .next (post (s.setFn fn { s.fn fn with cqerr := true }) fn 3 0x032D 0 0 0xFFFF) := by
  show execCommandDoorbell fn v s = _
  simp [execCommandDoorbell, isFn, hf, hq, h]

theorem exec_cqerrClear : exec (.cqerrClear fn) s = .next (runCq (s.modFn fn fun f => { f with cqerr := false }) fn) := by
  show execCqerrClear fn s = _
  simp [execCqerrClear, isFn, hf]

end

theorem exec_mqheadWrite_past {fn : Nat} {v : W32} {s : State}
    (h : ((s.fn fn).mqtail - (s.fn fn).mqhead).toNat < (v - (s.fn fn).mqhead).toNat) : exec (.mqheadWrite fn v) s = .next s := by
  show execMqheadWrite fn v s = _
  simp [execMqheadWrite, -BitVec.toNat_sub, h]

/-! ## The copying of commands (R56) -/

/-- The command at the head of a function's command queue. -/
def headCmd (s : State) (fn : Nat) : List W64 :=
  dwordsOf (memReadN s.mem
    (hostAddr ((s.fn fn).cqbase.toNat + (s.fn fn).cqhead.toNat % 2 ^ (s.fn fn).cqlog.toNat * 64)) 64)

/-- The state once the command at the head has been copied. -/
def tookCmd (s : State) (fn : Nat) : State :=
  s.setFn fn { s.fn fn with cqhead := (s.fn fn).cqhead + 1, cmds := (s.fn fn).cmds ++ [headCmd s fn] }

theorem takeCmds_at_tail (n : Nat) {s : State} {fn : Nat} (h : (s.fn fn).cqhead = (s.fn fn).cqtail) : takeCmds n s fn = s := by
  cases n <;> simp [takeCmds, h]

theorem takeCmds_succ (n : Nat) {s : State} {fn : Nat} (hq : qOk (s.fn fn).cqen (s.fn fn).cqlog = true)
    (he : (s.fn fn).cqerr = false) (h : (s.fn fn).cqhead ≠ (s.fn fn).cqtail) :
    takeCmds (n + 1) s fn = takeCmds n (tookCmd s fn) fn := by
  simp [takeCmds, hq, he, h, tookCmd, headCmd]

/-- Every command submitted is copied, where the firmware copies as many. -/
theorem takeCmds_reaches_tail {n : Nat} {s : State} {fn : Nat} (hq : qOk (s.fn fn).cqen (s.fn fn).cqlog = true)
    (he : (s.fn fn).cqerr = false) (hn : ((s.fn fn).cqtail - (s.fn fn).cqhead).toNat ≤ n) :
    ((takeCmds n s fn).fn fn).cqtail = (s.fn fn).cqtail ∧ ((takeCmds n s fn).fn fn).cqhead = (s.fn fn).cqtail := by
  induction n generalizing s with
  | zero =>
    have h : (s.fn fn).cqhead = (s.fn fn).cqtail := by bv_omega
    exact ⟨rfl, h⟩
  | succ n ih =>
    by_cases h : (s.fn fn).cqhead = (s.fn fn).cqtail
    · rw [takeCmds_at_tail _ h]
      exact ⟨rfl, h⟩
    · rw [takeCmds_succ n hq he h]
      have hfn : (tookCmd s fn).fn fn = { s.fn fn with
          cqhead := (s.fn fn).cqhead + 1, cmds := (s.fn fn).cmds ++ [headCmd s fn] } := fn_setFn_self ..
      have ih := ih (s := tookCmd s fn)
      simp only [hfn] at ih
      exact ih hq he (by bv_omega)

/-- A command whose number is known does not fail as it is copied (R57). -/
theorem failUnknown_known (n : Nat) {s : State} {fn : Nat} (h : ∀ c ∈ (s.fn fn).cmds.head?, 1 ≤ cmdId c ∧ cmdId c ≤ 8) :
    failUnknown n s fn = s := by
  cases n with
  | zero => rfl
  | succ n =>
    unfold failUnknown
    split
    · rfl
    · next hc => exact if_pos (h _ (by rw [hc]; rfl))

theorem runCq_at_tail {s : State} {fn : Nat} (h : (s.fn fn).cqhead = (s.fn fn).cqtail) (hc : (s.fn fn).cmds = []) :
    runCq s fn = s := by
  rw [runCq, takeCmds_at_tail _ h, failUnknown_known _ (by simp [hc])]

/-- One submitted command of a known number is copied, and stands alone. -/
theorem runCq_one {s : State} {fn : Nat} (hq : qOk (s.fn fn).cqen (s.fn fn).cqlog = true) (he : (s.fn fn).cqerr = false)
    (h : (s.fn fn).cqhead + 1 = (s.fn fn).cqtail) (hc : (s.fn fn).cmds = [])
    (hid : 1 ≤ cmdId (headCmd s fn) ∧ cmdId (headCmd s fn) ≤ 8) : runCq s fn = tookCmd s fn := by
  have hfn : (tookCmd s fn).fn fn = { s.fn fn with
      cqhead := (s.fn fn).cqhead + 1, cmds := (s.fn fn).cmds ++ [headCmd s fn] } := fn_setFn_self ..
  have htail : ((tookCmd s fn).fn fn).cqhead = ((tookCmd s fn).fn fn).cqtail := by rw [hfn]; exact h
  rw [runCq, takeCmds_succ 4095 hq he (by bv_omega), takeCmds_at_tail _ htail, failUnknown_known]
  simpa [hfn, hc] using hid

/-- Settles O48: each doorbell and head by its cases, the copying of commands by `takeCmds_reaches_tail`; that reports and
failures of unknown commands leave the registers is `post_steady` and `failUnknown_steady`. -/
theorem functionQueues : Obligations.FunctionQueues := by
  unfold Obligations.FunctionQueues
  refine ⟨?_, ?_, doorbellBad_eq_false_iff, ?_, ?_, ?_, ?_, ?_, ?_, ?_, ?_⟩
  · exact fun fn v s hf h => exec_submissionDoorbell_good hf s h
  · intro fn v s hf hq h
    have hp := post_steady (fn := fn) (kind := 3) (code := 0x0320) (seq := 0) (detail := 0) (lid := 0xFFFF)
      (steady_refl (s.setFn fn { s.fn fn with sqerr := true }))
    refine ⟨_, exec_submissionDoorbell_bad hf s hq h, ?_, ?_⟩
    · rw [hp.field fn Fn.sqerr fun _ => rfl, fn_setFn_self]
    · rw [hp.field fn Fn.sqtail fun _ => rfl, fn_setFn_self]
  · exact fun fn s hf => ⟨_, exec_sqerrClear hf s, fn_modFn_self .., fun k hk => fn_setFn_ne s hk _⟩
  · exact fun fn s hf => ⟨_, exec_mqlostClear hf s, fn_modFn_self .., fun k hk => fn_setFn_ne s hk _⟩
  · exact fun fn v s h => exec_mqheadWrite_past h
  · exact fun fn v s hf h hh => ⟨_, exec_mqheadWrite hf s h hh, fn_setFn_self .., rfl⟩
  · intro fn v s hf hq he h
    let s1 := s.setFn fn { s.fn fn with cqtail := v }
    have h1 : s1.fn fn = { s.fn fn with cqtail := v } := fn_setFn_self ..
    have htake := takeCmds_reaches_tail (n := 4096) (s := s1) (fn := fn)
    simp only [h1] at htake
    obtain ⟨ht, hh⟩ := htake hq he (submitted_le_of_good hq h)
    have hu := failUnknown_steady (n := 4096) (fn := fn) (steady_refl (takeCmds 4096 s1 fn))
    exact ⟨_, exec_commandDoorbell_good hf s h, (hu.field fn Fn.cqtail fun _ => rfl).trans ht,
      (hu.field fn Fn.cqhead fun _ => rfl).trans hh⟩
  · intro fn s r hf hq he hc h hr hlo hhi
    let s1 := s.setFn fn { s.fn fn with cqtail := (s.fn fn).cqhead + 1 }
    have h1 : s1.fn fn = { s.fn fn with cqtail := (s.fn fn).cqhead + 1 } := fn_setFn_self ..
    have hhead : headCmd s1 fn = r := by rw [headCmd, h1, hr]; rfl
    have hone := runCq_one (s := s1) (fn := fn)
    simp only [h1, hhead] at hone
    refine ⟨_, (exec_commandDoorbell_good hf s h).trans (congrArg _ (hone hq he trivial hc ⟨hlo, hhi⟩)), ?_, rfl⟩
    simp [tookCmd, h1, hhead, hc]
  · intro fn v s hf hq h
    have hp := post_steady (fn := fn) (kind := 3) (code := 0x032D) (seq := 0) (detail := 0) (lid := 0xFFFF)
      (steady_refl (s.setFn fn { s.fn fn with cqerr := true }))
    refine ⟨_, exec_commandDoorbell_bad hf s hq h, ?_, ?_⟩
    · rw [hp.field fn Fn.cqerr fun _ => rfl, fn_setFn_self]
    · rw [hp.field fn Fn.cqtail fun _ => rfl, fn_setFn_self]
  · intro fn s hf h hc
    have h1 : (s.modFn fn fun f => { f with cqerr := false }).fn fn = { s.fn fn with cqerr := false } := fn_modFn_self ..
    refine ⟨_, (exec_cqerrClear hf s).trans (congrArg _ (runCq_at_tail ?_ ?_)), h1, rfl⟩
    · rw [h1]; exact h
    · rw [h1]; exact hc

end Sys2Proof.Machine
end

section
/-! SUPPORT. The commands and the launches (R57, R73): two statements that fail, each at a state in which one of its clauses
does not hold. -/

namespace Sys2Proof.Machine
open Claims

/-! ## The windows of a context (R57, R82) -/

/-- The PASID stands after the windows, so that a context's list of windows is never one of 32 zeros (R82). -/
theorem ctxWins_length (s : State) (p ctx : Nat) : (ctxWins s p ctx).length = 33 := by
  simp [ctxWins]

/-- CTXCREATE of context 0 by the PF for partition 0, with a table of four layout handles (R56, R57). -/
def createCmd : List W64 := [1, 0, 0, 4, 0, 0, 0, 0]

/-- The PF's queue holds that command; partition 0 owns a slice of stack 0, which is ready, a quota of 32 frames, and a
context table of one entry. -/
def createState : State :=
  { State.reset with
    pkg := { Pkg.reset with stkrdy := 1 },
    pmb := [(0x1000, 1), (0x1010, 1), (0x3058, 0x40000), (0x3060, 1)],
    fns := [(pfn, { Fn.reset with cmds := [createCmd] })] }

theorem cmdAt_createState : CmdAt createState pfn 1 0 createCmd := ⟨rfl, by decide, by decide, by decide⟩

theorem runExists_createState : runExists createState 0 (tableFrames 4) = true := by decide

theorem framesFree_createState : framesFree createState 0 0x100000 (tableFrames 4) = true := by decide

/-- Refutes O49: its first clause says that the 33 dwords of `ctxWins`, the windows and after them the PASID, are 32 zeros
once CTXCREATE has been performed. -/
theorem not_commands : ¬ Obligations.Commands := by
  unfold Obligations.Commands
  rintro ⟨hcreate, -⟩
  obtain ⟨s1, -, -, -, -, -, -, -, hwins⟩ := hcreate pfn 0x100000 0 createCmd createState cmdAt_createState (by decide)
    (by decide) (by decide) (by decide) (by decide) (by decide) (by decide) runExists_createState framesFree_createState
  have hlen := congrArg List.length hwins
  rw [ctxWins_length, List.length_replicate] at hlen
  exact absurd hlen (by decide)

/-! ## Readiness of a core (R73) -/

/-- A core without a core group whose CUR is not empty, as the save of a halted group leaves it (R403, log 70), does not
register readiness. -/
theorem exec_gangReady_occupied {s : State} {core : Nat} (hg : s.grp? core = none) (hc : (s.core core).curempty = false) :
    exec (.gangReady core) s = .next s := by
  have hgrp : (s.core core).grp = none := hg
  show execGangReady core s = .next s
  simp [execGangReady, hgrp, hc]

/-- Core 0 holds in CUR a halted group that has been saved, and a valid NEXT. -/
def occupiedState : State :=
  State.reset.setCore 0 { Core.reset with
    cur := { BindRec.empty with d3 := 1 }, nxt := { BindRec.empty with d3 := 1 }, curempty := false, stopped := true }

/-- Refutes O50: the clause on readiness does not ask that CUR is empty, and a core that holds a saved halted group does not
register it. -/
theorem not_launchesAndPartitions : ¬ Obligations.LaunchesAndPartitions := by
  unfold Obligations.LaunchesAndPartitions
  rintro ⟨⟨-, -, -, -, -, -, hready, -⟩, -⟩
  obtain ⟨t, hexec, hcore⟩ := hready 0 occupiedState (by decide) (by decide) (by decide) (by decide) (by decide)
  obtain rfl : occupiedState = t := by
    rw [exec_gangReady_occupied (by decide) (by decide)] at hexec
    exact Host.Outcome.next.inj hexec
  exact absurd (congrArg Core.gangwait hcore) (by decide)

end Sys2Proof.Machine
end

section
/-! SUPPORT. Translations (R83 to R89, R93, R94, R237): what a dword of memory reads after a write, what the caches of the home
map and of walks leave of a state, what a shootdown, an invalidation and a migration write and drop. -/

namespace Sys2Proof.Machine
open Claims

/-! ## Bytes and dwords of memory after a write -/

theorem bytesOf_succ (n v : Nat) : bytesOf (n + 1) v = BitVec.ofNat 8 v :: bytesOf n (v / 256) := by
  simp [bytesOf, List.range_succ_eq_map, Function.comp_def, Nat.mul_succ, Nat.add_comm _ 8, Nat.shiftRight_add,
    Nat.shiftRight_eq_div_pow v 8]

@[simp] theorem bytesOf_length (n v : Nat) : (bytesOf n v).length = n := by simp [bytesOf]

theorem natOfBytes_bytesOf (n v : Nat) : natOfBytes (bytesOf n v) = v % 256 ^ n := by
  induction n generalizing v with
  | zero => simp [bytesOf, natOfBytes, Nat.mod_one]
  | succ n ih =>
    have hsplit : v % 256 ^ (n + 1) = v % 256 + 256 * (v / 256 % 256 ^ n) := by rw [Nat.pow_succ', Nat.mod_mul]
    rw [bytesOf_succ, natOfBytes, ih, hsplit]
    rfl

section
variable {m : List Host.Cell} (h : Memory.wf m = true)
include h

/-- A read of as many bytes gives those last written. -/
theorem memReadN_memWriteN_self (bs : List Byte) (a : Nat) : memReadN (memWriteN a bs m) a bs.length = bs := by
  induction bs generalizing a m with
  | nil => rfl
  | cons b r ih =>
    have hw := memWrite_wf a b h
    have hhead : memRead (memWriteN (a + 1) r (memWrite a b m)) a = b :=
      (memRead_memWriteN_outside r (.inl (Nat.lt_succ_self a)) hw).trans (memRead_memWrite_self a b h)
    have htail := ih hw (a + 1)
    simp only [memReadN, Nat.add_assoc, Nat.add_comm 1] at htail
    rw [List.length_cons, memReadN, List.range_succ_eq_map, List.map_cons, List.map_map, memWriteN]
    exact List.cons_eq_cons.2 ⟨hhead, htail⟩

/-- A write leaves the bytes of a range that it does not touch. -/
theorem memReadN_memWriteN_outside {bs : List Byte} {a c n : Nat} (hc : c + n ≤ a ∨ a + bs.length ≤ c) :
    memReadN (memWriteN a bs m) c n = memReadN m c n :=
  List.map_congr_left fun i hi => by
    have := List.mem_range.1 hi
    exact memRead_memWriteN_outside bs (by omega) h

/-- A read gives the dword last written. -/
theorem memRead64_memWrite64_self (a : Nat) (v : W64) : memRead64 (memWrite64 a v m) a = v := by
  have hread := memReadN_memWriteN_self h (bytesOf 8 v.toNat) a
  rw [bytesOf_length] at hread
  rw [memRead64, memWrite64, hread, natOfBytes_bytesOf, show 256 ^ 8 = 2 ^ 64 from rfl, Nat.mod_eq_of_lt v.isLt,
    BitVec.ofNat_toNat, BitVec.setWidth_eq]

/-- A write leaves a dword beside its own. -/
theorem memRead64_memWrite64_ne {a c : Nat} (hc : c + 8 ≤ a ∨ a + 8 ≤ c) (v : W64) :
    memRead64 (memWrite64 a v m) c = memRead64 m c := by
  rw [memRead64, memWrite64, memReadN_memWriteN_outside h (by rwa [bytesOf_length]), memRead64]

end

/-! ## Values of the sparse lists -/

/-- What holds of the default and of every listed value holds of the value at a key. -/
theorem alGet_forall {α : Type} {P : α → Prop} {d : α} {l : List (Nat × α)} (hd : P d) (h : ∀ e ∈ l, P e.2) (k : Nat) :
    P (alGet d l k) := by
  induction l with
  | nil => exact hd
  | cons e r ih =>
    obtain ⟨he, hr⟩ := List.forall_mem_cons.1 h
    rw [alGet]
    split
    · exact he
    · exact ih hr

/-! ## The home map (R83, R94) -/

section
variable (s : State) (p ia : Nat)

theorem hmeRaw_of_cached {e : W32} (h : alFind s.hmc (p * 2 ^ 27 + ia / 2 ^ 21) = some e) : hmeRaw s p ia = some e := by
  rw [hmeRaw, h]

/-- The valid entry of a region depends on the raw entry and the registers alone. -/
theorem hme_congr {s t : State} {p ia : Nat} (hr : hmeRaw t p ia = hmeRaw s p ia) (hp : t.pmb = s.pmb) :
    hme t p ia = hme s p ia := by
  have hslices : slicesOn t p = slicesOn s p := by
    funext seg stk
    simp only [slicesOn, State.owns, State.partRec, State.reg, hp]
  rw [hme, hme, hr, hslices]

/-- All of a 64 KiB page lies in one region. -/
theorem hme_pageStart : hme s p (ia / 65536 * 65536) = hme s p ia := by
  have hregion : ia / 65536 * 65536 / 2 ^ 21 = ia / 2 ^ 21 := by omega
  have hroot : nbits (ia / 65536 * 65536) 33 15 = nbits ia 33 15 := by
    simp only [nbits, Nat.shiftRight_eq_div_pow]; omega
  have hentry : nbits (ia / 65536 * 65536) 21 12 = nbits ia 21 12 := by
    simp only [nbits, Nat.shiftRight_eq_div_pow]; omega
  simp only [hme, hmeRaw, hmeAddr, hregion, hroot, hentry]

theorem kindOf_page {h : Hme} (hh : hme s p ia = some h) : kindOf s p (ia / 65536) = h.kind := by
  rw [kindOf, hme_pageStart, hh]

/-- A fill of the home-map caches draws a free value or none and changes the caches, and nothing else. -/
theorem keepHme_eq : ∃ f c, keepHme s p ia = { s with fresh := f, hmc := c } := by
  unfold keepHme
  dsimp only
  split
  · split
    · exact ⟨s.fresh, s.hmc, rfl⟩
    · split
      · exact ⟨s.fresh, _, rfl⟩
      · exact ⟨_, _, rfl⟩
  · exact ⟨s.fresh, s.hmc, rfl⟩

theorem hmeRaw_keepHme : hmeRaw (keepHme s p ia) p ia = hmeRaw s p ia := by
  unfold keepHme
  dsimp only
  split
  · next _ e _ he =>
    split
    · rfl
    · rw [he]
      split
      · exact hmeRaw_of_cached _ _ _ (alFind_alSet_self ..)
      · exact hmeRaw_of_cached _ _ _ (alFind_alSet_self ..)
  · rfl

theorem hme_keepHme : hme (keepHme s p ia) p ia = hme s p ia :=
  hme_congr (hmeRaw_keepHme s p ia) (by obtain ⟨f, c, h⟩ := keepHme_eq s p ia; rw [h])

/-! ## Walks (R86, R88) -/

theorem cacheEntry_eq (e : Nat × W128) : ∃ f c, cacheEntry s e = { s with fresh := f, wcache := c } := by
  unfold cacheEntry
  dsimp only
  split
  · exact ⟨s.fresh, s.wcache, rfl⟩
  · split
    · exact ⟨s.fresh, _, rfl⟩
    · exact ⟨_, _, rfl⟩

theorem cacheEntries_eq (l : List (Nat × W128)) (s : State) :
    ∃ f c, l.foldl cacheEntry s = { s with fresh := f, wcache := c } := by
  induction l generalizing s with
  | nil => exact ⟨s.fresh, s.wcache, rfl⟩
  | cons e r ih =>
    obtain ⟨f, c, he⟩ := cacheEntry_eq s e
    obtain ⟨f', c', hr⟩ := ih (cacheEntry s e)
    exact ⟨f', c', by rw [List.foldl_cons, hr, he]⟩

/-- What a walk has read changes the walk cache, with the free values that a full one draws, and nothing else. -/
theorem cacheWalk_eq (h : Hme) : ∃ f c, cacheWalk s p h ia = { s with fresh := f, wcache := c } := cacheEntries_eq _ s

/-- Memory with the ACC bit of a leaf set (R86). -/
def setAcc (l : Leaf) (m : List Host.Cell) : List Host.Cell :=
  if bit (memRead64 m (l.at_ + 8)) 32 then m else memWrite64 (l.at_ + 8) (memRead64 m (l.at_ + 8) ||| 0x100000000) m

theorem bit_setAcc (l : Leaf) {m : List Host.Cell} (hm : Memory.wf m = true) :
    bit (memRead64 (setAcc l m) (l.at_ + 8)) 32 = true := by
  unfold setAcc
  split
  · assumption
  · rw [memRead64_memWrite64_self hm]
    simp [bit]

theorem setAcc_sameButLeaf (l : Leaf) {m : List Host.Cell} (hm : Memory.wf m = true) : sameButLeaf l m (setAcc l m) := by
  intro a ha
  unfold setAcc
  split
  · rfl
  · exact memRead_memWriteN_outside _ (by rw [bytesOf_length]; omega) hm

/-- A walk that ends at a leaf not yet cached sets its ACC bit and caches it (R86, R88). -/
theorem noteWalk_leaf (pasid : Nat) {h : Hme} {l : Leaf} (hh : hme s p ia = some h) (hk : h.kind = 0)
    (hx : alFind s.xlat (pageKey p ia) = none) (hw : walk s p h ia = .leaf l) :
    (noteWalk s p pasid ia).mem = setAcc l s.mem ∧
      (noteWalk s p pasid ia).xlat = alSet (pageKey p ia) (l.at_, leafRaw l (setAcc l s.mem)) s.xlat := by
  have hh' := (hme_keepHme s p ia).trans hh
  obtain ⟨f, c, hkeep⟩ := keepHme_eq s p ia
  rw [hkeep] at hh'
  have hw' : walk { s with fresh := f, hmc := c } p h ia = .leaf l := hw
  obtain ⟨f', c', hcache⟩ := cacheWalk_eq { s with fresh := f, hmc := c } p ia h
  unfold noteWalk setAcc
  simp only [hkeep, hh', hk, hx, hw', hcache]
  by_cases hacc : bit (memRead64 s.mem (l.at_ + 8)) 32 = true
  · simp [hacc]
  · simp [hacc]

theorem exec_pageWalk {h : Hme} (hh : hme s p ia = some h) (hk : h.kind = 0) :
    exec (.pageWalk p ia) s = .next (noteWalk s p 0 ia) := by
  show execPageWalk p ia s = _
  rw [execPageWalk, kindOf_page s p ia hh, if_pos hk]

end

/-! ## Lines that leave the caches (R89, R203, R324) -/

section
variable (s : State) (p ia size : Nat)

@[simp] theorem dropLines_mem : (dropLines s p ia size).mem = s.mem := rfl
@[simp] theorem dropLines_xlat : (dropLines s p ia size).xlat = s.xlat := rfl
@[simp] theorem dropLines_shoots : (dropLines s p ia size).shoots = s.shoots := rfl
@[simp] theorem dropLines_ats : (dropLines s p ia size).ats = s.ats := rfl
@[simp] theorem dropLines_atsNow : (dropLines s p ia size).atsNow = s.atsNow := rfl

theorem dropLines_noLines : noLines (dropLines s p ia size) p ia size := by
  intro core
  refine alGet_forall (P := fun c : Core => ∀ g, c.grp = some g → g.part = p → ∀ k ∈ c.l1, k.line < ia / 128 ∨
    ia / 128 + size / 128 ≤ k.line) (by intro g hg; cases hg) ?_ core
  intro e he g hg hp k hk
  obtain ⟨⟨n, c⟩, -, rfl⟩ := List.mem_map.1 he
  cases hc : c.grp with
  | none => simp [hc] at hg
  | some g' =>
    by_cases hp' : g'.part = p
    · simp [hc, hp'] at hk
      omega
    · simp [hc, hp'] at hg
      exact absurd (hg ▸ hp) hp'

/-- Nothing is recalled where no line has an owner. -/
theorem recallRange_of_no_owners (h : ∀ k ∈ s.homes, k.2.owners = []) : recallRange s p ia size = s := by
  have hnone : (s.homes.filter fun k => decide (p * 2 ^ 41 + ia / 128 ≤ k.1) &&
      decide (k.1 < p * 2 ^ 41 + ia / 128 + size / 128) && !k.2.owners.isEmpty) = [] :=
    List.filter_eq_nil_iff.2 fun k hk => by simp [h k hk]
  simp only [recallRange, hnone, List.map_nil, List.foldl_nil]

end

/-! ## Shootdowns and invalidations (R89, R237, R238) -/

theorem waitStores_eq (s : State) (p page pages : Nat) (l : List (Nat × Nat × Nat)) (posted : List Nat) :
    waitStores s p page pages l posted =
      { s with shoots := if l = [] ∧ posted = [] then s.shoots else s.shoots ++ [⟨p, page, pages, l, posted⟩] } := by
  simp only [waitStores, Bool.and_eq_true, List.isEmpty_iff]
  split <;> rfl

section
variable (s : State) (p page pages : Nat) (l : List (Nat × Nat × Nat)) (posted : List Nat)

@[simp] theorem waitStores_mem : (waitStores s p page pages l posted).mem = s.mem := by rw [waitStores_eq]
@[simp] theorem waitStores_xlat : (waitStores s p page pages l posted).xlat = s.xlat := by rw [waitStores_eq]
@[simp] theorem waitStores_ats : (waitStores s p page pages l posted).ats = s.ats := by rw [waitStores_eq]
@[simp] theorem waitStores_atsNow : (waitStores s p page pages l posted).atsNow = s.atsNow := by rw [waitStores_eq]; rfl

@[simp] theorem waitStores_noLines (q ia size : Nat) :
    noLines (waitStores s p page pages l posted) q ia size ↔ noLines s q ia size := by rw [waitStores_eq]; rfl

/-- Nothing is waited for where no store is open and none is posted. -/
theorem waitStores_shoots_none (hl : l = []) (hp : posted = []) : (waitStores s p page pages l posted).shoots = s.shoots := by
  rw [waitStores_eq, if_pos ⟨hl, hp⟩]

theorem waitStores_shoots_some (h : ¬ (l = [] ∧ posted = [])) :
    (waitStores s p page pages l posted).shoots = s.shoots ++ [⟨p, page, pages, l, posted⟩] := by
  rw [waitStores_eq, if_neg h]

end

theorem endShoot_eq (s : State) (x : Shoot) :
    endShoot s x = if shootDone s x then { s with shoots := s.shoots.filter (· != x) } else s := by
  unfold endShoot shootDone
  cases stillOpen s x.part x.stores <;> cases s.posted.any fun y => x.posted.contains y.id <;> rfl

/-- The leaf of a page is replaced, with the generation after the one in memory, and its cached copies are dropped (R89). -/
def shotLeaf (s : State) (part ia : Nat) (d0 d1 : W64) (l : Leaf) : State :=
  dropXlat (writeLeaf s l d0 (bits d1 32 32 ++ bits (nextGen (memRead64 s.mem (l.at_ + 8))) 0 32)) part
    (l.pageIa ia / 65536) l.size

section
variable (s : State) (part ia : Nat) (d0 d1 : W64) (l : Leaf)

theorem exec_shootdown_start {h : Hme} (hl : leafOf s part ia = some (h, l)) (hs : s.shootOf part (ia / 65536) = none)
    (ho : ∀ k ∈ s.homes, k.2.owners = []) :
    exec (.shootdown part ia d0 d1) s = .next (waitStores
      (if d0 = memRead64 s.mem l.at_ then shotLeaf s part ia d0 d1 l
        else dropLines (shotLeaf s part ia d0 d1 l) part (l.pageIa ia) l.size)
      part (l.pageIa ia / 65536) (l.size / 65536) (openStores s part (l.pageIa ia) l.size) []) := by
  show execShootdown part ia d0 d1 s = _
  simp only [execShootdown, hs, hl, recallRange_of_no_owners s part (l.pageIa ia) l.size ho]
  rfl

theorem exec_shootdown_end {x : Shoot} (hs : s.shootOf part (ia / 65536) = some x) (hk : kindOf s part (ia / 65536) = 0) :
    exec (.shootdown part ia d0 d1) s =
      .next (if shootDone s x then { s with shoots := s.shoots.filter (· != x) } else s) := by
  show execShootdown part ia d0 d1 s = _
  simp only [execShootdown, hs, hk, if_pos, endShoot_eq]

theorem shotLeaf_mem : (shotLeaf s part ia d0 d1 l).mem =
    memWrite64 (l.at_ + 8) (bits d1 32 32 ++ bits (nextGen (memRead64 s.mem (l.at_ + 8))) 0 32)
      (memWrite64 l.at_ d0 s.mem) := rfl

theorem shotLeaf_shoots : (shotLeaf s part ia d0 d1 l).shoots = s.shoots := by
  simp only [shotLeaf, dropXlat, writeLeaf]

theorem shotLeaf_low (hm : Memory.wf s.mem = true) : memRead64 (shotLeaf s part ia d0 d1 l).mem l.at_ = d0 := by
  rw [shotLeaf_mem, memRead64_memWrite64_ne (memWrite64_wf _ _ hm) (.inl (Nat.le_refl _)), memRead64_memWrite64_self hm]

theorem shotLeaf_gen (hm : Memory.wf s.mem = true) :
    bits (memRead64 (shotLeaf s part ia d0 d1 l).mem (l.at_ + 8)) 0 32 =
      bits (memRead64 s.mem (l.at_ + 8)) 0 32 + (1 : W32) := by
  rw [shotLeaf_mem, memRead64_memWrite64_self (memWrite64_wf _ _ hm), bits_append_low _ _ (by omega), bits_all, nextGen,
    bits_append_low _ _ (by omega), bits_all]

theorem shotLeaf_xlat : ∀ e ∈ (shotLeaf s part ia d0 d1 l).xlat, e.1 ≠ part * 2 ^ 32 + l.pageIa ia / 65536 := by
  intro e he heq
  have hsize : 1 ≤ l.size / 65536 := by unfold Leaf.size; split <;> decide
  simp only [shotLeaf, dropXlat, List.mem_filter, heq, Bool.not_eq_true', Bool.and_eq_false_iff,
    decide_eq_false_iff_not] at he
  omega

end

section
variable (s : State) (part page : Nat)

theorem exec_atsInvalidation_start (hk : kindOf s part page = 1 ∨ kindOf s part page = 2) (hs : s.shootOf part page = none) :
    exec (.atsInvalidation part page) s = .next (waitStores (dropLines (bumpAts s part page) part (page * 65536) 65536)
      part page 1 (openStores s part (page * 65536) 65536) (postedTo s part page)) := by
  have hhost : ¬ (kindOf s part page ≠ 1 ∧ kindOf s part page ≠ 2) := by omega
  show execAtsInvalidation part page s = _
  simp only [execAtsInvalidation, hs, if_neg hhost]

theorem exec_atsInvalidation_end {x : Shoot} (hs : s.shootOf part page = some x) (hk : kindOf s part page ≠ 0) :
    exec (.atsInvalidation part page) s =
      .next (if shootDone s x then { s with shoots := s.shoots.filter (· != x) } else s) := by
  show execAtsInvalidation part page s = _
  simp only [execAtsInvalidation, hs, if_neg hk, endShoot_eq]

theorem bumpAts_mem : (bumpAts s part page).mem = s.mem := rfl

theorem bumpAts_atsNow : (bumpAts s part page).atsNow part page = s.atsNow part page + 1 := alGet_alSet_self ..

theorem bumpAts_ats : ∀ x ∈ (bumpAts s part page).ats, x.part ≠ part ∨ x.page ≠ page := by
  intro x hx
  have hout := (List.mem_filter.1 hx).2
  simp only [Bool.not_eq_true', Bool.and_eq_false_iff, beq_eq_false_iff_ne] at hout
  exact hout

/-- A store on its way to the host page that a translation of the page names is one of those that an invalidation of the
page waits for (R237). -/
theorem mem_postedTo {a : Ats} {x : Posted} (ha : a ∈ s.ats) (hp : a.part = part) (hg : a.page = page) (hx : x ∈ s.posted)
    (hxp : x.part = part)
    (haddr : x.addr / 65536 = hostAddr (Config.atsPage part a.pasid page a.epoch * 65536) / 65536) :
    x.id ∈ postedTo s part page := by
  refine List.mem_map_of_mem (List.mem_filter.2 ⟨hx, ?_⟩)
  simp only [hxp, beq_self_eq_true, Bool.true_and, List.contains_iff_mem, haddr]
  exact List.mem_map.2 ⟨a, List.mem_filter.2 ⟨ha, by simp [hp, hg]⟩, rfl⟩

end

/-! ## Migration (R94) -/

/-- The frames of a region are copied, its tail records go with them, and the frames copied from return (R94, log 40). -/
def movedRegion (s : State) (part ia : Nat) (fw : FwWrites) : State :=
  let s1 := moveTails (applyFw (recallRange s part (ia / 2 ^ 21 * 2 ^ 21) (2 ^ 21)) part fw) fw.copies
  { s1 with frames := s1.frames.filter fun f => !(f.2 == part && fw.copies.any fun c => c.1 == f.1) }

theorem movedRegion_canon {s : State} (part ia : Nat) (fw : FwWrites) (hs : s.Canon) : (movedRegion s part ia fw).Canon :=
  canon_of_mem_eq rfl (moveTails_canon (applyFw_canon (recallRange_canon hs)))

/-- The region is held under its old entry, its new entry stands in the table, and its cached leaves and lines are dropped
(R94). -/
def migrated (s : State) (part ia seg stk : Nat) (fw : FwWrites) (a : Nat) : State :=
  let base := ia / 2 ^ 21 * 2 ^ 21
  let t := dropLines (dropXlat (movedRegion s part ia fw) part (base / 65536) (2 ^ 21)) part base (2 ^ 21)
  { t with
    mem := memWriteN a (bytesOf 4 (hmeWord seg stk).toNat) t.mem,
    hmc := alSet (part * 2 ^ 27 + ia / 2 ^ 21) ((hmeRaw s part ia).getD 0 ||| 0x100000) t.hmc }

section
variable {s : State} {part ia : Nat} {fw : FwWrites}

theorem exec_migrateRegion (seg stk : Nat) {h : Hme} {a : Nat} (hh : hme s part ia = some h)
    (ha : hmeAddr s part ia = some a) (hk : h.kind = 0) (hold : h.hold = false)
    (ho : storesOpen s part (ia / 2 ^ 21 * 2 ^ 21) (2 ^ 21) = false) (hq : quotaOk (movedRegion s part ia fw) part = true) :
    exec (.migrateRegion part ia seg stk fw) s = .next (migrated s part ia seg stk fw a) := by
  have hmay : ¬ (h.kind ≠ 0 ∨ h.hold = true ∨ storesOpen s part (ia / 2 ^ 21 * 2 ^ 21) (2 ^ 21) = true) := by
    rw [hk, hold, ho]; decide
  have hfits : ¬ (!quotaOk (movedRegion s part ia fw) part) = true := by rw [hq]; decide
  show execMigrateRegion part ia seg stk fw s = _
  simp only [execMigrateRegion, hh, ha, if_neg hmay]
  exact congrArg Host.Outcome.next (if_neg hfits)

theorem migrated_entry (seg stk a : Nat) (hs : s.Canon) :
    memReadN (migrated s part ia seg stk fw a).mem a 4 = bytesOf 4 (hmeWord seg stk).toNat := by
  have hread := memReadN_memWriteN_self (movedRegion_canon part ia fw hs) (bytesOf 4 (hmeWord seg stk).toNat) a
  rwa [bytesOf_length] at hread

theorem migrated_holds (seg stk a : Nat) : ∃ e,
    alFind (migrated s part ia seg stk fw a).hmc (part * 2 ^ 27 + ia / 2 ^ 21) = some e ∧ bit e 20 = true :=
  ⟨_, alFind_alSet_self .., by simp [bit]⟩

end

theorem exec_heldRequestMoved {s : State} {part ia : Nat} {e : W32} (he : alFind s.hmc (part * 2 ^ 27 + ia / 2 ^ 21) = some e)
    (hb : bit e 20 = true) (hf : ∀ f ∈ s.fns, f.2.held = []) :
    exec (.heldRequestMoved part ia) s = .next { s with hmc := alDel (part * 2 ^ 27 + ia / 2 ^ 21) s.hmc } := by
  have hheld : ∀ n, (s.fn n).held = [] := alGet_forall (P := fun f : Fn => f.held = []) rfl hf
  show execHeldRequestMoved part ia s = _
  simp only [execHeldRequestMoved, he, hb, if_true]
  exact congrArg Host.Outcome.next (retryHeld_of_none hheld)

/-! ## Halving of the counts (R93) -/

theorem halveDue_of_none {s : State} (h : s.hotEpoch = s.now / 2 ^ 20) : halveDue s = s := by
  simp [halveDue, h]

theorem halveDue_of_one {s : State} (h : s.now / 2 ^ 20 = s.hotEpoch + 1) : halveDue s = { s with
    hotEpoch := s.hotEpoch + 1, hot := (s.hot.map fun x => { x with count := x.count / 2 }).filter fun x => x.count != 0 } := by
  simp only [halveDue, h, Nat.add_sub_cancel_left, Nat.pow_one, if_neg Nat.one_ne_zero]

/-! ## O41 -/

/-- Settles O41, clause by clause: each event by what it writes and drops. -/
theorem translations : Obligations.Translations := by
  unfold Obligations.Translations
  refine ⟨?walk, ?shoot, ?shootEnd, ?ats, ?posted, ?atsEnd, ?migrate, ?moved, ?notDue, ?due⟩
  case walk =>
    intro part ia s h l hm hh hk hx hw
    obtain ⟨hmem, hxlat⟩ := noteWalk_leaf s part ia 0 hh hk hx hw
    refine ⟨_, exec_pageWalk s part ia hh hk, ?_, ?_, ?_⟩
    · rw [hmem]
      exact bit_setAcc l hm
    · rw [hmem, hxlat]
      exact alFind_alSet_self ..
    · rw [hmem]
      exact setAcc_sameButLeaf l hm
  case shoot =>
    intro part ia d0 d1 s h l hm hl hs ho
    refine ⟨_, exec_shootdown_start s part ia d0 d1 l hl hs ho, ?_⟩
    have hlow := shotLeaf_low s part ia d0 d1 l hm
    have hgen := shotLeaf_gen s part ia d0 d1 l hm
    have hxlat := shotLeaf_xlat s part ia d0 d1 l
    have hshoots := shotLeaf_shoots s part ia d0 d1 l
    by_cases hd : d0 = memRead64 s.mem l.at_
    · simp only [if_pos hd, waitStores_mem, waitStores_xlat, waitStores_noLines]
      exact ⟨hlow, hgen, hxlat, fun hne => absurd hd hne,
        fun he => (waitStores_shoots_none _ _ _ _ _ _ he rfl).trans hshoots,
        fun hne => (waitStores_shoots_some _ _ _ _ _ _ fun he => hne he.1).trans (by rw [hshoots])⟩
    · simp only [if_neg hd, waitStores_mem, waitStores_xlat, waitStores_noLines, dropLines_mem, dropLines_xlat]
      exact ⟨hlow, hgen, hxlat, fun _ => dropLines_noLines _ _ _ _,
        fun he => (waitStores_shoots_none _ _ _ _ _ _ he rfl).trans hshoots,
        fun hne => (waitStores_shoots_some _ _ _ _ _ _ fun he => hne he.1).trans (by rw [dropLines_shoots, hshoots])⟩
  case shootEnd => exact fun part ia d0 d1 s x hs hk => exec_shootdown_end s part ia d0 d1 hs hk
  case ats =>
    intro part page s hk hs
    refine ⟨_, exec_atsInvalidation_start s part page hk hs, ?_⟩
    simp only [waitStores_mem, waitStores_ats, waitStores_atsNow, waitStores_noLines, dropLines_mem, dropLines_ats,
      dropLines_atsNow]
    exact ⟨bumpAts_ats s part page, bumpAts_mem s part page, bumpAts_atsNow s part page, dropLines_noLines _ _ _ _,
      fun hl hp => waitStores_shoots_none _ _ _ _ _ _ hl hp, fun hn => waitStores_shoots_some _ _ _ _ _ _ hn⟩
  case posted => exact fun s part page a x ha hp hg hx hxp haddr => mem_postedTo s part page ha hp hg hx hxp haddr
  case atsEnd => exact fun part page s x hs hk => exec_atsInvalidation_end s part page hs hk
  case migrate =>
    exact fun part ia seg stk fw s h a hm hh ha hk hold ho hq =>
      ⟨_, exec_migrateRegion seg stk hh ha hk hold ho hq, migrated_entry seg stk a hm, migrated_holds seg stk a⟩
  case moved => exact fun part ia s e he hb hf => exec_heldRequestMoved he hb hf
  case notDue => exact fun s h => congrArg Host.Outcome.next (halveDue_of_none h)
  case due =>
    intro s h
    refine ⟨_, congrArg Host.Outcome.next (halveDue_of_one h), rfl, fun x hx h2 => ?_, fun k hk => ?_⟩
    · exact List.mem_filter.2 ⟨List.mem_map_of_mem hx, by simp; omega⟩
    · obtain ⟨hmap, hcount⟩ := List.mem_filter.1 hk
      obtain ⟨x, hx, rfl⟩ := List.mem_map.1 hmap
      exact ⟨x, hx, rfl, by simpa using hcount⟩

end Sys2Proof.Machine
end

section
/-! SUPPORT. The ends of waits (R122, R124): threads that leave the wait store stand in an entry again, and nothing else
of their core group has changed. -/

namespace Sys2Proof.Machine
open Claims

/-! ## Two groups that differ at most in where threads stand -/

theorem SameButPlaces.threads_eq {g h : Group} (k : SameButPlaces g h) : h.threads = g.threads := by
  unfold SameButPlaces at k; rw [k]

theorem SameButPlaces.waits_eq {g h : Group} (k : SameButPlaces g h) : h.waits = g.waits := by
  unfold SameButPlaces at k; rw [k]

theorem SameButPlaces.thread_eq {g h : Group} (k : SameButPlaces g h) (u : Nat) : h.thread u = g.thread u := by
  unfold Group.thread; rw [k.threads_eq]

theorem SameButPlaces.withWaits {g h : Group} (k : SameButPlaces g h) (l : List Wait) :
    SameButPlaces { g with waits := l } { h with waits := l } := by
  unfold SameButPlaces at k; rw [k]; rfl

theorem ageEntries_same (s : State) (core n : Nat) (g : Group) : SameButPlaces g (ageEntries s core n g) := by
  unfold ageEntries; split <;> rfl

/-- Time that passes leaves a core its group, in which it changes no more than the entries (R130). -/
theorem passTo_grp {s : State} {core : Nat} {g : Group} (n : Nat) (hg : s.grp? core = some g) :
    ∃ h, (s.passTo n).grp? core = some h ∧ SameButPlaces g h := by
  unfold State.grp? at hg ⊢
  rcases passTo_core s n core with h | h
  · exact ⟨g, by rw [h, hg], .refl g⟩
  · exact ⟨_, by rw [h]; simp only [hg]; rfl, ageEntries_same ..⟩

/-! ## Threads that are woken -/

/-- A core group after threads of it have left the wait store: they wait for nothing, and no more has changed than where
threads stand (R122, R124). -/
structure Woken (g : Group) (ts : List Nat) (g' : Group) : Prop where
  waiting : ∀ u ∈ ts, g'.waiting u = none
  same : SameButPlaces { g with waits := g'.waits } g'

section woken
variable {g h g' : Group} {ts : List Nat}

theorem Woken.thread_eq (k : Woken g ts g') (u : Nat) : g'.thread u = g.thread u :=
  k.same.thread_eq u

theorem Woken.pend_eq (k : Woken g ts g') : g'.pend = g.pend := by
  have hs := k.same
  unfold SameButPlaces at hs; rw [hs]

theorem Woken.ring?_eq (k : Woken g ts g') (sid : Nat) : g'.ring? sid = g.ring? sid := by
  have hs := k.same
  unfold SameButPlaces at hs; unfold Group.ring?; rw [hs]

theorem Woken.of_same (hs : SameButPlaces g h) (k : Woken h ts g') : Woken g ts g' :=
  ⟨k.waiting, (hs.withWaits _).trans k.same⟩

theorem depart_same_waits (g : Group) (ts : List Nat) :
    SameButPlaces { g with waits := g.waits.filter fun x => !ts.contains x.tid } (g.depart ts) := by
  unfold Group.depart
  refine SameButPlaces.trans ?_ (unpark_same _ _)
  rfl

theorem move_woken (g : Group) (fall : Option (Va × BitVec 8)) (ts : List Nat) : Woken g ts (g.move fall ts) := by
  have hs : SameButPlaces _ (g.move fall ts) := (depart_same_waits g ts).trans (arrive_same _ _ _)
  refine ⟨fun u hu => ?_, by rw [hs.waits_eq]; exact hs⟩
  unfold Group.waiting
  rw [hs.waits_eq, List.find?_eq_none]
  intro x hx hxu
  obtain rfl : x.tid = u := by simpa using hxu
  simp [hu] at hx

end woken

theorem leaveWaits_cons (s : State) (core t : Nat) (r : List Nat) (f : Group → Group) : ∃ n woke,
    leaveWaits s core (t :: r) f =
      ((s.passTo n).modCore core fun c => { c with woke := woke }).modGrp core fun g => (f g).move none (t :: r) := by
  unfold leaveWaits
  dsimp only
  split
  · exact ⟨_, _, rfl⟩
  · exact ⟨s.now, _, by rw [passTo_self]⟩

theorem wakeAll_woken {s : State} {core : Nat} {g : Group} {ts : List Nat} (hg : s.grp? core = some g) (hts : ts ≠ []) :
    (wakeAll s core ts).mem = s.mem ∧ GroupIs (wakeAll s core ts) core (Woken g ts) := by
  obtain ⟨t, r, rfl⟩ := List.exists_cons_of_ne_nil hts
  obtain ⟨n, woke, he⟩ := leaveWaits_cons s core t r id
  obtain ⟨h, hh, hsame⟩ := passTo_grp n hg
  have hc : ((s.passTo n).modCore core fun c => { c with woke := woke }).grp? core = some h := by
    unfold State.grp? at hh ⊢; rw [core_modCore_self]; exact hh
  unfold wakeAll GroupIs
  rw [he, modGrp_of _ core _ hc]
  exact ⟨passTo_mem s n, _, grp?_setGrp .., (move_woken h none _).of_same hsame⟩

/-- An event that wakes a thread of a group `h`: it waits for nothing, and what is true of every such group is true. -/
theorem comes_wake {i : Instr} {s s' : State} {core tid : Nat} {h : Group} {m : List Host.Cell}
    {P : Group → Prop} (he : exec i s = .next (wake s' core tid)) (hm : s'.mem = m) (hh : s'.grp? core = some h)
    (hP : ∀ g', Woken h [tid] g' → P g') :
    Comes i s fun t => t.mem = m ∧ GroupIs t core fun g' => g'.waiting tid = none ∧ P g' := by
  obtain ⟨hmem, g', hg', hw⟩ := wakeAll_woken hh (List.cons_ne_nil tid [])
  exact ⟨_, he, hmem.trans hm, g', hg', hw.waiting tid (List.mem_singleton_self tid), hP g' hw⟩

/-! ## The wait of a gang (R127) -/

theorem pairEq_iff {p p' : Va} {q q' : BitVec 8} : pairEq p q p' q' = true ↔ p = p' ∧ q = q' := by
  simp [pairEq]

/-- A thread waits for the other threads of its gang (R127). -/
def Group.waitsLane (g : Group) (u : Nat) : Bool :=
  match g.waiting u with
  | some w => w.why == .lane
  | none => false

/-- The gang of `t`, of which the threads `wait` are in the wait store, stands whole at the pair of `t` (R127). -/
def gangMeets (s : State) (core : Nat) (g : Group) (gang t : Nat) (wait : List Nat) : Bool :=
  (wait.all fun u => pairEq (g.thread t).pc (g.thread t).prio (g.thread u).pc (g.thread u).prio) &&
    (g.gangLive gang).all fun u => wait.contains u || (!(s.core core).runningTids.contains u &&
      g.frontier.any fun e => pairEq (g.thread t).pc (g.thread t).prio e.pc e.prio && e.tids.contains u)

section lane
variable {s : State} {core gang : Nat} {g : Group} {t : Nat} {r : List Nat}

theorem gangMeets_of
    (hsame : ∀ u ∈ t :: r, (g.thread u).pc = (g.thread t).pc ∧ (g.thread u).prio = (g.thread t).prio)
    (hthere : ∀ u ∈ g.gangLive gang, u ∈ t :: r ∨ u ∉ (s.core core).runningTids ∧
      ∃ e ∈ g.frontier, u ∈ e.tids ∧ e.pc = (g.thread t).pc ∧ e.prio = (g.thread t).prio) :
    gangMeets s core g gang t (t :: r) = true := by
  refine Bool.and_eq_true_iff.2 ⟨List.all_eq_true.2 fun u hu => ?_, List.all_eq_true.2 fun u hu => ?_⟩
  · obtain ⟨hpc, hprio⟩ := hsame u hu
    exact pairEq_iff.2 ⟨hpc.symm, hprio.symm⟩
  · rcases hthere u hu with h | ⟨hrun, e, he, hue, hpc, hprio⟩
    · exact Bool.or_eq_true_iff.2 (.inl (List.contains_iff_mem.2 h))
    · refine Bool.or_eq_true_iff.2 (.inr (Bool.and_eq_true_iff.2 ⟨by simpa using hrun, List.any_eq_true.2 ⟨e, he, ?_⟩⟩))
      exact Bool.and_eq_true_iff.2 ⟨pairEq_iff.2 ⟨hpc.symm, hprio.symm⟩, List.contains_iff_mem.2 hue⟩

theorem exec_laneConvergence (hg : s.grp? core = some g) : exec (.laneConvergence core gang) s =
    .next (let wait := (g.gangLive gang).filter g.waitsLane
      match wait with
      | [] => s
      | t :: _ => if gangMeets s core g gang t wait then wakeAll s core wait else s) := by
  show execLaneConvergence core gang s = _
  unfold execLaneConvergence
  rw [hg]
  rfl

theorem exec_laneConvergence_meets (hg : s.grp? core = some g) (hw : (g.gangLive gang).filter g.waitsLane = t :: r)
    (hm : gangMeets s core g gang t (t :: r) = true) :
    exec (.laneConvergence core gang) s = .next (wakeAll s core (t :: r)) := by
  rw [exec_laneConvergence hg, hw]
  exact congrArg _ (if_pos hm)

end lane

/-! ## The waits of WAIT_STORE_RELEASE (R270, R341, R344) -/

section release
variable {s s' : State} {core tid : Nat} {g : Group}

theorem exec_waitStoreRelease_bar {lv : Level} {n : Nat} {k : W32} (hg : s.grp? core = some g)
    (hw : g.waiting tid = some ⟨tid, .bar lv n k⟩) (hd : barDone s g lv n k = true)
    (ha : acquireAt s g.part core (levelScope lv) = (s', true)) :
    exec (.waitStoreRelease core tid) s = .next (wake (bumpGen s' core tid) core tid) := by
  show execWaitStoreRelease core tid s = _
  simp only [execWaitStoreRelease, hg, hw, hd, ha, if_true]

theorem exec_waitStoreRelease_phase {l : Nat} {n : W32} {k : Nat} (hg : s.grp? core = some g)
    (hw : g.waiting tid = some ⟨tid, .phase l n k⟩) (hn : n.toNat ≤ (phaseCount s g.part g.lid l).toNat)
    (ha : acquireAt s g.part core .ring = (s', true)) :
    exec (.waitStoreRelease core tid) s = .next (wake s' core tid) := by
  show execWaitStoreRelease core tid s = _
  simp only [execWaitStoreRelease, hg, hw, hn, ha, decide_true, if_true]

theorem exec_waitStoreRelease_stg {sid : Nat} {take : Bool} {dst : Option Nat} {since : Nat} (hg : s.grp? core = some g)
    (hw : g.waiting tid = some ⟨tid, .stg sid take dst since⟩) :
    exec (.waitStoreRelease core tid) s = .next (wakeStg s core tid g sid take dst since) := by
  show execWaitStoreRelease core tid s = _
  simp only [execWaitStoreRelease, hg, hw]

end release

/-! ### Stage slots (R265, R270) -/

theorem Ring.has_iff (r : Ring) (take : Bool) : r.has take = true ↔ 0 < if take then r.filled else r.free := by
  cases take <;> simp [Ring.has]

theorem Ring.take_decl (r : Ring) : r.take.decl = r.decl := by rw [Ring.take]

theorem Ring.claim_decl (r : Ring) : r.claim.decl = r.decl := by rw [Ring.claim]

theorem stgFirst_iff (g : Group) (sid : Nat) (take : Bool) (key : Nat) :
    g.stgFirst sid take key = true ↔ ∀ k ∈ g.stgKeys sid take, key ≤ k := by
  simp [Group.stgFirst]

/-- A ring that has taken the place of one of its number is the ring of that number. -/
theorem ring?_setRing {g : Group} {sid : Nat} {r r' : Ring} (hr : g.ring? sid = some r) (hd : r'.decl = r.decl) :
    (g.setRing sid r').ring? sid = some r' := by
  have hsid : ((bits r.decl 24 3).toNat == sid) = true := List.find?_some (p := fun x : Ring => (bits x.decl 24 3).toNat == sid) hr
  unfold Group.ring? Group.setRing at *
  generalize g.rings = l at hr ⊢
  induction l with
  | nil => simp at hr
  | cons x l ih =>
    by_cases hx : ((bits x.decl 24 3).toNat == sid) = true
    · simp only [List.map_cons, hx, if_true]
      exact List.find?_cons_of_pos (by rw [hd]; exact hsid)
    · simp only [List.map_cons, hx]
      rw [List.find?_cons_of_neg (by simpa using hx)] at hr ⊢
      exact ih hr

theorem send_pend (g : Group) (t : Nat) (pc : Va) (dsts : List Nat) (vs : List W32) (own : Bool) :
    ⟨g.nextId, t, pc, dsts.map some, .value own, .ready vs, .word⟩ ∈ (g.send t pc dsts vs own).pend := by
  unfold Group.send Group.cancel
  split <;> simp

theorem send_threads (g : Group) (t : Nat) (pc : Va) (dsts : List Nat) (vs : List W32) (own : Bool) :
    (g.send t pc dsts vs own).threads = g.threads := by
  unfold Group.send Group.cancel
  split <;> rfl

theorem send_rings (g : Group) (t : Nat) (pc : Va) (dsts : List Nat) (vs : List W32) (own : Bool) :
    (g.send t pc dsts vs own).rings = g.rings := by
  unfold Group.send Group.cancel
  split <;> rfl

section stg
variable {s : State} {core tid : Nat} {g : Group} {sid : Nat} {take : Bool} {dst : Option Nat} {since : Nat} {r : Ring}

theorem wakeStg_ready (hr : g.ring? sid = some r) (hh : r.has take = true)
    (hf : g.stgFirst sid take (stgKey since tid) = true) : wakeStg s core tid g sid take dst since =
      wake (s.setGrp core (stgGive g sid r take tid (g.thread tid).rsPc dst)) core tid := by
  unfold wakeStg
  simp only [hr, hh, hf, Bool.and_self, if_true]

theorem wakeStg_not_ready (h : ∀ r, g.ring? sid = some r → r.has take = false ∨
    g.stgFirst sid take (stgKey since tid) = false) : wakeStg s core tid g sid take dst since = s := by
  unfold wakeStg
  split
  next => rfl
  next r hr => rcases h r hr with h | h <;> simp [h]

theorem stgGive_thread (pc : Va) (u : Nat) : (stgGive g sid r take tid pc dst).thread u = g.thread u := by
  unfold stgGive Group.thread
  rw [send_threads]; rfl

theorem stgGive_ring? (pc : Va) (hr : g.ring? sid = some r) : (stgGive g sid r take tid pc dst).ring? sid =
    some (if take then r.take else r.claim) := by
  have hd : (if take then r.take else r.claim).decl = r.decl := by
    split
    · exact Ring.take_decl r
    · exact Ring.claim_decl r
  unfold stgGive Group.ring?
  rw [send_rings]
  exact ring?_setRing hr hd

/-- The slot's offset and number are on their way to the registers of the thread (R270). -/
theorem stgGive_pend (pc : Va) : ∃ p ∈ (stgGive g sid r take tid pc dst).pend, p.tid = tid ∧
    p.dsts = (match dst with | some d => [some d, some (d + 1)] | none => []) ∧
    p.st = .ready (let n := if take then r.takec else r.claimc
      [BitVec.ofNat 32 (r.base + n % r.slots * r.slotsz), BitVec.ofNat 32 n]) := by
  unfold stgGive
  refine ⟨_, send_pend .., rfl, ?_, rfl⟩
  cases dst <;> rfl

end stg

/-! ## The waits of WAITGE (R345) -/

section waitge
variable {s s' : State} {core tid : Nat} {g : Group} {a : Acc} {target : W64} {err sys : Bool} {k : Nat}

theorem lookAgain_done (h : lookCount s core tid g a target err sys = .done s') :
    lookAgain s core tid g a target err sys = wake (s'.modGrp core fun g => g.stepOver tid) core tid := by
  unfold lookAgain
  simp only [h]

theorem exec_waitgeWake (hg : s.grp? core = some g) (hw : g.waiting tid = some ⟨tid, .waitge a target err sys k⟩)
    (hd : countInDevice s g.part a = true) :
    exec (.waitgeWake core tid) s = .next (lookAgain s core tid g a target err sys) := by
  show execWaitgeWake core tid s = _
  simp only [execWaitgeWake, hg, hw, hd, if_true]

/-- A group in which a thread that polls its count has read it in a cycle (R345). -/
def Group.polled (g : Group) (tid : Nat) (a : Acc) (target : W64) (err sys : Bool) (now : Nat) : Group :=
  { g with waits := g.waits.map fun x => if x.tid == tid then ⟨tid, .waitge a target err sys now⟩ else x }

theorem polled_thread (now u : Nat) : (g.polled tid a target err sys now).thread u = g.thread u := rfl

theorem exec_waitgePoll (hg : s.grp? core = some g) (hw : g.waiting tid = some ⟨tid, .waitge a target err sys k⟩)
    (hd : countInDevice s g.part a = false) : exec (.waitgePoll core tid) s =
      .next (lookAgain (s.setGrp core (g.polled tid a target err sys s.now)) core tid
        (g.polled tid a target err sys s.now) a target err sys) := by
  show execWaitgePoll core tid s = _
  unfold execWaitgePoll
  simp only [hg, hw, hd, modGrp_of s core _ hg, grp?_setGrp]
  rfl

/-- A thread whose look finds its count reached goes on at the next word (R125, R345). -/
theorem comes_lookDone {i : Instr} {s₁ : State} {h : Group} (he : exec i s = .next (lookAgain s₁ core tid h a target err sys))
    (hd : lookDone s₁ core tid h a target err sys s') (ht : tid < h.threads.length) :
    Comes i s fun t => t.mem = s'.mem ∧ GroupIs t core fun g' => g'.waiting tid = none ∧
      (g'.thread tid).pc = nextPc (h.thread tid).pc ∧ (g'.thread tid).w = (h.thread tid).w := by
  obtain ⟨hlook, hh⟩ := hd
  rw [lookAgain_done hlook, modGrp_of s' core _ hh] at he
  refine comes_wake he rfl (grp?_setGrp ..) fun g' hw => ?_
  rw [hw.thread_eq, Group.stepOver, thread_modThread_self _ _ ht]
  exact ⟨rfl, rfl⟩

end waitge

/-! ## O33 -/

/-- Settles O33: each event finds its condition met and wakes the thread, and waking changes nothing but where threads
stand. -/
theorem waitsEnd : Obligations.WaitsEnd := by
  unfold Obligations.WaitsEnd
  refine ⟨?lane, ?bar, ?phase, ?stg, ?stgWaits, ?wake, ?poll⟩
  case lane =>
    intro core gang s g t r hg hw hsame hthere
    obtain ⟨-, g', hg', hwoken⟩ := wakeAll_woken hg (List.cons_ne_nil t r)
    exact ⟨_, exec_laneConvergence_meets hg hw (gangMeets_of hsame hthere), g', hg',
      fun u hu => ⟨hwoken.waiting u hu, hwoken.thread_eq u⟩⟩
  case bar =>
    intro core tid s g lv n k s' hg hw hd ha hg' ht
    have he := exec_waitStoreRelease_bar hg hw hd ha
    rw [bumpGen, modGrp_of s' core _ hg'] at he
    refine comes_wake he rfl (grp?_setGrp ..) fun g' hwoken => ?_
    rw [hwoken.thread_eq, thread_modThread_self _ _ ht]
    exact ⟨rfl, rfl⟩
  case phase =>
    intro core tid s g l n k s' hg hw hn ha hg'
    exact comes_wake (exec_waitStoreRelease_phase hg hw hn ha) rfl hg' fun g' hwoken => hwoken.thread_eq tid
  case stg =>
    intro core tid s g sid take dst since r hg hw hr hhas hfirst
    have he := exec_waitStoreRelease_stg hg hw
    rw [wakeStg_ready hr ((r.has_iff take).2 hhas) hfirst] at he
    refine comes_wake he rfl (grp?_setGrp ..) fun g' hwoken => ⟨fun u => ?_, ?_, ?_⟩
    · exact (hwoken.thread_eq u).trans (stgGive_thread _ u)
    · rw [hwoken.ring?_eq, stgGive_ring? _ hr]; rfl
    · rw [hwoken.pend_eq]; exact stgGive_pend _
  case stgWaits =>
    intro core tid s g sid take dst since hg hw hnot
    rw [exec_waitStoreRelease_stg hg hw, wakeStg_not_ready fun r hr => ?_]
    rcases hnot r hr with hnone | ⟨k, hk, hlt⟩
    · exact .inl (Bool.eq_false_iff.2 fun hhas => absurd ((r.has_iff take).1 hhas) (by omega))
    · exact .inr (Bool.eq_false_iff.2 fun hfirst => absurd ((stgFirst_iff ..).1 hfirst k hk) (by omega))
  case wake =>
    intro core tid s g a target err sys k s' hg hw ht hd hlook
    exact comes_lookDone (exec_waitgeWake hg hw hd) hlook ht
  case poll =>
    intro core tid s g a target err sys k s' hg hw ht hd h hlook
    have hpoll := comes_lookDone (exec_waitgePoll hg hw hd) hlook ht
    rwa [polled_thread] at hpoll

end Sys2Proof.Machine
end

section
/-! SUPPORT. The words that place entries in engine queues (R120, R260 to R264, R297, R304, R375): how their effects
are applied, and what stands in the queues after them. -/

namespace Sys2Proof.Machine
open Claims

/-! ## Effects on the group of a core -/

@[simp] theorem setGrp_setGrp (s : State) (core : Nat) (g h : Group) : (s.setGrp core g).setGrp core h = s.setGrp core h := by
  simp [State.setGrp, State.modCore, State.setCore, State.core]

section eff
variable (x : Ctx) (e : Eff) (g : Group)

@[simp] theorem eff_grp_setGrp : (e.setGrp x g).grp x = g := by
  simp [Eff.grp, Eff.setGrp]

@[simp] theorem eff_setGrp_setGrp (h : Group) : (e.setGrp x g).setGrp x h = e.setGrp x h := by
  simp [Eff.setGrp]

theorem eff_grp_of {s : State} (hg : s.grp? x.core = some g) : Eff.grp x { s := s } = g := by
  simp [Eff.grp, hg]

/-- A thread that waits for room in an engine queue no more (R261). -/
def Thread.clearRoom (y : Thread) : Thread := { y with qblk := none }

theorem hasRoom_setGrp (t : Nat) :
    (e.setGrp x g).hasRoom x t = e.setGrp x (g.modThread t Thread.clearRoom) := by
  simp only [Eff.hasRoom, eff_grp_setGrp, eff_setGrp_setGrp]
  rfl

theorem foldl_hasRoom (ts : List Nat) : ts.foldl (fun e t => e.hasRoom x t) (e.setGrp x g) =
    e.setGrp x (g.modThreads ts fun _ => Thread.clearRoom) := by
  unfold Group.modThreads
  induction ts generalizing g with
  | nil => rfl
  | cons t r ih => simp only [List.foldl_cons, hasRoom_setGrp, ih]

end eff

/-! ## Groups that differ at most in their threads -/

/-- Two groups that differ at most in their threads and in where those stand. -/
def SameButThreads (g h : Group) : Prop := h = { g with threads := h.threads, frontier := h.frontier, parking := h.parking }

section threads
variable {a b c : Group}

theorem SameButThreads.trans (h : SameButThreads a b) (k : SameButThreads b c) : SameButThreads a c := by
  unfold SameButThreads at *
  rw [k, h]

theorem SameButPlaces.butThreads (h : SameButPlaces a b) : SameButThreads a b := by
  unfold SameButPlaces at h; unfold SameButThreads
  rw [h]

theorem modThreads_butThreads (g : Group) (ts : List Nat) (f : Nat → Thread → Thread) :
    SameButThreads g (g.modThreads ts f) := by
  unfold SameButThreads
  rw [modThreads_rest]

theorem closeOwn_butThreads (g : Group) (cls : RegionCls) (tids : List Nat) : SameButThreads g (g.closeOwn cls tids) := by
  unfold Group.closeOwn
  split
  · exact modThreads_butThreads ..
  · rfl

/-- Two groups that have the same in their engines' queues. -/
structure SameQueues (g h : Group) : Prop where
  cqs : h.cqs = g.cqs
  mx : h.mx = g.mx
  rq : h.rq = g.rq
  fences : h.fences = g.fences

theorem SameQueues.refl (g : Group) : SameQueues g g := ⟨rfl, rfl, rfl, rfl⟩

theorem SameQueues.trans (h : SameQueues a b) (k : SameQueues b c) : SameQueues a c :=
  ⟨k.cqs.trans h.cqs, k.mx.trans h.mx, k.rq.trans h.rq, k.fences.trans h.fences⟩

theorem SameButThreads.queues (h : SameButThreads a b) : SameQueues a b := by
  unfold SameButThreads at h
  rw [h]
  exact ⟨rfl, rfl, rfl, rfl⟩

end threads

/-! ## A word whose threads all go on -/

/-- The threads of a group have the registers that they had as a word issued, and those outside its sheet are unchanged. -/
structure KeepsRegs (x : Ctx) (g : Group) : Prop where
  length : g.threads.length = x.g.threads.length
  regs : ∀ u, (g.thread u).w = (x.g.thread u).w ∧ (g.thread u).p = (x.g.thread u).p
  idle : ∀ u, u ∉ x.r.tids → g.thread u = x.g.thread u

theorem keepsRegs_of_threads {x : Ctx} {g : Group} (h : g.threads = x.g.threads) : KeepsRegs x g := by
  have ht : ∀ u, g.thread u = x.g.thread u := fun u => by unfold Group.thread; rw [h]
  exact ⟨by rw [h], fun u => by rw [ht u]; exact ⟨rfl, rfl⟩, fun u _ => ht u⟩

theorem KeepsRegs.modThreads {x : Ctx} {g : Group} {ts : List Nat} {f : Thread → Thread} (h : KeepsRegs x g)
    (hts : ∀ t ∈ ts, t ∈ x.r.tids) (hf : ∀ y, (f y).w = y.w ∧ (f y).p = y.p) :
    KeepsRegs x (g.modThreads ts fun _ => f) := by
  refine ⟨(modThreads_length ..).trans h.length, fun u => ?_, fun u hu => ?_⟩
  · have hk := modThreads_keeps (fun a b => b.w = a.w ∧ b.p = a.p) (fun _ => ⟨rfl, rfl⟩)
      (fun _ _ _ p q => ⟨q.1.trans p.1, q.2.trans p.2⟩) g ts (fun _ => f) (fun _ => hf) u
    exact ⟨hk.1.trans (h.regs u).1, hk.2.trans (h.regs u).2⟩
  · exact (thread_modThreads_ne g _ fun hm => hu (hts u hm)).trans (h.idle u hu)

theorem KeepsRegs.clearRoom {x : Ctx} {g : Group} {u : Nat} (h : KeepsRegs x g) (hu : u ∈ x.r.tids) :
    KeepsRegs x (g.modThread u Thread.clearRoom) :=
  h.modThreads (ts := [u]) (fun t ht => by rwa [List.mem_singleton.1 ht]) fun _ => ⟨rfl, rfl⟩

theorem after_regs (cls : RegionCls) (bl : List (Nat × BitVec 8)) (pc : Va) (t : Thread) :
    (Thread.after cls bl pc t).w = t.w ∧ (Thread.after cls bl pc t).p = t.p := by
  unfold Thread.after; split <;> exact ⟨rfl, rfl⟩

theorem onlyGroup_mem {core : Nat} {s t : State} (h : OnlyGroup core s t) : t.mem = s.mem :=
  show (Claims.State.rest t).mem = (Claims.State.rest s).mem from congrArg State.mem h.state

/-- A word that brings a group in which the registers are those that it found: its threads go on, and the rest of the
group stays but for where threads stand. -/
theorem finish_goesOn {i : Instr} {s : State} {x : Ctx} {e : Eff} {ge : Group} (hx : issueAt i s = some x)
    (hf : e.fates = []) (hi : e.iso = none) (hg : e.s.grp? x.core = some ge) (hk : KeepsRegs x ge) :
    ∃ g, GoesOn x (finish x [] e) g ∧ (finish x [] e).mem = e.s.mem ∧ SameButThreads ge g := by
  have hs := issued_of hx
  obtain ⟨g, hgrp, honly, hin, hout, hrest⟩ := finish_next hf hi hg hs.nodup
    fun t ht => by rw [hk.length]; exact hs.here t ht
  refine ⟨g, ⟨hgrp, fun u => ?_, fun u hu => ?_, fun u hu => ?_⟩, onlyGroup_mem honly, hrest⟩
  · by_cases hu : u ∈ x.r.tids
    · rw [hin u hu, (after_regs ..).1, (after_regs ..).2]; exact hk.regs u
    · rw [hout u hu]; exact hk.regs u
  · rw [hin u hu]; exact after_pc ..
  · rw [hout u hu]; exact hk.idle u hu

/-! ## A word that its thread has still to perform -/

section stay
variable {tvec : W64} {pc : Va} {f : Nat → Fate} {ts : List Nat}

/-- Threads that go on or stay change no more of their group than themselves, and those that stay not even that. -/
theorem foldl_fate_stay (hf : ∀ t, f t = .next ∨ f t = .stay) (g : Group) :
    SameButThreads g (ts.foldl (fun g t => g.fate tvec pc t (f t)) g) ∧
    ∀ u, f u = .stay → (ts.foldl (fun g t => g.fate tvec pc t (f t)) g).thread u = g.thread u := by
  induction ts generalizing g with
  | nil => exact ⟨rfl, fun _ _ => rfl⟩
  | cons t r ih =>
    obtain ⟨hrest, hstay⟩ := ih (g.fate tvec pc t (f t))
    simp only [List.foldl_cons]
    rcases hf t with h | h
    · rw [h, fate_next] at hrest hstay ⊢
      refine ⟨(show SameButThreads g (g.modThread t _) from rfl).trans hrest, fun u hu => ?_⟩
      have hut : u ≠ t := by rintro rfl; simp [hu] at h
      rw [hstay u hu, thread_modThread_ne _ _ hut]
    · rw [h] at hrest hstay ⊢
      exact ⟨hrest, hstay⟩

end stay

theorem closeOwn_keeps (g : Group) (cls : RegionCls) (tids : List Nat) (u : Nat) :
    ((g.closeOwn cls tids).thread u).pc = (g.thread u).pc ∧ ((g.closeOwn cls tids).thread u).qblk = (g.thread u).qblk := by
  unfold Group.closeOwn
  split
  · exact modThreads_keeps (fun a b => b.pc = a.pc ∧ b.qblk = a.qblk) (fun _ => ⟨rfl, rfl⟩)
      (fun _ _ _ p q => ⟨q.1.trans p.1, q.2.trans p.2⟩) g tids (fun _ => Thread.closeRegion) (fun _ _ => ⟨rfl, rfl⟩) u
  · exact ⟨rfl, rfl⟩

theorem endRun_grp {s : State} {core : Nat} {g : Group} (pipe : Nat) (fall : Option (Va × BitVec 8))
    (hg : s.grp? core = some g) : ∃ h, SameButPlaces g h ∧ (endRun s core pipe fall).grp? core = some h := by
  obtain ⟨h, hsame, hend | ⟨hend, rfl⟩⟩ := endRun_of s core pipe fall hg
  · exact ⟨h, hsame, by rw [hend, grp?_setRun, grp?_setGrp]⟩
  · exact ⟨h, hsame, by rw [hend, grp?_setRun, hg]⟩

section staying
variable {x : Ctx} {e : Eff} {ge : Group} {u : Nat} (hf : e.fates = [(u, .stay)]) (hi : e.iso = none)
  (hg : e.s.grp? x.core = some ge)
include hf hi hg

/-- A word that a thread has still to perform ends the run of its sheet (R128, R261). -/
theorem finish_of_stay : finish x [] e = endRun (e.s.setGrp x.core (x.r.tids.foldl
      (fun g t => g.fate (e.s.tvec ge.part) x.pc t (fateOf [(u, .stay)] t)) (ge.closeOwn x.info.cls x.r.tids)))
    x.core x.pipe (some (fallPair x.g x.r x.pc)) := by
  have hserve : serveFates e.s x.core [(u, .stay)] = e.s := rfl
  unfold finish
  simp [hf, hi, hserve, hg]

/-- The thread stays at the word, and its group is as the word's effect left it but for its threads and where they stand. -/
theorem finish_stays : ∃ g, (finish x [] e).grp? x.core = some g ∧ (g.thread u).pc = (ge.thread u).pc ∧
    (g.thread u).qblk = (ge.thread u).qblk ∧ SameButThreads ge g := by
  have hfate : ∀ t, fateOf [(u, .stay)] t = .next ∨ fateOf [(u, .stay)] t = .stay := fun t => by
    by_cases h : u = t <;> simp [fateOf, alFind, h]
  obtain ⟨hrest, hstay⟩ := foldl_fate_stay (tvec := e.s.tvec ge.part) (pc := x.pc) (ts := x.r.tids) hfate
    (ge.closeOwn x.info.cls x.r.tids)
  obtain ⟨hpc, hblk⟩ := closeOwn_keeps ge x.info.cls x.r.tids u
  obtain ⟨g, hsame, hgrp⟩ := endRun_grp x.pipe (some (fallPair x.g x.r x.pc)) (grp?_setGrp e.s x.core _)
  have hgu := (hsame.thread_eq u).trans (hstay u (by simp [fateOf, alFind]))
  exact ⟨g, (congrArg (State.grp? · x.core) (finish_of_stay hf hi hg)).trans hgrp, by rw [hgu, hpc], by rw [hgu, hblk],
    ((closeOwn_butThreads ..).trans hrest).trans hsame.butThreads⟩

end staying

/-! ## Placing a block (R261, R297, R375) -/

section place
variable {x : Ctx} {role : Group → Nat → Bool} {a : Sel} {n : Nat} {full : Group → Bool} {put : List W64 → Group → Group}
  {u : Nat} {s' : State} {b : List W64}

theorem placeThread_of (hr : role x.g u = true) (hq : (x.g.thread u).qblk = none)
    (hb : readBlock x { s := x.s } u ((x.rd u).s64 a) n = .ok (s', b)) (hg : s'.grp? x.core = some x.g) :
    placeThread x role a n full put { s := x.s } u =
      if full x.g then Eff.waitRoom { s := s' } x u b else (Eff.setGrp x { s := s' } (put b x.g)).hasRoom x u := by
  unfold placeThread
  simp only [hr, hq, hb, eff_grp_of x x.g hg, Bool.not_true, Bool.false_eq_true, if_false]

end place

/-- A word that places the block that it reads. -/
theorem placesBlock_of {i : Instr} {role : Group → Nat → Bool} {a : Sel} {n : Nat} {full : Group → Bool}
    {put queued : Ctx → List W64 → Group → Group}
    (hex : ∀ s, exec i s = .next (issue i (fun x => x.on.foldl (placeThread x role a n full (put x)) { s := x.s }) s))
    (hth : ∀ x b g, (put x b g).threads = g.threads) (hq : ∀ x b g, SameQueues (queued x b g) (put x b g)) :
    PlacesBlock i role a n full queued := by
  intro s x u s' b hx hon hr hblk hb hg
  have hs := issued_of hx
  have hu : u ∈ x.r.tids := hs.on_sub u (by simp [hon])
  have he := (hex s).trans (congrArg _ (issue_of hx _))
  simp only [hon, List.foldl_cons, List.foldl_nil, placeThread_of hr hblk hb hg] at he
  constructor
  · intro hfull
    rw [hfull, if_neg Bool.false_ne_true, hasRoom_setGrp] at he
    obtain ⟨g, hgo, hmem, hrest⟩ := finish_goesOn (e := Eff.setGrp x { s := s' } _) hx rfl rfl (grp?_setGrp ..)
      ((keepsRegs_of_threads (hth x b x.g)).clearRoom hu)
    obtain ⟨hcqs, hmx, hrq, -⟩ := ((hq x b x.g).trans (modThreads_butThreads _ [u] fun _ => Thread.clearRoom).queues).trans
      hrest.queues
    exact ⟨_, g, he, hgo, hcqs, hmx, hrq, hmem⟩
  · intro hfull
    rw [hfull, if_pos rfl] at he
    obtain ⟨g, hgrp, hpc, hqb, hrest⟩ := finish_stays (x := x) (e := Eff.waitRoom { s := s' } x u b) (u := u) rfl rfl
      (grp?_setGrp ..)
    rw [eff_grp_of x x.g hg] at hpc hqb hrest
    rw [thread_modThread_self _ _ (hs.here u hu)] at hpc hqb
    obtain ⟨hcqs, hmx, hrq, -⟩ := hrest.queues
    exact ⟨_, g, he, hgrp, hqb, hpc, hcqs, hmx, hrq⟩

/-! ## Placing one entry for a sheet (R264, R304) -/

theorem splitRole_all {x : Ctx} {role : Group → Nat → Bool} (h : ∀ v ∈ x.on, role x.g v = true) :
    splitRole x role = (x.on, []) := by
  unfold splitRole
  rw [List.filter_eq_self.2 h, List.filter_eq_nil_iff.2 fun v hv => by simp [h v hv]]
  rfl

theorem placesOne_of {i : Instr} {role : Group → Nat → Bool} {full : Group → Bool} {put queued : Ctx → Nat → Group → Group}
    (hex : ∀ s, exec i s = .next (issue i (fun x => placeOnce x role full (put x)) s))
    (hth : ∀ x u g, (put x u g).threads = g.threads) (hq : ∀ x u g, SameQueues (queued x u g) (put x u g)) :
    PlacesOne i role full queued := by
  intro s x u r hx hon hr hfull
  have hs := issued_of hx
  have he := (hex s).trans (congrArg _ (issue_of hx _))
  have hp : placeOnce x role full (put x) =
      Eff.setGrp x { s := x.s } ((put x u x.g).modThreads x.on fun _ => Thread.clearRoom) := by
    unfold placeOnce
    rw [splitRole_all hr, hon]
    simp only [hfull, Bool.false_eq_true, if_false, foldl_hasRoom]
  rw [hp] at he
  obtain ⟨g, hgo, hmem, hrest⟩ := finish_goesOn (e := Eff.setGrp x { s := x.s } _) hx rfl rfl (grp?_setGrp ..)
    ((keepsRegs_of_threads (hth x u x.g)).modThreads (f := Thread.clearRoom) hs.on_sub fun _ => ⟨rfl, rfl⟩)
  obtain ⟨hcqs, hmx, hrq, hfe⟩ := ((hq x u x.g).trans (modThreads_butThreads ..).queues).trans hrest.queues
  exact ⟨_, g, he, hgo, hmem, hcqs, hmx, hrq, hfe⟩

/-! ## CHAIN (R262) -/

section chain
variable {x : Ctx} {q : Nat} {a : Sel} {u : Nat}

theorem chainThread_places (hg : x.s.grp? x.core = some x.g) (hr : isCopy x.g u = true) (ha : (x.rd u).s64 a ≠ 0)
    (hal : ((x.rd u).s64 a).toNat % 64 = 0) (hc : (x.g.cq q).hasChain = false) (hf : cqFull x.g q = false) :
    chainThread x q a { s := x.s } u =
      (Eff.setGrp x { s := x.s } (x.g.pushCq q (.chain ((x.rd u).s64 a)))).hasRoom x u := by
  unfold chainThread
  simp only [eff_grp_of x x.g hg, hr, if_neg ha, hal, hc, hf, Bool.not_true, Bool.false_eq_true, if_false, ne_eq,
    not_true_eq_false]

theorem chainThread_stops (hg : x.s.grp? x.core = some x.g) (hr : isCopy x.g u = true) (ha : (x.rd u).s64 a = 0) :
    chainThread x q a { s := x.s } u = Eff.setGrp x { s := x.s }
      (x.g.modCq q fun c => { c with walk := c.walk.map fun w => { w with stop := true } }) := by
  unfold chainThread
  simp [eff_grp_of x x.g hg, hr, ha]

end chain

/-- A CHAIN of one thread whose effect brings a group in which the threads have their registers. -/
theorem exec_chain_goesOn {h : GY} {q : BitVec 2} {a : Sel} {s : State} {x : Ctx} {u : Nat} {ge : Group}
    (hx : issueAt (.chain h q a) s = some x) (hon : x.on = [u])
    (hc : chainThread x q.toNat a { s := x.s } u = Eff.setGrp x { s := x.s } ge) (hk : KeepsRegs x ge) :
    ∃ t g, exec (.chain h q a) s = .next t ∧ GoesOn x t g ∧ g.cqs = ge.cqs := by
  have he : exec (.chain h q a) s = .next (finish x [] (x.on.foldl (chainThread x q.toNat a) { s := x.s })) :=
    congrArg Host.Outcome.next (issue_of hx _)
  simp only [hon, List.foldl_cons, List.foldl_nil, hc] at he
  obtain ⟨g, hgo, -, hrest⟩ := finish_goesOn (e := Eff.setGrp x { s := x.s } ge) hx rfl rfl (grp?_setGrp ..) hk
  exact ⟨_, g, he, hgo, hrest.queues.cqs⟩

/-! ## QFENCE (R264) -/

/-- What each step of a fold keeps, the fold keeps. -/
theorem foldl_keeps {α β γ : Type} (get : β → γ) {f : β → α → β} (hf : ∀ b a, get (f b a) = get b) (l : List α) (b : β) :
    get (l.foldl f b) = get b :=
  List.foldlRecOn (motive := fun c => get c = get b) l f rfl fun c hc a _ => (hf c a).trans hc

theorem putFence_threads (mask : BitVec 6) (comp : W64) (g : Group) : (putFence mask comp g).threads = g.threads := by
  have hq : ∀ l : List Nat, (l.foldl (fun h q => if bit mask q then h.pushCq q (.fence g.nextId) else h) g).threads =
      g.threads := fun l => foldl_keeps (fun h : Group => h.threads) (fun h q => by split <;> rfl) l g
  unfold putFence
  dsimp only
  split <;> split <;> exact hq _

/-! ## O30 -/

/-- Settles O30: each word's effect is its one entry in a queue, after which its threads go on; a thread that finds its
queue full keeps its block and stays. -/
theorem engineQueues : Obligations.EngineQueues := by
  unfold Obligations.EngineQueues
  refine ⟨?copy, ?mma, ?mdrain, ?coll, ?mprec, ?mzero, ?qfence, ?chain, ?chainStop⟩
  case copy =>
    exact fun h q a => placesBlock_of (put := fun _ b g => g.pushCq q.toNat (.xfer b)) (fun _ => rfl) (fun _ _ _ => rfl)
      fun _ _ _ => .refl _
  case mma =>
    exact fun h a => placesBlock_of (put := fun _ b g => g.pushMq (.mma b)) (fun _ => rfl) (fun _ _ _ => rfl)
      fun _ _ _ => .refl _
  case mdrain =>
    exact fun h a => placesBlock_of (put := fun _ b g => g.pushMq (.mdrain b)) (fun _ => rfl) (fun _ _ _ => rfl)
      fun _ _ _ => .refl _
  case coll =>
    exact fun h a => placesBlock_of (put := fun x => Group.pushRq x.s.now) (fun _ => rfl) (fun _ _ _ => rfl)
      fun _ _ _ => ⟨rfl, rfl, rfl, rfl⟩
  case mprec =>
    exact fun h wa wb => placesOne_of (put := fun _ _ g => g.pushMq (.mprec wa wb)) (fun _ => rfl) (fun _ _ _ => rfl)
      fun _ _ _ => .refl _
  case mzero =>
    exact fun h bank => placesOne_of (put := fun _ _ g => g.pushMq (.mzero bank)) (fun _ => rfl) (fun _ _ _ => rfl)
      fun _ _ _ => .refl _
  case qfence =>
    exact fun h mask b => placesOne_of (fun _ => rfl) (fun _ _ _ => putFence_threads ..) fun _ _ _ => .refl _
  case chain =>
    intro h q a s x u hx hon hr ha hal hc hf
    have hs := issued_of hx
    have hu : u ∈ x.r.tids := hs.on_sub u (by simp [hon])
    refine exec_chain_goesOn hx hon ((chainThread_places hs.grp hr ha hal hc hf).trans (hasRoom_setGrp ..)) ?_
    exact KeepsRegs.clearRoom (keepsRegs_of_threads rfl) hu
  case chainStop =>
    intro h q a s x u hx hon hr ha
    exact exec_chain_goesOn hx hon (chainThread_stops (issued_of hx).grp hr ha) (keepsRegs_of_threads rfl)

end Sys2Proof.Machine
end

section
/-! SUPPORT. The events of issue: results that land (R132, R133, R137), the choice of a sheet (R126, R129, R130), and what
words enter in the latches (R99, R134). -/

namespace Sys2Proof.Machine
open Claims

/-! ## The highest score and the lanes of a sheet (R126, R129) -/

theorem eq_nil_of_bestBy {α : Type} {score : α → List Nat} {l : List α} (h : bestBy score l = none) : l = [] := by
  cases l with
  | nil => rfl
  | cons a r =>
    unfold bestBy at h
    split at h
    · exact nomatch h
    · split at h <;> exact nomatch h

/-- The best of a list is of it, and no other exceeds it. -/
theorem bestBy_spec {α : Type} {score : α → List Nat} {l : List α} {e : α} (h : bestBy score l = some e) :
    e ∈ l ∧ ∀ x ∈ l, ¬ score e < score x := by
  induction l generalizing e with
  | nil => simp [bestBy] at h
  | cons a r ih =>
    unfold bestBy at h
    split at h
    next hr =>
      obtain rfl : a = e := by simpa using h
      simp [eq_nil_of_bestBy hr]
    next y hy =>
      obtain ⟨hmem, hbest⟩ := ih hy
      split at h
      next hlt =>
        obtain rfl : y = e := by simpa using h
        refine ⟨List.mem_cons_of_mem _ hmem, fun x hx => ?_⟩
        rcases List.mem_cons.1 hx with rfl | hx
        · exact List.lt_asymm (of_decide_eq_true hlt)
        · exact hbest x hx
      next hle =>
        obtain rfl : a = e := by simpa using h
        refine ⟨List.mem_cons_self .., fun x hx => ?_⟩
        rcases List.mem_cons.1 hx with rfl | hx
        · exact List.lt_irrefl _
        · have hya : ¬ score a < score y := fun hlt => hle (decide_eq_true hlt)
          exact List.not_lt.2 (List.le_trans (List.not_lt.1 (hbest x hx)) (List.not_lt.1 hya))

theorem mem_of_mem_pickLanes {t : Nat} {l : List Nat} (h : t ∈ pickLanes l) : t ∈ l := by
  induction l with
  | nil => exact h
  | cons a r ih =>
    rcases List.mem_cons.1 h with rfl | h
    · exact List.mem_cons_self ..
    · exact List.mem_cons_of_mem _ (ih (List.mem_filter.1 h).1)

theorem pickLanes_lanes_nodup (l : List Nat) : ((pickLanes l).map (· % 32)).Nodup := by
  induction l with
  | nil => exact List.nodup_nil
  | cons a r ih =>
    refine List.nodup_cons.2 ⟨fun h => ?_, ?_⟩
    · obtain ⟨u, hu, he⟩ := List.mem_map.1 h
      simp [he] at hu
    · exact ih.sublist (List.filter_sublist.map _)

theorem pickLanes_length (l : List Nat) : (pickLanes l).length ≤ 32 := by
  have hsub : (pickLanes l).map (· % 32) ⊆ List.range 32 := fun k hk => by
    obtain ⟨u, -, rfl⟩ := List.mem_map.1 hk
    exact List.mem_range.2 (Nat.mod_lt _ (by decide))
  have hle := (pickLanes_lanes_nodup l).length_le_of_subset hsub
  rwa [List.length_map, List.length_range] at hle

/-! ## Latches (R134) -/

theorem latchRead_empty {r : Run} {k : Nat} (t : Nat) (h : r.hist.length < k + 4 ∨ r.hist[k + 3]? = some none) :
    latchRead r k t = none := by
  have hk : r.hist[k + 3]? = none ∨ r.hist[k + 3]? = some none := h.imp_left fun h => List.getElem?_eq_none (by omega)
  unfold latchRead
  rcases hk with hk | hk <;> rw [hk]

theorem latchRead_entered {r : Run} {k t i : Nat} {vs : List W32} (h : r.hist[k + 3]? = some (some vs)) (hn : r.tids.Nodup)
    (ht : r.tids[i]? = some t) : latchRead r k t = vs[i]? := by
  obtain ⟨hi, rfl⟩ := List.getElem?_eq_some_iff.1 ht
  unfold latchRead
  rw [h]
  exact congrArg (vs[·]?) (hn.idxOf_getElem i hi)

/-! ## Results that land (R132, R133, R137) -/

theorem landRegs_keeps (ds : List (Option Nat)) (vs : List W32) (t : Thread) :
    (landRegs ds vs t).p = t.p ∧ (landRegs ds vs t).pc = t.pc := by
  fun_induction landRegs ds vs t with
  | case1 n ds v vs t ih => exact ih
  | case2 ds v vs t ih => exact ih
  | case3 => exact ⟨rfl, rfl⟩

/-- A register that a result does not name, or that a later word has written, stays. -/
theorem landRegs_r_ne {m : Nat} {ds : List (Option Nat)} (vs : List W32) (t : Thread) (h : some m ∉ ds) :
    (landRegs ds vs t).r m = t.r m := by
  fun_induction landRegs ds vs t with
  | case1 n ds v vs t ih =>
    obtain ⟨hn, hds⟩ := not_or.1 (mt List.mem_cons.2 h)
    exact (ih hds).trans (setR_r_ne t n v fun e => hn (congrArg some e))
  | case2 ds v vs t ih => exact ih fun hm => h (List.mem_cons_of_mem _ hm)
  | case3 => rfl

/-- A register that a result has still to write receives its word. -/
theorem landRegs_r_self {ds : List (Option Nat)} {vs : List W32} {t : Thread} (hl : ds.length = vs.length)
    (hn : (ds.filterMap (·)).Nodup) (hw : ∀ n, some n ∈ ds → n < t.w.length) {k n : Nat} (hk : ds[k]? = some (some n)) :
    vs[k]? = some ((landRegs ds vs t).r n) := by
  fun_induction landRegs ds vs t generalizing k with
  | case1 m ds v vs t ih =>
    obtain ⟨hm, hn⟩ := List.nodup_cons.1 hn
    cases k with
    | zero =>
      obtain rfl : m = n := by simpa using hk
      have hds : some m ∉ ds := fun h => hm (List.mem_filterMap.2 ⟨_, h, rfl⟩)
      rw [landRegs_r_ne vs _ hds, setR_r_self t m v (hw m (List.mem_cons_self ..))]
      rfl
    | succ k => exact ih (by simpa using hl) hn (fun j hj => by rw [setR_w_length]; exact hw j (List.mem_cons_of_mem _ hj)) hk
  | case2 ds v vs t ih =>
    cases k with
    | zero => simp at hk
    | succ k => exact ih (by simpa using hl) hn (fun j hj => hw j (List.mem_cons_of_mem _ hj)) hk
  | case3 ds vs t h1 h2 =>
    cases ds with
    | nil => simp at hk
    | cons d ds =>
      cases vs with
      | nil => simp at hl
      | cons v vs =>
        cases d with
        | none => exact (h2 _ _ _ rfl rfl).elim
        | some m => exact (h1 _ _ _ _ rfl rfl).elim

theorem dropPend_gone {g : Group} {id : Nat} : ∀ q ∈ (g.dropPend id).pend, q.id ≠ id := fun q hq => by
  simpa using (List.mem_filter.1 hq).2

theorem exec_resultLanding_ready {s : State} {core id : Nat} {g : Group} {p : Pend} {v : List W32}
    (hg : s.grp? core = some g) (hp : g.pend.find? (fun q => q.id == id) = some p) (hv : p.st = .ready v)
    (ha : p.waitsAck s core = false) : exec (.resultLanding core id) s = .next (landResult s core g p v) := by
  show execResultLanding core id s = _
  simp [execResultLanding, hg, hp, hv, ha]

theorem find?_pend_id {g : Group} {id : Nat} {p : Pend} (hp : g.pend.find? (fun q => q.id == id) = some p) : p.id = id := by
  simpa using List.find?_some hp

/-! ## The choice of a sheet (R129) -/

theorem modThread_w (g : Group) (t : Nat) {f : Thread → Thread} (hf : ∀ y, (f y).w = y.w) (u : Nat) :
    ((g.modThread t f).thread u).w = (g.thread u).w :=
  modThreads_keeps (fun a b => b.w = a.w) (fun _ => rfl) (fun _ _ _ p q => q.trans p) g [t] (fun _ => f) (fun _ => hf) u

theorem closeReached_w (s : State) (core : Nat) (g : Group) (u : Nat) :
    ((closeReached s core g).thread u).w = (g.thread u).w := by
  unfold closeReached
  refine foldl_keeps (fun h : Group => (h.thread u).w) (fun h e => ?_) _ _
  split
  · refine foldl_keeps (fun h : Group => (h.thread u).w) (fun h t => ?_) _ _
    split
    · rfl
    · exact modThread_w h t (f := fun x => { x with rclosed := true }) (fun _ => rfl) u
  · rfl

theorem park_threads (g : Group) (t : Nat) (why : Why) : (g.park t why).threads = g.threads :=
  (unpark_same ..).threads_eq

theorem parkLanes_threads (s : State) (core : Nat) (g : Group) (e : Entry) : (parkLanes s core g e).threads = g.threads := by
  unfold parkLanes
  split
  · exact foldl_keeps (fun h : Group => h.threads) (fun h t => park_threads h t .lane) _ _
  · rfl

theorem choosing_w (s : State) (core : Nat) (g : Group) (u : Nat) : ((choosing s core g).thread u).w = (g.thread u).w :=
  closeReached_w ..

/-- The entry of an index after a pipe has chosen it: it starts to age again (R130). -/
def Group.chosen (g : Group) (idx now : Nat) : Group :=
  { g with frontier := g.frontier.map fun x => if x.idx == idx then { x with age := 0, chose := now + 1 } else x }

theorem mem_chosen_frontier {g : Group} {idx now : Nat} {x : Entry} (hx : x ∈ (g.chosen idx now).frontier)
    (hi : x.idx = idx) : x.age = 0 ∧ x.chose = now + 1 := by
  obtain ⟨y, -, rfl⟩ := List.mem_map.1 hx
  by_cases hy : (y.idx == idx) = true
  · simp [hy]
  · rw [if_neg hy] at hi
    exact absurd (beq_iff_eq.2 hi) hy

theorem run_setRun_self (s : State) (core pipe : Nat) (r : Option Run) : (s.setRun core pipe r).run core pipe = r := by
  unfold State.run State.setRun
  rw [core_modCore_self]
  split <;> rfl

theorem run_passTo (s : State) (n core pipe : Nat) : (s.passTo n).run core pipe = s.run core pipe := by
  unfold State.run
  rcases passTo_core s n core with h | h <;> rw [h]

section choose
variable {s : State} {core pipe : Nat} {g : Group}

theorem chooseOne_running (h : s.run core pipe ≠ none) : chooseOne s core pipe = s := by
  unfold chooseOne
  split
  · rfl
  · rw [Option.ne_none_iff_isSome.1 h]; rfl

theorem chooseOne_sheet {h : Group} {s₁ : State} {e : Entry} (hg : s.grp? core = some g) (hr : s.run core pipe = none)
    (hm : mayIssue s core g = true) (hh : h = choosing s core g) (hs₁ : s₁ = s.setGrp core h)
    (hb : bestBy (entryScore h (s₁.agethr h.part)) (h.frontier.filter (eligible s₁ core h)) = some e)
    (hs : sheetOf s₁ core h e ≠ []) : chooseOne s core pipe =
      (s₁.setGrp core ((parkLanes s₁ core h e).chosen e.idx s.now)).setRun core pipe (some ⟨sheetOf s₁ core h e, []⟩) := by
  unfold choosing at hh
  subst hh hs₁
  unfold chooseOne
  simp only [hg, hr, hm, hb, Option.isSome_none, Bool.not_true, Bool.or_self, Bool.false_eq_true, if_false,
    List.isEmpty_eq_false_iff.2 hs, setGrp_now]
  rfl

/-- A pipe without a run chooses by itself: pipe 0 first, where it has none either (R129). -/
theorem choose_one (hg : s.grp? core = some g) (hm : mayIssue s core g = true) (hr : s.run core pipe = none)
    (hp : pipe = 0 ∨ pipe = 1 ∧ s.run core 0 ≠ none) :
    choose s core pipe = chooseOne (s.passTo ((s.core core).freeAt pipe)) core pipe := by
  unfold choose
  simp only [hg, hr, hm, Option.isSome_none, Bool.not_true, Bool.or_self, Bool.false_eq_true, if_false]
  rcases hp with rfl | ⟨rfl, h0⟩
  · rfl
  · rw [chooseOne_running (core := core) (pipe := 0) (by rwa [run_passTo])]
    simp

theorem exec_pipeChoose (hp : pipe < 2) : exec (.pipeChoose core pipe) s = .next (choose s core pipe) :=
  congrArg Host.Outcome.next (if_pos hp)

/-- What the choice of a sheet leaves and changes (R126, R129, R130). -/
theorem chooseOne_comes {i : Instr} {s₀ s₁ : State} {h : Group} {e : Entry}
    (he : exec i s = .next (chooseOne s₀ core pipe)) (hmem : s₀.mem = s.mem) (hg : s₀.grp? core = some g)
    (hr : s₀.run core pipe = none) (hm : mayIssue s₀ core g = true) (hh : h = choosing s₀ core g)
    (hs₁ : s₁ = s₀.setGrp core h)
    (hb : bestBy (entryScore h (s₁.agethr h.part)) (h.frontier.filter (eligible s₁ core h)) = some e)
    (hs : sheetOf s₁ core h e ≠ []) :
    Comes i s fun t => t.run core pipe = some ⟨sheetOf s₁ core h e, []⟩ ∧ t.mem = s.mem ∧ GroupIs t core fun g' =>
      (∀ u, (g'.thread u).w = (g.thread u).w) ∧ ∀ x ∈ g'.frontier, x.idx = e.idx → x.age = 0 ∧ x.chose = s₀.now + 1 := by
  rw [chooseOne_sheet hg hr hm hh hs₁ hb hs] at he
  refine ⟨_, he, run_setRun_self .., ?_, _, (grp?_setRun ..).trans (grp?_setGrp ..), fun u => ?_,
    fun x hx hi => mem_chosen_frontier hx hi⟩
  · rw [setRun_mem, setGrp_mem, hs₁, setGrp_mem, hmem]
  · have hw := choosing_w s₀ core g u
    rw [← hh] at hw
    have hth : ((parkLanes s₁ core h e).chosen e.idx s₀.now).threads = h.threads := parkLanes_threads s₁ core h e
    unfold Group.thread at hw ⊢
    rw [hth, hw]

end choose

/-! ## What words enter in the latches (R99, R134) -/

/-- What the threads of a sheet enter in a latch: of each that executes the word its result, of the others what register
`d` held. -/
def entered (x : Ctx) (f : Rd → Put) (d : Nat) : List W32 :=
  x.r.tids.map fun t => if t ∈ x.on then (f (x.rd t)).latch else (x.g.thread t).r d

theorem perThread_enter (f : Rd → Put) (x : Ctx) :
    (regEff x (x.on.map fun t => (t, f (x.rd t)))).enter = x.info.enters.map (entered x f) := by
  unfold regEff entered
  refine congrArg (x.info.enters.map ·) (funext fun d => List.map_congr_left fun t _ => ?_)
  rw [putOf, alFind_map_mem fun t => f (x.rd t)]
  by_cases h : t ∈ x.on
  · rw [if_pos h, if_pos h]
  · rw [if_neg h, if_neg h]

theorem perThread_enters {i : Instr} {f : Rd → Put} {y : Bool} {d : Nat} {v : Rd → W32}
    (hex : ∀ s, exec i s = .next (issue i (perThread f) s))
    (hinfo : ∀ w, infoOf i = some w → w.y = y ∧ w.enters = some d) (hv : ∀ r, (f r).latch = v r) :
    Enters i y d fun _ => v := by
  intro s x hx hy
  obtain ⟨hwy, hwd⟩ := hinfo _ (issued_of hx).info
  obtain ⟨t, he, hrun⟩ := perThread_run hex hx (hwy.trans hy)
  rw [perThread_enter, hwd] at hrun
  refine ⟨t, entered x f d, he, hrun, fun k u hk => ?_⟩
  rw [entered, List.getElem?_map, hk, Option.map_some, hv]

theorem perThread_entersNothing {i : Instr} {f : Rd → Put} {y : Bool}
    (hex : ∀ s, exec i s = .next (issue i (perThread f) s))
    (hinfo : ∀ w, infoOf i = some w → w.y = y ∧ w.enters = none) : EntersNothing i y := by
  intro s x hx hy
  obtain ⟨hwy, hwd⟩ := hinfo _ (issued_of hx).info
  obtain ⟨t, he, hrun⟩ := perThread_run hex hx (hwy.trans hy)
  rw [perThread_enter, hwd] at hrun
  exact ⟨t, he, hrun⟩

/-! ### The values -/

theorem clampInt_eq {x lo hi : Int} (h : lo ≤ hi) : clampInt x lo hi = min (max x lo) hi := by
  unfold clampInt
  split
  · omega
  · split <;> omega

theorem narrow_eq_fit (ty : ITy) (sat : Bool) (x : Int) : narrow ty sat x = fit ty sat x := by
  have hlo : iLo ty = lo ty := by cases ty <;> decide
  have hhi : iHi ty = hi ty := by cases ty <;> decide
  have hle : lo ty ≤ hi ty := by cases ty <;> decide
  unfold narrow fit
  rw [hlo, hhi, clampInt_eq hle]

theorem satBits_eq_saturated (t : FTy) (sat : Bool) (v : Nat) : satBits t sat v = saturated t sat v := by
  unfold satBits saturated
  split
  · split <;> simp [*]
  · rfl

theorem cvtVal_eq_converted (dst src : ATy) (rnd : Rnd) (sat : Bool) (y : Rd) (a : Sel) :
    cvtVal dst src rnd sat y a = converted dst src rnd sat y a := by
  cases src <;> cases dst <;> simp only [cvtVal, converted, narrow_eq_fit, satF, satBits_eq_saturated]

theorem bits_ofNat_low (v : Nat) : bits (BitVec.ofNat 64 v) 0 32 = BitVec.ofNat 32 v := by
  apply BitVec.eq_of_toNat_eq
  simp [bits]

theorem ofNat_shl (a : W32) {k : Nat} (hk : k < 32) : BitVec.ofNat 32 (shiftVal .shl 32 a.toNat k) = a <<< k := by
  apply BitVec.eq_of_toNat_eq
  simp [shiftVal, hk, Nat.shiftLeft_eq]

theorem ofNat_shr (a : W32) {k : Nat} (hk : k < 32) : BitVec.ofNat 32 (shiftVal .shr 32 a.toNat k) = a >>> k := by
  apply BitVec.eq_of_toNat_eq
  have := Nat.div_le_self a.toNat (2 ^ k)
  simp only [shiftVal, hk, if_true, BitVec.toNat_ofNat, BitVec.toNat_ushiftRight, Nat.shiftRight_eq_div_pow]
  exact Nat.mod_eq_of_lt (by omega)

theorem ofNat_sar (a : W32) {k : Nat} (hk : k < 32) :
    BitVec.ofNat 32 (shiftVal .sar 32 a.toNat k) = a.sshiftRight k := by
  have hmsb : a.msb = a.toNat.testBit 31 := by simp [BitVec.msb_eq_getLsbD_last, BitVec.getLsbD]
  cases h : a.toNat.testBit 31
  · rw [BitVec.sshiftRight_eq_of_msb_false (hmsb.trans h), ← ofNat_shr a hk]
    simp [shiftVal, h]
  · rw [BitVec.sshiftRight_eq_of_msb_true (hmsb.trans h)]
    apply BitVec.eq_of_toNat_eq
    have hpow : 2 ^ k * 2 ^ (32 - k) = 2 ^ 32 := by rw [← Nat.pow_add]; congr 1; omega
    have hdiv := Nat.mul_sub_div (x := a.toNat) (n := 2 ^ k) (p := 2 ^ (32 - k)) (by rw [hpow]; exact a.isLt)
    have hlt : a.toNat / 2 ^ k < 2 ^ (32 - k) := Nat.div_lt_of_lt_mul (by rw [hpow]; exact a.isLt)
    have hle : 2 ^ (32 - k) ≤ 2 ^ 32 := Nat.pow_le_pow_right (by decide) (by omega)
    rw [hpow] at hdiv
    simp only [shiftVal, h, hk, if_true, BitVec.toNat_ofNat, BitVec.toNat_not, BitVec.toNat_ushiftRight,
      Nat.shiftRight_eq_div_pow, Nat.sub_sub, Nat.add_comm 1, hdiv]
    generalize a.toNat / 2 ^ k = q at hlt ⊢
    generalize 2 ^ (32 - k) = r at hlt hle ⊢
    omega

theorem ofInt_intMin (a b : W32) : BitVec.ofInt 32 (intMin a.toInt b.toInt) = if b.slt a then b else a := by
  unfold intMin
  rw [BitVec.slt_eq_decide]
  by_cases h : b.toInt < a.toInt
  · rw [if_neg (by omega), decide_eq_true h, if_pos rfl, BitVec.ofInt_toInt]
  · rw [decide_eq_false h, if_neg Bool.false_ne_true]
    split
    · exact BitVec.ofInt_toInt
    · rw [show b.toInt = a.toInt by omega]; exact BitVec.ofInt_toInt

theorem ofInt_intMax (a b : W32) : BitVec.ofInt 32 (intMax a.toInt b.toInt) = if a.slt b then b else a := by
  unfold intMax
  rw [BitVec.slt_eq_decide]
  by_cases h : a.toInt < b.toInt <;> simp [h]

/-- What half X of a pair word enters is the result that R109 and R158 give it. -/
theorem halfPut_latch (y : Rd) {a : Half} (h : a.dest ≠ none) : (halfPut y a).latch = (half y a).1 := by
  cases a with
  | nop => exact absurd rfl h
  | shli d s n => exact ofNat_shl (y.s32 s) n.isLt
  | shri d s n => exact ofNat_shr (y.s32 s) n.isLt
  | sari d s n => exact ofNat_sar (y.s32 s) n.isLt
  | imin d s => exact ofInt_intMin (y.s32 (.w d)) (y.s32 s)
  | imax d s => exact ofInt_intMax (y.s32 (.w d)) (y.s32 s)
  | _ => rfl

/-! ## O32 -/

/-- Settles O32: a landing writes the registers that its result still names; a choice takes the best of the eligible entries;
a latch holds what the word of its place entered. -/
theorem issueEvents : Obligations.IssueEvents := by
  unfold Obligations.IssueEvents
  refine ⟨?land, ?refill, ⟨?choose, ?best, ?lanes⟩, ⟨?iadd, ?fadd, ?cvt, ?pair, ?pairNop, ?imul⟩, ?latch⟩
  case land =>
    intro core id s g p v hg hp hv huse ha hl hn ht hw
    obtain rfl := find?_pend_id hp
    have he := exec_resultLanding_ready hg hp hv ha
    have hthread := thread_modThread_self g (landRegs p.dsts v) ht
    rw [landResult, huse] at he
    refine ⟨_, _, he, grp?_setGrp .., fun k n hk => ?_, fun n hnd => ?_, fun u hu => ?_, ?_, ?_, dropPend_gone,
      onlyGroup_setGrp ..⟩
    · exact (landRegs_r_self hl hn hw hk).trans (congrArg (fun t : Thread => some (t.r n)) hthread.symm)
    · exact (congrArg (fun t : Thread => t.r n) hthread).trans (landRegs_r_ne v _ hnd)
    · exact thread_modThread_ne g _ hu
    · exact (congrArg Thread.p hthread).trans (landRegs_keeps ..).1
    · exact (congrArg Thread.pc hthread).trans (landRegs_keeps ..).2
  case refill =>
    intro core id s g p lo hi hg hp hv huse ha ht
    obtain rfl := find?_pend_id hp
    have he := exec_resultLanding_ready hg hp hv ha
    rw [landResult, huse] at he
    refine ⟨_, he, onlyGroup_setGrp .., _, grp?_setGrp .., ?_, ?_, ?_, fun u => ?_, dropPend_gone⟩
    · exact congrArg Thread.ret (thread_modThread_self g _ ht)
    · exact congrArg Thread.spilln (thread_modThread_self g _ ht)
    · exact congrArg Thread.undo (thread_modThread_self g _ ht)
    · refine modThread_w g p.tid ?_ u
      exact fun _ => rfl
  case choose =>
    intro core pipe s g0 g e hg0 hm0 hrun hpipe s0 hg hm h s1 hb hs
    have he := (exec_pipeChoose (by omega)).trans (congrArg Host.Outcome.next (choose_one hg0 hm0 hrun hpipe))
    exact chooseOne_comes he (passTo_mem ..) hg ((run_passTo ..).trans hrun) hm rfl rfl hb hs
  case best => exact fun _ _ _ h => bestBy_spec h
  case lanes => exact fun l => ⟨pickLanes_lanes_nodup l, pickLanes_length l, fun _ => mem_of_mem_pickLanes⟩
  case iadd =>
    refine fun o => perThread_enters (fun _ => rfl) (fun w hw => ?_) fun r => ?_
    · cases hw; exact ⟨rfl, rfl⟩
    · exact congrArg (bits · 0 32) (narrow_eq_fit ..)
  case fadd =>
    refine fun o => perThread_enters (fun _ => rfl) (fun w hw => ?_) fun r => ?_
    · cases hw; exact ⟨rfl, rfl⟩
    · rw [← satBits_eq_saturated]
      exact bits_ofNat_low _
  case cvt =>
    refine fun h d dst src rnd sat a => perThread_enters (fun _ => rfl) (fun w hw => ?_) fun r => ?_
    · cases hw; exact ⟨rfl, rfl⟩
    · exact congrArg (fun c : W64 × Flags => bits c.1 0 32) (cvtVal_eq_converted ..)
  case pair =>
    refine fun y a b d ha => perThread_enters (fun _ => rfl) (fun w hw => ?_) fun r => ?_
    · cases hw; exact ⟨rfl, congrArg (Option.map _) ha⟩
    · exact halfPut_latch r (by simp [ha])
  case pairNop =>
    refine fun y a b ha => perThread_entersNothing (fun _ => rfl) fun w hw => ?_
    cases hw; exact ⟨rfl, congrArg (Option.map _) ha⟩
  case imul =>
    refine fun o => perThread_entersNothing (fun _ => rfl) fun w hw => ?_
    cases hw; exact ⟨rfl, rfl⟩
  case latch =>
    exact fun r k t => ⟨latchRead_empty t, fun vs i h hn ht => latchRead_entered h hn ht⟩

end Sys2Proof.Machine
end

section
/-! SUPPORT. The floating-point words (R173 to R197): what rounding does to a magnitude (R178), NaN operands (R174, R180),
flags that land in FPX (R182), and the results of the words but QPACK. -/

namespace Sys2Proof.Machine
open Claims

/-! ## Rounding (R178) -/

theorem cutRound_of_le (r : Rnd) (neg : Bool) (m : Nat) {e q : Int} (h : q ≤ e) :
    cutRound r neg m e q false = (m * 2 ^ (e - q).toNat, true) := by
  simp [cutRound, h, Nat.shiftLeft_eq]

/-- Below the unit the multiple kept is the quotient, or the next where the mode rounds up. -/
theorem cutRound_of_lt (r : Rnd) (neg : Bool) (m : Nat) {e q : Int} (h : e < q) :
    cutRound r neg m e q false =
      (m / 2 ^ (q - e).toNat +
        (roundUp r neg (m / 2 ^ (q - e).toNat) (m % 2 ^ (q - e).toNat) (q - e).toNat false).toNat,
        m % 2 ^ (q - e).toNat == 0) := by
  simp only [cutRound, show ¬ q ≤ e by omega, if_false, Nat.shiftRight_eq_div_pow, Bool.not_false, Bool.and_true]
  cases roundUp r neg (m / 2 ^ (q - e).toNat) (m % 2 ^ (q - e).toNat) (q - e).toNat false <;> rfl

theorem roundUp_rn (neg : Bool) (n rem k : Nat) :
    roundUp .rn neg n rem (k + 1) false = true ↔ 2 ^ k < rem ∨ rem = 2 ^ k ∧ n % 2 = 1 := by
  simp [roundUp]

/-- Away from zero is RU for a positive value and RD for a negative one. -/
theorem roundUp_away {r : Rnd} {neg : Bool} (h : r = .ru ∧ neg = false ∨ r = .rd ∧ neg = true) (n rem s : Nat) :
    roundUp r neg n rem s false = true ↔ rem ≠ 0 := by
  rcases h with ⟨rfl, rfl⟩ | ⟨rfl, rfl⟩ <;> simp [roundUp]

/-- Nothing is rounded up where nothing is left over. -/
theorem roundUp_imp_ne_zero {r : Rnd} {neg : Bool} {n rem s : Nat} (h : roundUp r neg n rem s false = true) : rem ≠ 0 := by
  rintro rfl
  revert h
  cases r with
  | rn => cases s <;> simp [roundUp, Nat.ne_of_lt (Nat.two_pow_pos _)]
  | _ => simp [roundUp]

theorem toNat_of_iff {b : Bool} {p : Prop} (h : b = true ↔ p) : b.toNat = 1 ∧ p ∨ b.toNat = 0 ∧ ¬ p := by
  cases b
  · exact .inr ⟨rfl, fun hp => Bool.false_ne_true (h.2 hp)⟩
  · exact .inl ⟨rfl, h.1 rfl⟩

/-! A value of `n` units `u` and `rem` left over, cut to `n` units or, where `c` is 1, to the next multiple. -/

section unit
variable {m n rem u c : Nat} (hm : u * n + rem = m) (hr : rem < u)
include hm hr

theorem cut_exact_iff (hc : c = 1 ∧ rem ≠ 0 ∨ c = 0) : rem = 0 ↔ (n + c) * u = m := by
  rw [Nat.add_mul, Nat.mul_comm n]
  rcases hc with ⟨rfl, h⟩ | rfl <;> omega

theorem cut_nearest_even {k : Nat} (hu : u = 2 * k)
    (hc : c = 1 ∧ (k < rem ∨ rem = k ∧ n % 2 = 1) ∨ c = 0 ∧ ¬ (k < rem ∨ rem = k ∧ n % 2 = 1)) :
    2 * (n + c) * u ≤ 2 * m + u ∧ 2 * m ≤ 2 * (n + c) * u + u ∧
      (2 * (n + c) * u = 2 * m + u ∨ 2 * m = 2 * (n + c) * u + u → (n + c) % 2 = 0) := by
  rw [Nat.mul_assoc 2, Nat.add_mul, Nat.mul_comm n]
  rcases hc with ⟨rfl, h⟩ | ⟨rfl, h⟩ <;> omega

theorem cut_down : n * u ≤ m ∧ m < (n + 1) * u := by
  rw [Nat.add_mul, Nat.mul_comm n]
  omega

theorem cut_away (hc : c = 1 ∧ rem ≠ 0 ∨ c = 0 ∧ ¬ rem ≠ 0) : m ≤ (n + c) * u ∧ (n + c) * u < m + u := by
  rw [Nat.add_mul, Nat.mul_comm n]
  rcases hc with ⟨rfl, h⟩ | ⟨rfl, h⟩ <;> omega

end unit

/-! ## O12 -/

/-- Settles O12: both operations look for a NaN first; a magnitude cut to multiples of a unit is its quotient by the unit or
the next multiple, as its remainder and the mode say. -/
theorem rounding : Obligations.Rounding := by
  unfold Obligations.Rounding
  refine ⟨?nan, fun r neg m e q h => cutRound_of_le r neg m h, ?cut⟩
  case nan => exact fun t r a b h => ⟨if_pos h, if_pos h⟩
  case cut =>
    intro r neg m e q h
    have hm := Nat.div_add_mod m (2 ^ (q - e).toNat)
    have hr := Nat.mod_lt m (Nat.two_pow_pos (q - e).toNat)
    simp only [cutRound_of_lt r neg m h, beq_iff_eq]
    refine ⟨cut_exact_iff hm hr ?exact, ?rn, ?rz, ?ru, ?rd⟩
    case exact => exact (toNat_of_iff Iff.rfl).imp (.imp_right roundUp_imp_ne_zero) And.left
    case rn =>
      rintro rfl
      obtain ⟨k, hk⟩ : ∃ k, (q - e).toNat = k + 1 := ⟨(q - e).toNat - 1, by omega⟩
      rw [hk] at hm hr ⊢
      exact cut_nearest_even hm hr (Nat.pow_succ' ..) (toNat_of_iff (roundUp_rn ..))
    case rz =>
      rintro rfl
      exact cut_down hm hr
    case ru => exact fun hru hn => cut_away hm hr (toNat_of_iff (roundUp_away (.inl ⟨hru, hn⟩) ..))
    case rd => exact fun hrd hn => cut_away hm hr (toNat_of_iff (roundUp_away (.inr ⟨hrd, hn⟩) ..))

/-! ## O9 -/

/-- A word of R183 whose threads act each on their own gives its 32-bit float result with its flags. -/
theorem putF_gives {i : Instr} {h : Hdr} {d : BitVec 8} {v : Rd → Nat} {fl : Rd → Flags} {ss : List (Sel × Nat)}
    {lt : Bool} {lat : Nat}
    (hex : ∀ s, exec i s = .next (issue i (perThread fun x => putF h d (v x) (fl x)) s))
    (hi : infoOf i = some (infoVal h d 1 ss lt lat)) :
    Gives i h d false (fun _ y => BitVec.ofNat 64 (v y)) (fun _ => fl) := by
  refine perThread_gives hex fun w hw => ?_
  rw [hi, Option.some.injEq] at hw
  exact hw ▸ infoVal_topW h d false ss lt lat

/-- Settles O9: the words round the exact result once, and their SAT is that of R179. -/
theorem floatArithmetic : Obligations.FloatArithmetic := by
  unfold Obligations.FloatArithmetic
  simp only [← satBits_eq_saturated]
  exact ⟨fun _ => putF_gives (fun _ => rfl) rfl, fun _ => putF_gives (fun _ => rfl) rfl,
    fun _ => putF_gives (fun _ => rfl) rfl⟩

/-! ## Flags that land (R182) -/

theorem getLsbD_foldl_due (l : List (Nat × Flags)) (now : Nat) (f : Flags) (i : Nat) :
    (l.foldl (fun f (c, x) => if c ≤ now then f ||| x else f) f).getLsbD i = true ↔
      f.getLsbD i = true ∨ ∃ e ∈ l, e.1 ≤ now ∧ e.2.getLsbD i = true := by
  induction l generalizing f with
  | nil => simp
  | cons e l ih =>
    rw [List.foldl_cons, ih]
    by_cases h : e.1 ≤ now
    · simp [h, or_assoc]
    · simp [h]

theorem twoSum_flags (a b : Nat) : (twoSum a b).2 = (fAdd .f32 .rn a b).2 := by
  unfold twoSum
  simp only
  split <;> rfl

/-! ## O10 -/

/-- Settles O10: each word puts the value and the flags of its function; a landing adds the flags that are due, and those of
the cycle itself stay listed. -/
theorem floatOthers : Obligations.FloatOthers := by
  unfold Obligations.FloatOthers
  refine ⟨?minmax, ?cmp, ?unary, ?classes, ?spec, ?twosum, ?fpx, ?listed⟩
  case minmax => exact fun h op d ty a b => putF_gives (fun _ => rfl) rfl
  case cmp => exact fun h op d ty a b => perThread_givesPred fun _ => rfl
  case unary => exact fun h op d ty rnd a => putF_gives (fun _ => rfl) rfl
  case classes => exact fun h d ty a => putF_gives (fun _ => rfl) rfl
  case spec => exact fun h op d ty a => putF_gives (fun _ => rfl) rfl
  case twosum =>
    intro h d a b
    simp only [← twoSum_flags]
    refine perThread_gives (fun _ => rfl) fun w hw => ?_
    cases hw
    exact infoVal_topW h d true ..
  case fpx => exact fun g now i _ => getLsbD_foldl_due g.fpxLand now g.fpx i
  case listed => exact fun g now f => by simp [landFlags]

/-! ## Packed words and QUNPACK (R192, R197) -/

theorem bits_toNat {w : Nat} (v : BitVec w) (lo n : Nat) : (bits v lo n).toNat = v.toNat / 2 ^ lo % 2 ^ n := by
  rw [bits, BitVec.extractLsb'_toNat, Nat.shiftRight_eq_div_pow]

theorem bits_low_toNat {w : Nat} (v : BitVec w) (n : Nat) : (bits v 0 n).toNat = v.toNat % 2 ^ n := by
  rw [bits_toNat, Nat.pow_zero, Nat.div_one]

/-- QUNPACK multiplies the scale by the element less the zero point, both of them exact in F32. -/
theorem qunpackVal_eq (q4 zp0 : Bool) (y : Rd) (a b c : Sel) :
    qunpackVal q4 zp0 (y.s32 a) (y.s32 b) (y.s32 c) =
      let s := cvtFloat .f16 .f32 .rn (bits (y.s32 b) 0 16).toNat
      let r := fMul .f32 .rn s.1 (roundInt .f32 .rn (qInt q4 zp0 y a b c) 0 false).1
      (r.1, s.2 ||| r.2) := by
  simp only [qunpackVal, qInt, bits_low_toNat, Nat.reducePow]

/-! ## Words that give each thread registers alone -/

theorem put_of_mem {f : Nat → Put} {l : List Nat} {u : Nat} {p : Put} (h : (u, p) ∈ l.map fun t => (t, f t)) :
    p = f u := by
  obtain ⟨t, -, he⟩ := List.mem_map.1 h
  cases he
  rfl

/-- A word that writes the registers `regs` of each thread that executes it: its frame, its flags, and that every register it
names is there to be written. -/
theorem puts_frame {i : Instr} {s : State} {x : Ctx} (hx : issueAt i s = some x) (f : Nat → Put) {regs : List Nat}
    (hregs : ∀ u, (f u).ws.map (·.1) = regs) (hp : ∀ u, (f u).p = none) :
    ∃ g, (finish x [] (regEff x (x.on.map fun u => (u, f u)))).grp? x.core = some g ∧
      RegFrame x (finish x [] (regEff x (x.on.map fun u => (u, f u)))) g regs [] ∧
      g.fpxLand = (addFlags x.g (x.s.now + x.info.lat) ((x.on.map fun u => (f u).fl).foldl (· ||| ·) 0)).fpxLand ∧
      ∀ u ∈ x.on, x.info.top ≤ (x.g.thread u).w.length ∧
        ∀ n, (g.thread u).r n = ((x.g.thread u).put (x.s.now + x.info.lat) (f u)).r n := by
  have hi := issued_of hx
  obtain ⟨g, hgrp, hframe, hland, hput⟩ := regEff_frame hx (x.on.map fun u => (u, f u))
    (by rw [List.map_map]; exact List.map_id' x.on) regs []
    (fun u p hm a ha => hregs u ▸ List.mem_map_of_mem (put_of_mem hm ▸ ha))
    (fun u p hm => .inl (put_of_mem hm ▸ hp u))
  refine ⟨g, hgrp, hframe, ?_, fun u hu => ⟨?_, fun n => ?_⟩⟩
  · rw [hland, foldl_fl, List.map_map]
    rfl
  · exact Nat.le_trans hi.regs (shaped_w hi.shaped (hi.here u (hi.on_sub u hu)))
  · obtain ⟨th, rfl, ht⟩ := hput u _ (List.mem_map_of_mem (f := fun u => (u, f u)) hu)
    rw [ht, after_r]

/-! ## Pair words (R108, R109, R158) -/

theorem halfPut_ws (y : Rd) (a : Half) : (halfPut y a).ws = a.dest.toList.map fun d => (d.toNat, (half y a).1) := by
  have hl : (halfPut y a).ws = a.dest.toList.map fun d => (d.toNat, (halfPut y a).latch) := by cases a <;> rfl
  by_cases h : a.dest = none
  · rw [hl, h]; rfl
  · rw [hl, halfPut_latch y h]

theorem halfPut_fl (y : Rd) (a : Half) : (halfPut y a).fl = (half y a).2 := by cases a <;> rfl

theorem putW_append (land : Nat) (l k : List (Nat × W32)) (t : Thread) :
    Thread.putW land (l ++ k) t = Thread.putW land k (Thread.putW land l t) := by
  induction l generalizing t with
  | nil => rfl
  | cons e l ih => exact ih _

/-- Half Z is written after half X, so that it stands where both name one register. -/
theorem pairPut_r (land : Nat) (y : Rd) (a b : Half) (t : Thread) {d : BitVec 8} (hd : d.toNat < t.w.length) :
    (b.dest = some d → (t.put land (pairPut a b y)).r d.toNat = (half y b).1) ∧
      (a.dest = some d → b.dest ≠ some d → (t.put land (pairPut a b y)).r d.toNat = (half y a).1) := by
  simp only [put_w, pairPut, putW_append, halfPut_ws]
  refine ⟨fun hb => ?_, fun ha hb => ?_⟩
  · rw [hb]
    exact putW_one _ _ _ _ (by rwa [(putW_fields ..).2.2.2])
  · rw [putW_ne, ha]
    · exact putW_one _ _ _ _ hd
    · rintro _ he hde
      obtain ⟨e, hm, rfl⟩ := List.mem_map.1 he
      exact hb (by rw [Option.mem_toList.1 hm, BitVec.eq_of_toNat_eq hde])

theorem pairPut_dests (y : Rd) (a b : Half) :
    (pairPut a b y).ws.map (·.1) = (a.dest.toList ++ b.dest.toList).map (·.toNat) := by
  simp [pairPut, halfPut_ws, Function.comp_def]

/-- A register that a half names lies below the top of its word (R41). -/
theorem pairWord_top {y : Bool} {a b : Half} {w : Info} (hw : infoOf (.pairWord y a b) = some w) {d : BitVec 8}
    (hd : a.dest = some d ∨ b.dest = some d) : d.toNat + 1 ≤ w.top := by
  cases hw
  refine top_le (List.mem_append_left _ ?_)
  rcases hd with hd | hd <;> simp [halfDsts, hd]

/-! ## O11 -/

/-- Settles O11: both halves of a packed word go through the scalar operation; a pair word's two results are those of the
operands before it, that of half Z written last. -/
theorem packedConvertedAndPairs : Obligations.PackedConvertedAndPairs := by
  unfold Obligations.PackedConvertedAndPairs
  simp only [← satBits_eq_saturated]
  refine ⟨⟨?add, ?mul, ?fma, ?cvt, ?unpack⟩, ?pair⟩
  case add => exact fun _ => putF_gives (fun _ => rfl) rfl
  case mul => exact fun _ => putF_gives (fun _ => rfl) rfl
  case fma => exact fun _ => putF_gives (fun _ => rfl) rfl
  case cvt =>
    intro h d dst src rnd sat a
    simp only [← cvtVal_eq_converted]
    refine perThread_gives (fun _ => rfl) fun w hw => ?_
    cases hw
    exact infoVal_topW ..
  case unpack =>
    intro h d q4 zp0 a b c
    refine putF_gives (fun s => ?_) rfl
    show execQunpack h d q4 zp0 a b c s = _
    simp only [execQunpack, qunpackVal_eq]
  case pair =>
    intro y a b s x hx
    obtain ⟨g, hgrp, hframe, hland, hput⟩ := puts_frame hx (fun u => pairPut a b (x.rd u))
      (fun _ => pairPut_dests ..) fun _ => rfl
    have hr : ∀ u ∈ x.on, ∀ d, a.dest = some d ∨ b.dest = some d →
        (b.dest = some d → (g.thread u).r d.toNat = (half (x.rd u) b).1) ∧
        (a.dest = some d → b.dest ≠ some d → (g.thread u).r d.toNat = (half (x.rd u) a).1) := by
      intro u hu d hd
      obtain ⟨hlen, hreg⟩ := hput u hu
      rw [hreg]
      exact pairPut_r _ _ _ _ _ (Nat.le_trans (pairWord_top (issued_of hx).info hd) hlen)
    refine ⟨_, g, congrArg Host.Outcome.next (issue_of hx _), hgrp, fun u hu d hb => (hr u hu d (.inr hb)).1 hb,
      fun u hu d ha hb => (hr u hu d (.inl ha)).2 ha hb, ?_, hframe⟩
    simp only [hland, pairPut, halfPut_fl]

end Sys2Proof.Machine
end

section
/-! SUPPORT. QPACK (R195, R196): the trap of every thread that executes a word, and the packing of a group. -/

namespace Sys2Proof.Machine
open Claims

/-! ## A word at which threads trap (R113, R233, R397) -/

/-- A thread for which a trap waits (R233). -/
def Thread.holdTrap (p : PTrap) (t : Thread) : Thread := { t with ptrap := some p }

/-- A thread in its handler, its region closed. -/
def Thread.enterTrap (tvec : W64) (p : PTrap) (t : Thread) : Thread :=
  Thread.trap { t with ptrap := none, rclosed := true } tvec p.cause p.val p.pc p.prio p.trec

/-- A thread that traps at once, its region complete (R233), and that has no trap to return from (R403). -/
structure MayTrap (g : Group) (t : Nat) : Prop where
  here : t < g.threads.length
  complete : g.complete t = true
  outside : (g.thread t).tm = false

section group
variable {g k : Group} {tvec v : W64} {t u : Nat} {pc : Va} {c : Nat}

/-- Whether a thread's region is complete rests on the region buffer, the results on their way and the thread's long
instruction. -/
theorem complete_congr (h : SameButThreads g k) (hl : (k.thread u).long = (g.thread u).long) :
    k.complete u = g.complete u := by
  unfold SameButThreads at h
  unfold Group.complete
  rw [hl, h]

theorem MayTrap.congr (hg : MayTrap g u) (h : SameButThreads g k) (hn : k.threads.length = g.threads.length)
    (hu : (k.thread u).long = (g.thread u).long ∧ (k.thread u).tm = (g.thread u).tm) : MayTrap k u :=
  ⟨hn ▸ hg.here, (complete_congr h hu.1).trans hg.complete, hu.2.trans hg.outside⟩

theorem modNth_modNth {α : Type} (f f' : α → α) (n : Nat) (l : List α) :
    modNth f' n (modNth f n l) = modNth (f' ∘ f) n l := by
  induction l generalizing n with
  | nil => cases n <;> rfl
  | cons a r ih =>
    cases n with
    | zero => rfl
    | succ n => exact congrArg (a :: ·) (ih n)

theorem modThread_modThread (f f' : Thread → Thread) : (g.modThread t f).modThread t f' = g.modThread t (f' ∘ f) :=
  congrArg (fun l => { g with threads := l }) (modNth_modNth f f' t g.threads)

theorem trapThread_of {q : BitVec 8} {rc : W64} (htm : (g.thread t).tm = false) (hv : bit tvec 0 = true) :
    g.trapThread tvec t c v pc q rc = g.modThread t fun x => x.trap tvec c v pc q rc := by
  simp [Group.trapThread, htm, hv]

theorem takeTrap_of {p : PTrap} (hp : (g.thread t).ptrap = some p) (h : MayTrap g t) (hv : bit tvec 0 = true) :
    g.takeTrap tvec t = g.modThread t (Thread.enterTrap tvec p) := by
  simp only [Group.takeTrap, hp, h.complete, if_true]
  rw [trapThread_of (by rw [thread_modThread_self _ _ h.here]; exact h.outside) hv, modThread_modThread]
  rfl

theorem fate_trap (h : MayTrap g t) (hv : bit tvec 0 = true) :
    g.fate tvec pc t (.trap c v) = g.modThread t (Thread.enterTrap tvec ⟨c, v, 0, pc, (g.thread t).prio⟩) := by
  have hself := thread_modThread_self g (Thread.holdTrap ⟨c, v, 0, pc, (g.thread t).prio⟩) h.here
  refine (takeTrap_of (congrArg Thread.ptrap hself) (h.congr rfl (modThread_length ..) ?_) hv).trans
    (modThread_modThread ..)
  exact hself ▸ ⟨rfl, rfl⟩

end group

section fates
variable {tvec v : W64} {pc : Va} {c : Nat} {f : Nat → Fate} {ts : List Nat}

/-- Threads that go on or trap change themselves alone, and each that traps is in its handler. -/
theorem foldl_fate_trap (hv : bit tvec 0 = true) (hn : ts.Nodup) {g : Group}
    (hf : ∀ t ∈ ts, f t = .next ∨ f t = .trap c v ∧ MayTrap g t) (u : Nat) :
    (u ∉ ts → (ts.foldl (fun g t => g.fate tvec pc t (f t)) g).thread u = g.thread u) ∧
    (u ∈ ts → f u = .trap c v → ∃ q, (ts.foldl (fun g t => g.fate tvec pc t (f t)) g).thread u =
      Thread.enterTrap tvec ⟨c, v, 0, pc, q⟩ (g.thread u)) := by
  induction ts generalizing g with
  | nil => exact ⟨fun _ => rfl, fun h => absurd h List.not_mem_nil⟩
  | cons t r ih =>
    obtain ⟨htr, hn⟩ := List.nodup_cons.1 hn
    obtain ⟨k, hk, hkt⟩ : ∃ k, g.fate tvec pc t (f t) = g.modThread t k ∧
        (f t = .trap c v → t < g.threads.length ∧ ∃ q, k = Thread.enterTrap tvec ⟨c, v, 0, pc, q⟩) := by
      rcases hf t List.mem_cons_self with h | ⟨h, hm⟩
      · exact ⟨_, by rw [h]; exact fate_next .., by simp [h]⟩
      · exact ⟨_, by rw [h]; exact fate_trap hm hv, fun _ => ⟨hm.here, _, rfl⟩⟩
    have hother : ∀ w, w ≠ t → (g.modThread t k).thread w = g.thread w := fun w hw => thread_modThread_ne g k hw
    obtain ⟨hout, hin⟩ := ih hn (g := g.modThread t k) fun w hw => by
      have hwt : w ≠ t := by rintro rfl; exact htr hw
      refine (hf w (List.mem_cons_of_mem _ hw)).imp_right fun ⟨h, hm⟩ => ⟨h, hm.congr rfl (modThread_length ..) ?_⟩
      exact hother w hwt ▸ ⟨rfl, rfl⟩
    rw [List.foldl_cons, hk]
    by_cases hut : u = t
    · subst hut
      refine ⟨fun h => absurd List.mem_cons_self h, fun _ hu => ?_⟩
      obtain ⟨hl, q, rfl⟩ := hkt hu
      exact ⟨q, (hout htr).trans (thread_modThread_self g _ hl)⟩
    · rw [← hother u hut]
      exact ⟨fun h => hout fun hr => h (List.mem_cons_of_mem _ hr), fun h => hin (List.mem_of_ne_of_mem hut h)⟩

end fates

theorem serveFates_trap (s : State) (core c : Nat) (v : W64) (on : List Nat) :
    serveFates s core (on.map fun t => (t, .trap c v)) = s := by
  unfold serveFates
  induction on with
  | nil => rfl
  | cons t r ih => exact ih

/-- The group after a word is that of its threads' fates, but for where they stand. -/
theorem finish_grp {x : Ctx} {e : Eff} {g : Group} (hi : e.iso = none)
    (hg : (serveFates e.s x.core e.fates).grp? x.core = some g) :
    ∃ g', (finish x [] e).grp? x.core = some g' ∧ SameButPlaces (x.r.tids.foldl
      (fun g' t => g'.fate ((serveFates e.s x.core e.fates).tvec g.part) x.pc t (fateOf e.fates t))
      (g.closeOwn x.info.cls x.r.tids)) g' := by
  unfold finish
  simp only [List.nil_append, hg, hi]
  split
  · obtain ⟨g', hsame, hgrp⟩ := endRun_grp x.pipe (some (fallPair x.g x.r x.pc)) (grp?_setGrp ..)
    exact ⟨g', hgrp, hsame⟩
  · exact ⟨_, by rw [grp?_setRun, grp?_setGrp], .refl _⟩

theorem closeOwn_thread (g : Group) (cls : RegionCls) (tids : List Nat) (u : Nat) :
    ((g.closeOwn cls tids).thread u).w = (g.thread u).w ∧ ((g.closeOwn cls tids).thread u).tm = (g.thread u).tm ∧
      ((g.closeOwn cls tids).thread u).long = (g.thread u).long := by
  unfold Group.closeOwn
  split
  · exact modThreads_keeps (fun a b => b.w = a.w ∧ b.tm = a.tm ∧ b.long = a.long) (fun _ => ⟨rfl, rfl, rfl⟩)
      (fun _ _ _ ⟨h1, h2, h3⟩ ⟨k1, k2, k3⟩ => ⟨k1.trans h1, k2.trans h2, k3.trans h3⟩) g tids
      (fun _ => Thread.closeRegion) (fun _ _ => ⟨rfl, rfl, rfl⟩) u
  · exact ⟨rfl, rfl, rfl⟩

theorem closeOwn_length (g : Group) (cls : RegionCls) (tids : List Nat) :
    (g.closeOwn cls tids).threads.length = g.threads.length := by
  unfold Group.closeOwn
  split
  · exact modThreads_length ..
  · rfl

theorem fateOf_map (f : Fate) (on : List Nat) (t : Nat) :
    fateOf (on.map fun t => (t, f)) t = if t ∈ on then f else .next := by
  rw [fateOf, alFind_map_mem fun _ => f]
  split <;> rfl

/-- Each thread that executes the word traps at it, with its registers as they were (R113, R397). -/
theorem finish_trap {i : Instr} {s : State} {x : Ctx} {c : Nat} {v : W64} (hx : issueAt i s = some x)
    (hon : ∀ u ∈ x.on, x.g.complete u = true ∧ (x.g.thread u).tm = false) (hv : bit (x.s.tvec x.g.part) 0 = true) :
    ∃ g, (finish x [] { s := x.s, fates := x.on.map fun t => (t, .trap c v) }).grp? x.core = some g ∧
      ∀ u ∈ x.on, (g.thread u).tm = true ∧ (g.thread u).tcause = BitVec.ofNat 64 c ∧ (g.thread u).tval = v ∧
        (g.thread u).w = (x.g.thread u).w := by
  have hi := issued_of hx
  have hs := serveFates_trap x.s x.core c v x.on
  obtain ⟨g, hgrp, hsame⟩ := finish_grp (e := { s := x.s, fates := x.on.map fun t => (t, .trap c v) }) rfl
    (by rw [hs]; exact hi.grp)
  refine ⟨g, hgrp, fun u hu => ?_⟩
  have hfate : ∀ t ∈ x.r.tids, fateOf (x.on.map fun t => (t, .trap c v)) t = .next ∨
      fateOf (x.on.map fun t => (t, .trap c v)) t = .trap c v ∧ MayTrap (x.g.closeOwn x.info.cls x.r.tids) t := by
    intro t ht
    rw [fateOf_map]
    by_cases hto : t ∈ x.on
    · obtain ⟨-, htm, hl⟩ := closeOwn_thread x.g x.info.cls x.r.tids t
      have hm : MayTrap x.g t := ⟨hi.here t ht, (hon t hto).1, (hon t hto).2⟩
      exact .inr ⟨if_pos hto, hm.congr (closeOwn_butThreads ..) (closeOwn_length ..) ⟨hl, htm⟩⟩
    · exact .inl (if_neg hto)
  obtain ⟨q, hq⟩ := (foldl_fate_trap (pc := x.pc) hv hi.nodup hfate u).2 (hi.on_sub u hu)
    ((fateOf_map ..).trans (if_pos hu))
  rw [hsame.thread_eq u]
  simp only [hs]
  rw [hq]
  exact ⟨rfl, rfl, rfl, (closeOwn_thread ..).1⟩

/-! ## A pair of registers for each thread -/

/-- What a 64-bit result with flags gives a thread. -/
def putPair (h : Hdr) (d : BitVec 8) (v : W64) (fl : Flags) : Put := { putVal h d true v with fl := fl }

theorem putPair_dests (h : Hdr) (d : BitVec 8) (v : W64) (fl : Flags) :
    (putPair h d v fl).ws.map (·.1) = dests h d true := by
  unfold putPair putVal dests
  cases h.nw <;> rfl

theorem putPair_r {h : Hdr} {d : BitVec 8} (land : Nat) (v : W64) (fl : Flags) {t : Thread} (hnw : h.nw = false)
    (hd : d.toNat + 2 ≤ t.w.length) : (t.put land (putPair h d v fl)).r d.toNat = bits v 0 32 ∧
      (t.put land (putPair h d v fl)).r (d.toNat + 1) = bits v 32 32 := by
  simp only [put_w, putPair, putVal, hnw, Bool.false_eq_true, if_false, if_true]
  exact putW_two _ _ _ _ _ hd

/-! ## Elements and their packing (R175, R196) -/

/-- Element k of a packed list stands at bit b × k. -/
theorem packElems_div_mod {b : Nat} {l : List Nat} (hl : ∀ q ∈ l, q < 2 ^ b) (k : Nat) :
    packElems b l / 2 ^ (b * k) % 2 ^ b = l.getD k 0 := by
  induction l generalizing k with
  | nil => simp [packElems]
  | cons q r ih =>
    obtain ⟨hq, hr⟩ := List.forall_mem_cons.1 hl
    cases k with
    | zero => simp [packElems, Nat.mod_eq_of_lt hq]
    | succ k =>
      rw [packElems, Nat.mul_succ, Nat.add_comm (b * k), Nat.pow_add, ← Nat.div_div_eq_div_mul,
        Nat.add_mul_div_left _ _ (Nat.two_pow_pos b), Nat.div_eq_of_lt hq, Nat.zero_add]
      exact ih hr k

theorem clampInt_toNat_le (x : Int) (m : Nat) : (clampInt x 0 m).toNat ≤ m := by
  rw [clampInt_eq (Int.natCast_nonneg m)]
  omega

theorem qScale_zero_le (qmax : Nat) (lo hi : Int) : (qScale qmax lo hi).2 ≤ qmax := by
  unfold qScale
  split
  · exact Nat.zero_le _
  · exact clampInt_toNat_le ..

theorem qElem_le {qmax z : Nat} (hz : z ≤ qmax) (s v : Nat) : qElem qmax s z v ≤ qmax := by
  unfold qElem
  split
  · split
    · exact hz
    · split
      · exact Nat.zero_le _
      · exact Nat.le_refl _
  · exact hz
  · split
    · exact hz
    · exact clampInt_toNat_le ..

theorem bits_ofNat_high (z : Nat) {w : Nat} (hw : w < 2 ^ 32) :
    bits (BitVec.ofNat 64 (z * 2 ^ 32 + w)) 32 32 = BitVec.ofNat 32 z := by
  apply BitVec.eq_of_toNat_eq
  simp only [bits_toNat, BitVec.toNat_ofNat, Nat.reducePow] at hw ⊢
  omega

/-- A field that lies within the low n bits. -/
theorem mod_div_mod_of_le {v p b n : Nat} (h : p + b ≤ n) : v % 2 ^ n / 2 ^ p % 2 ^ b = v / 2 ^ p % 2 ^ b := by
  refine Nat.eq_of_testBit_eq fun i => ?_
  by_cases hi : i < b
  · simp [Nat.testBit_mod_two_pow, ← Nat.shiftRight_eq_div_pow, hi, show p + i < n by omega]
  · simp [Nat.testBit_mod_two_pow, hi]

section group
variable (a : BitVec 8) (f : BitVec 3) (x : Ctx)

theorem qBits_cases : qBits x f = 4 ∨ qBits x f = 8 := by
  unfold qBits
  split
  · exact .inl rfl
  · exact .inr rfl

theorem qAt_lt (k : Nat) : qAt a f x k < 2 ^ qBits x f := by
  have hz : (qSZ a f x).2 ≤ 2 ^ qBits x f - 1 := qScale_zero_le ..
  have hp := Nat.two_pow_pos (qBits x f)
  unfold qAt
  split
  · have := qElem_le hz (qSZ a f x).1 ((x.g.thread ‹_›).r (a.toNat + k % qPer x f)).toNat
    omega
  · omega

/-- The group's elements, packed. -/
def qPacked : Nat := packElems (qBits x f) ((List.range (32 * qPer x f)).map (qAt a f x))

/-- The word of packed elements of a lane, where the group reaches it. -/
def qWord (l : Nat) : Nat := if l < qPer x f * qBits x f then (qPacked a f x >>> (32 * l)) % 2 ^ 32 else 0

/-- What QPACK gives a lane: its word, and the header above it. -/
def qGiven (l : Nat) : W64 := BitVec.ofNat 64 (((qSZ a f x).2 * 2 ^ 16 + (qSZ a f x).1) * 2 ^ 32 + qWord a f x l)

/-- The flags of QPACK (R196). -/
def qFlags : Flags := flagIf ((qAll a f x).any fun e => (fixed149 e).isNone) fNV

theorem qWord_lt (l : Nat) : qWord a f x l < 2 ^ 32 := by
  unfold qWord
  split
  · exact Nat.mod_lt _ (by decide)
  · decide

theorem qGiven_low (l : Nat) : bits (qGiven a f x l) 0 32 = BitVec.ofNat 32 (qWord a f x l) := by
  rw [qGiven, bits_ofNat_low]
  apply BitVec.eq_of_toNat_eq
  simp

theorem qGiven_high (l : Nat) :
    bits (qGiven a f x l) 32 32 = BitVec.ofNat 32 ((qSZ a f x).2 * 2 ^ 16 + (qSZ a f x).1) :=
  bits_ofNat_high _ (qWord_lt ..)

/-- Field i of a lane's word is element 32 ÷ b × l + i of the group. -/
theorem qGiven_elem {l i : Nat} (hl : l < qPer x f * qBits x f) (hi : i < 32 / qBits x f) :
    (bits (qGiven a f x l) (qBits x f * i) (qBits x f)).toNat = qAt a f x (32 / qBits x f * l + i) := by
  have hlow : (qGiven a f x l).toNat % 2 ^ 32 = (qPacked a f x / 2 ^ (32 * l)) % 2 ^ 32 := by
    have h := congrArg BitVec.toNat (qGiven_low a f x l)
    rw [bits_low_toNat, BitVec.toNat_ofNat, Nat.mod_eq_of_lt (qWord_lt ..), qWord, if_pos hl] at h
    exact h.trans (by rw [Nat.shiftRight_eq_div_pow])
  have hword : qBits x f * i + qBits x f ≤ 32 ∧ 32 * l + qBits x f * i = qBits x f * (32 / qBits x f * l + i) ∧
      32 / qBits x f * l + i < 32 * qPer x f := by
    rcases qBits_cases f x with hb | hb <;> rw [hb] at hl hi ⊢ <;> omega
  obtain ⟨hfit, hpos, hk⟩ := hword
  have hall : ∀ q ∈ (List.range (32 * qPer x f)).map (qAt a f x), q < 2 ^ qBits x f := by
    intro q hq
    obtain ⟨k, -, rfl⟩ := List.mem_map.1 hq
    exact qAt_lt ..
  rw [bits_toNat, ← mod_div_mod_of_le hfit, hlow, mod_div_mod_of_le hfit, Nat.div_div_eq_div_mul, ← Nat.pow_add, hpos,
    qPacked, packElems_div_mod hall]
  simp [List.getD, hk]

/-- The elements that a lane brings. -/
def qLane (t : Nat) : List Nat := (List.range (qPer x f)).map fun j => ((x.g.thread t).r (a.toNat + j)).toNat

/-- Element k of the group, found among lanes with their elements. -/
def qFound (lanes : List (Nat × List Nat)) (k : Nat) : Nat :=
  match lanes.find? fun l => l.1 % 32 == k / qPer x f with
  | some l => qElem (2 ^ qBits x f - 1) (qSZ a f x).1 (qSZ a f x).2 (l.2.getD (k % qPer x f) 0)
  | none => (qSZ a f x).2

theorem qFound_eq_qAt {k : Nat} (hk : k < 32 * qPer x f) :
    qFound a f x (x.on.map fun t => (t, qLane a f x t)) k = qAt a f x k := by
  have hmod : k % qPer x f < qPer x f := Nat.mod_lt _ (by omega)
  rw [qFound, qAt, List.find?_map]
  simp only [Function.comp_def]
  cases x.on.find? fun t => t % 32 == k / qPer x f with
  | none => rfl
  | some t => simp [qLane, List.getD, hmod]

/-- The results of QPACK in a slot of its formats (R196). -/
theorem qpackPuts_eq (h : Hdr) (d : BitVec 8) :
    qpackPuts h d (qSlot x f) (x.on.map fun t => (t, qLane a f x t)) =
    x.on.map fun u => (u, putPair h d (qGiven a f x (u % 32)) (qFlags a f x)) := by
  have hb : (if bits (qSlot x f) 0 8 == 6 then 4 else 8) = qBits x f := by simp [qBits]
  have hn : 2 ^ (bits (qSlot x f) 8 8).toNat / 32 = qPer x f := rfl
  have hall : (x.on.map fun t => (t, qLane a f x t)).flatMap (·.2) = qAll a f x := List.flatMap_map ..
  have hpacked : qPacked a f x = packElems (qBits x f)
      ((List.range (32 * qPer x f)).map (qFound a f x (x.on.map fun t => (t, qLane a f x t)))) :=
    congrArg _ (List.map_congr_left fun k hk => (qFound_eq_qAt a f x (List.mem_range.1 hk)).symm)
  unfold qpackPuts
  simp only [hb, hn, hall, qGiven, qWord, hpacked, List.map_map]
  rfl

end group

/-! ## QPACK as it issues (R195, R196) -/

/-- The check of the slot and the operand (R195). -/
theorem qpack_check (a : BitVec 8) (f : BitVec 3) (x : Ctx) :
    ((bits (qSlot x f) 0 8 != 5 && bits (qSlot x f) 0 8 != 6) || a.toNat % qPer x f != 0 ||
      decide (x.g.regs < a.toNat + qPer x f)) = true ↔ ¬ Claims.qOk a f x := by
  unfold Claims.qOk
  simp only [Bool.or_eq_true, Bool.and_eq_true, bne_iff_ne, decide_eq_true_eq, ← Nat.not_le, ne_eq,
    Classical.not_and_iff_not_or_not, not_or, or_assoc]

section eff
variable {h : Hdr} {d a : BitVec 8} {f : BitVec 3} {x : Ctx}

theorem qpackEff_of_ok (hok : Claims.qOk a f x) :
    qpackEff h d a f x = regEff x (x.on.map fun u => (u, putPair h d (qGiven a f x (u % 32)) (qFlags a f x))) := by
  rw [← qpackPuts_eq]
  exact if_neg fun hbad => (qpack_check a f x).1 hbad hok

theorem qpackEff_of_not_ok (hok : ¬ Claims.qOk a f x) :
    qpackEff h d a f x = { s := x.s, fates := x.on.map fun t => (t, .trap cIllegalOperand x.raw) } :=
  if_pos ((qpack_check a f x).2 hok)

theorem qpack_top {w : Info} (hw : infoOf (.qpack h d (.w a) f) = some w) : d.toNat + 2 ≤ w.top := by
  cases hw
  exact infoVal_topW h d true [(.w a, 1)] false 8

end eff

/-! ## O8 -/

/-- Settles O8: where the check of the slot passes, a lane is given its word of the packed elements below the header; where it
fails, each thread that executes the word traps. -/
theorem quantise : Obligations.Quantise := by
  unfold Obligations.Quantise
  refine ⟨fun h d a f => ⟨fun x y => qGiven a f x (y.t % 32), fun x y => ⟨?high, ?elems, ?none⟩, ?gives⟩, ?traps⟩
  case high => exact qGiven_high ..
  case elems => exact fun hl i hi => qGiven_elem a f x hl hi
  case none =>
    intro hl
    rw [qGiven_low, qWord, if_neg (by omega)]
    rfl
  case gives =>
    intro s x hx hok
    obtain ⟨g, hgrp, hframe, hland, hput⟩ := puts_frame hx
      (fun u => putPair h d (qGiven a f x (u % 32)) (qFlags a f x)) (fun _ => putPair_dests ..) fun _ => rfl
    refine ⟨_, g, congrArg Host.Outcome.next ((issue_of hx _).trans (congrArg (finish x []) (qpackEff_of_ok hok))), hgrp,
      fun u hu hnw => ?_, hland, hframe⟩
    obtain ⟨hlen, hreg⟩ := hput u hu
    obtain ⟨hlow, hhigh⟩ := putPair_r _ _ _ hnw (Nat.le_trans (qpack_top (issued_of hx).info) hlen)
    exact ⟨(hreg _).trans hlow, fun _ => (hreg _).trans hhigh⟩
  case traps =>
    intro h d a f s x hx hok hon hv
    obtain ⟨g, hgrp, hu⟩ := finish_trap (c := cIllegalOperand) (v := x.raw) hx hon hv
    exact ⟨_, g, congrArg Host.Outcome.next ((issue_of hx _).trans (congrArg (finish x []) (qpackEff_of_not_ok hok))),
      hgrp, hu⟩

end Sys2Proof.Machine
end
